-- ==== Sys2Proof/Word.lean ====
section
/-! DEFINITION. The plain data types the rest of the model is written in: bytes, register values, samples, text,
physical values, and the small closed sets of names the spec uses (00_scope.md R11, 10_state.md). -/

namespace Sys2Proof

/-- One byte on the bus (20_memory.md R65). -/
abbrev Byte := BitVec 8

/-- A register or field value; an 8-bit register uses the low half (10_state.md R22, R23). -/
abbrev Half := BitVec 16

/-- A virtual timestamp (00_scope.md R15). -/
abbrev Time := Nat

/-- A line of text or a name, as character codes (44_sample_fifo.md R249 names its characters by code). -/
abbrev Text := List Nat

/-- One sample: its raw 16-bit lanes, lane 0 first (10_state.md R40). -/
abbrev Sample := List Half

/-- A physical value, the rational `num / (den1 + 1)` (44_sample_fifo.md R260). -/
structure Ratio where
  num : Int
  den1 : Nat
deriving DecidableEq, Repr, Inhabited

/-- Transfer order of the two bytes of a 16-bit value (20_memory.md R61, 30_encoding.md R93). -/
inductive Endian where
  | msbFirst
  | lsbFirst
deriving DecidableEq, Repr, Inhabited

/-- The FIFO modes (10_state.md R44). -/
inductive FifoMode where
  | bypass
  | fifo
  | continuous
deriving DecidableEq, Repr, Inhabited

/-- The transaction states (10_state.md R30). -/
inductive TState where
  | idle
  | addressPartial
  | addressSet
  | writing
  | reading
deriving DecidableEq, Repr, Inhabited

/-- The three answers of the external stream (44_sample_fifo.md R254). -/
inductive StreamStatus where
  | ok
  | beforeStream
  | afterStream
deriving DecidableEq, Repr, Inhabited

/-- The agents that take steps (20_memory.md R71). -/
inductive Agent where
  | bus
  | feeder
  | host
deriving DecidableEq, Repr, Inhabited

/-- The `n` low bits set: the mask of an `n`-bit slice. -/
def lowMask (n : Nat) : Half := BitVec.ofNat 16 (2 ^ n - 1)

end Sys2Proof
end

