-- ==== Sys2Proof/Machine/Parts.lean ====
section
/-! DEFINITION. The component records of the state that a hook, the interrupt condition or a sample transform may read
(00_scope.md R13, 10_state.md R20): the field store, the transaction state and the sample FIFO. -/

namespace Sys2Proof.Machine

/-- The name of one field slot: register address and field index (10_state.md R26). -/
abbrev Slot := Nat × Nat

/-- The field store `FV` (10_state.md R26), sparse: an unlisted slot reads its reset value. Its canonical form is
`Memory.wf`: slots strictly rising, no entry equal to what the unlisted slot reads as. -/
abbrev Memory := List (Slot × Half)

/-- The transaction state (10_state.md R30 to R35). -/
structure Tx where
  /-- `TSTATE` (R30) -/
  tstate : TState
  /-- `CUR_ADDR` (R31), `ADDR_BITS` bits wide -/
  curAddr : BitVec 16
  /-- `ADDR_VALID` (R32) -/
  addrValid : Bool
  /-- `ADDR_CNT` (R33) -/
  addrCnt : Nat
  /-- `ADDR_ACC` (R33) -/
  addrAcc : Byte
  /-- `RW_LATCH` (R34) -/
  rwLatch : Bool
  /-- `MS_LATCH` (R34) -/
  msLatch : Bool
  /-- `BYTE_PHASE` (R35) -/
  bytePhase : Nat
deriving DecidableEq, Repr, Inhabited

/-- The transaction state a reset leaves (10_state.md R55). -/
def idleTx : Tx :=
  { tstate := .idle, curAddr := 0, addrValid := false, addrCnt := 0, addrAcc := 0,
    rwLatch := false, msLatch := false, bytePhase := 0 }

/-- The sample FIFO (10_state.md R41 to R46). -/
structure Fifo where
  /-- `Q`, oldest first (R41) -/
  q : List Sample
  /-- `CURRENT` (R42) -/
  current : Sample
  /-- `OVR` (R43) -/
  ovr : Bool
  /-- `MODE` (R44) -/
  mode : FifoMode
  /-- `KEEP` (R45) -/
  keep : Bool
  /-- `STREAM_ATTACHED` (R46) -/
  streamAttached : Bool
  /-- `AFTER_STREAM` (R46) -/
  afterStream : Bool
deriving DecidableEq, Repr, Inhabited

/-- What a configuration-supplied function may look at: the stored fields, the FIFO and the opaque model state (00_scope.md
R13). It holds no transaction state (92_eei_decisions.md D3) and no timestamp, which the bus primitives use for stream
queries alone (43_bus_transactions.md R191, R216). -/
structure View where
  fv : Memory
  fifo : Fifo
  user : List Int
deriving DecidableEq, Repr, Inhabited

end Sys2Proof.Machine
end

