-- ==== Sys2Proof/Config.lean ====
section
/-! DEFINITION. The configuration record CFG (00_scope.md R7) as plain data, the hooks it binds (R13, R14) as plain data,
the functions it leaves uninterpreted as opaque constants, and the spec's fixture REF-A (95_test_vectors.md section 1.1). -/

namespace Sys2Proof

open Machine (Memory Fifo View)

/-- Access mode of a field (10_state.md R23, R27). -/
inductive Access where
  | read
  | write
  | readWrite
  | readToClear
  | writeOneToClear
deriving DecidableEq, Repr, Inhabited

/-- Policy for an unknown raw value written to an Enum field (40_field_ops.md R130). -/
inductive EnumUnknown where
  | invalid
  | passThrough
deriving DecidableEq, Repr, Inhabited

/-- Semantic kind of a field (10_state.md R24). -/
inductive Kind where
  | flag
  | value
  | symbols (enumSet : List Half) (unknown : EnumUnknown)
deriving DecidableEq, Repr, Inhabited

/-- Expressions of hook programs, integer valued (log 4). `arg0` and `arg1` are the hook's arguments: the stored value of
a provider, the old and new value of a field callback, the byte index and byte of a register callback. `acc` is the
result of the last operation the program called, `hit` the flag that the last lenient access returned
(42_collection_ops.md R175, R176). `before x` is the value of `x` in the state in which the hook was called, so that a
provider can return what its own body then changes (40_field_ops.md R122). -/
inductive HookExpr where
  | lit (n : Int)
  | arg0
  | arg1
  | acc
  | hit
  | before (x : HookExpr)
  | field (a f : Nat)
  | user (i : Nat)
  | userLength
  | queued
  | lane (i : Nat)
  | modeIs (m : FifoMode)
  | overrun
  | kept
  | attached
  | afterStream
  | add (x y : HookExpr)
  | sub (x y : HookExpr)
  | mul (x y : HookExpr)
  | eq (x y : HookExpr)
  | lt (x y : HookExpr)
  | bit (x : HookExpr) (i : Nat)
deriving DecidableEq, Repr, Inhabited

/-- What one step of a hook may do (00_scope.md R13, 92_eei_decisions.md D3): write stored fields, the FIFO state and
`USER`; call the field and collection operations, the `FIFO.*` operations and `DEV.SOFTRESET`; report an invariant
violation. There is no step that touches the transaction state or calls a bus primitive. `USER` may be written entry by
entry, grown, cut to its first `n` entries, or replaced. -/
inductive HookAct where
  | setField (a f : Nat) (v : HookExpr)
  | setUser (i : Nat) (v : HookExpr)
  | pushUser (v : HookExpr)
  | replaceUser (entries : List HookExpr)
  | keepUser (n : HookExpr)
  | setCurrent (lanes : List HookExpr)
  | setQueue (samples : List Sample)
  | setOverrun (b : Bool)
  | setKeep (b : Bool)
  | setAttached (b : Bool)
  | setAfterStream (b : Bool)
  | feed (lanes : List HookExpr)
  | deq
  | fifoReset
  | clrOvr
  | setMode (m : FifoMode)
  | streamTick (t : HookExpr)
  | fldRead (a f : Nat)
  | fldWrite (a f : Nat) (v : HookExpr)
  | collRead (addr : Nat)
  | collWrite (addr : Nat) (v : HookExpr)
  | collTryRead (addr : Nat)
  | collTryWrite (addr : Nat) (v : HookExpr)
  | collReadOff (base o : Nat) (e : Endian)
  | collWriteOff (base o : Nat) (v : HookExpr) (e : Endian)
  | collReset
  | softReset
  | violation (what : Text)
deriving DecidableEq, Repr, Inhabited

/-- One guarded step of a hook program: it is taken when the guard is not 0. -/
structure HookStep where
  guard : HookExpr
  act : HookAct
deriving DecidableEq, Repr, Inhabited

/-- Value providers (44_sample_fifo.md R261): the standard library, a hook program with the expression it returns, an
uninterpreted provider, or an uninterpreted provider that changes nothing: its value is a function of the state alone. A
provider states by its form whether it changes the state (log 25). -/
inductive Provider where
  | pvSample (lane k : Nat) (deq : Bool)
  | pvFifoCount
  | pvOvr (clear : Bool)
  | program (steps : List HookStep) (ret : HookExpr)
  | custom (id : Nat)
  | customPure (id : Nat)
deriving DecidableEq, Repr, Inhabited

/-- Field write and change callbacks (44_sample_fifo.md R262). The table of `whFifoMode` is total: raw values past its
end select `rest`. -/
inductive FieldHook where
  | whSoftReset
  | whFifoMode (table : List FifoMode) (rest : FifoMode)
  | program (steps : List HookStep)
  | custom (id : Nat)
deriving DecidableEq, Repr, Inhabited

/-- Whole-register write callbacks (41_register_ops.md R152, 44_sample_fifo.md R262). -/
inductive RegHook where
  | whClrOvr (k0 i : Nat)
  | program (steps : List HookStep)
  | custom (id : Nat)
deriving DecidableEq, Repr, Inhabited

/-- A register field (10_state.md R23). A field is named by its index in its register (log 7). -/
structure FieldDef where
  off : Nat
  wid : Nat
  acc : Access
  kind : Kind := .value
  clearVal : Half := 0
  prov : Option Provider := none
  wcb : Option FieldHook := none
  ccb : Option FieldHook := none
deriving DecidableEq, Repr, Inhabited

/-- Register width (10_state.md R22): 8 or 16, no other width exists. -/
inductive Width where
  | w8
  | w16
deriving DecidableEq, Repr, Inhabited

/-- Register width in bits. -/
def Width.bits : Width → Nat
  | .w8 => 8
  | .w16 => 16

/-- Register width in bytes, the `nb` of 20_memory.md R62. -/
def Width.bytes : Width → Nat
  | .w8 => 1
  | .w16 => 2

/-- What reserved bits read as (41_register_ops.md R153). -/
inductive RsvdRead where
  | zero
  | resetDefault
deriving DecidableEq, Repr, Inhabited

/-- A register (10_state.md R22). -/
structure RegisterDef where
  addr : Nat
  width : Width
  rst : Half
  fields : List FieldDef
  tag : Half := 0
  rsvdRead : RsvdRead := .zero
  rwcb : Option RegHook := none
deriving DecidableEq, Repr, Inhabited

/-- Number of bytes of the address phase (30_encoding.md R91). -/
inductive AddrBytes where
  | one
  | two
deriving DecidableEq, Repr, Inhabited

/-- The number an `AddrBytes` stands for. -/
def AddrBytes.count : AddrBytes → Nat
  | .one => 1
  | .two => 2

/-- An address-phase format: `ADDR_BYTES`, `ADDR_MASK`, `RW_BIT`, `MS_BIT`, `ADDR_BITS` (30_encoding.md R92). -/
structure AddrFormat where
  bytes : AddrBytes
  mask : BitVec 16
  rwBit : Option Nat
  msBit : Option Nat
  bits : Nat
deriving DecidableEq, Repr, Inhabited

/-- Format PLAIN8 (30_encoding.md R92). -/
def plain8 : AddrFormat := { bytes := .one, mask := 0x00FF, rwBit := none, msBit := none, bits := 8 }

/-- Format RW7 (30_encoding.md R92). -/
def rw7 : AddrFormat := { bytes := .one, mask := 0x007F, rwBit := some 7, msBit := none, bits := 7 }

/-- Format RW7_MS6 (30_encoding.md R92). -/
def rw7ms6 : AddrFormat := { bytes := .one, mask := 0x003F, rwBit := some 7, msBit := some 6, bits := 6 }

/-- Format PLAIN16 (30_encoding.md R92). -/
def plain16 : AddrFormat := { bytes := .two, mask := 0xFFFF, rwBit := none, msBit := none, bits := 16 }

/-- What an access to an unmapped address logs (42_collection_ops.md R172). -/
inductive MissPolicy where
  | silent
  | logAndZero
deriving DecidableEq, Repr, Inhabited

/-- How the bus reaches the bytes of a 16-bit register (42_collection_ops.md R171). -/
inductive WideAccess where
  | subRegisters
  | offset
deriving DecidableEq, Repr, Inhabited

/-- What an unsuccessful dequeue on an empty enabled FIFO does to `CURRENT` (44_sample_fifo.md R240). -/
inductive EmptyPolicy where
  | keepCurrent
  | clearToDefault
deriving DecidableEq, Repr, Inhabited

/-- Fate of the samples before a malformed line (44_sample_fifo.md R250). -/
inductive LoadPartial where
  | discard
  | preserve
deriving DecidableEq, Repr, Inhabited

/-- When the stream is asked (44_sample_fifo.md R256). -/
inductive StreamPull where
  | onTick
  | onDequeue
deriving DecidableEq, Repr, Inhabited

/-- Precedence between stream and manual feeds; the one value the spec defines (44_sample_fifo.md R259, D36 OPEN). -/
inductive FeedPrecedence where
  | arrivalOrder
deriving DecidableEq, Repr, Inhabited

/-- The external stream (44_sample_fifo.md R254): a table of timestamped samples with an end, or the uninterpreted
oracle `Config.customStream`. -/
inductive StreamDef where
  | table (samples : List (Time × Sample)) (ends : Time)
  | custom (id : Nat)
deriving DecidableEq, Repr, Inhabited

/-- The transform of a lane value on its way to a register (44_sample_fifo.md R261). The identity is the spec's default; the
two shifts are the model's own forms (91_not_in_source.md N47; log 3). -/
inductive XForm where
  | identity
  | shiftLeft (n : Nat)
  | shiftRight (n : Nat)
  | custom (id : Nat)
deriving DecidableEq, Repr, Inhabited

/-- The interrupt condition: the library of 60_exceptions.md R282 closed under boolean combination, or an
uninterpreted condition. -/
inductive IrqCond where
  | never
  | overrun
  | nonEmpty
  | watermark (n : Nat)
  | field (a f : Nat)
  | inv (c : IrqCond)
  | both (c d : IrqCond)
  | either (c d : IrqCond)
  | custom (id : Nat)
deriving DecidableEq, Repr, Inhabited

/-- The configuration record (00_scope.md R7). -/
structure Cfg where
  map : List RegisterDef
  missPolicy : MissPolicy := .silent
  wideAccess : WideAccess := .subRegisters
  regEndian : Option Endian := none
  format : AddrFormat := plain8
  addrOrder : Endian := .msbFirst
  aiBase : Bool := true
  aiGateFlag : Option (Nat × Nat) := none
  aiRange : Option (Nat × Nat) := none
  aiHoldSet : List Nat := []
  aiWrap : Option (Nat × Nat) := none
  addrPreserve : Bool := false
  lanes : Nat
  cap : Nat
  dflt : Sample
  emptyPolicy : EmptyPolicy := .keepCurrent
  modeReset : FifoMode := .bypass
  loadPartial : LoadPartial := .discard
  stream : StreamDef := .custom 0
  streamPull : StreamPull := .onTick
  resolution : Ratio := ⟨1, 0⟩
  minPhys : Ratio := ⟨-32768, 0⟩
  maxPhys : Ratio := ⟨32767, 0⟩
  xform : XForm := .identity
  feedPrecedence : FeedPrecedence := .arrivalOrder
  userReset : List Int := []
  irqCond : IrqCond := .never
deriving DecidableEq, Repr, Inhabited

/-- The register of `MAP` at address `a` (10_state.md R21). -/
def Cfg.find (c : Cfg) (a : Nat) : Option RegisterDef := c.map.find? fun r => r.addr == a

/-- Field `f` of the register at `a`. -/
def Cfg.field (c : Cfg) (a f : Nat) : Option FieldDef := (c.find a).bind fun r => r.fields[f]?

/-- The number of bus addresses a register occupies (42_collection_ops.md R171). -/
def Cfg.span (c : Cfg) (r : RegisterDef) : Nat :=
  match c.wideAccess with
  | .subRegisters => r.width.bytes
  | .offset => 1

/-- The reset value of a field's slot: the bits `off+wid-1 .. off` of `RST` (10_state.md R26). A slot that does not exist
is given 0; only an interrupt condition or a hook expression can name one (log 41, DESIGN CHOICE). -/
def Cfg.slotReset (c : Cfg) (a f : Nat) : Half :=
  match c.find a with
  | none => 0
  | some r =>
    match r.fields[f]? with
    | none => 0
    | some d => (r.rst >>> d.off) &&& lowMask d.wid

/-! The uninterpreted parts of a configuration. They have no body: a statement that mentions one holds for every
function (00_scope.md R13, 44_sample_fifo.md R254, R261, 60_exceptions.md R281; log 3, log 4). -/

/-- What custom hook `id` does, given its two arguments and the state it may look at: the list of its steps. -/
opaque Config.customSteps : Nat → Half → Half → View → List HookStep

/-- What custom provider `id` returns, given the stored value, the state it was called in and the state its steps left
(40_field_ops.md R122). -/
opaque Config.customValue : Nat → Half → View → View → Half

/-- The status the external stream `id` answers at a timestamp. -/
opaque Config.customStatus : Nat → Time → StreamStatus

/-- The raw lane value the external stream `id` answers at a timestamp. -/
opaque Config.customStream : Nat → Time → Nat → Half

/-- The chip-specific lane transform `id`: state, lane and raw lane value to the value shown. -/
opaque Config.customXform : Nat → View → Nat → Half → Half

/-- The chip-specific interrupt condition `id`, a function of the stored fields, the FIFO and `USER`. -/
opaque Config.customIrq : Nat → Memory → Fifo → List Int → Bool

/-- A data register of REF-A: one Read field over `PV_SAMPLE(lane, k, deq)`. -/
def dataReg (addr lane k : Nat) (deq : Bool) : RegisterDef :=
  { addr := addr, width := .w8, rst := 0,
    fields := [{ off := 0, wid := 8, acc := .read, prov := some (.pvSample lane k deq) }] }

/-- Register CTRL of REF-A. -/
def refACtrl : RegisterDef :=
  { addr := 0x10, width := .w8, rst := 0x00, tag := 0x10,
    fields :=
      [{ off := 0, wid := 1, acc := .readWrite, kind := .flag },
       { off := 1, wid := 2, acc := .readWrite, kind := .symbols [0, 1, 2] .invalid,
         wcb := some (.whFifoMode [.bypass, .fifo, .continuous, .bypass] .bypass) },
       { off := 3, wid := 1, acc := .readWrite, kind := .flag },
       { off := 7, wid := 1, acc := .write, kind := .flag, wcb := some .whSoftReset }] }

/-- Register STATUS of REF-A. -/
def refAStatus : RegisterDef :=
  { addr := 0x11, width := .w8, rst := 0x04, rwcb := some (.whClrOvr 0 1),
    fields :=
      [{ off := 0, wid := 1, acc := .readToClear, kind := .flag },
       { off := 1, wid := 1, acc := .read, kind := .flag, prov := some (.pvOvr false) },
       { off := 2, wid := 1, acc := .writeOneToClear, kind := .flag },
       { off := 4, wid := 3, acc := .read, prov := some .pvFifoCount }] }

/-- The spec's fixture REF-A (95_test_vectors.md section 1.1), the configuration of the reset state (log 2). -/
def refA : Cfg :=
  { map :=
      [{ addr := 0x00, width := .w8, rst := 0xA5, fields := [{ off := 0, wid := 8, acc := .read }] },
       refACtrl, refAStatus,
       { addr := 0x12, width := .w8, rst := 0x40, fields := [{ off := 0, wid := 8, acc := .readWrite }] },
       { addr := 0x13, width := .w8, rst := 0xF0, rsvdRead := .resetDefault,
         fields := [{ off := 0, wid := 4, acc := .readWrite }] },
       dataReg 0x32 0 0 true, dataReg 0x33 0 1 false, dataReg 0x34 1 0 false,
       dataReg 0x35 1 1 false, dataReg 0x36 2 0 false, dataReg 0x37 2 1 false]
    missPolicy := .logAndZero
    regEndian := some .lsbFirst
    lanes := 3
    cap := 4
    dflt := [0, 0, 0]
    emptyPolicy := .clearToDefault
    irqCond := .nonEmpty }

end Sys2Proof
end

