-- ==== Sys2Proof/Syntax.lean ====
section
/-! DEFINITION. The operations of the block: one constructor of `Instr` per row of opcode_table.json (30_encoding.md R90,
R92), the events each agent issues (R90, 60_exceptions.md R286), and the transaction macros of R106. -/

namespace Sys2Proof

/-- The operations of the block. The four forms of ADDR.SET carry the fields of their address-phase format; `f` is the
index of a field in its register, `k` a byte significance index, `o` a transfer-order byte index. -/
inductive Instr where
  | addrSetPlain8 (a : BitVec 8)
  | addrSetRw7 (r : Bool) (a : BitVec 7)
  | addrSetRw7Ms6 (r m : Bool) (a : BitVec 6)
  | addrSetPlain16 (a : BitVec 16)
  | fldRead (a f : Nat)
  | fldWrite (a f v : Nat)
  | regReadB (a k : Nat)
  | regWriteB (a k : Nat) (b : Byte)
  | regReset (a : Nat)
  | collRead (addr : Nat)
  | collWrite (addr : Nat) (b : Byte)
  | collTryRead (addr : Nat)
  | collTryWrite (addr : Nat) (b : Byte)
  | collReadOff (base o : Nat) (e : Endian)
  | collWriteOff (base o : Nat) (b : Byte) (e : Endian)
  | collReset
  | busWrite (bytes : List Byte)
  | busRead (count : Nat)
  | busFinish
  | advance
  | fifoFeed (stamp : Option Time) (s : Sample)
  | fifoDeq
  | fifoReset
  | fifoClrOvr
  | fifoSetMode (m : FifoMode)
  | fifoStreamTick (t : Time)
  | hostFeedRepeat (s : Sample) (n : Nat)
  | hostLoadFile (name : Text) (lines : List Text)
  | hostAttachStream
  | hostDetachStream
  | hostSetKeep (b : Bool)
  | hostSetPhys (vs : List Ratio)
  | devReset
  | devSoftReset
deriving DecidableEq, Repr, Inhabited

/-- What the bus thread issues (60_exceptions.md R286). -/
inductive BusOp where
  | write (bytes : List Byte)
  | read (count : Nat)
  | finish
deriving DecidableEq, Repr, Inhabited

/-- What the feeder issues (60_exceptions.md R286). A stream tick is asked at the timestamp of its event (R15). -/
inductive FeederOp where
  | feed (s : Sample)
  | streamTick
deriving DecidableEq, Repr, Inhabited

/-- What the host issues (60_exceptions.md R286). COLL.TRYREAD and COLL.TRYWRITE are not among them: they write `FV`, and
20_memory.md R72 leaves that to bus-thread steps, their hooks and resets (log 34). -/
inductive HostOp where
  | feed (s : Sample)
  | feedRepeat (s : Sample) (n : Nat)
  | loadFile (name : Text) (lines : List Text)
  | attachStream
  | detachStream
  | setKeep (b : Bool)
  | setPhys (vs : List Ratio)
  | setMode (m : FifoMode)
  | clrOvr
  | reset
deriving DecidableEq, Repr, Inhabited

/-- The operation a bus event is. -/
def BusOp.toInstr : BusOp → Instr
  | .write bytes => .busWrite bytes
  | .read count => .busRead count
  | .finish => .busFinish

/-- The operation a feeder event at time `t` is. -/
def FeederOp.toInstr (t : Time) : FeederOp → Instr
  | .feed s => .fifoFeed none s
  | .streamTick => .fifoStreamTick t

/-- The operation a host event is. -/
def HostOp.toInstr : HostOp → Instr
  | .feed s => .fifoFeed none s
  | .feedRepeat s n => .hostFeedRepeat s n
  | .loadFile name lines => .hostLoadFile name lines
  | .attachStream => .hostAttachStream
  | .detachStream => .hostDetachStream
  | .setKeep b => .hostSetKeep b
  | .setPhys vs => .hostSetPhys vs
  | .setMode m => .fifoSetMode m
  | .clrOvr => .fifoClrOvr
  | .reset => .devReset

/-- The macro `RD(a, n)` for a one-byte address (30_encoding.md R106). -/
def macroRd (a : Byte) (n : Nat) : List BusOp := [.write [a], .read n, .finish]

/-- The macro `WR(a, d0 .. dn)` for a one-byte address (30_encoding.md R106). -/
def macroWr (a : Byte) (ds : List Byte) : List BusOp := [.write (a :: ds), .finish]

/-- The macro `RD16(a)` (30_encoding.md R106). -/
def macroRd16 (a : Byte) : List BusOp := [.write [a], .read 2, .finish]

end Sys2Proof
end

