-- ==== Sys2Proof/Machine/Operands.lean ====
section
/-! DEFINITION. Operand forms: assembly and extraction of the address (30_encoding.md R91 to R96), the byte order of
16-bit registers and address lookup (20_memory.md R62, 42_collection_ops.md R171), the slices of a field in a byte
(41_register_ops.md R150 to R153), physical values and the sample file (44_sample_fifo.md R248, R249, R260), and the
typed view of a field (40_field_ops.md R135). -/

namespace Sys2Proof.Machine

/-! ### The address phase -/

/-- The address word `AW` (30_encoding.md R93); with one address byte it is `b0` and `b1` is not used. -/
def addrWord (bytes : AddrBytes) (order : Endian) (b0 b1 : Byte) : BitVec 16 :=
  match bytes, order with
  | .one, _ => b0.setWidth 16
  | .two, .msbFirst => b0 ++ b1
  | .two, .lsbFirst => b1 ++ b0

/-- How many of the low `n` bits of a mask are set. -/
def onesBelow (mask : BitVec 16) : Nat → Nat
  | 0 => 0
  | n + 1 => onesBelow mask n + (if mask.getLsbD n then 1 else 0)

/-- `compress` of the low `n` bits of `aw` (30_encoding.md R94): the bits where the mask is set, gaps closed, in order. -/
def gather (mask aw : BitVec 16) : Nat → Nat
  | 0 => 0
  | n + 1 =>
    gather mask aw n +
      (if mask.getLsbD n && aw.getLsbD n then 2 ^ onesBelow mask n else 0)

/-- A register address cut to `ADDR_BITS` bits (10_state.md R31). -/
def truncAddr (fmt : AddrFormat) (n : Nat) : BitVec 16 := BitVec.ofNat 16 (n % 2 ^ fmt.bits)

/-- The register address `A` taken from an address word (30_encoding.md R94). -/
def regAddr (fmt : AddrFormat) (aw : BitVec 16) : BitVec 16 := truncAddr fmt (gather fmt.mask (aw &&& fmt.mask) 16)

/-- A flag bit of the first address byte; 0 when the format has no such bit (30_encoding.md R95, R96). -/
def flagBit (pos : Option Nat) (b0 : Byte) : Bool :=
  match pos with
  | none => false
  | some i => b0.getLsbD i

/-- The transaction state after the address phase (43_bus_transactions.md R194). -/
def stateAfterAddress (rwBit : Option Nat) (rw : Bool) : TState :=
  match rwBit with
  | none => .addressSet
  | some _ => if rw then .reading else .writing

/-! ### Lookup and byte order -/

/-- The significance index of transfer-order byte `o` of a register of `nb` bytes (20_memory.md R62). -/
def sigIndex (nb o : Nat) : Endian → Nat
  | .lsbFirst => o
  | .msbFirst => nb - 1 - o

/-- `REG_ENDIAN` (20_memory.md R61). A configuration without a 16-bit register need not state it, and then no byte order
is ever consulted (log 26). -/
def endianOf (c : Cfg) : Endian := c.regEndian.getD .lsbFirst

/-- `LOCATE` (42_collection_ops.md R171): the register whose footprint holds the address, and the byte's index in transfer
order. -/
def locate (c : Cfg) (addr : Nat) : Option (RegisterDef × Nat) :=
  (c.map.find? fun r => decide (r.addr ≤ addr) && decide (addr < r.addr + c.span r)).map fun r => (r, addr - r.addr)

/-! ### Slices of a field in a byte -/

/-- The part of a field inside one byte: where it starts in the field, where it starts in the byte, how many bits. -/
structure Overlap where
  inField : Nat
  inByte : Nat
  count : Nat
deriving DecidableEq, Repr, Inhabited

/-- The part of field `d` inside byte `k` of its register, if any (41_register_ops.md R150). -/
def overlap (d : FieldDef) (k : Nat) : Option Overlap :=
  let ol := max d.off (8 * k)
  let top := min (d.off + d.wid) (8 * k + 8)
  if ol < top then some { inField := ol - d.off, inByte := ol - 8 * k, count := top - ol } else none

/-- A value cut to a field's width (40_field_ops.md R132). -/
def cut (d : FieldDef) (v : Half) : Half := v &&& lowMask d.wid

/-- The value `REG.WRITEB` hands to `FLD.WRITE` (41_register_ops.md R151): for a WriteOneToClear field the written bits in
place and 0 elsewhere, else the stored value with the written bits merged in. -/
def mergeByte (d : FieldDef) (p : Overlap) (b : Byte) (old : Half) : Half :=
  let part := (b.setWidth 16 >>> p.inByte) &&& lowMask p.count
  match d.acc with
  | .writeOneToClear => part <<< p.inField
  | _ => (old &&& ~~~(lowMask p.count <<< p.inField)) ||| (part <<< p.inField)

/-- The bits of a field's value `v` as they stand in the byte read (41_register_ops.md R153). -/
def sliceByte (p : Overlap) (v : Half) : Byte :=
  (((v >>> p.inField) &&& lowMask p.count) <<< p.inByte).setWidth 8

/-- The bits of a register that belong to some field (41_register_ops.md R153). -/
def fieldBits (r : RegisterDef) : Half := r.fields.foldl (fun m d => m ||| (lowMask d.wid <<< d.off)) 0

/-- What the reserved bits of byte `k` read as, every other bit 0 (41_register_ops.md R153). -/
def reservedByte (r : RegisterDef) (k : Nat) : Byte :=
  match r.rsvdRead with
  | .zero => 0
  | .resetDefault => ((r.rst &&& ~~~(fieldBits r)) >>> (8 * k)).setWidth 8

/-- A tagged bit of the byte is written with 1 (41_register_ops.md R154). -/
def tagHit (r : RegisterDef) (k : Nat) (b : Byte) : Bool := (b.setWidth 16 <<< (8 * k)) &&& r.tag != 0

/-- Byte `k` of a signed 16-bit lane value (30_encoding.md R101). -/
def laneByte (x : Half) (k : Nat) : Half := (x >>> (8 * k)) &&& lowMask 8

/-! ### Physical values -/

/-- The order of physical values. -/
def Ratio.le (x y : Ratio) : Bool := decide (x.num * (y.den1 + 1) ≤ y.num * (x.den1 + 1))

/-- The product of two physical values rounded toward zero (44_sample_fifo.md R260). -/
def Ratio.mulTrunc (x y : Ratio) : Int := Int.tdiv (x.num * y.num) ((x.den1 + 1) * (y.den1 + 1))

/-- `v` cut to the declared range, and the bound used when it moved (44_sample_fifo.md R260). -/
def clampPhys (c : Cfg) (v : Ratio) : Ratio × Option Ratio :=
  if !Ratio.le v c.maxPhys then (c.maxPhys, some c.maxPhys)
  else if !Ratio.le c.minPhys v then (c.minPhys, some c.minPhys)
  else (v, none)

/-- The raw lane value of a physical value in range (44_sample_fifo.md R260). -/
def rawLane (c : Cfg) (v : Ratio) : Half := BitVec.ofInt 16 (Ratio.mulTrunc v c.resolution)

/-! ### The sample file -/

/-- The value of a decimal digit character. -/
def digitVal (ch : Nat) : Option Nat := if 48 ≤ ch ∧ ch ≤ 57 then some (ch - 48) else none

/-- The digits at the head of a text: their value added to `acc`, how many there are added to `n`, and what follows. -/
def scanDigits : Text → Nat → Nat → Nat × Nat × Text
  | [], acc, n => (acc, n, [])
  | ch :: rest, acc, n =>
    match digitVal ch with
    | some d => scanDigits rest (acc * 10 + d) (n + 1)
    | none => (acc, n, ch :: rest)

/-- An unsigned NUMERIC token with the sign to give it (44_sample_fifo.md R249). -/
def unsignedNumber (sign : Int) (body : Text) : Option Ratio :=
  match scanDigits body 0 0 with
  | (_, 0, _) => none
  | (v, _ + 1, []) => some { num := sign * v, den1 := 0 }
  | (v, _ + 1, 46 :: frac) =>
    match scanDigits frac v 0 with
    | (_, 0, _) => none
    | (w, m + 1, []) => some { num := sign * w, den1 := 10 ^ (m + 1) - 1 }
    | _ => none
  | _ => none

/-- The value of a NUMERIC token: optional sign, digits, optional point and digits (44_sample_fifo.md R249). -/
def numeric : Text → Option Ratio
  | 43 :: body => unsignedNumber 1 body
  | 45 :: body => unsignedNumber (-1) body
  | body => unsignedNumber 1 body

/-- A text without its trailing carriage return, if it has one (44_sample_fifo.md R249). -/
def dropReturn : Text → Text
  | [] => []
  | ch :: rest =>
    match rest with
    | [] => if ch = 13 then [] else [ch]
    | _ :: _ => ch :: dropReturn rest

/-- The pieces of a text between runs of space and tab; `cur` is the piece being read, reversed. -/
def splitBlanks : Text → Text → List Text
  | [], cur => if cur.isEmpty then [] else [cur.reverse]
  | ch :: rest, cur =>
    if ch = 32 ∨ ch = 9 then
      if cur.isEmpty then splitBlanks rest [] else cur.reverse :: splitBlanks rest []
    else splitBlanks rest (ch :: cur)

/-- `TOKENS(line)` (44_sample_fifo.md R249). -/
def tokens (line : Text) : List Text := splitBlanks (dropReturn line) []

/-- The raw lane value of one token of a sample file; a value outside the declared range is malformed, not clamped
(44_sample_fifo.md R248). -/
def tokenLane (c : Cfg) (tok : Text) : Option Half :=
  match numeric tok with
  | none => none
  | some v => if Ratio.le c.minPhys v && Ratio.le v c.maxPhys then some (rawLane c v) else none

/-- The sample on one line of a sample file, `none` when the line is malformed (44_sample_fifo.md R248). -/
def lineSample (c : Cfg) (line : Text) : Option Sample :=
  let toks := tokens line
  if toks.length = c.lanes then toks.mapM (tokenLane c) else none

/-- A sample file parsed as far as it goes: the samples of the lines before the first malformed line, in order, and that
line's 1-based number and text if there is one. `i` is the number of the first line given. -/
def parseLines (c : Cfg) : Nat → List Text → List Sample × Option (Nat × Text)
  | _, [] => ([], none)
  | i, line :: rest =>
    match lineSample c line with
    | none => ([], some (i, line))
    | some s =>
      let r := parseLines c (i + 1) rest
      (s :: r.1, r.2)

/-! ### The typed view -/

/-- A stored value read through its field's kind (40_field_ops.md R135); an Enum value outside the symbol set has no
symbol. -/
inductive TypedValue where
  | flag (b : Bool)
  | value (n : Nat)
  | symbol (raw : Half)
  | noSymbol (raw : Half)
deriving DecidableEq, Repr, Inhabited

/-- The typed view of a field (40_field_ops.md R135). -/
def typedValue (d : FieldDef) (v : Half) : TypedValue :=
  match d.kind with
  | .flag => .flag (v == 1)
  | .value => .value v.toNat
  | .symbols set _ => if set.contains v then .symbol v else .noSymbol v

/-- The Enum check of 40_field_ops.md R130: the write of `v` is refused. -/
def enumRefuses (d : FieldDef) (v : Half) : Bool :=
  match d.kind with
  | .symbols set .invalid => !set.contains v
  | _ => false

end Sys2Proof.Machine
end

