-- ==== Sys2Proof/WellFormed.lean ====
section
/-! DEFINITION. Well-formed configurations (00_scope.md R9, items (a) to (n), with the checks of log 33) and well-formed
operands of the operations (log 21). Every check is a Bool of its own. -/

namespace Sys2Proof

open Machine (Ratio.le Ratio.mulTrunc)

/-- Every two elements at different positions satisfy `f`, the earlier first. -/
def allPairs {α : Type} (f : α → α → Bool) : List α → Bool
  | [] => true
  | x :: rest => rest.all (f x) && allPairs f rest

/-! ### Checks on one field and one register -/

/-- Item (b), with the width bounds of 10_state.md R23: the field has at least one bit and lies inside its register. -/
def fieldInside (r : RegisterDef) (d : FieldDef) : Bool := decide (1 ≤ d.wid) && decide (d.off + d.wid ≤ r.width.bits)

/-- Item (c): two fields share no bit. -/
def fieldsApart (d e : FieldDef) : Bool := decide (d.off + d.wid ≤ e.off) || decide (e.off + e.wid ≤ d.off)

/-- Item (d): a Flag has one bit. -/
def flagOneBit (d : FieldDef) : Bool :=
  match d.kind with
  | .flag => d.wid == 1
  | _ => true

/-- The declared clear value fits the field (00_scope.md R7, `clearVal`). It need not be one of the field's symbols, which no
item of 00_scope.md R9 asks (log 37, DESIGN CHOICE). -/
def clearValFits (d : FieldDef) : Bool := decide (d.clearVal.toNat < 2 ^ d.wid)

/-- Item (e): the reset value fits the width. -/
def rstFits (r : RegisterDef) : Bool := decide (r.rst.toNat < 2 ^ r.width.bits)

/-- Item (f): no tagged bit belongs to a field; tagged bits are bits of the register. -/
def tagApart (r : RegisterDef) : Bool :=
  (r.tag &&& Machine.fieldBits r == 0) && decide (r.tag.toNat < 2 ^ r.width.bits)

/-- Item (k): the fields are listed in ascending offset. -/
def fieldsAscending (r : RegisterDef) : Bool := allPairs (fun d e => decide (d.off < e.off)) r.fields

/-- A provider that changes the state when it runs: a dequeue, a clear, a program with steps, a custom provider not given
as pure. A provider that changes nothing has a form of its own for each kind: `program []`, `customPure` (log 25). -/
def Provider.changesState : Provider → Bool
  | .pvSample _ _ deq => deq
  | .pvFifoCount => false
  | .pvOvr clear => clear
  | .program steps _ => !steps.isEmpty
  | .custom _ => true
  | .customPure _ => false

/-- The field is side-effecting on read (item (l)). -/
def readEffect (d : FieldDef) : Bool :=
  d.acc == .readToClear || (match d.prov with | none => false | some p => p.changesState)

/-- The field straddles bits 7 and 8. -/
def straddles (d : FieldDef) : Bool := decide (d.off ≤ 7) && decide (8 < d.off + d.wid)

/-- Item (l): a field that is side-effecting on read does not straddle bits 7 and 8. -/
def noReadEffectStraddle (d : FieldDef) : Bool := !(readEffect d && straddles d)

/-- A `PV_SAMPLE` names a lane and a byte that exist (log 30). -/
def sampleByteExists (c : Cfg) (d : FieldDef) : Bool :=
  match d.prov with
  | some (.pvSample lane k _) => decide (lane < c.lanes) && decide (k < 2)
  | _ => true

/-- All the checks on one field. -/
def fieldOk (c : Cfg) (r : RegisterDef) (d : FieldDef) : Bool :=
  fieldInside r d && flagOneBit d && clearValFits d && noReadEffectStraddle d && sampleByteExists c d

/-- All the checks on one register. A register without fields passes: 10_state.md R22 says one or more, but no item of
00_scope.md R9 asks it (log 40, DESIGN CHOICE). -/
def registerOk (c : Cfg) (r : RegisterDef) : Bool :=
  r.fields.all (fieldOk c r) && allPairs fieldsApart r.fields && rstFits r && tagApart r && fieldsAscending r

/-! ### Checks on the configuration -/

/-- Two registers share no bus address. -/
def footprintsApart (c : Cfg) (r t : RegisterDef) : Bool :=
  decide (r.addr + c.span r ≤ t.addr) || decide (t.addr + c.span t ≤ r.addr)

/-- Item (a): each address maps to at most one register. -/
def Cfg.mapOk (c : Cfg) : Bool := allPairs (footprintsApart c) c.map

/-- A configuration with a 16-bit register states `REG_ENDIAN` (20_memory.md R61, I5). -/
def Cfg.endianStated (c : Cfg) : Bool := c.regEndian.isSome || c.map.all fun r => r.width == .w8

/-- A flag position is a bit of the first address byte and its bit is not an address bit. A position in a two-byte
address word is the bit it has there, by `ADDR_ORDER`. -/
def flagPositionOk (c : Cfg) (pos : Option Nat) : Bool :=
  match pos with
  | none => true
  | some i =>
    decide (i < 8) &&
      !c.format.mask.getLsbD (if c.format.bytes == .two && c.addrOrder == .msbFirst then i + 8 else i)

/-- Item (g), with the widths of 00_scope.md R7: the mask lies in the address word and leaves out the flags, the flags
differ, `ADDR_BITS` is 1 to 16. -/
def Cfg.formatOk (c : Cfg) : Bool :=
  decide (c.format.mask.toNat < 2 ^ (8 * c.format.bytes.count)) &&
    flagPositionOk c c.format.rwBit && flagPositionOk c c.format.msBit &&
    (c.format.rwBit.isNone || c.format.rwBit != c.format.msBit) &&
    decide (1 ≤ c.format.bits) && decide (c.format.bits ≤ 16)

/-- Item (h), with `LANES` 1 or 3: there is room for a sample and the default sample has its lanes. -/
def Cfg.fifoOk (c : Cfg) : Bool := (c.lanes == 1 || c.lanes == 3) && decide (1 ≤ c.cap) && c.dflt.length == c.lanes

/-- Item (i): a wrap goes down. -/
def Cfg.wrapOk (c : Cfg) : Bool :=
  match c.aiWrap with
  | none => true
  | some (wrapAt, wrapTo) => decide (wrapTo < wrapAt)

/-- Item (j): the range is not empty. -/
def Cfg.rangeOk (c : Cfg) : Bool :=
  match c.aiRange with
  | none => true
  | some (lo, hi) => decide (lo ≤ hi)

/-- Item (m): the auto-increment flag is a stored field of width 1. -/
def Cfg.gateOk (c : Cfg) : Bool :=
  match c.aiGateFlag with
  | none => true
  | some (a, f) =>
    match c.field a f with
    | none => false
    | some d => d.wid == 1 && d.prov.isNone && d.acc != .write

/-- Item (n), with `RESOLUTION > 0` and `MIN_PHYS <= MAX_PHYS` (00_scope.md R7): the physical range fits 16 signed bits. -/
def Cfg.physOk (c : Cfg) : Bool :=
  decide (0 < c.resolution.num) && Ratio.le c.minPhys c.maxPhys &&
    decide (c.maxPhys.num * c.resolution.num ≤ 32767 * ((c.maxPhys.den1 + 1) * (c.resolution.den1 + 1))) &&
    decide (-32768 * ((c.minPhys.den1 + 1) * (c.resolution.den1 + 1)) ≤ c.minPhys.num * c.resolution.num)

/-- A stream table is in time order and its samples have `LANES` lanes (44_sample_fifo.md R254; log 33). -/
def Cfg.streamOk (c : Cfg) : Bool :=
  match c.stream with
  | .table samples _ =>
    (samples.all fun x => x.2.length == c.lanes) && allPairs (fun x y => decide (x.1 ≤ y.1)) samples
  | .custom _ => true

/-- The configuration is well formed (00_scope.md R9). -/
def Cfg.wf (c : Cfg) : Bool :=
  c.mapOk && c.map.all (registerOk c) && c.endianStated && c.formatOk && c.fifoOk && c.wrapOk && c.rangeOk &&
    c.gateOk && c.physOk && c.streamOk

/-! ### Operands -/

/-- The byte index `k` is one of the register at `a` (41_register_ops.md R151, R153). -/
def Cfg.hasByte (c : Cfg) (a k : Nat) : Bool :=
  match c.find a with
  | none => false
  | some r => decide (k < r.width.bytes)

/-- The operands of an operation are operands of this configuration (log 21): a field or register byte exists, a sample
or a vector of physical values has `LANES` lanes, a form of ADDR.SET is the configured format's. -/
def Instr.wf (c : Cfg) : Instr → Bool
  | .addrSetPlain8 _ => c.format == plain8
  | .addrSetRw7 _ _ => c.format == rw7
  | .addrSetRw7Ms6 _ _ _ => c.format == rw7ms6
  | .addrSetPlain16 _ => c.format == plain16
  | .fldRead a f => (c.field a f).isSome
  | .fldWrite a f _ => (c.field a f).isSome
  | .regReadB a k => c.hasByte a k
  | .regWriteB a k _ => c.hasByte a k
  | .regReset a => (c.find a).isSome
  | .collRead _ => true
  | .collWrite _ _ => true
  | .collTryRead _ => true
  | .collTryWrite _ _ => true
  | .collReadOff _ _ _ => true
  | .collWriteOff _ _ _ _ => true
  | .collReset => true
  | .busWrite _ => true
  | .busRead _ => true
  | .busFinish => true
  | .advance => true
  | .fifoFeed _ s => s.length == c.lanes
  | .fifoDeq => true
  | .fifoReset => true
  | .fifoClrOvr => true
  | .fifoSetMode _ => true
  | .fifoStreamTick _ => true
  | .hostFeedRepeat s _ => s.length == c.lanes
  | .hostLoadFile _ _ => true
  | .hostAttachStream => true
  | .hostDetachStream => true
  | .hostSetKeep _ => true
  | .hostSetPhys vs => vs.length == c.lanes
  | .devReset => true
  | .devSoftReset => true

end Sys2Proof
end

