-- ==== Sys2Proof/Decode.lean ====
section
/-! DEFINITION. The one bit-level encoding of the block, the address phase (30_encoding.md R91 to R97, R104, R107): the
decoder by configured format, the encoder, and the reading of a table row's word. Operations other than ADDR.SET are
selected by events and have no encoding (R107, log 18). -/

namespace Sys2Proof

/-- Why bytes are not an address phase of one of the four named formats. -/
inductive DecodeRefusal where
  /-- the address phase is not complete: the block waits for another byte (43_bus_transactions.md R193); safe -/
  | needMoreBytes
  /-- the format is none of the four the table has a row for; the block still takes its address phase, by
  `Machine.addrSet`; safe (log 17) -/
  | formatHasNoRow
deriving DecidableEq, Repr, Inhabited

/-- The address phase at the head of a list of bytes, by format, and the bytes that follow it (30_encoding.md R92). -/
def decode (fmt : AddrFormat) (order : Endian) (bytes : List Byte) : Except DecodeRefusal (Instr × List Byte) :=
  if fmt = plain8 then
    match bytes with
    | [] => .error .needMoreBytes
    | b :: rest => .ok (.addrSetPlain8 b, rest)
  else if fmt = rw7 then
    match bytes with
    | [] => .error .needMoreBytes
    | b :: rest => .ok (.addrSetRw7 (b.getLsbD 7) (b.extractLsb' 0 7), rest)
  else if fmt = rw7ms6 then
    match bytes with
    | [] => .error .needMoreBytes
    | b :: rest => .ok (.addrSetRw7Ms6 (b.getLsbD 7) (b.getLsbD 6) (b.extractLsb' 0 6), rest)
  else if fmt = plain16 then
    match bytes with
    | [] => .error .needMoreBytes
    | [_] => .error .needMoreBytes
    | b0 :: b1 :: rest =>
      match order with
      | .msbFirst => .ok (.addrSetPlain16 (b0 ++ b1), rest)
      | .lsbFirst => .ok (.addrSetPlain16 (b1 ++ b0), rest)
  else .error .formatHasNoRow

/-- The format a form of ADDR.SET belongs to; no format for an operation without an encoding. -/
def formatOf : Instr → Option AddrFormat
  | .addrSetPlain8 _ => some plain8
  | .addrSetRw7 _ _ => some rw7
  | .addrSetRw7Ms6 _ _ _ => some rw7ms6
  | .addrSetPlain16 _ => some plain16
  | _ => none

/-- The bytes of an operation, first transferred first (30_encoding.md R92, R93); none for an operation without an
encoding (R107). -/
def encode (order : Endian) : Instr → Option (List Byte)
  | .addrSetPlain8 a => some [a]
  | .addrSetRw7 r a => some [BitVec.ofBool r ++ a]
  | .addrSetRw7Ms6 r m a => some [BitVec.ofBool r ++ (BitVec.ofBool m ++ a)]
  | .addrSetPlain16 a =>
    match order with
    | .msbFirst => some [a.extractLsb' 8 8, a.extractLsb' 0 8]
    | .lsbFirst => some [a.extractLsb' 0 8, a.extractLsb' 8 8]
  | _ => none

/-- The format in which a table word of `nbits` bits is read: the reset configuration's for one byte, PLAIN16 for two. -/
def tableFormat (nbits : Nat) : Option AddrFormat :=
  if nbits = 8 then some plain8 else if nbits = 16 then some plain16 else none

/-- The bytes of a table word in transfer order: bit 0 is the least significant bit of the first byte. -/
def tableBytes (nbits w : Nat) : List Byte :=
  if nbits = 8 then [BitVec.ofNat 8 w]
  else if nbits = 16 then [BitVec.ofNat 8 w, BitVec.ofNat 8 (w / 256)]
  else []

/-- The instruction the decoder reads from a table row's word. The three one-byte forms share every byte value, so a
one-byte word is read in the reset configuration's format, PLAIN8 (log 17). -/
def decodeTableWord (nbits w : Nat) : Option Instr :=
  match tableFormat nbits with
  | none => none
  | some fmt =>
    match decode fmt .msbFirst (tableBytes nbits w) with
    | .ok (i, _) => some i
    | .error _ => none

end Sys2Proof
end

