-- ==== Sys2Proof/Machine/State.lean ====
section
/-! DEFINITION. The state of one block instance (10_state.md R20), the outputs it has produced, the inputs still to come,
and the reasons a step can stop. -/

namespace Sys2Proof.Machine

/-- Every diagnostic record (60_exceptions.md R270), in the table's order. A field is named by register address and index
(log 7). -/
inductive Diag where
  | eReadNoAddress (count : Nat)
  | eReadAddrIncomplete (count : Nat)
  | eReadWhileWriting (count : Nat)
  | eWriteWhileReading (n : Nat)
  | wUnmappedRead (addr : Nat)
  | wUnmappedWrite (addr : Nat) (b : Byte)
  | wReadonlyWrite (a f : Nat)
  | wInvalidEnum (a f : Nat) (v : Half)
  | wTaggedWrite (a k : Nat) (b : Byte)
  | wFifoEmpty
  | wClamped (v bound : Ratio)
  | fInvariant (what : Text)
deriving DecidableEq, Repr, Inhabited

/-- What an operation returns to its invoker, other than the bytes of a bus read. -/
inductive Result where
  /-- nothing is returned -/
  | none
  /-- FLD.READ -/
  | value (v : Half)
  /-- REG.READB, COLL.READ, COLL.READOFF -/
  | byte (b : Byte)
  /-- COLL.TRYREAD -/
  | hitByte (hit : Bool) (b : Byte)
  /-- COLL.TRYWRITE -/
  | hit (hit : Bool)
  /-- FIFO.DEQ -/
  | dequeued (popped : Bool)
  /-- HOST.LOADFILE succeeded -/
  | loaded
  /-- HOST.LOADFILE failed: CFG_ERROR (44_sample_fifo.md R251) -/
  | cfgError (name : Text) (line : Nat) (text : Text)
deriving DecidableEq, Repr, Inhabited

/-- An event with the timestamp it carries (00_scope.md R15). -/
structure Timed (α : Type) where
  now : Time
  op : α
deriving DecidableEq, Repr, Inhabited

/-- The rest of a host operation that is a sequence of atomic steps (20_memory.md R73). -/
inductive HostRest where
  /-- feeds of HOST.FEEDREPEAT still to do -/
  | feeds (s : Sample) (n : Nat)
  /-- feeds of HOST.LOADFILE still to do, then its end: whether `KEEP` is set, and the result -/
  | loading (samples : List Sample) (keeps : Bool) (result : Result)
deriving DecidableEq, Repr, Inhabited

/-- The inputs still to come (10_state.md R56; log 9): a queue of events for each agent, the rest of the operation an agent
is in the middle of, the schedule that says which agent moves next, the timestamp in force and the latest one seen. -/
structure Env where
  busQueue : List (Timed BusOp)
  busRest : Option (Timed BusOp)
  feederQueue : List (Timed FeederOp)
  hostQueue : List (Timed HostOp)
  hostRest : Option (Timed HostRest)
  schedule : List Agent
  now : Time
  latest : Time
deriving DecidableEq, Repr, Inhabited

/-- No event pending (70_reset_and_hazards.md R309; log 28). -/
def quietEnv : Env :=
  { busQueue := [], busRest := none, feederQueue := [], hostQueue := [], hostRest := none, schedule := [], now := 0,
    latest := 0 }

/-- Why the machine stops. -/
inductive Fault where
  /-- raised by every operation in a state whose `FAULTED` latch is set: no operation is defined there
  (43_bus_transactions.md R211, 60_exceptions.md R277); safe -/
  | invariantLatched
deriving DecidableEq, Repr, Inhabited

/-- Why an operation has no meaning. -/
inductive Refusal where
  /-- raised by `exec`'s arm of an operation that has no meaning yet; safe -/
  | notModelled (mnemonic : String)
  /-- raised by `step` on an ill-formed configuration: no machine is built for one (00_scope.md R9, I23); safe -/
  | illFormedConfig
  /-- raised by a field operation whose operands name no field of `MAP` (40_field_ops.md R120; log 21); safe -/
  | noSuchField
  /-- raised by a register operation whose operands name no register byte of `MAP` (41_register_ops.md R151; log 21); safe -/
  | noSuchRegister
  /-- raised by a feed or a physical setting whose vector does not have `LANES` lanes (44_sample_fifo.md R231; log 21);
  safe -/
  | wrongLanes
  /-- raised by a hook that calls itself without end: such a configuration is refused (42_collection_ops.md R181,
  93_implementation_defined.md I24; log 5); safe -/
  | hookNesting
  /-- raised by a hook step outside the hook contract: a slot that does not exist, a sample or queue that is none
  (00_scope.md R13, I24; log 4); safe -/
  | hookContract
  /-- raised by `step` on an event whose timestamp is below an earlier one (I22; log 14); safe -/
  | timeReversed
deriving DecidableEq, Repr, Inhabited

/-- The state of the block (10_state.md R20), with the configuration it was built from (log 1), its outputs (log 15) and its
inputs (log 9). -/
structure State where
  /-- `CFG`, constant (00_scope.md R7) -/
  cfg : Cfg
  /-- `FV` (10_state.md R26) -/
  fv : Memory
  /-- `TSTATE`, `CUR_ADDR`, `ADDR_VALID`, `ADDR_CNT`, `ADDR_ACC`, `RW_LATCH`, `MS_LATCH`, `BYTE_PHASE` -/
  tx : Tx
  /-- `Q`, `CURRENT`, `OVR`, `MODE`, `KEEP`, `STREAM_ATTACHED`, `AFTER_STREAM` -/
  fifo : Fifo
  /-- `USER` (10_state.md R49) -/
  user : List Int
  /-- `IRQ` (10_state.md R48) -/
  irq : Bool
  /-- `FAULTED` (10_state.md R50) -/
  faulted : Bool
  /-- `DIAG`, an output (10_state.md R51), oldest first -/
  diag : List Diag
  /-- how often `OVR_SIGNAL` was emitted, an output (60_exceptions.md R283) -/
  ovrSignals : Nat
  /-- the response bytes of the bus reads, an output, oldest first (43_bus_transactions.md R199) -/
  busOut : List Byte
  /-- the other results returned, an output, oldest first (60_exceptions.md R274) -/
  results : List Result
  /-- the inputs still to come -/
  env : Env
deriving DecidableEq, Repr, Inhabited

/-- The FIFO a device reset leaves (10_state.md R55). -/
def resetFifo (c : Cfg) : Fifo :=
  { q := [], current := c.dflt, ovr := false, mode := c.modeReset, keep := false, streamAttached := false,
    afterStream := false }

/-- The state after reset (10_state.md R55, 70_reset_and_hazards.md R302), of the block built from fixture REF-A (log 2). -/
def State.reset : State :=
  { cfg := refA, fv := [], tx := idleTx, fifo := resetFifo refA, user := [], irq := false, faulted := false, diag := [],
    ovrSignals := 0, busOut := [], results := [], env := quietEnv }

/-- What a custom function may look at. -/
def State.view (s : State) : View := { fv := s.fv, fifo := s.fifo, user := s.user }

end Sys2Proof.Machine
end

