-- ==== Sys2Proof/Machine/Ops.lean ====
section
/-! DEFINITION. The shared operations: the field store, the outcome of an operation that runs hooks, what an error does
(60_exceptions.md R277 to R280), and the operations of the sample FIFO (44_sample_fifo.md R232 to R260). -/

namespace Sys2Proof.Machine

/-! ### The field store -/

/-- The order of slots in the store: by register address, then by field index. -/
def slotLt (x y : Slot) : Bool := decide (x.1 < y.1) || (x.1 == y.1 && decide (x.2 < y.2))

/-- The entry of a slot, if it is listed. -/
def Memory.find : Memory → Slot → Option Half
  | [], _ => none
  | e :: rest, k => if e.1 = k then some e.2 else Memory.find rest k

/-- The store without a slot. -/
def Memory.erase : Memory → Slot → Memory
  | [], _ => []
  | e :: rest, k => if e.1 = k then Memory.erase rest k else e :: Memory.erase rest k

/-- The store with a slot listed at a value, in its place. -/
def Memory.insert : Memory → Slot → Half → Memory
  | [], k, v => [(k, v)]
  | e :: rest, k, v =>
    if e.1 = k then (k, v) :: rest
    else if slotLt k e.1 then (k, v) :: e :: rest
    else e :: Memory.insert rest k v

/-- The store with slot `k` holding `v`, where an unlisted `k` reads `dflt`: writing `dflt` removes the entry. -/
def Memory.put (dflt : Half) (m : Memory) (k : Slot) (v : Half) : Memory :=
  if v = dflt then Memory.erase m k else Memory.insert m k v

/-- The slots are listed strictly rising. -/
def Memory.ascending : Memory → Bool
  | [] => true
  | e :: rest => rest.all (fun x => slotLt e.1 x.1) && Memory.ascending rest

/-- One entry is in canonical form: its slot exists, its value fits the field and is not the reset value. -/
def Memory.entryOk (c : Cfg) (e : Slot × Half) : Bool :=
  match c.field e.1.1 e.1.2 with
  | none => false
  | some d => cut d e.2 == e.2 && e.2 != c.slotReset e.1.1 e.1.2

/-- The canonical form of the field store (10_state.md R26; log 8). -/
def Memory.wf (c : Cfg) (m : Memory) : Bool := Memory.ascending m && m.all (Memory.entryOk c)

/-- `FV[a].f` (00_scope.md R12). -/
def getField (s : State) (a f : Nat) : Half := (Memory.find s.fv (a, f)).getD (s.cfg.slotReset a f)

/-- `FV[a].f <- v`, cut to the field's width; a slot that does not exist stores nothing (10_state.md R26). -/
def setField (s : State) (a f : Nat) (v : Half) : State :=
  match s.cfg.field a f with
  | none => s
  | some d => { s with fv := Memory.put (s.cfg.slotReset a f) s.fv (a, f) (cut d v) }

/-- The fields of one register back at their reset values, no hook run (41_register_ops.md R155). -/
def resetRegister (s : State) (a : Nat) : State := { s with fv := s.fv.filter fun e => e.1.1 != a }

/-- Every field at its reset value, no hook run (42_collection_ops.md R179). -/
def resetCollection (s : State) : State := { s with fv := [] }

/-! ### Outputs -/

/-- `raise d`: the record is appended to `DIAG` (00_scope.md R12). -/
def say (s : State) (d : Diag) : State := { s with diag := s.diag ++ [d] }

/-- Response bytes of a bus read (43_bus_transactions.md R199). -/
def reply (s : State) (bytes : List Byte) : State := { s with busOut := s.busOut ++ bytes }

/-- The result of an operation, handed to its invoker. -/
def respond (s : State) (r : Result) : State :=
  match r with
  | .none => s
  | r => { s with results := s.results ++ [r] }

/-! ### Outcomes of an operation that runs hooks -/

/-- What became of an operation: it is done with a value; a hook reported an invariant violation and it is abandoned with
the state as it then is (60_exceptions.md R277); or it is refused. -/
inductive Ran (α : Type) where
  | done (a : α) (s : State)
  | abandoned (s : State)
  | refused (r : Refusal)

/-- One operation after another. -/
def Ran.andThen {α β : Type} (x : Ran α) (f : α → State → Ran β) : Ran β :=
  match x with
  | .done a s => f a s
  | .abandoned s => .abandoned s
  | .refused r => .refused r

/-! ### Errors -/

/-- Taking `F_INVARIANT(what)` (60_exceptions.md R277): the record is appended, `FAULTED` is set, the operation in progress
is abandoned with the state as it is. There is no return from it (R280). -/
def takeViolation {α : Type} (s : State) (what : Text) : Ran α :=
  .abandoned { say s (.fInvariant what) with faulted := true }

/-- Taking a protocol misuse of a read (60_exceptions.md R272, R279): the record, a zero-filled response of the length asked,
nothing else. -/
def takeReadMisuse (s : State) (d : Diag) (count : Nat) : State := reply (say s d) (List.replicate count 0)

/-- Taking a protocol misuse of a write (60_exceptions.md R272, R279): the record, the bytes are ignored. -/
def takeWriteMisuse (s : State) (ignored : Nat) : State := say s (.eWriteWhileReading ignored)

/-! ### The sample FIFO -/

/-- The overrun of Continuous mode (44_sample_fifo.md R234): evict the oldest, and set `OVR` with one `OVR_SIGNAL` when it
was not set. -/
def evict (s : State) (x : Sample) : State :=
  { s with fifo := { s.fifo with q := s.fifo.q.tail ++ [x], ovr := true }
           ovrSignals := if s.fifo.ovr then s.ovrSignals else s.ovrSignals + 1 }

/-- `FIFO.FEED(x)` (44_sample_fifo.md R236). -/
def feed (s : State) (x : Sample) : State :=
  match s.fifo.mode with
  | .bypass => { s with fifo := { s.fifo with current := x } }
  | .fifo =>
    if s.fifo.q.length < s.cfg.cap then { s with fifo := { s.fifo with q := s.fifo.q ++ [x] } } else s
  | .continuous =>
    if s.fifo.q.length < s.cfg.cap then { s with fifo := { s.fifo with q := s.fifo.q ++ [x] } } else evict s x

/-- Successive feeds of a list of samples (44_sample_fifo.md R248). -/
def feedAll (s : State) : List Sample → State
  | [] => s
  | x :: rest => feedAll (feed s x) rest

/-- `n` successive feeds of one sample (44_sample_fifo.md R237). -/
def feedTimes (s : State) (x : Sample) : Nat → State
  | 0 => s
  | n + 1 => feedTimes (feed s x) x n

/-- The sample of a table at or before a timestamp: the last one listed that is not after it. -/
def tableSample (t : Time) : List (Time × Sample) → Option Sample
  | [] => none
  | e :: rest =>
    match tableSample t rest with
    | some x => some x
    | none => if e.1 ≤ t then some e.2 else none

/-- A vector laid out on `n` lanes; a vector of `n` lanes is unchanged. -/
def onLanes (n : Nat) (x : Sample) : Sample := (List.range n).map fun i => x.getD i 0

/-- `STREAM(t)` (44_sample_fifo.md R254). With a status other than OK the sample is not used. -/
def streamAnswer (c : Cfg) (t : Time) : Sample × StreamStatus :=
  match c.stream with
  | .custom id => ((List.range c.lanes).map (Config.customStream id t), Config.customStatus id t)
  | .table samples ends =>
    if ends ≤ t then ([], .afterStream)
    else
      match tableSample t samples with
      | none => ([], .beforeStream)
      | some x => (onLanes c.lanes x, .ok)

/-- `AFTER_STREAM <- b` (44_sample_fifo.md R257). -/
def setAfterStream (s : State) (b : Bool) : State := { s with fifo := { s.fifo with afterStream := b } }

/-- `FIFO.STREAMTICK(t)` (44_sample_fifo.md R255). -/
def streamTick (s : State) (t : Time) : State :=
  if s.fifo.streamAttached then
    match streamAnswer s.cfg t with
    | (x, .ok) => feed (setAfterStream s false) x
    | (_, .beforeStream) => setAfterStream s false
    | (_, .afterStream) => setAfterStream s true
  else s

/-- The stream query that precedes a dequeue when `STREAM_PULL = OnDequeue` (44_sample_fifo.md R256), at the timestamp of
the enclosing event (43_bus_transactions.md R216). -/
def pullStream (s : State) : State :=
  match s.cfg.streamPull with
  | .onTick => s
  | .onDequeue => streamTick s s.env.now

/-- The dequeue itself, after the stream query (44_sample_fifo.md R239 to R241): whether a sample was popped, and the state. -/
def popSample (s : State) : Bool × State :=
  match s.fifo.mode, s.fifo.q with
  | .bypass, _ => (false, s)
  | _, [] =>
    match s.cfg.emptyPolicy with
    | .keepCurrent => (false, say s .wFifoEmpty)
    | .clearToDefault => (false, say { s with fifo := { s.fifo with current := s.cfg.dflt } } .wFifoEmpty)
  | _, x :: rest => (true, { s with fifo := { s.fifo with current := x, q := rest } })

/-- `FIFO.DEQ` (44_sample_fifo.md R238). -/
def dequeue (s : State) : Bool × State := popSample (pullStream s)

/-- `FIFO.RESET` (44_sample_fifo.md R244). -/
def resetQueue (s : State) : State :=
  { s with fifo := { s.fifo with q := if s.fifo.keep then s.fifo.q else [], ovr := false, current := s.cfg.dflt } }

/-- `FIFO.CLROVR` (44_sample_fifo.md R243). -/
def clearOverrun (s : State) : State := { s with fifo := { s.fifo with ovr := false } }

/-- `FIFO.SETMODE(m)` (44_sample_fifo.md R242). -/
def setMode (s : State) (m : FifoMode) : State := { s with fifo := { s.fifo with mode := m } }

/-- `KEEP <- b` (44_sample_fifo.md R245). -/
def setKeep (s : State) (b : Bool) : State := { s with fifo := { s.fifo with keep := b } }

/-- `HOST.ATTACHSTREAM` (44_sample_fifo.md R253). -/
def attachStream (s : State) : State :=
  { s with fifo := { s.fifo with streamAttached := true, afterStream := false, keep := true } }

/-- `HOST.DETACHSTREAM` (44_sample_fifo.md R253). -/
def detachStream (s : State) : State := { s with fifo := { s.fifo with streamAttached := false, afterStream := false } }

/-- `PHYS2RAW` of each lane in order, each clamped lane logged (44_sample_fifo.md R260). -/
def physLanes (s : State) : List Ratio → Sample × State
  | [] => ([], s)
  | v :: rest =>
    match clampPhys s.cfg v with
    | (w, none) =>
      let r := physLanes s rest
      (rawLane s.cfg w :: r.1, r.2)
    | (w, some bound) =>
      let r := physLanes (say s (.wClamped v bound)) rest
      (rawLane s.cfg w :: r.1, r.2)

/-! ### Block resets -/

/-- `DEV.SOFTRESET` (70_reset_and_hazards.md R304). -/
def softReset (s : State) : State := setMode (resetQueue (resetCollection s)) s.cfg.modeReset

/-- `DEV.RESET` (70_reset_and_hazards.md R303), all but the interrupt level. -/
def deviceReset (s : State) : State :=
  { resetCollection s with fifo := resetFifo s.cfg, tx := idleTx, user := s.cfg.userReset }

end Sys2Proof.Machine
end

