-- ==== Sys2Proof/Machine/Flags.lean ====
section
/-! DEFINITION. The conditions computed from the state: the interrupt level (60_exceptions.md R281, R282) and the gates of
the auto-increment (43_bus_transactions.md R205, R206). -/

namespace Sys2Proof.Machine

/-- The queue counts as pending data: `MODE` is not Bypass and at least `n` samples are queued (60_exceptions.md R282). -/
def queuedAtLeast (s : State) (n : Nat) : Bool := s.fifo.mode != .bypass && decide (n ≤ s.fifo.q.length)

/-- An interrupt condition in a state (60_exceptions.md R282). It reads stored values directly. `IRQ_FIELD` of a field that
`MAP` does not have reads 0, so that it is false (log 41, DESIGN CHOICE). -/
def irqHolds (s : State) : IrqCond → Bool
  | .never => false
  | .overrun => s.fifo.ovr
  | .nonEmpty => queuedAtLeast s 1
  | .watermark n => queuedAtLeast s n
  | .field a f => getField s a f != 0
  | .inv c => !irqHolds s c
  | .both c d => irqHolds s c && irqHolds s d
  | .either c d => irqHolds s c || irqHolds s d
  | .custom id => Config.customIrq id s.fv s.fifo s.user

/-- `IRQ <- IRQ_COND(S)` (60_exceptions.md R281). -/
def settleIrq (s : State) : State := { s with irq := irqHolds s s.cfg.irqCond }

/-- Gate g2: no multiple-operation bit, or it is set for this transaction (43_bus_transactions.md R205). -/
def multipleGate (s : State) : Bool := s.cfg.format.msBit.isNone || s.tx.msLatch

/-- Gate g3: the run-time enable flag, read from the store without side effects (43_bus_transactions.md R205). -/
def flagGate (s : State) : Bool :=
  match s.cfg.aiGateFlag with
  | none => true
  | some (a, f) => getField s a f == 1

/-- Gate g4: inside the data-register range (43_bus_transactions.md R205). -/
def rangeGate (c : Cfg) (a : Nat) : Bool :=
  match c.aiRange with
  | none => true
  | some (lo, hi) => decide (lo ≤ a) && decide (a ≤ hi)

/-- Gate g5: not an address that never advances (43_bus_transactions.md R205). -/
def holdGate (c : Cfg) (a : Nat) : Bool := !c.aiHoldSet.contains a

/-- All the gates g1 to g5 (43_bus_transactions.md R205). -/
def advanceOpen (s : State) : Bool :=
  s.cfg.aiBase && multipleGate s && flagGate s && rangeGate s.cfg s.tx.curAddr.toNat &&
    holdGate s.cfg s.tx.curAddr.toNat

/-- The address after `a` (43_bus_transactions.md R206): the comparison with the wrap boundary is made on the untruncated
sum, the result is cut to `ADDR_BITS` bits. -/
def nextAddr (c : Cfg) (a : Nat) : BitVec 16 :=
  match c.aiWrap with
  | none => truncAddr c.format (a + 1)
  | some (wrapAt, wrapTo) =>
    if a + 1 = wrapAt then truncAddr c.format wrapTo else truncAddr c.format (a + 1)

/-- The modulus of the byte phase at a register index: its byte count, 2 on an unmapped index (43_bus_transactions.md
R207). -/
def phaseModulus (c : Cfg) (a : Nat) : Nat :=
  match c.find a with
  | none => 2
  | some r => r.width.bytes

end Sys2Proof.Machine
end

