-- ==== Sys2Proof/Machine/Engine.lean ====
section
/-! DEFINITION. The register engine: field, register and collection operations (40_field_ops.md, 41_register_ops.md,
42_collection_ops.md), written over a runner that says what calling a hook does. -/

namespace Sys2Proof.Machine

/-- The call of a hook with its arguments (40_field_ops.md R122, R127, R128; 41_register_ops.md R152). -/
inductive HookCall where
  | provide (p : Provider) (stored : Half)
  | onField (h : FieldHook) (old new : Half)
  | onRegister (h : RegHook) (k : Nat) (b : Byte)
deriving DecidableEq, Repr, Inhabited

/-- What calling a hook does. The value matters for a provider only. -/
abbrev Runner := HookCall → State → Ran Half

/-! ### Fields -/

/-- `FLD.READ` of field `f`, described by `d`, of the register at `a` (40_field_ops.md R121 to R125). The clear value of a
ReadToClear field is stored as it is declared, without the Enum check (log 37, DESIGN CHOICE). -/
def fldRead (run : Runner) (a f : Nat) (d : FieldDef) (s : State) : Ran Half :=
  match d.acc with
  | .write => .done 0 s
  | .readToClear =>
    match d.prov with
    | some p => (run (.provide p (getField s a f)) s).andThen fun v t => .done (cut d v) t
    | none => .done (getField s a f) (setField s a f d.clearVal)
  | _ =>
    match d.prov with
    | some p => (run (.provide p (getField s a f)) s).andThen fun v t => .done (cut d v) t
    | none => .done (getField s a f) s

/-- Calling a field callback that may be absent. -/
def callField (run : Runner) (h : Option FieldHook) (old new : Half) (s : State) : Ran Unit :=
  match h with
  | none => .done () s
  | some h => (run (.onField h old new) s).andThen fun _ t => .done () t

/-- The store of an accepted field write and its callbacks (40_field_ops.md R126 to R128). -/
def storeField (run : Runner) (a f : Nat) (d : FieldDef) (old new : Half) (s : State) : Ran Unit :=
  (callField run d.wcb old new (setField s a f new)).andThen fun _ t =>
    if new = old then .done () t else callField run d.ccb old new t

/-- `FLD.WRITE` (40_field_ops.md R126 to R132). -/
def fldWrite (run : Runner) (a f : Nat) (d : FieldDef) (v : Half) (s : State) : Ran Unit :=
  match d.acc with
  | .read => .done () (say s (.wReadonlyWrite a f))
  | .writeOneToClear => storeField run a f d (getField s a f) (getField s a f &&& ~~~(cut d v)) s
  | _ =>
    if enumRefuses d (cut d v) then .done () (say s (.wInvalidEnum a f (cut d v)))
    else storeField run a f d (getField s a f) (cut d v) s

/-! ### Registers -/

/-- The fields of a byte written in field order, from index `i` on (41_register_ops.md R151). -/
def writeFields (run : Runner) (a k : Nat) (b : Byte) : Nat → List FieldDef → State → Ran Unit
  | _, [], s => .done () s
  | i, d :: rest, s =>
    match overlap d k with
    | none => writeFields run a k b (i + 1) rest s
    | some p =>
      (fldWrite run a i d (mergeByte d p b (getField s a i)) s).andThen fun _ t =>
        writeFields run a k b (i + 1) rest t

/-- The tagged-bit record of a byte write (41_register_ops.md R154). -/
def sayTagged (r : RegisterDef) (k : Nat) (b : Byte) (s : State) : State :=
  if tagHit r k b then say s (.wTaggedWrite r.addr k b) else s

/-- Calling the whole-register callback (41_register_ops.md R152). -/
def callRegister (run : Runner) (r : RegisterDef) (k : Nat) (b : Byte) (s : State) : Ran Unit :=
  match r.rwcb with
  | none => .done () s
  | some h => (run (.onRegister h k b) s).andThen fun _ t => .done () t

/-- `REG.WRITEB` (41_register_ops.md R151). -/
def regWriteB (run : Runner) (r : RegisterDef) (k : Nat) (b : Byte) (s : State) : Ran Unit :=
  (writeFields run r.addr k b 0 r.fields (sayTagged r k b s)).andThen fun _ t => callRegister run r k b t

/-- The fields of a byte read in field order, from index `i` on, gathered onto `acc` (41_register_ops.md R153). -/
def readFields (run : Runner) (a k : Nat) : Nat → List FieldDef → Byte → State → Ran Byte
  | _, [], acc, s => .done acc s
  | i, d :: rest, acc, s =>
    match overlap d k with
    | none => readFields run a k (i + 1) rest acc s
    | some p =>
      (fldRead run a i d s).andThen fun v t => readFields run a k (i + 1) rest (acc ||| sliceByte p v) t

/-- `REG.READB` (41_register_ops.md R153). -/
def regReadB (run : Runner) (r : RegisterDef) (k : Nat) (s : State) : Ran Byte :=
  readFields run r.addr k 0 r.fields (reservedByte r k) s

/-! ### The collection -/

/-- The record of a read miss (42_collection_ops.md R172). -/
def missRead (s : State) (addr : Nat) : State :=
  match s.cfg.missPolicy with
  | .silent => s
  | .logAndZero => say s (.wUnmappedRead addr)

/-- The record of a write miss (42_collection_ops.md R172). -/
def missWrite (s : State) (addr : Nat) (b : Byte) : State :=
  match s.cfg.missPolicy with
  | .silent => s
  | .logAndZero => say s (.wUnmappedWrite addr b)

/-- `COLL.READ` (42_collection_ops.md R173). -/
def collRead (run : Runner) (addr : Nat) (s : State) : Ran Byte :=
  match locate s.cfg addr with
  | none => .done 0 (missRead s addr)
  | some (r, o) => regReadB run r (sigIndex r.width.bytes o (endianOf s.cfg)) s

/-- `COLL.WRITE` (42_collection_ops.md R174). -/
def collWrite (run : Runner) (addr : Nat) (b : Byte) (s : State) : Ran Unit :=
  match locate s.cfg addr with
  | none => .done () (missWrite s addr b)
  | some (r, o) => regWriteB run r (sigIndex r.width.bytes o (endianOf s.cfg)) b s

/-- `COLL.TRYREAD` (42_collection_ops.md R175). -/
def collTryRead (run : Runner) (addr : Nat) (s : State) : Ran (Bool × Byte) :=
  match locate s.cfg addr with
  | none => .done (false, 0) s
  | some (r, o) =>
    (regReadB run r (sigIndex r.width.bytes o (endianOf s.cfg)) s).andThen fun b t => .done (true, b) t

/-- `COLL.TRYWRITE` (42_collection_ops.md R176). -/
def collTryWrite (run : Runner) (addr : Nat) (b : Byte) (s : State) : Ran Bool :=
  match locate s.cfg addr with
  | none => .done false s
  | some (r, o) =>
    (regWriteB run r (sigIndex r.width.bytes o (endianOf s.cfg)) b s).andThen fun _ t => .done true t

/-- The register an offset form reaches (42_collection_ops.md R177): the base is a register's own address and the offset is
inside it. -/
def offsetTarget (c : Cfg) (base o : Nat) : Option RegisterDef :=
  match c.find base with
  | none => none
  | some r => if o < r.width.bytes then some r else none

/-- `COLL.READOFF` (42_collection_ops.md R177). -/
def collReadOff (run : Runner) (base o : Nat) (e : Endian) (s : State) : Ran Byte :=
  match offsetTarget s.cfg base o with
  | none => .done 0 (missRead s base)
  | some r => regReadB run r (sigIndex r.width.bytes o e) s

/-- `COLL.WRITEOFF` (42_collection_ops.md R178). -/
def collWriteOff (run : Runner) (base o : Nat) (b : Byte) (e : Endian) (s : State) : Ran Unit :=
  match offsetTarget s.cfg base o with
  | none => .done () (missWrite s base b)
  | some r => regWriteB run r (sigIndex r.width.bytes o e) b s

end Sys2Proof.Machine
end

