-- ==== Sys2Proof/Machine/Hooks.lean ====
section
/-! DEFINITION. Running hooks (00_scope.md R13, R14): the standard library (44_sample_fifo.md R261, R262), hook programs and
custom hooks (log 4), nested to any depth (42_collection_ops.md R181, log 5). -/

namespace Sys2Proof.Machine

/-- A Bool as the number 0 or 1. -/
def boolInt (b : Bool) : Int := if b then 1 else 0

/-- What a hook program has at hand beside the state: what it saw when it was called, its two arguments, the result of the
last operation it called and the flag of the last lenient access. -/
structure HookFrame where
  entry : View
  arg0 : Half
  arg1 : Half
  acc : Int := 0
  hit : Bool := false
deriving DecidableEq, Repr, Inhabited

/-- The frame of a hook called in a state. -/
def State.frame (s : State) (x y : Half) : HookFrame := { entry := s.view, arg0 := x, arg1 := y }

/-- `FV[a].f` in a view (00_scope.md R12). -/
def viewField (c : Cfg) (v : View) (a f : Nat) : Half := (Memory.find v.fv (a, f)).getD (c.slotReset a f)

/-- The value of a hook expression in a view (log 4). A field, a lane or an entry of `USER` that does not exist reads 0 (log
41, DESIGN CHOICE). -/
def evalExpr (c : Cfg) (w : HookFrame) (v : View) : HookExpr → Int
  | .lit n => n
  | .arg0 => w.arg0.toNat
  | .arg1 => w.arg1.toNat
  | .acc => w.acc
  | .hit => boolInt w.hit
  | .before e => evalExpr c w w.entry e
  | .field a f => (viewField c v a f).toNat
  | .user i => v.user.getD i 0
  | .userLength => v.user.length
  | .queued => v.fifo.q.length
  | .lane i => (v.fifo.current.getD i 0).toInt
  | .modeIs m => boolInt (v.fifo.mode == m)
  | .overrun => boolInt v.fifo.ovr
  | .kept => boolInt v.fifo.keep
  | .attached => boolInt v.fifo.streamAttached
  | .afterStream => boolInt v.fifo.afterStream
  | .add e g => evalExpr c w v e + evalExpr c w v g
  | .sub e g => evalExpr c w v e - evalExpr c w v g
  | .mul e g => evalExpr c w v e * evalExpr c w v g
  | .eq e g => boolInt (evalExpr c w v e == evalExpr c w v g)
  | .lt e g => boolInt (decide (evalExpr c w v e < evalExpr c w v g))
  | .bit e i => boolInt ((BitVec.ofInt 64 (evalExpr c w v e)).getLsbD i)

/-- The value of a hook expression in a state. -/
def HookFrame.eval (w : HookFrame) (s : State) (e : HookExpr) : Int := evalExpr s.cfg w s.view e

/-- A sample from lane expressions. -/
def evalLanes (w : HookFrame) (s : State) (lanes : List HookExpr) : Sample :=
  lanes.map fun e => BitVec.ofInt 16 (w.eval s e)

/-- `USER` written by a hook. -/
def putUser (s : State) (entries : List Int) : State := { s with user := entries }

/-- `CURRENT` written by a hook. -/
def setCurrent (s : State) (x : Sample) : State := { s with fifo := { s.fifo with current := x } }

/-- `Q` written by a hook, in every mode (log 36). -/
def setQueue (s : State) (q : List Sample) : State := { s with fifo := { s.fifo with q := q } }

/-- `OVR` written by a hook; going from 0 to 1 emits `OVR_SIGNAL` (60_exceptions.md R283; log 29). -/
def setOverrun (s : State) (b : Bool) : State :=
  { s with fifo := { s.fifo with ovr := b }
           ovrSignals := if b && !s.fifo.ovr then s.ovrSignals + 1 else s.ovrSignals }

/-- `STREAM_ATTACHED` written by a hook. -/
def setAttached (s : State) (b : Bool) : State := { s with fifo := { s.fifo with streamAttached := b } }

/-- One step of a hook; the answer is the frame for the next one. A step that names no slot, or gives no sample or no queue,
is outside the hook contract (log 4). A hook may write `Q` in mode Bypass too: 10_state.md R47 speaks of operations, and
00_scope.md R13 lets a hook write the FIFO state (log 36, DESIGN CHOICE). `setField` stores what it is given, in a field
that refuses unknown symbols too: R13 lets a hook write any stored value, and the check of 40_field_ops.md R130 is one of
FLD.WRITE (log 37, DESIGN CHOICE). A hook may set and clear `KEEP`, attach and detach the stream, feed samples and write the
rest of the FIFO state too, a hook that a bus primitive runs among them: 60_exceptions.md R286 and the rules that name what
changes each component speak of the operations, not of hooks (log 39, DESIGN CHOICE). -/
def runAct (run : Runner) (w : HookFrame) (act : HookAct) (s : State) : Ran HookFrame :=
  match act with
  | .setField a f v =>
    match s.cfg.field a f with
    | none => .refused .hookContract
    | some _ => .done w (setField s a f (BitVec.ofInt 16 (w.eval s v)))
  | .setUser i v => .done w (putUser s (s.user.set i (w.eval s v)))
  | .pushUser v => .done w (putUser s (s.user ++ [w.eval s v]))
  | .replaceUser entries => .done w (putUser s (entries.map (w.eval s)))
  | .keepUser n => .done w (putUser s (s.user.take (w.eval s n).toNat))
  | .setCurrent lanes =>
    if lanes.length = s.cfg.lanes then .done w (setCurrent s (evalLanes w s lanes))
    else .refused .hookContract
  | .setQueue samples =>
    if samples.length ≤ s.cfg.cap ∧ samples.all (fun z => z.length == s.cfg.lanes) then
      .done w (setQueue s samples)
    else .refused .hookContract
  | .setOverrun b => .done w (setOverrun s b)
  | .setKeep b => .done w (setKeep s b)
  | .setAttached b => .done w (setAttached s b)
  | .setAfterStream b => .done w (setAfterStream s b)
  | .feed lanes =>
    if lanes.length = s.cfg.lanes then .done w (feed s (evalLanes w s lanes))
    else .refused .hookContract
  | .deq => .done { w with acc := boolInt (dequeue s).1 } (dequeue s).2
  | .fifoReset => .done w (resetQueue s)
  | .clrOvr => .done w (clearOverrun s)
  | .setMode m => .done w (setMode s m)
  | .streamTick t => .done w (streamTick s (w.eval s t).toNat)
  | .fldRead a f =>
    match s.cfg.field a f with
    | none => .refused .hookContract
    | some d => (fldRead run a f d s).andThen fun v t => .done { w with acc := v.toNat } t
  | .fldWrite a f v =>
    match s.cfg.field a f with
    | none => .refused .hookContract
    | some d =>
      (fldWrite run a f d (BitVec.ofInt 16 (w.eval s v)) s).andThen fun _ t => .done w t
  | .collRead addr => (collRead run addr s).andThen fun b t => .done { w with acc := b.toNat } t
  | .collWrite addr v =>
    (collWrite run addr (BitVec.ofInt 8 (w.eval s v)) s).andThen fun _ t => .done w t
  | .collTryRead addr =>
    (collTryRead run addr s).andThen fun r t => .done { w with acc := r.2.toNat, hit := r.1 } t
  | .collTryWrite addr v =>
    (collTryWrite run addr (BitVec.ofInt 8 (w.eval s v)) s).andThen fun hit t => .done { w with hit := hit } t
  | .collReadOff base o e => (collReadOff run base o e s).andThen fun b t => .done { w with acc := b.toNat } t
  | .collWriteOff base o v e =>
    (collWriteOff run base o (BitVec.ofInt 8 (w.eval s v)) e s).andThen fun _ t => .done w t
  | .collReset => .done w (resetCollection s)
  | .softReset => .done w (softReset s)
  | .violation what => takeViolation s what

/-- The steps of a hook in order, each under its guard; the answer is the last frame. -/
def runSteps (run : Runner) : List HookStep → HookFrame → State → Ran HookFrame
  | [], w, s => .done w s
  | h :: rest, w, s =>
    if w.eval s h.guard = 0 then runSteps run rest w s
    else (runAct run w h.act s).andThen fun w' t => runSteps run rest w' t

/-- `SAMPLE_XFORM` (44_sample_fifo.md R261). The spec names the identity alone and leaves the chip's shift open; that a left
shift loses the bits past 15 and that a right shift is arithmetic is the model's choice, and any other transform is `custom`
(91_not_in_source.md N47; log 3, DESIGN CHOICE). -/
def transformLane (s : State) (lane : Nat) (v : Half) : Half :=
  match s.cfg.xform with
  | .identity => v
  | .shiftLeft n => v <<< n
  | .shiftRight n => v.sshiftRight n
  | .custom id => Config.customXform id s.view lane v

/-- The byte of `CURRENT` that `PV_SAMPLE` shows (44_sample_fifo.md R261). -/
def sampleByte (s : State) (lane k : Nat) : Half := laneByte (transformLane s lane (s.fifo.current.getD lane 0)) k

/-- The value of `PV_FIFO_COUNT` (44_sample_fifo.md R261). -/
def fifoCount (s : State) : Half :=
  match s.fifo.mode with
  | .bypass => 0
  | _ => BitVec.ofNat 16 s.fifo.q.length

/-- Running a value provider (44_sample_fifo.md R261). -/
def runProvider (run : Runner) (p : Provider) (stored : Half) (s : State) : Ran Half :=
  match p with
  | .pvSample lane k deq =>
    let t := if deq then (dequeue s).2 else s
    .done (sampleByte t lane k) t
  | .pvFifoCount => .done (fifoCount s) s
  | .pvOvr clear => .done (if s.fifo.ovr then 1 else 0) (if clear then clearOverrun s else s)
  | .program steps ret =>
    (runSteps run steps (s.frame stored 0) s).andThen fun w t => .done (BitVec.ofInt 16 (w.eval t ret)) t
  | .custom id =>
    (runSteps run (Config.customSteps id stored 0 s.view) (s.frame stored 0) s).andThen fun w t =>
      .done (Config.customValue id stored w.entry t.view) t
  | .customPure id => .done (Config.customValue id stored s.view s.view) s

/-- Running the steps of a callback, which returns nothing. -/
def runCallback (run : Runner) (steps : List HookStep) (x y : Half) (s : State) : Ran Half :=
  (runSteps run steps (s.frame x y) s).andThen fun _ t => .done 0 t

/-- Running a field callback (44_sample_fifo.md R262). -/
def runFieldHook (run : Runner) (h : FieldHook) (old new : Half) (s : State) : Ran Half :=
  match h with
  | .whSoftReset => .done 0 (if new = 1 then softReset s else s)
  | .whFifoMode table rest => .done 0 (setMode s (table.getD new.toNat rest))
  | .program steps => runCallback run steps old new s
  | .custom id => runCallback run (Config.customSteps id old new s.view) old new s

/-- Running a whole-register callback (44_sample_fifo.md R262). -/
def runRegHook (run : Runner) (h : RegHook) (k : Nat) (b : Byte) (s : State) : Ran Half :=
  match h with
  | .whClrOvr k0 i => .done 0 (if k = k0 ∧ b.getLsbD i then clearOverrun s else s)
  | .program steps => runCallback run steps (BitVec.ofNat 16 k) (b.setWidth 16) s
  | .custom id =>
    runCallback run (Config.customSteps id (BitVec.ofNat 16 k) (b.setWidth 16) s.view) (BitVec.ofNat 16 k)
      (b.setWidth 16) s

/-- Running a hook whose nested calls are run by `run`. -/
def runHook (run : Runner) (call : HookCall) (s : State) : Ran Half :=
  match call with
  | .provide p stored => runProvider run p stored s
  | .onField h old new => runFieldHook run h old new s
  | .onRegister h k b => runRegHook run h k b s

/-- Running a hook with at most `depth` hooks active at once; one more is refused. `hooks` is its limit. -/
def hookRun : Nat → Runner
  | 0 => fun _ _ => .refused .hookNesting
  | depth + 1 => fun call s => runHook (hookRun depth) call s

/-- The answer of a hook at a depth that suffices for it. -/
def answerAt (call : HookCall) (s : State) (depth : Nat) : Option (Ran Half) :=
  match hookRun depth call s with
  | .refused .hookNesting => none
  | r => some r

/-- The first answer of `p` from `n` on; none if `p` never answers. -/
def firstFrom {α : Type} (p : Nat → Option α) (n : Nat) : Option α :=
  match p n with
  | some a => some a
  | none => firstFrom p (n + 1)
partial_fixpoint

/-- The runner of the block: a hook runs with every nested call it makes, to whatever depth it takes; a hook that calls
itself without end is refused (00_scope.md R13, 42_collection_ops.md R181; log 5). Depth 8 is only tried first;
`hooks_eq_runHook` says that no depth shows. -/
def hooks : Runner := fun call s =>
  match answerAt call s 8 with
  | some r => r
  | none => (firstFrom (answerAt call s) 9).getD (.refused .hookNesting)

end Sys2Proof.Machine
end

