-- ==== Sys2Proof/Machine/Transaction.lean ====
section
/-! DEFINITION. The bus transaction state machine (43_bus_transactions.md) over the register engine: the address phase, the
auto-increment, the data bytes, the three bus primitives; and how an operation run on its own becomes a step. -/

namespace Sys2Proof.Machine

/-! ### The address phase -/

/-- Completion of the address phase with register address `a`, read flag `rw`, multiple-operation flag `ms` in a format with
read-flag position `rwBit` (30_encoding.md R97, 43_bus_transactions.md R194). -/
def completeAddress (s : State) (a : BitVec 16) (rwBit : Option Nat) (rw ms : Bool) : State :=
  { s with tx := { s.tx with curAddr := a, addrValid := true, rwLatch := rw, msLatch := ms, bytePhase := 0,
                             addrCnt := 0, addrAcc := 0, tstate := stateAfterAddress rwBit rw } }

/-- `ADDR.SET(b0, b1)` in the configured format (30_encoding.md R93 to R97). -/
def addrSet (s : State) (b0 b1 : Byte) : State :=
  completeAddress s (regAddr s.cfg.format (addrWord s.cfg.format.bytes s.cfg.addrOrder b0 b1)) s.cfg.format.rwBit
    (flagBit s.cfg.format.rwBit b0) (flagBit s.cfg.format.msBit b0)

/-- The block waits for address bytes: `TSTATE` is Idle or AddressPartial (30_encoding.md R91). -/
def awaitsAddress (s : State) : Bool := s.tx.tstate == .idle || s.tx.tstate == .addressPartial

/-- One address byte (43_bus_transactions.md R192, R193). -/
def addressByte (s : State) (b : Byte) : State :=
  if s.tx.addrCnt + 1 < s.cfg.format.bytes.count then
    { s with tx := { s.tx with addrAcc := b, addrCnt := s.tx.addrCnt + 1, tstate := .addressPartial } }
  else
    match s.cfg.format.bytes with
    | .one => addrSet s b b
    | .two => addrSet s s.tx.addrAcc b

/-- The address phase at the head of a bus write (43_bus_transactions.md R192): the bytes left over, and the state. -/
def addressPhase (s : State) : List Byte → List Byte × State
  | [] => ([], s)
  | b :: rest => if awaitsAddress s then addressPhase (addressByte s b) rest else (b :: rest, s)

/-! ### Data bytes -/

/-- `ADVANCE` (43_bus_transactions.md R207). -/
def advance (s : State) : State :=
  match s.cfg.wideAccess with
  | .offset =>
    { s with tx := { s.tx with bytePhase := (s.tx.bytePhase + 1) % phaseModulus s.cfg s.tx.curAddr.toNat } }
  | .subRegisters =>
    if advanceOpen s then { s with tx := { s.tx with curAddr := nextAddr s.cfg s.tx.curAddr.toNat } } else s

/-- `TSTATE <- t`. -/
def setTState (s : State) (t : TState) : State := { s with tx := { s.tx with tstate := t } }

/-- The register access of a written data byte (43_bus_transactions.md R198, R204). -/
def writeTarget (s : State) (b : Byte) : Ran Unit :=
  match s.cfg.wideAccess with
  | .offset => collWriteOff hooks s.tx.curAddr.toNat s.tx.bytePhase b (endianOf s.cfg) s
  | .subRegisters => collWrite hooks s.tx.curAddr.toNat b s

/-- The register access of a read data byte (43_bus_transactions.md R203, R204). -/
def readTarget (s : State) : Ran Byte :=
  match s.cfg.wideAccess with
  | .offset => collReadOff hooks s.tx.curAddr.toNat s.tx.bytePhase (endianOf s.cfg) s
  | .subRegisters => collRead hooks s.tx.curAddr.toNat s

/-- `DATA.WRITEBYTE(b)`, one atomic step (43_bus_transactions.md R198). -/
def dataWriteByte (b : Byte) (s : State) : Ran Unit :=
  (writeTarget s b).andThen fun _ t => .done () (settleIrq (setTState (advance t) .writing))

/-- `DATA.READBYTE()`, one atomic step, its byte put on the bus (43_bus_transactions.md R203). When an invariant violation
abandons the read at a later byte, the bytes read before it stay on the bus: R199 and 60_exceptions.md R277 do not say what
the bus master then sees (log 20, DESIGN CHOICE). -/
def dataReadByte (s : State) : Ran Unit :=
  (readTarget s).andThen fun v t => .done () (reply (settleIrq (setTState (advance t) .reading)) [v])

/-- Data bytes written in order (43_bus_transactions.md R192). -/
def writeBytes : List Byte → State → Ran Unit
  | [], s => .done () s
  | b :: rest, s => (dataWriteByte b s).andThen fun _ t => writeBytes rest t

/-- `n` data bytes read in order (43_bus_transactions.md R199). -/
def readBytes : Nat → State → Ran Unit
  | 0, s => .done () s
  | n + 1, s => (dataReadByte s).andThen fun _ t => readBytes n t

/-! ### The bus primitives -/

/-- The bytes of a bus write that the address phase leaves, judged by the state it leaves (43_bus_transactions.md R192, R195
to R197). -/
def writeRest (rest : List Byte) (s : State) : Ran Unit :=
  match rest with
  | [] => .done () s
  | b :: more =>
    match s.tx.tstate with
    | .reading => .done () (takeWriteMisuse s (more.length + 1))
    | .addressSet => writeBytes (b :: more) s
    | .writing => writeBytes (b :: more) s
    | .idle => .done () s
    | .addressPartial => .done () s

/-- `BUS.WRITE(bytes)` (43_bus_transactions.md R192). -/
def busWrite (bytes : List Byte) (s : State) : Ran Unit := writeRest (addressPhase s bytes).1 (addressPhase s bytes).2

/-- A bus read is served (43_bus_transactions.md R199, R213). -/
def serves (s : State) : Bool :=
  match s.tx.tstate with
  | .addressSet => true
  | .reading => true
  | .idle => s.cfg.addrPreserve && s.tx.addrValid
  | .addressPartial => false
  | .writing => false

/-- The misuse record of a bus read that is not served (43_bus_transactions.md R200 to R202). -/
def readMisuse (s : State) (count : Nat) : Diag :=
  match s.tx.tstate with
  | .addressPartial => .eReadAddrIncomplete count
  | .writing => .eReadWhileWriting count
  | _ => .eReadNoAddress count

/-- `BUS.READ(count)` for at least one byte (43_bus_transactions.md R199). -/
def busRead (count : Nat) (s : State) : Ran Unit :=
  if serves s then readBytes count s else .done () (takeReadMisuse s (readMisuse s count) count)

/-- `BUS.FINISH` (43_bus_transactions.md R212). -/
def busFinish (s : State) : State :=
  { s with tx := { s.tx with tstate := .idle, addrCnt := 0, addrAcc := 0, rwLatch := false, msLatch := false,
                             bytePhase := 0, addrValid := s.cfg.addrPreserve && s.tx.addrValid } }

/-! ### An operation as a step -/

/-- The end of an operation (60_exceptions.md R277, R281): its result is handed over and the interrupt level is settled; an
abandoned operation leaves the state as it is, with the bytes a bus read has answered so far (log 20, DESIGN CHOICE); a
refusal stands. -/
def conclude (x : Ran Result) : Host.Outcome State Fault Refusal :=
  match x with
  | .done r s => .next (settleIrq (respond s r))
  | .abandoned s => .next s
  | .refused r => .refused r

/-- An operation is defined only while `FAULTED` is not set (43_bus_transactions.md R211). -/
def operate (s : State) (body : State → Ran Result) : Host.Outcome State Fault Refusal :=
  if s.faulted then .fault .invariantLatched else conclude (body s)

/-- An operation that runs no hook and returns nothing, as a step. -/
def operatePlain (s : State) (f : State → State) : Host.Outcome State Fault Refusal :=
  operate s fun t => .done .none (f t)

/-- A primitive with an empty operand changes nothing (43_bus_transactions.md R210). -/
def operateNothing (s : State) : Host.Outcome State Fault Refusal :=
  if s.faulted then .fault .invariantLatched else .next s

end Sys2Proof.Machine
end

