-- ==== Sys2Proof/Machine/AddressOps.lean ====
section
/-! DEFINITION. The four forms of ADDR.SET (30_encoding.md R92, R97): each completes the address phase with the fields of its
own format (log 17). -/

namespace Sys2Proof.Machine

/-- ADDR.SET in format PLAIN8 (30_encoding.md R92, R97). -/
def execAddrSetPlain8 (a : BitVec 8) (s : State) : Host.Outcome State Fault Refusal :=
  operatePlain s fun t => completeAddress t (truncAddr t.cfg.format a.toNat) plain8.rwBit false false

/-- ADDR.SET in format RW7 (30_encoding.md R92, R95, R97). -/
def execAddrSetRw7 (r : Bool) (a : BitVec 7) (s : State) : Host.Outcome State Fault Refusal :=
  operatePlain s fun t => completeAddress t (truncAddr t.cfg.format a.toNat) rw7.rwBit r false

/-- ADDR.SET in format RW7_MS6 (30_encoding.md R92, R95 to R97). -/
def execAddrSetRw7Ms6 (r m : Bool) (a : BitVec 6) (s : State) : Host.Outcome State Fault Refusal :=
  operatePlain s fun t => completeAddress t (truncAddr t.cfg.format a.toNat) rw7ms6.rwBit r m

/-- ADDR.SET in format PLAIN16 (30_encoding.md R92, R93, R97). -/
def execAddrSetPlain16 (a : BitVec 16) (s : State) : Host.Outcome State Fault Refusal :=
  operatePlain s fun t => completeAddress t (truncAddr t.cfg.format a.toNat) plain16.rwBit false false

end Sys2Proof.Machine
end

