-- ==== Sys2Proof/Machine/BusOps.lean ====
section
/-! DEFINITION. The bus primitives and the auto-increment (43_bus_transactions.md), each run whole (log 11). -/

namespace Sys2Proof.Machine

/-- BUS.WRITE (43_bus_transactions.md R192); an empty write is nothing (R210). -/
def execBusWrite (bytes : List Byte) (s : State) : Host.Outcome State Fault Refusal :=
  match bytes with
  | [] => operateNothing s
  | b :: rest => operate s fun t => (busWrite (b :: rest) t).andThen fun _ u => .done .none u

/-- BUS.READ (43_bus_transactions.md R199); a read of no byte is nothing (R210). -/
def execBusRead (count : Nat) (s : State) : Host.Outcome State Fault Refusal :=
  match count with
  | 0 => operateNothing s
  | n + 1 => operate s fun t => (busRead (n + 1) t).andThen fun _ u => .done .none u

/-- BUS.FINISH (43_bus_transactions.md R212). -/
def execBusFinish (s : State) : Host.Outcome State Fault Refusal := operatePlain s busFinish

/-- ADVANCE (43_bus_transactions.md R207). -/
def execAdvance (s : State) : Host.Outcome State Fault Refusal := operatePlain s advance

end Sys2Proof.Machine
end

