-- ==== Sys2Proof/Machine/CollectionOps.lean ====
section
/-! DEFINITION. The register collection operations (42_collection_ops.md). -/

namespace Sys2Proof.Machine

/-- COLL.READ (42_collection_ops.md R173). -/
def execCollRead (addr : Nat) (s : State) : Host.Outcome State Fault Refusal :=
  operate s fun t => (collRead hooks addr t).andThen fun b u => .done (.byte b) u

/-- COLL.WRITE (42_collection_ops.md R174). -/
def execCollWrite (addr : Nat) (b : Byte) (s : State) : Host.Outcome State Fault Refusal :=
  operate s fun t => (collWrite hooks addr b t).andThen fun _ u => .done .none u

/-- COLL.TRYREAD (42_collection_ops.md R175). -/
def execCollTryRead (addr : Nat) (s : State) : Host.Outcome State Fault Refusal :=
  operate s fun t => (collTryRead hooks addr t).andThen fun r u => .done (.hitByte r.1 r.2) u

/-- COLL.TRYWRITE (42_collection_ops.md R176). -/
def execCollTryWrite (addr : Nat) (b : Byte) (s : State) : Host.Outcome State Fault Refusal :=
  operate s fun t => (collTryWrite hooks addr b t).andThen fun hit u => .done (.hit hit) u

/-- COLL.READOFF (42_collection_ops.md R177). -/
def execCollReadOff (base o : Nat) (e : Endian) (s : State) : Host.Outcome State Fault Refusal :=
  operate s fun t => (collReadOff hooks base o e t).andThen fun b u => .done (.byte b) u

/-- COLL.WRITEOFF (42_collection_ops.md R178). -/
def execCollWriteOff (base o : Nat) (b : Byte) (e : Endian) (s : State) : Host.Outcome State Fault Refusal :=
  operate s fun t => (collWriteOff hooks base o b e t).andThen fun _ u => .done .none u

/-- COLL.RESET (42_collection_ops.md R179). -/
def execCollReset (s : State) : Host.Outcome State Fault Refusal := operatePlain s resetCollection

end Sys2Proof.Machine
end

