-- ==== Sys2Proof/Machine/DeviceOps.lean ====
section
/-! DEFINITION. The block resets (70_reset_and_hazards.md). -/

namespace Sys2Proof.Machine

/-- DEV.RESET (70_reset_and_hazards.md R303). -/
def execDevReset (s : State) : Host.Outcome State Fault Refusal := operatePlain s deviceReset

/-- DEV.SOFTRESET (70_reset_and_hazards.md R304). -/
def execDevSoftReset (s : State) : Host.Outcome State Fault Refusal := operatePlain s softReset

end Sys2Proof.Machine
end

