-- ==== Sys2Proof/Machine/FieldOps.lean ====
section
/-! DEFINITION. The field operations (40_field_ops.md). -/

namespace Sys2Proof.Machine

/-- FLD.READ (40_field_ops.md R121). -/
def execFldRead (a f : Nat) (s : State) : Host.Outcome State Fault Refusal :=
  operate s fun t =>
    match t.cfg.field a f with
    | none => .refused .noSuchField
    | some d => (fldRead hooks a f d t).andThen fun v u => .done (.value v) u

/-- FLD.WRITE (40_field_ops.md R126). -/
def execFldWrite (a f v : Nat) (s : State) : Host.Outcome State Fault Refusal :=
  operate s fun t =>
    match t.cfg.field a f with
    | none => .refused .noSuchField
    | some d => (fldWrite hooks a f d (BitVec.ofNat 16 v) t).andThen fun _ u => .done .none u

end Sys2Proof.Machine
end

