-- ==== Sys2Proof/Machine/FifoOps.lean ====
section
/-! DEFINITION. The sample FIFO operations (44_sample_fifo.md). -/

namespace Sys2Proof.Machine

/-- FIFO.FEED (44_sample_fifo.md R236). A timestamp given with the sample is not stored (R258; log 19). -/
def execFifoFeed (_stamp : Option Time) (x : Sample) (s : State) : Host.Outcome State Fault Refusal :=
  operate s fun t => if x.length = t.cfg.lanes then .done .none (feed t x) else .refused .wrongLanes

/-- FIFO.DEQ (44_sample_fifo.md R238). -/
def execFifoDeq (s : State) : Host.Outcome State Fault Refusal :=
  operate s fun t => .done (.dequeued (dequeue t).1) (dequeue t).2

/-- FIFO.RESET (44_sample_fifo.md R244). -/
def execFifoReset (s : State) : Host.Outcome State Fault Refusal := operatePlain s resetQueue

/-- FIFO.CLROVR (44_sample_fifo.md R243). -/
def execFifoClrOvr (s : State) : Host.Outcome State Fault Refusal := operatePlain s clearOverrun

/-- FIFO.SETMODE (44_sample_fifo.md R242). -/
def execFifoSetMode (m : FifoMode) (s : State) : Host.Outcome State Fault Refusal :=
  operatePlain s fun t => setMode t m

/-- FIFO.STREAMTICK (44_sample_fifo.md R255). -/
def execFifoStreamTick (now : Time) (s : State) : Host.Outcome State Fault Refusal :=
  operatePlain s fun t => streamTick t now

end Sys2Proof.Machine
end

