-- ==== Sys2Proof/Machine/HostOps.lean ====
section
/-! DEFINITION. The host operations (44_sample_fifo.md R237, R245, R248 to R253, R260). -/

namespace Sys2Proof.Machine

/-- HOST.FEEDREPEAT (44_sample_fifo.md R237); a repeat of no feed does nothing. -/
def execHostFeedRepeat (x : Sample) (n : Nat) (s : State) : Host.Outcome State Fault Refusal :=
  match n with
  | 0 => operateNothing s
  | m + 1 =>
    operate s fun t =>
      if x.length = t.cfg.lanes then .done .none (feedTimes t x (m + 1)) else .refused .wrongLanes

/-- What HOST.LOADFILE does with a file once it is parsed (44_sample_fifo.md R248, R250 to R252): the samples it feeds,
whether it sets `KEEP`, and its result. -/
def loadPlan (c : Cfg) (name : Text) (lines : List Text) : List Sample × Bool × Result :=
  match parseLines c 1 lines with
  | (samples, none) => (samples, true, .loaded)
  | (samples, some (i, text)) =>
    match c.loadPartial with
    | .discard => ([], false, .cfgError name i text)
    | .preserve => (samples, !samples.isEmpty, .cfgError name i text)

/-- The end of HOST.LOADFILE, after its feeds: `KEEP` is set or left as it is. -/
def endLoad (s : State) (keeps : Bool) : State := if keeps then setKeep s true else s

/-- HOST.LOADFILE (44_sample_fifo.md R248). -/
def execHostLoadFile (name : Text) (lines : List Text) (s : State) : Host.Outcome State Fault Refusal :=
  operate s fun t =>
    match loadPlan t.cfg name lines with
    | (samples, keeps, result) => .done result (endLoad (feedAll t samples) keeps)

/-- HOST.ATTACHSTREAM (44_sample_fifo.md R253). -/
def execHostAttachStream (s : State) : Host.Outcome State Fault Refusal := operatePlain s attachStream

/-- HOST.DETACHSTREAM (44_sample_fifo.md R253). -/
def execHostDetachStream (s : State) : Host.Outcome State Fault Refusal := operatePlain s detachStream

/-- HOST.SETKEEP (44_sample_fifo.md R245). -/
def execHostSetKeep (b : Bool) (s : State) : Host.Outcome State Fault Refusal := operatePlain s fun t => setKeep t b

/-- HOST.SETPHYS (44_sample_fifo.md R260). -/
def execHostSetPhys (vs : List Ratio) (s : State) : Host.Outcome State Fault Refusal :=
  operate s fun t =>
    if vs.length = t.cfg.lanes then .done .none (feed (physLanes t vs).2 (physLanes t vs).1)
    else .refused .wrongLanes

end Sys2Proof.Machine
end

