-- ==== Sys2Proof/Machine/RegisterOps.lean ====
section
/-! DEFINITION. The register operations (41_register_ops.md). -/

namespace Sys2Proof.Machine

/-- The register whose byte `k` an operation names (41_register_ops.md R150). -/
def byteTarget (c : Cfg) (a k : Nat) : Option RegisterDef :=
  match c.find a with
  | none => none
  | some r => if k < r.width.bytes then some r else none

/-- REG.READB (41_register_ops.md R153). -/
def execRegReadB (a k : Nat) (s : State) : Host.Outcome State Fault Refusal :=
  operate s fun t =>
    match byteTarget t.cfg a k with
    | none => .refused .noSuchRegister
    | some r => (regReadB hooks r k t).andThen fun b u => .done (.byte b) u

/-- REG.WRITEB (41_register_ops.md R151). -/
def execRegWriteB (a k : Nat) (b : Byte) (s : State) : Host.Outcome State Fault Refusal :=
  operate s fun t =>
    match byteTarget t.cfg a k with
    | none => .refused .noSuchRegister
    | some r => (regWriteB hooks r k b t).andThen fun _ u => .done .none u

/-- REG.RESET (41_register_ops.md R155). -/
def execRegReset (a : Nat) (s : State) : Host.Outcome State Fault Refusal :=
  operate s fun t =>
    match t.cfg.find a with
    | none => .refused .noSuchRegister
    | some _ => .done .none (resetRegister t a)

end Sys2Proof.Machine
end

