-- ==== Sys2Proof/Machine/Dispatch.lean ====
section
/-! DEFINITION. One arm per operation, in the order of opcode_table.json. -/

namespace Sys2Proof.Machine

def exec (i : Instr) (s : State) : Host.Outcome State Fault Refusal :=
  match i with
  | .addrSetPlain8 a => Sys2Proof.Machine.execAddrSetPlain8 a s
  | .addrSetRw7 r a => Sys2Proof.Machine.execAddrSetRw7 r a s
  | .addrSetRw7Ms6 r m a => Sys2Proof.Machine.execAddrSetRw7Ms6 r m a s
  | .addrSetPlain16 a => Sys2Proof.Machine.execAddrSetPlain16 a s
  | .fldRead a f => Sys2Proof.Machine.execFldRead a f s
  | .fldWrite a f v => Sys2Proof.Machine.execFldWrite a f v s
  | .regReadB a k => Sys2Proof.Machine.execRegReadB a k s
  | .regWriteB a k b => Sys2Proof.Machine.execRegWriteB a k b s
  | .regReset a => Sys2Proof.Machine.execRegReset a s
  | .collRead addr => Sys2Proof.Machine.execCollRead addr s
  | .collWrite addr b => Sys2Proof.Machine.execCollWrite addr b s
  | .collTryRead addr => Sys2Proof.Machine.execCollTryRead addr s
  | .collTryWrite addr b => Sys2Proof.Machine.execCollTryWrite addr b s
  | .collReadOff base o e => Sys2Proof.Machine.execCollReadOff base o e s
  | .collWriteOff base o b e => Sys2Proof.Machine.execCollWriteOff base o b e s
  | .collReset => Sys2Proof.Machine.execCollReset s
  | .busWrite bytes => Sys2Proof.Machine.execBusWrite bytes s
  | .busRead count => Sys2Proof.Machine.execBusRead count s
  | .busFinish => Sys2Proof.Machine.execBusFinish s
  | .advance => Sys2Proof.Machine.execAdvance s
  | .fifoFeed stamp x => Sys2Proof.Machine.execFifoFeed stamp x s
  | .fifoDeq => Sys2Proof.Machine.execFifoDeq s
  | .fifoReset => Sys2Proof.Machine.execFifoReset s
  | .fifoClrOvr => Sys2Proof.Machine.execFifoClrOvr s
  | .fifoSetMode m => Sys2Proof.Machine.execFifoSetMode m s
  | .fifoStreamTick t => Sys2Proof.Machine.execFifoStreamTick t s
  | .hostFeedRepeat x n => Sys2Proof.Machine.execHostFeedRepeat x n s
  | .hostLoadFile name lines => Sys2Proof.Machine.execHostLoadFile name lines s
  | .hostAttachStream => Sys2Proof.Machine.execHostAttachStream s
  | .hostDetachStream => Sys2Proof.Machine.execHostDetachStream s
  | .hostSetKeep b => Sys2Proof.Machine.execHostSetKeep b s
  | .hostSetPhys vs => Sys2Proof.Machine.execHostSetPhys vs s
  | .devReset => Sys2Proof.Machine.execDevReset s
  | .devSoftReset => Sys2Proof.Machine.execDevSoftReset s

end Sys2Proof.Machine
end

