-- ==== Sys2Proof/Machine/Agents.lean ====
section
/-! DEFINITION. How the agents' events become atomic steps (20_memory.md R70 to R73; log 9, log 11 to log 14): every atomic
step runs one operation, whole or a piece of it, and leaves the rest with the agent. -/

namespace Sys2Proof.Machine

/-- The state with the timestamp of the event in progress. -/
def atTime (s : State) (t : Time) : State := { s with env := { s.env with now := t } }

/-- The state with the head event of the bus queue taken, its timestamp the latest seen. -/
def takeBus (s : State) (t : Time) (more : List (Timed BusOp)) : State :=
  { s with env := { s.env with busQueue := more, latest := t } }

/-- The state with the head event of the feeder queue taken, its timestamp the latest seen. -/
def takeFeeder (s : State) (t : Time) (more : List (Timed FeederOp)) : State :=
  { s with env := { s.env with feederQueue := more, latest := t } }

/-- The state with the head event of the host queue taken, its timestamp the latest seen. -/
def takeHost (s : State) (t : Time) (more : List (Timed HostOp)) : State :=
  { s with env := { s.env with hostQueue := more, latest := t } }

/-! ### The bus thread -/

/-- The rest of a bus write, if a byte is left. -/
def writeLeft (bytes : List Byte) : Option BusOp :=
  match bytes with
  | [] => none
  | b :: more => some (.write (b :: more))

/-- How many bytes the address phase still takes: at least one. -/
def addressBytesDue (s : State) : Nat := max 1 (s.cfg.format.bytes.count - s.tx.addrCnt)

/-- The next atomic step of a bus primitive and what is left of the primitive after it (20_memory.md R70): the address phase
is one step, a data byte is one step, a misuse is one step, BUS.FINISH is one step. -/
def busPiece (s : State) (op : BusOp) : BusOp × Option BusOp :=
  match op with
  | .write bytes =>
    match s.tx.tstate with
    | .idle => (.write (bytes.take (addressBytesDue s)), writeLeft (bytes.drop (addressBytesDue s)))
    | .addressPartial => (.write (bytes.take (addressBytesDue s)), writeLeft (bytes.drop (addressBytesDue s)))
    | .reading => (.write bytes, none)
    | .addressSet => (.write (bytes.take 1), writeLeft (bytes.drop 1))
    | .writing => (.write (bytes.take 1), writeLeft (bytes.drop 1))
  | .read 0 => (.read 0, none)
  | .read 1 => (.read 1, none)
  | .read (n + 2) => if serves s then (.read 1, some (.read (n + 1))) else (.read (n + 2), none)
  | .finish => (.finish, none)

/-- The state with what the bus thread has left to do of its primitive. -/
def leaveBus (s : State) (rest : Option (Timed BusOp)) : State := { s with env := { s.env with busRest := rest } }

/-- One atomic step of a bus primitive. -/
def runBus (s : State) (ev : Timed BusOp) : Host.Outcome State Fault Refusal :=
  match exec (busPiece s ev.op).1.toInstr (atTime s ev.now) with
  | .next t => .next (leaveBus t ((busPiece s ev.op).2.map fun op => { now := ev.now, op := op }))
  | .fault r => .fault r
  | .refused r => .refused r

/-- The rest of a write whose transaction a DEV.RESET has cut (70_reset_and_hazards.md R303; log 12). -/
def writeIsCut (s : State) (op : BusOp) : Bool :=
  match op with
  | .write _ => awaitsAddress s
  | .read _ => false
  | .finish => false

/-- A step of the bus thread: it goes on with the primitive it is in the middle of, else begins the next one. -/
def stepBus (s : State) : Host.Outcome State Fault Refusal :=
  match s.env.busRest with
  | some ev => if writeIsCut s ev.op then .next (leaveBus s none) else runBus s ev
  | none =>
    match s.env.busQueue with
    | [] => .next s
    | ev :: more =>
      if ev.now < s.env.latest then .refused .timeReversed
      else runBus (takeBus s ev.now more) ev

/-! ### The feeder -/

/-- A step of the feeder: its next event, which is one atomic step. -/
def stepFeeder (s : State) : Host.Outcome State Fault Refusal :=
  match s.env.feederQueue with
  | [] => .next s
  | ev :: more =>
    if ev.now < s.env.latest then .refused .timeReversed
    else exec (ev.op.toInstr ev.now) (atTime (takeFeeder s ev.now more) ev.now)

/-! ### The host -/

/-- The state with what the host has left to do of its operation. -/
def leaveHost (s : State) (rest : Option (Timed HostRest)) : State := { s with env := { s.env with hostRest := rest } }

/-- The feeds still to do of a HOST.FEEDREPEAT. -/
def feedsLeft (x : Sample) (n : Nat) : Option HostRest :=
  match n with
  | 0 => none
  | m + 1 => some (.feeds x (m + 1))

/-- The first atomic step of a host operation and what is left of it (20_memory.md R70, R73). -/
def hostPiece (s : State) (op : HostOp) : Instr × Option HostRest :=
  match op with
  | .feedRepeat x (n + 1) => (.hostFeedRepeat x 1, feedsLeft x n)
  | .loadFile name lines =>
    match loadPlan s.cfg name lines with
    | ([], _, _) => (.hostLoadFile name lines, none)
    | (x :: more, keeps, result) => (.fifoFeed none x, some (.loading more keeps result))
  | op => (op.toInstr, none)

/-- An operation of the host, and what it then has left to do. -/
def runHost (s : State) (now : Time) (i : Instr) (rest : Option HostRest) : Host.Outcome State Fault Refusal :=
  match exec i (atTime s now) with
  | .next t => .next (leaveHost t (rest.map fun r => { now := now, op := r }))
  | .fault r => .fault r
  | .refused r => .refused r

/-- The next atomic step of a host operation already begun. The end of HOST.LOADFILE is a step of its own, after its last
feed (log 13). -/
def continueHost (s : State) (ev : Timed HostRest) : Host.Outcome State Fault Refusal :=
  match ev.op with
  | .feeds x n => runHost s ev.now (.hostFeedRepeat x 1) (feedsLeft x (n - 1))
  | .loading (x :: more) keeps result => runHost s ev.now (.fifoFeed none x) (some (.loading more keeps result))
  | .loading [] keeps result =>
    operate (leaveHost (atTime s ev.now) none) fun t => .done result (endLoad t keeps)

/-- A step of the host: it goes on with the operation it is in the middle of, else begins the next one. -/
def stepHost (s : State) : Host.Outcome State Fault Refusal :=
  match s.env.hostRest with
  | some ev => continueHost s ev
  | none =>
    match s.env.hostQueue with
    | [] => .next s
    | ev :: more =>
      if ev.now < s.env.latest then .refused .timeReversed
      else
        runHost (takeHost s ev.now more) ev.now (hostPiece s ev.op).1 (hostPiece s ev.op).2

/-- A step of one agent. -/
def stepAgent (a : Agent) (s : State) : Host.Outcome State Fault Refusal :=
  match a with
  | .bus => stepBus s
  | .feeder => stepFeeder s
  | .host => stepHost s

/-- The state with the rest of the schedule. -/
def scheduled (s : State) (rest : List Agent) : State := { s with env := { s.env with schedule := rest } }

/-- One atomic step of the agent the schedule names; with no agent scheduled the block waits for events
(70_reset_and_hazards.md R309; log 9). -/
def stepScheduled (s : State) : Host.Outcome State Fault Refusal :=
  match s.env.schedule with
  | [] => .next s
  | a :: rest => stepAgent a (scheduled s rest)

/-- The state of a block built from a configuration, none if the configuration is ill formed (70_reset_and_hazards.md R302,
00_scope.md R9). -/
def construct (c : Cfg) : Option State :=
  if c.wf then some (settleIrq (deviceReset { State.reset with cfg := c })) else none

end Sys2Proof.Machine
end

