-- ==== Sys2Proof/Machine/Step.lean ====
section
/-! DEFINITION. The step of the machine, and the placing of an encoded operation where the next step takes it. -/

namespace Sys2Proof.Machine

/-- One atomic step. No step is defined with `FAULTED` set (43_bus_transactions.md R211), and no machine exists for an
ill-formed configuration (00_scope.md R9). -/
def step (s : State) : Host.Outcome State Fault Refusal :=
  if s.faulted then .fault .invariantLatched
  else if s.cfg.wf then stepScheduled s
  else .refused .illFormedConfig

/-- The state in which the bus master writes the bytes of a table word next, in the format that word is read in: the
configured address format and order are selected, no address phase is open, the write heads the bus queue and the bus thread
is scheduled (log 10). -/
def State.withFetchWord (s : State) (nbits w : Nat) : State :=
  match tableFormat nbits with
  | none => s
  | some fmt =>
    { s with
      cfg := { s.cfg with format := fmt, addrOrder := .msbFirst }
      tx := { s.tx with tstate := .idle, addrCnt := 0, addrAcc := 0 }
      env := { s.env with
        busRest := none
        busQueue := { now := s.env.latest, op := .write (tableBytes nbits w) } :: s.env.busQueue
        schedule := .bus :: s.env.schedule } }

end Sys2Proof.Machine
end

