-- ==== Sys2Proof/Safety.lean ====
section
/-! DEFINITION. What counts as a safe run, in the terms the statements use: what each observer sees (10_state.md R57), the
invariants of the reachable states (10_state.md R31 to R35, R41, R47; 60_exceptions.md R281), and configurations whose hooks
are all of the standard library (00_scope.md R14). -/

namespace Sys2Proof.Machine

/-- What firmware observes (10_state.md R57): the response bytes and the interrupt level. -/
def firmwareView (s : State) : List Byte × Bool := (s.busOut, s.irq)

/-- What the host observes in addition (10_state.md R57). -/
def hostView (s : State) : List Result × List Diag := (s.results, s.diag)

/-- A safe state: the fatal latch is not set (10_state.md R50). -/
def Safe (s : State) : Prop := s.faulted = false

/-- What the environment brings: the bus primitives, the feeder's events and the host's, each agent's in its order. -/
structure Inputs where
  bus : List (Timed BusOp)
  feeder : List (Timed FeederOp)
  host : List (Timed HostOp)
deriving DecidableEq, Repr, Inhabited

/-- The state at the head of these inputs, the responses of earlier primitives left out. -/
def State.facing (s : State) (x : Inputs) : State :=
  { s with env := { quietEnv with busQueue := x.bus, feederQueue := x.feeder, hostQueue := x.host }, busOut := [] }

/-- How many bytes a bus primitive names. -/
def bytesOf : BusOp → Nat
  | .write ws => ws.length
  | .read n => n
  | .finish => 0

/-- How many bytes of its primitive the bus thread uses up in its next step: one data byte, or all the bytes of an address
phase, of a misuse or of the rest of a write that was cut. -/
def bytesTaken (s : State) : Nat :=
  match s.env.busRest with
  | some ev => if writeIsCut s ev.op then bytesOf ev.op else bytesOf (busPiece s ev.op).1
  | none =>
    match s.env.busQueue with
    | [] => 0
    | ev :: _ => bytesOf (busPiece s ev.op).1

/-- A run by turns. A turn of the feeder or of the host is a step of it; the turns of the bus thread are counted in bytes: a
step that uses up `n` bytes takes `n` turns, the first of them the step, and a step that uses up none takes one. `owed` is
how many turns of the step in progress are still to pass. So one list of turns puts the other agents' events at the same
byte of the same primitive in every state, however many atomic steps the primitive is there (log 38). -/
def runTurns : List Agent → Nat → State → Host.Outcome State Fault Refusal
  | [], _, s => .next s
  | .bus :: rest, owed + 1, s => runTurns rest owed s
  | .bus :: rest, 0, s =>
    match step (scheduled s [.bus]) with
    | .next t => runTurns rest (bytesTaken s - 1) t
    | .fault r => .fault r
    | .refused r => .refused r
  | a :: rest, owed, s =>
    match step (scheduled s [a]) with
    | .next t => runTurns rest owed t
    | .fault r => .fault r
    | .refused r => .refused r

/-- Every bus primitive issued so far has returned, so that firmware has its response. -/
def busDone (s : State) : Prop := s.env.busRest = none ∧ s.env.busQueue = []

/-- What firmware has been shown at the end of two runs is the same: neither run came to a state in which no step is defined,
and if the bus primitives issued have returned in both, the responses and the interrupt level agree; or both came to one. -/
def SameShown : Host.Outcome State Fault Refusal → Host.Outcome State Fault Refusal → Prop
  | .next s, .next t => busDone s → busDone t → firmwareView s = firmwareView t
  | .next _, _ => False
  | _, .next _ => False
  | _, _ => True

/-- Two states of one block that firmware cannot tell apart (10_state.md R57): on every sequence of bus primitives, under
every interleaving of the same feeder and host events, they show firmware the same. That interleavings of two runs are
matched by bytes is the model's choice (log 38). -/
def FirmwareAlike (s t : State) : Prop :=
  s.cfg = t.cfg ∧
    ∀ (x : Inputs) (turns : List Agent), SameShown (runTurns turns 0 (s.facing x)) (runTurns turns 0 (t.facing x))

/-- Every sample has the configured lanes and the queue its bound (10_state.md R41, R47). -/
def FifoInv (s : State) : Prop :=
  s.fifo.q.length ≤ s.cfg.cap ∧ (∀ x ∈ s.fifo.q, x.length = s.cfg.lanes) ∧ s.fifo.current.length = s.cfg.lanes

/-- `CUR_ADDR` fits its width (10_state.md R31). -/
def AddrInv (s : State) : Prop := s.tx.curAddr.toNat < 2 ^ s.cfg.format.bits

/-- An address phase is incomplete exactly in AddressPartial, and its count is in range (10_state.md R33). -/
def CountInv (s : State) : Prop :=
  s.tx.addrCnt < s.cfg.format.bytes.count ∧ (s.tx.tstate = .addressPartial ↔ 0 < s.tx.addrCnt)

/-- The latches are 0 when the format has no such bit and whenever the machine is Idle (10_state.md R34). -/
def LatchInv (s : State) : Prop :=
  (s.cfg.format.rwBit = none → s.tx.rwLatch = false) ∧ (s.cfg.format.msBit = none → s.tx.msLatch = false) ∧
    (s.tx.tstate = .idle → s.tx.rwLatch = false ∧ s.tx.msLatch = false)

/-- `BYTE_PHASE` is 0 or 1, and 0 in SubRegisters mode (10_state.md R35). -/
def PhaseInv (s : State) : Prop :=
  s.tx.bytePhase ≤ 1 ∧ (s.cfg.wideAccess = .subRegisters → s.tx.bytePhase = 0)

/-- What holds of the transaction state in every reachable state (10_state.md R31 to R35). -/
def TxInv (s : State) : Prop := AddrInv s ∧ CountInv s ∧ LatchInv s ∧ PhaseInv s

/-- The interrupt line holds the level of the condition (60_exceptions.md R281). -/
def IrqInv (s : State) : Prop := s.irq = irqHolds s s.cfg.irqCond

/-- A provider of the standard library (44_sample_fifo.md R261). -/
def standardProvider : Option Provider → Bool
  | none => true
  | some (.pvSample _ _ _) => true
  | some .pvFifoCount => true
  | some (.pvOvr _) => true
  | some (.program _ _) => false
  | some (.custom _) => false
  | some (.customPure _) => false

/-- A field callback of the standard library (44_sample_fifo.md R262). -/
def standardFieldHook : Option FieldHook → Bool
  | none => true
  | some .whSoftReset => true
  | some (.whFifoMode _ _) => true
  | some (.program _) => false
  | some (.custom _) => false

/-- A register callback of the standard library (44_sample_fifo.md R262). -/
def standardRegHook : Option RegHook → Bool
  | none => true
  | some (.whClrOvr _ _) => true
  | some (.program _) => false
  | some (.custom _) => false

/-- A field all of whose hooks are of the standard library. -/
def standardField (d : FieldDef) : Bool :=
  standardProvider d.prov && standardFieldHook d.wcb && standardFieldHook d.ccb

/-- A register all of whose hooks are of the standard library. -/
def standardRegister (r : RegisterDef) : Bool := standardRegHook r.rwcb && r.fields.all standardField

/-- Every hook of the configuration is of the standard library (00_scope.md R14). -/
def standardHooks (c : Cfg) : Bool := c.map.all standardRegister

/-- Operations run one after another. -/
def execAll : List Instr → State → Host.Outcome State Fault Refusal
  | [], s => .next s
  | i :: rest, s =>
    match exec i s with
    | .next t => execAll rest t
    | .fault r => .fault r
    | .refused r => .refused r

/-- The feeds of a list of samples, as operations. -/
def feeds (xs : List Sample) : List Instr := xs.map fun x => .fifoFeed none x

/-- The gates of the auto-increment that the configuration, the multiple-operation flag and the address decide
(43_bus_transactions.md R205); there is no run-time flag among them. -/
def staticOpen (c : Cfg) (ms : Bool) (a : BitVec 16) : Bool :=
  c.aiBase && (c.format.msBit.isNone || ms) && rangeGate c a.toNat && holdGate c a.toNat

/-- The address after `n` data bytes from `a`, with no run-time flag (43_bus_transactions.md R205, R206, R209, R214). -/
def addrAfter (c : Cfg) (ms : Bool) : Nat → BitVec 16 → BitVec 16
  | 0, a => a
  | n + 1, a =>
    match c.wideAccess with
    | .offset => a
    | .subRegisters => addrAfter c ms n (if staticOpen c ms a then nextAddr c a.toNat else a)

/-- The byte phase after `n` data bytes at register index `a` (43_bus_transactions.md R209). -/
def phaseAfter (c : Cfg) (a : Nat) : Nat → Nat → Nat
  | 0, p => p
  | n + 1, p =>
    match c.wideAccess with
    | .offset => phaseAfter c a n ((p + 1) % phaseModulus c a)
    | .subRegisters => p

/-- An operation that is no address phase, no bus primitive, no auto-increment and no device reset. -/
def keepsPosition : Instr → Bool
  | .addrSetPlain8 _ => false
  | .addrSetRw7 _ _ => false
  | .addrSetRw7Ms6 _ _ _ => false
  | .addrSetPlain16 _ => false
  | .busWrite _ => false
  | .busRead _ => false
  | .busFinish => false
  | .advance => false
  | .devReset => false
  | _ => true

end Sys2Proof.Machine
end

