-- ==== Sys2Proof/Certificates/Slice0/Obligations.lean ====
section
/-! DEFINITION. The statements for the provers. A state is called unfaulted when `FAULTED` is not set; `settleIrq t` is the
state `t` with the interrupt level of its condition, which ends every atomic step (60_exceptions.md R281). An operation that
the spec runs only inside another one (a field, register or collection operation, the auto-increment, a dequeue, a soft
reset) is run alone here as one atomic step, with its result handed over and the interrupt level settled: the model's choice
(log 16). -/

open Sys2Proof Sys2Proof.Machine

/-! ### The address phase -/

/-- Every form of ADDR.SET encodes to as many bytes as its format has, and those bytes, whatever follows them, decode to that
form and leave what follows (30_encoding.md R92, R93, R104; the place of the multiple-operation bit is the spec's general
knowledge, 93_implementation_defined.md K1). -/
def Obligations.DecodeEncodeAgree : Prop :=
  ∀ (order : Endian) (i : Instr) (fmt : AddrFormat), formatOf i = some fmt →
    ∃ ws, encode order i = some ws ∧ ws.length = fmt.bytes.count ∧
      ∀ rest, decode fmt order (ws ++ rest) = .ok (i, rest)

/-- What the decoder reads is a form of its format, and the bytes read are exactly the encoding of that form
(30_encoding.md R92, R93; the place of the multiple-operation bit is the spec's general knowledge,
93_implementation_defined.md K1). -/
def Obligations.EncodeDecodeAgree : Prop :=
  ∀ (fmt : AddrFormat) (order : Endian) (bytes rest : List Byte) (i : Instr),
    decode fmt order bytes = .ok (i, rest) →
      formatOf i = some fmt ∧ ∃ ws, encode order i = some ws ∧ bytes = ws ++ rest

/-- Words written out from the format table decode to the forms they stand for (30_encoding.md R92, R93; the place of the
multiple-operation bit, bit 6 of RW7MS6, is the spec's general knowledge, 93_implementation_defined.md K1); a one-byte table
word is read in format PLAIN8, which is the model's choice (log 17). -/
def Obligations.SampleWordsDecode : Prop :=
  decode plain8 .msbFirst [0x32] = .ok (.addrSetPlain8 0x32, []) ∧
  decode rw7 .msbFirst [0b10110010] = .ok (.addrSetRw7 true 0b0110010, []) ∧
  decode rw7ms6 .msbFirst [0b01101000] = .ok (.addrSetRw7Ms6 false true 0b101000, []) ∧
  decode plain16 .msbFirst [0x12, 0x34] = .ok (.addrSetPlain16 0x1234, []) ∧
  decode plain16 .lsbFirst [0x12, 0x34] = .ok (.addrSetPlain16 0x3412, []) ∧
  decodeTableWord 8 0x32 = some (.addrSetPlain8 0x32) ∧ decodeTableWord 16 0x3412 = some (.addrSetPlain16 0x1234)

/-- The register address taken from an address word: the bits under the mask keep their order with the gaps closed, cut to
`ADDR_BITS`; bits outside the mask do not matter; for the four named formats it is the masked word (30_encoding.md R94). -/
def Obligations.AddressCompression : Prop :=
  ∀ (fmt : AddrFormat) (aw : BitVec 16),
    (∀ n, n < 16 → fmt.mask.getLsbD n = true → onesBelow fmt.mask n < fmt.bits →
      (regAddr fmt aw).getLsbD (onesBelow fmt.mask n) = aw.getLsbD n) ∧
    (∀ k, onesBelow fmt.mask 16 ≤ k ∨ fmt.bits ≤ k → (regAddr fmt aw).getLsbD k = false) ∧
    regAddr fmt aw = regAddr fmt (aw &&& fmt.mask) ∧
    (fmt = plain8 ∨ fmt = rw7 ∨ fmt = rw7ms6 ∨ fmt = plain16 → regAddr fmt aw = aw &&& fmt.mask)

/-- A bus write of an address phase, in a machine that waits for one, is the form of ADDR.SET its bytes decode to
(30_encoding.md R91, R94 to R97; 43_bus_transactions.md R192). That a write of a bare address phase is such a form is the
model's reading of the four rows (log 17). -/
def Obligations.BusWriteRunsDecodedAddress : Prop :=
  ∀ (s : State) (ws : List Byte) (i : Instr),
    s.tx.tstate = .idle → s.tx.addrCnt = 0 → decode s.cfg.format s.cfg.addrOrder ws = .ok (i, []) →
      exec (.busWrite ws) s = exec i s

/-- Each form of ADDR.SET, in its own format, completes: it sets the address, the latches and the transaction state, and
changes nothing else but the interrupt level, which is settled (30_encoding.md R92, R97; 43_bus_transactions.md R194; the
forms belong to their formats alone, log 17). -/
def Obligations.AddrSetCompletes : Prop :=
  ∀ s : State, s.faulted = false →
    (∀ a : BitVec 8, s.cfg.format = plain8 →
      exec (.addrSetPlain8 a) s = .next (settleIrq { s with
        tx := { tstate := .addressSet, curAddr := a.setWidth 16, addrValid := true, addrCnt := 0, addrAcc := 0,
                rwLatch := false, msLatch := false, bytePhase := 0 } })) ∧
    (∀ (r : Bool) (a : BitVec 7), s.cfg.format = rw7 →
      exec (.addrSetRw7 r a) s = .next (settleIrq { s with
        tx := { tstate := if r then .reading else .writing, curAddr := a.setWidth 16, addrValid := true, addrCnt := 0,
                addrAcc := 0, rwLatch := r, msLatch := false, bytePhase := 0 } })) ∧
    (∀ (r m : Bool) (a : BitVec 6), s.cfg.format = rw7ms6 →
      exec (.addrSetRw7Ms6 r m a) s = .next (settleIrq { s with
        tx := { tstate := if r then .reading else .writing, curAddr := a.setWidth 16, addrValid := true, addrCnt := 0,
                addrAcc := 0, rwLatch := r, msLatch := m, bytePhase := 0 } })) ∧
    (∀ a : BitVec 16, s.cfg.format = plain16 →
      exec (.addrSetPlain16 a) s = .next (settleIrq { s with
        tx := { tstate := .addressSet, curAddr := a, addrValid := true, addrCnt := 0, addrAcc := 0,
                rwLatch := false, msLatch := false, bytePhase := 0 } }))

/-- The address phase in any format, named or not: the address, the flags of the first byte received, the transaction state
by the read flag; a first byte of two leaves the phase half done, and the two bytes may come in two writes (30_encoding.md
R93, R95, R97; 43_bus_transactions.md R192 to R194). -/
def Obligations.AddressPhaseAnyFormat : Prop :=
  ∀ (s : State) (b0 b1 : Byte), s.faulted = false → s.tx.tstate = .idle → s.tx.addrCnt = 0 →
    let fmt := s.cfg.format
    let done := fun aw : BitVec 16 => settleIrq { s with
      tx := { tstate := match fmt.rwBit with
                | none => .addressSet
                | some i => if b0.getLsbD i then .reading else .writing
              curAddr := regAddr fmt aw, addrValid := true, addrCnt := 0, addrAcc := 0,
              rwLatch := match fmt.rwBit with
                | none => false
                | some i => b0.getLsbD i
              msLatch := match fmt.msBit with
                | none => false
                | some j => b0.getLsbD j
              bytePhase := 0 } }
    (fmt.bytes = .one → exec (.busWrite [b0]) s = .next (done (b0.setWidth 16))) ∧
    (fmt.bytes = .two →
      exec (.busWrite [b0]) s = .next (settleIrq { s with
        tx := { s.tx with tstate := .addressPartial, addrCnt := 1, addrAcc := b0 } }) ∧
      exec (.busWrite [b0, b1]) s =
        .next (done (match s.cfg.addrOrder with | .msbFirst => b0 ++ b1 | .lsbFirst => b1 ++ b0)) ∧
      ∀ t, exec (.busWrite [b0]) s = .next t → exec (.busWrite [b1]) t = exec (.busWrite [b0, b1]) s)

/-! ### Fields

Field operations run alone: one atomic step with its result, the model's choice (log 16). -/

/-- FLD.READ of a field without a provider: a write-only field reads 0; a stored field reads its stored value; a ReadToClear
field reads its stored value and then holds its clear value. Nothing else changes (40_field_ops.md R123 to R125; that a
write-only field reads 0 is the spec's general knowledge, 93_implementation_defined.md K2). -/
def Obligations.FieldRead : Prop :=
  ∀ (s : State) (a f : Nat) (d : FieldDef), s.faulted = false → s.cfg.field a f = some d →
    (d.acc = .write → exec (.fldRead a f) s = .next (settleIrq { s with results := s.results ++ [.value 0] })) ∧
    (d.prov = none → d.acc = .read ∨ d.acc = .readWrite ∨ d.acc = .writeOneToClear →
      exec (.fldRead a f) s = .next (settleIrq { s with results := s.results ++ [.value (getField s a f)] })) ∧
    (d.prov = none → d.acc = .readToClear → s.cfg.wf = true →
      ∃ t, exec (.fldRead a f) s = .next t ∧ getField t a f = d.clearVal ∧
        (∀ a' f', (a', f') ≠ (a, f) → getField t a' f' = getField s a' f') ∧
        t = settleIrq { s with fv := t.fv, results := s.results ++ [.value (getField s a f)] })

/-- FLD.READ of a field backed by a provider of the standard library: the value is the provider's, cut to the field's width;
a sample byte is read after the dequeue its provider asks for (40_field_ops.md R122; 44_sample_fifo.md R261). -/
def Obligations.FieldReadProvider : Prop :=
  ∀ (s : State) (a f : Nat) (d : FieldDef), s.faulted = false → s.cfg.field a f = some d → d.acc ≠ .write →
      (d.prov = some .pvFifoCount →
        exec (.fldRead a f) s = .next (settleIrq { s with
          results := s.results ++
            [.value (cut d (if s.fifo.mode = .bypass then 0 else BitVec.ofNat 16 s.fifo.q.length))] })) ∧
      (∀ clear, d.prov = some (.pvOvr clear) →
        exec (.fldRead a f) s = .next (settleIrq { s with
          fifo := { s.fifo with ovr := if clear then false else s.fifo.ovr }
          results := s.results ++ [.value (cut d (if s.fifo.ovr then 1 else 0))] })) ∧
      (∀ lane k, d.prov = some (.pvSample lane k false) →
        exec (.fldRead a f) s = .next (settleIrq { s with
          results := s.results ++
            [.value (cut d (laneByte (transformLane s lane (s.fifo.current.getD lane 0)) k))] })) ∧
      (∀ lane k u, d.prov = some (.pvSample lane k true) → exec .fifoDeq s = .next u →
        exec (.fldRead a f) s = .next { u with
          results := s.results ++
            [.value (cut d (laneByte (transformLane u lane (u.fifo.current.getD lane 0)) k))] })

/-- FLD.WRITE that is ignored: a write to a Read field, and a write of an unknown raw value to an Enum field that refuses
such values, append their record and change nothing else (40_field_ops.md R129, R130). -/
def Obligations.FieldWriteIgnored : Prop :=
  ∀ (s : State) (a f v : Nat) (d : FieldDef), s.faulted = false → s.cfg.field a f = some d →
    (d.acc = .read →
      exec (.fldWrite a f v) s = .next (settleIrq { s with diag := s.diag ++ [.wReadonlyWrite a f] })) ∧
    (∀ set, d.acc = .write ∨ d.acc = .readWrite ∨ d.acc = .readToClear → d.kind = .symbols set .invalid →
      cut d (BitVec.ofNat 16 v) ∉ set →
      exec (.fldWrite a f v) s = .next (settleIrq { s with
        diag := s.diag ++ [.wInvalidEnum a f (cut d (BitVec.ofNat 16 v))] }))

/-- FLD.WRITE that is accepted, on a field without callbacks: the value cut to the width is stored; a field cleared by
writing 1 loses exactly the bits written with 1. Every other field, and everything else, is unchanged (40_field_ops.md R126,
R131, R132). -/
def Obligations.FieldWriteStores : Prop :=
  ∀ (s : State) (a f v : Nat) (d : FieldDef), s.faulted = false → s.cfg.field a f = some d →
    d.wcb = none → d.ccb = none →
      (d.wid ≤ 16 → (cut d (BitVec.ofNat 16 v)).toNat = v % 2 ^ d.wid) ∧
      ∀ new : Half,
        ((d.acc = .write ∨ d.acc = .readWrite ∨ d.acc = .readToClear) ∧
            enumRefuses d (cut d (BitVec.ofNat 16 v)) = false ∧ new = cut d (BitVec.ofNat 16 v) ∨
          d.acc = .writeOneToClear ∧ new = cut d (getField s a f &&& ~~~(cut d (BitVec.ofNat 16 v)))) →
        ∃ t, exec (.fldWrite a f v) s = .next t ∧ getField t a f = new ∧
          (∀ a' f', (a', f') ≠ (a, f) → getField t a' f' = getField s a' f') ∧
          t = settleIrq { s with fv := t.fv }

/-- The callbacks of an accepted FLD.WRITE, a field cleared by writing 1 among them: the write callback runs on every one,
after the store; the change callback runs after it, only when the stored value changed. Shown by the standard hooks that set
the FIFO mode and perform the soft reset (40_field_ops.md R126 to R128, R131; 41_register_ops.md R159; 44_sample_fifo.md
R262; when the change callback runs is the spec's general knowledge, 93_implementation_defined.md K3). -/
def Obligations.FieldCallbacks : Prop :=
  ∀ (s : State) (a f v : Nat) (d : FieldDef) (new : Half), s.faulted = false → s.cfg.field a f = some d →
    ((d.acc = .write ∨ d.acc = .readWrite ∨ d.acc = .readToClear) ∧
        enumRefuses d (cut d (BitVec.ofNat 16 v)) = false ∧ new = cut d (BitVec.ofNat 16 v) ∨
      d.acc = .writeOneToClear ∧ Memory.wf s.cfg s.fv = true ∧
        new = getField s a f &&& ~~~(cut d (BitVec.ofNat 16 v))) →
      let stored := fun t : State =>
        getField t a f = new ∧ ∀ a' f', (a', f') ≠ (a, f) → getField t a' f' = getField s a' f'
      let cleared := fun t : State => ∀ a' f', getField t a' f' = s.cfg.slotReset a' f'
      let softly := fun (t : State) (m : FifoMode) => settleIrq { s with
        fv := t.fv
        fifo := { s.fifo with
          q := if s.fifo.keep then s.fifo.q else [], ovr := false, current := s.cfg.dflt, mode := m } }
      (∀ table rest, d.wcb = some (.whFifoMode table rest) → d.ccb = none →
        ∃ t, exec (.fldWrite a f v) s = .next t ∧ stored t ∧
          t = settleIrq { s with fv := t.fv, fifo := { s.fifo with mode := table.getD new.toNat rest } }) ∧
      (∀ table rest, d.wcb = none → d.ccb = some (.whFifoMode table rest) →
        ∃ t, exec (.fldWrite a f v) s = .next t ∧ stored t ∧
          t = settleIrq { s with
            fv := t.fv
            fifo := { s.fifo with
              mode := if new = getField s a f then s.fifo.mode else table.getD new.toNat rest } }) ∧
      (∀ table rest table' rest', d.wcb = some (.whFifoMode table rest) → d.ccb = some (.whFifoMode table' rest') →
        ∃ t, exec (.fldWrite a f v) s = .next t ∧ stored t ∧
          t = settleIrq { s with
            fv := t.fv
            fifo := { s.fifo with
              mode := if new = getField s a f then table.getD new.toNat rest
                      else table'.getD new.toNat rest' } }) ∧
      (d.wcb = some .whSoftReset → d.ccb = none → new = 1 →
        ∃ t, exec (.fldWrite a f v) s = .next t ∧ cleared t ∧ t = softly t s.cfg.modeReset) ∧
      (d.wcb = some .whSoftReset → d.ccb = none → new ≠ 1 →
        ∃ t, exec (.fldWrite a f v) s = .next t ∧ stored t ∧ t = settleIrq { s with fv := t.fv }) ∧
      (∀ table rest, d.wcb = some .whSoftReset → d.ccb = some (.whFifoMode table rest) → new = 1 →
        ∃ t, exec (.fldWrite a f v) s = .next t ∧ cleared t ∧
          t = softly t (if getField s a f = 1 then s.cfg.modeReset else table.getD 1 rest)) ∧
      (∀ table rest, d.wcb = some (.whFifoMode table rest) → d.ccb = some .whSoftReset → new = 1 →
        getField s a f ≠ 1 →
        ∃ t, exec (.fldWrite a f v) s = .next t ∧ cleared t ∧ t = softly t s.cfg.modeReset)

/-- The round trip of a stored ReadWrite field without callbacks, and the law of a stored ReadToClear field: the first read
after a write returns the value written, the next one the clear value (40_field_ops.md R133, R134). -/
def Obligations.FieldRoundTrip : Prop :=
  ∀ (s : State) (a f v : Nat) (d : FieldDef), s.faulted = false → s.cfg.wf = true → s.cfg.field a f = some d →
    d.wcb = none → d.ccb = none → d.prov = none → v < 2 ^ d.wid → enumRefuses d (BitVec.ofNat 16 v) = false →
      (d.acc = .readWrite →
        ∃ t, execAll [.fldWrite a f v, .fldRead a f] s = .next t ∧
          t.results = s.results ++ [.value (BitVec.ofNat 16 v)]) ∧
      (d.acc = .readToClear →
        ∃ t, execAll [.fldWrite a f v, .fldRead a f, .fldRead a f] s = .next t ∧
          t.results = s.results ++ [.value (BitVec.ofNat 16 v), .value d.clearVal])

/-- A hook that reports an invariant violation latches `FAULTED`, appends its record and abandons the operation with the
state as it then is; after that every operation and every step faults. Here the hook is a write callback, run after the
store (60_exceptions.md R277, R280; 43_bus_transactions.md R211). The form of a hook as a program and the stop as a fault are
the model's (log 4, log 20). -/
def Obligations.ViolationAbandons : Prop :=
  ∀ (s : State) (a f v : Nat) (d : FieldDef) (what : Text), s.faulted = false → s.cfg.field a f = some d →
    d.acc = .readWrite → enumRefuses d (cut d (BitVec.ofNat 16 v)) = false →
    d.wcb = some (.program [{ guard := .lit 1, act := .violation what }]) →
      ∃ t, exec (.fldWrite a f v) s = .next t ∧ getField t a f = cut d (BitVec.ofNat 16 v) ∧
        (∀ a' f', (a', f') ≠ (a, f) → getField t a' f' = getField s a' f') ∧
        t = { s with fv := t.fv, faulted := true, diag := s.diag ++ [.fInvariant what] } ∧
        (∀ i, exec i t = .fault .invariantLatched) ∧ step t = .fault .invariantLatched

/-! ### Registers

Register operations run alone: one atomic step with its result, the model's choice (log 16). -/

/-- REG.WRITEB on a register whose fields have no callback: bit by bit, a Read field keeps its value, a WriteOneToClear
field loses the bits written with 1 in this byte, any other field takes the bits of this byte and keeps its other bits,
unless that merged value is one it refuses. The tagged-bit record comes first; a whole-register hook that clears the overrun
flag runs last. Nothing else changes (41_register_ops.md R151, R152, R154; 44_sample_fifo.md R262). -/
def Obligations.RegisterWriteByte : Prop :=
  ∀ (s : State) (a k : Nat) (b : Byte) (r : RegisterDef), s.faulted = false → s.cfg.wf = true →
    Memory.wf s.cfg s.fv = true → s.cfg.find a = some r → k < r.width.bytes →
    (∀ d ∈ r.fields, d.wcb = none ∧ d.ccb = none) →
    ∀ ovr : Bool, (r.rwcb = none ∧ ovr = s.fifo.ovr ∨
      ∃ k0 i, r.rwcb = some (.whClrOvr k0 i) ∧ ovr = if k = k0 ∧ b.getLsbD i = true then false else s.fifo.ovr) →
      ∃ t ds, exec (.regWriteB a k b) s = .next t ∧
        (∀ f d, r.fields[f]? = some d →
          let mine := fun j : Nat => decide (8 * k ≤ d.off + j) && decide (d.off + j < 8 * k + 8)
          (d.acc = .read → getField t a f = getField s a f) ∧
          (d.acc = .writeOneToClear → ∀ j, (getField t a f).getLsbD j =
            ((getField s a f).getLsbD j && !(mine j && b.getLsbD (d.off + j - 8 * k)))) ∧
          (d.acc = .write ∨ d.acc = .readWrite ∨ d.acc = .readToClear → ∀ m : Half,
            (∀ j, m.getLsbD j = if decide (j < d.wid) && mine j then b.getLsbD (d.off + j - 8 * k)
              else (getField s a f).getLsbD j) →
            getField t a f = if enumRefuses d m then getField s a f else m)) ∧
        (∀ a' f', a' ≠ a ∨ r.fields.length ≤ f' → getField t a' f' = getField s a' f') ∧
        (∀ x ∈ ds, (∃ f, x = .wReadonlyWrite a f) ∨ ∃ f v, x = .wInvalidEnum a f v) ∧
        t = settleIrq { s with
          fv := t.fv
          fifo := { s.fifo with ovr := ovr }
          diag := s.diag ++
            (if (List.range 8).any (fun j => b.getLsbD j && r.tag.getLsbD (8 * k + j)) then [.wTaggedWrite a k b]
              else []) ++ ds }

/-- REG.READB: bit by bit, the byte shows what its fields read as, and for reserved bits 0 or their reset bit. Over fields
without a provider that is the stored values of its readable fields and 0 for write-only fields, and every ReadToClear field
of the byte then holds its clear value; fields outside the byte are not read. Over one field backed by a standard provider,
read after the fields below it, it is the provider's value cut to the field: a FIFO count, the overrun flag, which the read
may clear, a byte of the current sample, or of the sample that the read itself dequeues. Over fields with any providers it is
FLD.READ of every field of the byte, once each, in field order, with all its effects. Nothing else changes
(41_register_ops.md R153, R159; 20_memory.md R66; 44_sample_fifo.md R261). -/
def Obligations.RegisterReadByte : Prop :=
  ∀ (s : State) (a k : Nat) (r : RegisterDef), s.faulted = false → s.cfg.wf = true →
    s.cfg.find a = some r → k < r.width.bytes →
      let inByte := fun d : FieldDef => decide (d.off < 8 * k + 8) && decide (8 * k < d.off + d.wid)
      let fieldsOf := (List.range r.fields.length).filter fun f => (r.fields[f]?.map inByte).getD false
      let shows := fun (v : Byte) (d : FieldDef) (x : Half) =>
        ∀ j, j < 8 → d.off ≤ 8 * k + j → 8 * k + j < d.off + d.wid → v.getLsbD j = x.getLsbD (8 * k + j - d.off)
      let reserved := fun v : Byte => ∀ j, j < 8 → (∀ d ∈ r.fields, 8 * k + j < d.off ∨ d.off + d.wid ≤ 8 * k + j) →
        v.getLsbD j = (r.rsvdRead == .resetDefault && r.rst.getLsbD (8 * k + j))
      let plainly := fun (own : Option Nat) (t : State) (v : Byte) =>
        (∀ f d, r.fields[f]? = some d → own ≠ some f → shows v d (if d.acc = .write then 0 else getField s a f)) ∧
        (∀ f d, r.fields[f]? = some d → getField t a f =
          if d.acc = .readToClear ∧ inByte d = true ∧ own ≠ some f then d.clearVal else getField s a f) ∧
        (∀ a' f', a' ≠ a ∨ r.fields.length ≤ f' → getField t a' f' = getField s a' f')
      ((∀ d ∈ r.fields, inByte d = true → d.acc = .write ∨ d.prov = none) →
        ∃ t v, exec (.regReadB a k) s = .next t ∧ reserved v ∧ plainly none t v ∧
          t = settleIrq { s with fv := t.fv, results := s.results ++ [.byte v] }) ∧
      (∀ h d m u x, r.fields[h]? = some d → inByte d = true → d.acc ≠ .write →
        (∀ f e, f ≠ h → r.fields[f]? = some e → inByte e = true → e.acc = .write ∨ e.prov = none) →
        execAll ((fieldsOf.filter fun f => decide (f < h)).map fun f => .fldRead a f) s = .next m →
        (d.prov = some .pvFifoCount ∧ u = s ∧
            x = (if s.fifo.mode = .bypass then 0 else BitVec.ofNat 16 s.fifo.q.length) ∨
          (∃ clear, d.prov = some (.pvOvr clear) ∧ x = (if s.fifo.ovr then 1 else 0) ∧
            u = { s with fifo := { s.fifo with ovr := if clear then false else s.fifo.ovr } }) ∨
          ∃ lane i deq, d.prov = some (.pvSample lane i deq) ∧ (if deq then exec .fifoDeq s = .next u else u = s) ∧
            x = laneByte (transformLane { u with fv := m.fv } lane (u.fifo.current.getD lane 0)) i) →
        ∃ t v, exec (.regReadB a k) s = .next t ∧ reserved v ∧ shows v d (cut d x) ∧ plainly (some h) t v ∧
          t = settleIrq { u with fv := t.fv, results := s.results ++ [.byte v] }) ∧
      (∀ (u : State) (xs : List Half), execAll (fieldsOf.map fun f => .fldRead a f) s = .next u → u.faulted = false →
        u.results = s.results ++ xs.map .value →
        ∃ v, exec (.regReadB a k) s = .next (settleIrq { u with results := s.results ++ [.byte v] }) ∧ reserved v ∧
          ∀ (i f : Nat) (d : FieldDef) (x : Half), fieldsOf[i]? = some f → r.fields[f]? = some d → xs[i]? = some x →
            shows v d x)

/-- The round trip of a register all of whose fields are stored ReadWrite fields without callbacks that accept every value:
the byte read is the byte written on the bits of fields, and the reserved pattern elsewhere (41_register_ops.md R157, which
the spec derives from R151, R153). -/
def Obligations.RegisterRoundTrip : Prop :=
  ∀ (s : State) (a k : Nat) (b : Byte) (r : RegisterDef), s.faulted = false → s.cfg.wf = true →
    s.cfg.find a = some r → k < r.width.bytes → r.rwcb = none →
    (∀ d ∈ r.fields, d.acc = .readWrite ∧ d.prov = none ∧ d.wcb = none ∧ d.ccb = none ∧
      ∀ v, enumRefuses d v = false) →
      let bits : Byte := (fieldBits r >>> (8 * k)).setWidth 8
      ∃ t, execAll [.regWriteB a k b, .regReadB a k] s = .next t ∧
        t.results = s.results ++ [.byte ((b &&& bits) |||
          (match r.rsvdRead with | .zero => 0 | .resetDefault => (r.rst >>> (8 * k)).setWidth 8 &&& ~~~bits))]

/-- REG.RESET gives every field of its register its reset value and COLL.RESET every field of every register; no other field,
no hook, nothing else (41_register_ops.md R155; 42_collection_ops.md R179). -/
def Obligations.RegisterResets : Prop :=
  ∀ s : State, s.faulted = false →
    (∀ a r, s.cfg.find a = some r →
      ∃ t, exec (.regReset a) s = .next t ∧
        (∀ f d, r.fields[f]? = some d → getField t a f = (r.rst >>> d.off) &&& lowMask d.wid) ∧
        (∀ a' f, a' ≠ a → getField t a' f = getField s a' f) ∧ t = settleIrq { s with fv := t.fv }) ∧
    ∃ t, exec .collReset s = .next t ∧
      (∀ a r f d, s.cfg.find a = some r → r.fields[f]? = some d →
        getField t a f = (r.rst >>> d.off) &&& lowMask d.wid) ∧
      t = settleIrq { s with fv := t.fv } ∧ execAll [.collReset, .collReset] s = .next t

/-! ### The collection

Collection operations run alone: one atomic step with its result, the model's choice (log 16). -/

/-- LOCATE gives the one register whose footprint holds the address, and the byte's index in transfer order
(42_collection_ops.md R171). -/
def Obligations.LocateIsFootprint : Prop :=
  ∀ (c : Cfg) (addr o : Nat) (r : RegisterDef), c.mapOk = true →
    (locate c addr = some (r, o) ↔
      r ∈ c.map ∧ o = addr - r.addr ∧
        match c.wideAccess with
        | .subRegisters => r.addr ≤ addr ∧ addr < r.addr + r.width.bytes
        | .offset => addr = r.addr)

/-- A miss has no effect; it logs only under LogAndZero and only in the forms that are not lenient; a read miss returns 0.
For all six forms (42_collection_ops.md R172 to R178). -/
def Obligations.CollectionMisses : Prop :=
  ∀ s : State, s.faulted = false →
    (∀ addr b, locate s.cfg addr = none →
      exec (.collRead addr) s = .next (settleIrq { s with
        diag := s.diag ++ (match s.cfg.missPolicy with | .silent => [] | .logAndZero => [.wUnmappedRead addr])
        results := s.results ++ [.byte 0] }) ∧
      exec (.collWrite addr b) s = .next (settleIrq { s with
        diag := s.diag ++ (match s.cfg.missPolicy with | .silent => [] | .logAndZero => [.wUnmappedWrite addr b]) }) ∧
      exec (.collTryRead addr) s = .next (settleIrq { s with results := s.results ++ [.hitByte false 0] }) ∧
      exec (.collTryWrite addr b) s = .next (settleIrq { s with results := s.results ++ [.hit false] })) ∧
    (∀ base o e b, (∀ r, s.cfg.find base = some r → r.width.bytes ≤ o) →
      exec (.collReadOff base o e) s = .next (settleIrq { s with
        diag := s.diag ++ (match s.cfg.missPolicy with | .silent => [] | .logAndZero => [.wUnmappedRead base])
        results := s.results ++ [.byte 0] }) ∧
      exec (.collWriteOff base o b e) s = .next (settleIrq { s with
        diag := s.diag ++ (match s.cfg.missPolicy with | .silent => [] | .logAndZero => [.wUnmappedWrite base b]) }))

/-- A hit is the register operation on the byte that the byte order selects; the lenient forms also return that it was a hit
(42_collection_ops.md R173 to R178; 20_memory.md R62). -/
def Obligations.CollectionHits : Prop :=
  ∀ (s : State) (addr o : Nat) (e : Endian) (r : RegisterDef) (b : Byte), s.cfg.wf = true →
    let k := match e with | .lsbFirst => o | .msbFirst => r.width.bytes - 1 - o
    (locate s.cfg addr = some (r, o) → endianOf s.cfg = e →
      exec (.collRead addr) s = exec (.regReadB r.addr k) s ∧
      exec (.collWrite addr b) s = exec (.regWriteB r.addr k b) s ∧
      (∀ t v, exec (.regReadB r.addr k) s = .next t → t.faulted = false → t.results = s.results ++ [.byte v] →
        exec (.collTryRead addr) s = .next { t with results := s.results ++ [.hitByte true v] }) ∧
      (∀ t, exec (.regWriteB r.addr k b) s = .next t → t.faulted = false →
        exec (.collTryWrite addr b) s = .next { t with results := s.results ++ [.hit true] })) ∧
    (s.cfg.find addr = some r → o < r.width.bytes →
      exec (.collReadOff addr o e) s = exec (.regReadB addr k) s ∧
      exec (.collWriteOff addr o b e) s = exec (.regWriteB addr k b) s)

/-- Every operation with operands of the configuration completes, unfaulted, when every hook is of the standard library:
the engine has no unreachable case, none blocks and none faults (42_collection_ops.md R170; 43_bus_transactions.md R191;
60_exceptions.md R276). What counts as operands of the configuration is the model's reading (log 21). -/
def Obligations.EveryOperationCompletes : Prop :=
  ∀ (s : State) (i : Instr), s.faulted = false → standardHooks s.cfg = true → Instr.wf s.cfg i = true →
    ∃ t, exec i s = .next t ∧ t.faulted = false

/-! ### The bus -/

/-- A bus read answers exactly the bytes asked, in every state (30_encoding.md R100; 43_bus_transactions.md R199 to R202). -/
def Obligations.ResponseLength : Prop :=
  ∀ (s t : State) (n : Nat), exec (.busRead n) s = .next t → t.faulted = false →
    ∃ out, out.length = n ∧ t.busOut = s.busOut ++ out

/-- A bus write given in two pieces is one write, unless the first leaves the machine in Reading; a served bus read given in
two pieces is one read (43_bus_transactions.md R196, R199; `exec` runs a primitive whole, log 11). -/
def Obligations.BusSplits : Prop :=
  ∀ s t : State, IrqInv s →
    (∀ xs ys, exec (.busWrite xs) s = .next t → t.faulted = false → t.tx.tstate ≠ .reading →
      exec (.busWrite (xs ++ ys)) s = exec (.busWrite ys) t) ∧
    (∀ m n, serves s = true → exec (.busRead m) s = .next t → t.faulted = false →
      exec (.busRead (m + n)) s = exec (.busRead n) t)

/-- A data byte is the collection operation at the current address (in Offset mode the offset form at the byte phase), then
the auto-increment, then the state of its direction; a byte read is put on the bus (43_bus_transactions.md R198, R203,
R204). -/
def Obligations.DataByteAccess : Prop :=
  ∀ s t : State, t.faulted = false →
    (∀ v, serves s = true →
      exec (match s.cfg.wideAccess with
        | .subRegisters => .collRead s.tx.curAddr.toNat
        | .offset => .collReadOff s.tx.curAddr.toNat s.tx.bytePhase (endianOf s.cfg)) s = .next t →
      t.results = s.results ++ [.byte v] →
      exec (.busRead 1) s = .next { t with
        tx := { (advance t).tx with tstate := .reading }, busOut := s.busOut ++ [v], results := s.results }) ∧
    (∀ b, s.tx.tstate = .addressSet ∨ s.tx.tstate = .writing →
      exec (match s.cfg.wideAccess with
        | .subRegisters => .collWrite s.tx.curAddr.toNat b
        | .offset => .collWriteOff s.tx.curAddr.toNat s.tx.bytePhase b (endianOf s.cfg)) s = .next t →
      exec (.busWrite [b]) s = .next { t with tx := { (advance t).tx with tstate := .writing } })

/-- Protocol misuse: a write in Reading is ignored whole, and so are the bytes that follow, in the same write, an address
phase whose read flag is 1, the record counting those bytes alone; a read in Idle with no usable address, in AddressPartial
or in Writing answers zeros of the length asked. Each leaves its one record and changes nothing else (43_bus_transactions.md
R197, R200 to R202). -/
def Obligations.BusMisuse : Prop :=
  ∀ s : State, s.faulted = false →
    (∀ b more, s.tx.tstate = .reading →
      exec (.busWrite (b :: more)) s = .next (settleIrq { s with
        diag := s.diag ++ [.eWriteWhileReading (more.length + 1)] })) ∧
    (∀ i b0 b more t, s.tx.tstate = .idle → s.tx.addrCnt = 0 → s.cfg.format.bytes = .one →
      s.cfg.format.rwBit = some i → b0.getLsbD i = true → exec (.busWrite [b0]) s = .next t →
      exec (.busWrite (b0 :: b :: more)) s =
        .next { t with diag := s.diag ++ [.eWriteWhileReading (more.length + 1)] }) ∧
    (∀ i b0 b1 b more t, s.tx.tstate = .idle → s.tx.addrCnt = 0 → s.cfg.format.bytes = .two →
      s.cfg.format.rwBit = some i → b0.getLsbD i = true → exec (.busWrite [b0, b1]) s = .next t →
      exec (.busWrite (b0 :: b1 :: b :: more)) s =
        .next { t with diag := s.diag ++ [.eWriteWhileReading (more.length + 1)] }) ∧
    (∀ i b1 b more t, s.tx.tstate = .addressPartial → s.tx.addrCnt = 1 → s.cfg.format.bytes = .two →
      s.cfg.format.rwBit = some i → s.tx.addrAcc.getLsbD i = true → exec (.busWrite [b1]) s = .next t →
      exec (.busWrite (b1 :: b :: more)) s =
        .next { t with diag := s.diag ++ [.eWriteWhileReading (more.length + 1)] }) ∧
    (∀ n, s.tx.tstate = .idle → (s.cfg.addrPreserve = false ∨ s.tx.addrValid = false) →
      exec (.busRead (n + 1)) s = .next (settleIrq { s with
        diag := s.diag ++ [.eReadNoAddress (n + 1)], busOut := s.busOut ++ List.replicate (n + 1) 0 })) ∧
    (∀ n, s.tx.tstate = .addressPartial →
      exec (.busRead (n + 1)) s = .next (settleIrq { s with
        diag := s.diag ++ [.eReadAddrIncomplete (n + 1)], busOut := s.busOut ++ List.replicate (n + 1) 0 })) ∧
    (∀ n, s.tx.tstate = .writing →
      exec (.busRead (n + 1)) s = .next (settleIrq { s with
        diag := s.diag ++ [.eReadWhileWriting (n + 1)], busOut := s.busOut ++ List.replicate (n + 1) 0 }))

/-- A primitive with an empty operand changes nothing, in every state (43_bus_transactions.md R210). -/
def Obligations.EmptyPrimitives : Prop :=
  ∀ s : State, s.faulted = false → exec (.busWrite []) s = .next s ∧ exec (.busRead 0) s = .next s

/-- BUS.FINISH returns to Idle from every state, drops a partial address, clears the latches and the byte phase, keeps the
address and, under `ADDR_PRESERVE` alone, its validity (43_bus_transactions.md R212). -/
def Obligations.BusFinish : Prop :=
  ∀ s : State, s.faulted = false →
    exec .busFinish s = .next (settleIrq { s with
      tx := { tstate := .idle, curAddr := s.tx.curAddr
              addrValid := if s.cfg.addrPreserve then s.tx.addrValid else false
              addrCnt := 0, addrAcc := 0, rwLatch := false, msLatch := false, bytePhase := 0 } })

/-- Under `ADDR_PRESERVE` a finished transaction leaves its address usable, and a read in Idle with a valid address is served
exactly as from AddressSet (43_bus_transactions.md R213). -/
def Obligations.AddressPreserve : Prop :=
  ∀ s t : State, s.cfg.addrPreserve = true → s.tx.addrValid = true →
    (exec .busFinish s = .next t → serves t = true ∧ t.tx.curAddr = s.tx.curAddr) ∧
    (∀ n, s.tx.tstate = .idle → exec (.busRead (n + 1)) { s with tx := { s.tx with tstate := .addressSet } } = .next t →
      t.faulted = false → exec (.busRead (n + 1)) s = .next t)

/-- ADVANCE: in Offset mode the byte phase steps round robin and the address holds; in SubRegisters mode the address steps,
or wraps, when every gate is open, and holds otherwise (43_bus_transactions.md R205 to R207, R209). That a wrap target is cut
to the address width too is deduced from R206 (log 27). -/
def Obligations.AdvanceExact : Prop :=
  ∀ s : State, s.faulted = false →
    let a := s.tx.curAddr.toNat
    (s.cfg.wideAccess = .offset →
      exec .advance s = .next (settleIrq { s with
        tx := { s.tx with
          bytePhase := (s.tx.bytePhase + 1) % (match s.cfg.find a with | none => 2 | some r => r.width.bytes) } })) ∧
    (s.cfg.wideAccess = .subRegisters →
      let go : Prop := s.cfg.aiBase = true ∧ (s.cfg.format.msBit = none ∨ s.tx.msLatch = true) ∧
        (∀ ga gf, s.cfg.aiGateFlag = some (ga, gf) → getField s ga gf = 1) ∧
        (∀ lo hi, s.cfg.aiRange = some (lo, hi) → lo ≤ a ∧ a ≤ hi) ∧ a ∉ s.cfg.aiHoldSet
      (¬ go → exec .advance s = .next (settleIrq s)) ∧
      (go → exec .advance s = .next (settleIrq { s with
        tx := { s.tx with
          curAddr := BitVec.ofNat 16 ((match s.cfg.aiWrap with
            | none => a + 1
            | some (wrapAt, wrapTo) => if a + 1 = wrapAt then wrapTo else a + 1) % 2 ^ s.cfg.format.bits) } })))

/-- The addresses and byte phases that a sequence of data bytes touches depend on the start, the multiple-operation latch and
the configuration alone: not on hits, on the data, nor on how the bytes are spread over primitives. For configurations
without a run-time flag (43_bus_transactions.md R205 to R209; R214, which the spec derives from them). That a wrap target is
cut to the address width too is deduced from R206 (log 27). -/
def Obligations.AutoIncrementDeterminism : Prop :=
  ∀ s t : State, s.cfg.aiGateFlag = none → t.faulted = false →
    (∀ n, serves s = true → exec (.busRead n) s = .next t →
      t.tx.curAddr = addrAfter s.cfg s.tx.msLatch n s.tx.curAddr ∧
      t.tx.bytePhase = phaseAfter s.cfg s.tx.curAddr.toNat n s.tx.bytePhase) ∧
    (∀ bytes, s.tx.tstate = .addressSet ∨ s.tx.tstate = .writing → exec (.busWrite bytes) s = .next t →
      t.tx.curAddr = addrAfter s.cfg s.tx.msLatch bytes.length s.tx.curAddr ∧
      t.tx.bytePhase = phaseAfter s.cfg s.tx.curAddr.toNat bytes.length s.tx.bytePhase)

/-- The transition table of `TSTATE`: the next state of every bus primitive in every state whose address count is in range,
which every reachable state's is (43_bus_transactions.md R215, which the spec derives from R192 to R213; 10_state.md
R33). -/
def Obligations.TransitionTable : Prop :=
  ∀ s t : State, CountInv s → t.faulted = false →
    (exec .busFinish s = .next t → t.tx.tstate = .idle) ∧
    (∀ n, exec (.busRead (n + 1)) s = .next t →
      t.tx.tstate = match s.tx.tstate with
        | .idle => if s.cfg.addrPreserve = true ∧ s.tx.addrValid = true then .reading else .idle
        | .addressPartial => .addressPartial
        | .addressSet => .reading
        | .writing => .writing
        | .reading => .reading) ∧
    (∀ b more, exec (.busWrite (b :: more)) s = .next t →
      let due := s.cfg.format.bytes.count - s.tx.addrCnt
      let first := if s.tx.addrCnt = 0 then b else s.tx.addrAcc
      let opened : TState := match s.cfg.format.rwBit with
        | none => .addressSet
        | some i => if first.getLsbD i then .reading else .writing
      let afterAddress : TState :=
        if more.length + 1 < due then .addressPartial
        else if more.length + 1 = due then opened
        else if opened = .reading then .reading else .writing
      t.tx.tstate = match s.tx.tstate with
        | .idle => afterAddress
        | .addressPartial => afterAddress
        | .addressSet => .writing
        | .writing => .writing
        | .reading => .reading)

/-! ### The sample FIFO -/

/-- FIFO.FEED, whatever timestamp comes with the sample: Bypass overwrites the current sample; with room the sample is
queued; a full queue drops the new sample in mode Fifo and evicts the oldest in mode Continuous, which sets the overrun
flag and signals once (44_sample_fifo.md R232 to R236; R258 for the timestamp). That a timestamp given with the sample
changes nothing is the model's reading (log 19). -/
def Obligations.FeedCases : Prop :=
  ∀ (s : State) (stamp : Option Time) (x : Sample), s.faulted = false → x.length = s.cfg.lanes →
    (s.fifo.mode = .bypass →
      exec (.fifoFeed stamp x) s = .next (settleIrq { s with fifo := { s.fifo with current := x } })) ∧
    (s.fifo.mode ≠ .bypass → s.fifo.q.length < s.cfg.cap →
      exec (.fifoFeed stamp x) s = .next (settleIrq { s with fifo := { s.fifo with q := s.fifo.q ++ [x] } })) ∧
    (s.fifo.mode = .fifo → s.cfg.cap ≤ s.fifo.q.length → exec (.fifoFeed stamp x) s = .next (settleIrq s)) ∧
    (s.fifo.mode = .continuous → s.cfg.cap ≤ s.fifo.q.length →
      exec (.fifoFeed stamp x) s = .next (settleIrq { s with
        fifo := { s.fifo with q := s.fifo.q.tail ++ [x], ovr := true }
        ovrSignals := if s.fifo.ovr then s.ovrSignals else s.ovrSignals + 1 }))

/-- The overflow law: feeding any list of samples into a queue within its bound keeps, in mode Continuous, the newest `CAP`
of all and sets the overrun flag and signals exactly once, if it was not set and a sample had to go; in mode Fifo the oldest
`CAP` of all, with no flag and no signal (44_sample_fifo.md R247, which the spec derives from R234, R235). -/
def Obligations.FifoOverflowLaw : Prop :=
  ∀ (s : State) (xs : List Sample), s.faulted = false → 1 ≤ s.cfg.cap → s.fifo.q.length ≤ s.cfg.cap →
    (∀ x ∈ xs, x.length = s.cfg.lanes) →
      let all := s.fifo.q ++ xs
      (s.fifo.mode = .continuous →
        ∃ t, execAll (feeds xs) s = .next t ∧ t.fifo.q = all.drop (all.length - s.cfg.cap) ∧
          t.fifo.ovr = (s.fifo.ovr || decide (s.cfg.cap < all.length)) ∧
          t.ovrSignals = (if s.fifo.ovr = false ∧ s.cfg.cap < all.length then s.ovrSignals + 1 else s.ovrSignals)) ∧
      (s.fifo.mode = .fifo →
        ∃ t, execAll (feeds xs) s = .next t ∧ t.fifo.q = all.take s.cfg.cap ∧ t.fifo.ovr = s.fifo.ovr ∧
          t.ovrSignals = s.ovrSignals)

/-- The ordering law: samples fed without overrun in a queued mode come out in the order they went in, behind those already
queued, each becoming the current sample (44_sample_fifo.md R241; R246, which the spec derives from R233, R241). -/
def Obligations.FifoOrderLaw : Prop :=
  ∀ (s : State) (xs : List Sample) (k : Nat), s.faulted = false → s.cfg.streamPull = .onTick →
    s.fifo.mode ≠ .bypass → s.fifo.q.length + xs.length ≤ s.cfg.cap → (∀ x ∈ xs, x.length = s.cfg.lanes) →
    k < (s.fifo.q ++ xs).length →
      ∃ t, execAll (feeds xs ++ List.replicate (k + 1) .fifoDeq) s = .next t ∧
        some t.fifo.current = (s.fifo.q ++ xs)[k]? ∧ t.fifo.q = (s.fifo.q ++ xs).drop (k + 1) ∧
        t.results = s.results ++ List.replicate (k + 1) (.dequeued true)

/-- FIFO.DEQ: nothing in Bypass; on an empty queue the record and, by `EMPTY_POLICY`, the default sample; else the oldest
sample becomes the current one. Under OnDequeue the stream is asked first, at the timestamp in force (44_sample_fifo.md R238
to R241, R256). -/
def Obligations.DequeueCases : Prop :=
  ∀ s p : State, s.faulted = false →
    (s.cfg.streamPull = .onTick ∧ p = s ∨
      s.cfg.streamPull = .onDequeue ∧ exec (.fifoStreamTick s.env.now) s = .next p) →
      (p.fifo.mode = .bypass →
        exec .fifoDeq s = .next (settleIrq { p with results := s.results ++ [.dequeued false] })) ∧
      (p.fifo.mode ≠ .bypass → p.fifo.q = [] →
        exec .fifoDeq s = .next (settleIrq { p with
          fifo := { p.fifo with
            current := match s.cfg.emptyPolicy with
              | .keepCurrent => p.fifo.current
              | .clearToDefault => s.cfg.dflt }
          diag := s.diag ++ [.wFifoEmpty], results := s.results ++ [.dequeued false] })) ∧
      (∀ x rest, p.fifo.mode ≠ .bypass → p.fifo.q = x :: rest →
        exec .fifoDeq s = .next (settleIrq { p with
          fifo := { p.fifo with current := x, q := rest }, results := s.results ++ [.dequeued true] }))

/-- FIFO.SETMODE changes the mode alone, FIFO.CLROVR the overrun flag alone, FIFO.RESET empties the queue unless `KEEP`,
clears the overrun flag and returns the current sample to the default (44_sample_fifo.md R242 to R244). -/
def Obligations.FifoControl : Prop :=
  ∀ s : State, s.faulted = false →
    (∀ m, exec (.fifoSetMode m) s = .next (settleIrq { s with fifo := { s.fifo with mode := m } })) ∧
    exec .fifoClrOvr s = .next (settleIrq { s with fifo := { s.fifo with ovr := false } }) ∧
    exec .fifoReset s = .next (settleIrq { s with
      fifo := { s.fifo with q := if s.fifo.keep then s.fifo.q else [], ovr := false, current := s.cfg.dflt } })

/-- FIFO.STREAMTICK by the stream's answer (44_sample_fifo.md R254, R255, R257); and the answer of a stream given as a table
in time order, a form of stream that is the model's own (log 3): the sample at or before the timestamp, BeforeStream before
the first, AfterStream from the table's end on. -/
def Obligations.StreamTick : Prop :=
  ∀ (s : State) (t : Time), s.faulted = false →
    (s.fifo.streamAttached = false → exec (.fifoStreamTick t) s = .next (settleIrq s)) ∧
    (∀ x, s.fifo.streamAttached = true → streamAnswer s.cfg t = (x, .ok) →
      x.length = s.cfg.lanes ∧
      exec (.fifoStreamTick t) s =
        exec (.fifoFeed none x) { s with fifo := { s.fifo with afterStream := false } }) ∧
    (∀ x, s.fifo.streamAttached = true → streamAnswer s.cfg t = (x, .beforeStream) →
      exec (.fifoStreamTick t) s = .next (settleIrq { s with fifo := { s.fifo with afterStream := false } })) ∧
    (∀ x, s.fifo.streamAttached = true → streamAnswer s.cfg t = (x, .afterStream) →
      exec (.fifoStreamTick t) s = .next (settleIrq { s with fifo := { s.fifo with afterStream := true } })) ∧
    (∀ samples ends, s.cfg.stream = .table samples ends →
      (ends ≤ t → (streamAnswer s.cfg t).2 = .afterStream) ∧
      (t < ends → (∀ y ∈ samples, t < y.1) → (streamAnswer s.cfg t).2 = .beforeStream) ∧
      (∀ before u x after, t < ends → samples = before ++ (u, x) :: after → u ≤ t → (∀ y ∈ after, t < y.1) →
        x.length = s.cfg.lanes → streamAnswer s.cfg t = (x, .ok)))

/-! ### The host -/

/-- HOST.FEEDREPEAT is its number of successive feeds (44_sample_fifo.md R237). -/
def Obligations.FeedRepeat : Prop :=
  ∀ (s : State) (x : Sample) (n : Nat), s.faulted = false →
    exec (.hostFeedRepeat x n) s = execAll (feeds (List.replicate n x)) s

/-- HOST.LOADFILE: a file without a malformed line is fed whole and sets `KEEP`; at the first malformed line the error names
the file, the 1-based line number and the line's text, and the lines before it are discarded, the state otherwise unchanged,
or fed, with `KEEP` set if there was one (44_sample_fifo.md R248, R250 to R252). -/
def Obligations.LoadFile : Prop :=
  ∀ (s : State) (name : Text), s.faulted = false →
    (∀ lines xs, lines.mapM (lineSample s.cfg) = some xs →
      ∃ u, execAll (feeds xs) s = .next u ∧
        exec (.hostLoadFile name lines) s = .next (settleIrq { u with
          fifo := { u.fifo with keep := true }, results := s.results ++ [.loaded] })) ∧
    (∀ good bad rest xs, good.mapM (lineSample s.cfg) = some xs → lineSample s.cfg bad = none →
      (s.cfg.loadPartial = .discard →
        exec (.hostLoadFile name (good ++ bad :: rest)) s = .next (settleIrq { s with
          results := s.results ++ [.cfgError name (good.length + 1) bad] })) ∧
      (s.cfg.loadPartial = .preserve →
        ∃ u, execAll (feeds xs) s = .next u ∧
          exec (.hostLoadFile name (good ++ bad :: rest)) s = .next (settleIrq { u with
            fifo := { u.fifo with keep := s.fifo.keep || !xs.isEmpty }
            results := s.results ++ [.cfgError name (good.length + 1) bad] })))

/-- The sample file's text. A line splits at runs of space and tab, leading and trailing ones too, and a trailing carriage
return is dropped first. A token is numeric exactly when it is an optional sign, digits and optionally a point and digits,
and has that decimal value. A line is a sample exactly when it has `LANES` tokens, each numeric with a value in the declared
range, none of them clamped, and the sample is their conversions (44_sample_fifo.md R248, R249, R260; text is a list of
character codes, log 24, and a value a fraction of integers, log 23). -/
def Obligations.TextFormat : Prop :=
  (∀ (lead : Text) (body : List (Text × Text)) (last : Text),
    let blank := fun ch : Nat => ch = 32 ∨ ch = 9
    (∀ ch ∈ lead, blank ch) →
    (∀ x ∈ body, x.1 ≠ [] ∧ (∀ ch ∈ x.1, ¬ blank ch) ∧ x.2 ≠ [] ∧ ∀ ch ∈ x.2, blank ch) →
    (∀ ch ∈ last, ¬ blank ch) →
      let line := lead ++ (body.flatMap fun x => x.1 ++ x.2) ++ last
      let pieces := body.map Prod.fst ++ if last = [] then [] else [last]
      tokens (line ++ [13]) = pieces ∧ (line.getLast? ≠ some 13 → tokens line = pieces)) ∧
  (∀ (tok : Text) (v : Ratio), numeric tok = some v ↔
    ∃ (sign : Option Bool) (ds fs : List (Fin 10)),
      let text := fun l : List (Fin 10) => l.map fun d => 48 + d.val
      let value := fun l : List (Fin 10) => (l.foldl (fun n d => n * 10 + d.val) 0 : Nat)
      ds ≠ [] ∧
        tok = (match sign with | none => [] | some false => [43] | some true => [45]) ++ text ds ++
          (if fs = [] then [] else 46 :: text fs) ∧
        v = { num := (if sign = some true then -1 else 1) * value (ds ++ fs), den1 := 10 ^ fs.length - 1 }) ∧
  (∀ (c : Cfg) (line : Text) (xs : Sample), c.wf = true →
    (lineSample c line = some xs ↔
      (tokens line).length = c.lanes ∧
        List.Forall₂ (fun tok x => ∃ v, numeric tok = some v ∧
          c.minPhys.num * (v.den1 + 1) ≤ v.num * (c.minPhys.den1 + 1) ∧
          v.num * (c.maxPhys.den1 + 1) ≤ c.maxPhys.num * (v.den1 + 1) ∧
          x.toInt = Int.tdiv (v.num * c.resolution.num) ((v.den1 + 1) * (c.resolution.den1 + 1)))
          (tokens line) xs))

/-- HOST.ATTACHSTREAM, HOST.DETACHSTREAM and HOST.SETKEEP write their flags alone (44_sample_fifo.md R245, R253). -/
def Obligations.HostFlags : Prop :=
  ∀ s : State, s.faulted = false →
    exec .hostAttachStream s = .next (settleIrq { s with
      fifo := { s.fifo with streamAttached := true, afterStream := false, keep := true } }) ∧
    exec .hostDetachStream s = .next (settleIrq { s with
      fifo := { s.fifo with streamAttached := false, afterStream := false } }) ∧
    ∀ b, exec (.hostSetKeep b) s = .next (settleIrq { s with fifo := { s.fifo with keep := b } })

/-- HOST.SETPHYS feeds the converted values; a value in range converts to its product with `RESOLUTION` rounded toward zero,
a value out of range is replaced by the bound it passed, with a record (44_sample_fifo.md R260; 60_exceptions.md R275; a
physical value is a fraction of integers, log 23). -/
def Obligations.SetPhysical : Prop :=
  ∀ (s : State) (vs : List Ratio), s.cfg.wf = true → vs.length = s.cfg.lanes →
    exec (.hostSetPhys vs) s =
      exec (.fifoFeed none (vs.map fun v => rawLane s.cfg (clampPhys s.cfg v).1))
        { s with diag := s.diag ++ vs.filterMap fun v => (clampPhys s.cfg v).2.map fun bound => .wClamped v bound } ∧
    ∀ v : Ratio,
      (Ratio.le s.cfg.minPhys v = true → Ratio.le v s.cfg.maxPhys = true →
        clampPhys s.cfg v = (v, none) ∧
        (rawLane s.cfg v).toInt =
          Int.tdiv (v.num * s.cfg.resolution.num) ((v.den1 + 1) * (s.cfg.resolution.den1 + 1))) ∧
      (Ratio.le v s.cfg.maxPhys = false → clampPhys s.cfg v = (s.cfg.maxPhys, some s.cfg.maxPhys)) ∧
      (Ratio.le s.cfg.minPhys v = false → clampPhys s.cfg v = (s.cfg.minPhys, some s.cfg.minPhys))

/-! ### Resets -/

/-- DEV.RESET gives every component its reset value, whatever `KEEP` is, and leaves `FAULTED` and the outputs alone
(70_reset_and_hazards.md R303; 10_state.md R55); that events still to come stay is the model's choice (log 35). -/
def Obligations.DeviceReset : Prop :=
  ∀ s : State, s.faulted = false →
    ∃ t, exec .devReset s = .next t ∧
      (∀ a r f d, s.cfg.find a = some r → r.fields[f]? = some d →
        getField t a f = (r.rst >>> d.off) &&& lowMask d.wid) ∧
      t = settleIrq { s with
        fv := t.fv
        tx := { tstate := .idle, curAddr := 0, addrValid := false, addrCnt := 0, addrAcc := 0, rwLatch := false,
                msLatch := false, bytePhase := 0 }
        fifo := { q := [], current := s.cfg.dflt, ovr := false, mode := s.cfg.modeReset, keep := false,
                  streamAttached := false, afterStream := false }
        user := s.cfg.userReset }

/-- DEV.SOFTRESET gives every field its reset value, resets the FIFO, keeping the queue under `KEEP`, sets the reset mode, and
leaves the transaction state, the flags of the host and `USER` alone (70_reset_and_hazards.md R304). -/
def Obligations.SoftReset : Prop :=
  ∀ s : State, s.faulted = false →
    ∃ t, exec .devSoftReset s = .next t ∧
      (∀ a r f d, s.cfg.find a = some r → r.fields[f]? = some d →
        getField t a f = (r.rst >>> d.off) &&& lowMask d.wid) ∧
      t = settleIrq { s with
        fv := t.fv
        fifo := { s.fifo with
          q := if s.fifo.keep then s.fifo.q else [], ovr := false, current := s.cfg.dflt, mode := s.cfg.modeReset } }

/-- The reset laws: each reset is idempotent, and after a reset of the registers a read of a stored readable field returns
its declared default, whatever was written before (70_reset_and_hazards.md R308, which the spec derives from R303 to
R305). -/
def Obligations.ResetLaws : Prop :=
  ∀ s : State, s.faulted = false →
    (∀ i ∈ [Instr.collReset, .fifoReset, .devSoftReset, .devReset], execAll [i, i] s = exec i s) ∧
    (∀ i ∈ [Instr.collReset, .devSoftReset, .devReset], ∀ a r f d, s.cfg.find a = some r → r.fields[f]? = some d →
      d.prov = none → d.acc ≠ .write →
      ∃ t, execAll [i, .fldRead a f] s = .next t ∧
        t.results = s.results ++ [.value ((r.rst >>> d.off) &&& lowMask d.wid)])

/-- The state after reset: what the spec gives, and every invariant of this file. The configuration in it is the model's
choice (log 2) (10_state.md R55; 70_reset_and_hazards.md R302). -/
def Obligations.ResetState : Prop :=
  State.reset.fv = [] ∧ State.reset.tx.tstate = .idle ∧ State.reset.tx.addrValid = false ∧
    State.reset.tx.curAddr = 0 ∧ State.reset.fifo.q = [] ∧ State.reset.fifo.ovr = false ∧
    State.reset.fifo.keep = false ∧ State.reset.fifo.streamAttached = false ∧ State.reset.faulted = false ∧
    State.reset.diag = [] ∧ State.reset.fifo.current = State.reset.cfg.dflt ∧
    State.reset.fifo.mode = State.reset.cfg.modeReset ∧ construct State.reset.cfg = some State.reset ∧
    State.reset.cfg.wf = true ∧ Memory.wf State.reset.cfg State.reset.fv = true ∧ FifoInv State.reset ∧
    TxInv State.reset ∧ IrqInv State.reset

/-! ### Faults and outputs -/

/-- With `FAULTED` set no operation is defined: every operation and every step stops (43_bus_transactions.md R211;
60_exceptions.md R277). The stop is a fault in the model (log 20). -/
def Obligations.FaultedStops : Prop :=
  ∀ s : State, s.faulted = true → (∀ i, exec i s = .fault .invariantLatched) ∧ step s = .fault .invariantLatched

/-- Only a hook outside the standard library can set `FAULTED`: with standard hooks alone no operation and no step does, and
none of the records that an operation or a step logs is an invariant violation (60_exceptions.md R276, R277). -/
def Obligations.OnlyHooksFault : Prop :=
  ∀ s t : State, standardHooks s.cfg = true → s.faulted = false →
    let sound := t.faulted = false ∧ ∃ ds, t.diag = s.diag ++ ds ∧ ∀ what, Diag.fInvariant what ∉ ds
    (∀ i, exec i s = .next t → sound) ∧ (step s = .next t → sound)

/-- Whenever the overrun flag goes from 0 to 1 the overrun signal is emitted, in every operation and every step
(60_exceptions.md R283); that it is emitted too when a hook sets the flag is deduced from that rule (log 29). -/
def Obligations.OverrunSignalled : Prop :=
  ∀ s t : State, s.fifo.ovr = false → t.fifo.ovr = true →
    (∀ i, exec i s = .next t → s.ovrSignals < t.ovrSignals) ∧ (step s = .next t → s.ovrSignals < t.ovrSignals)

/-- `DIAG` is an output: what an operation or a step does, stops included, does not depend on the records so far, and it only
appends to them (10_state.md R51; the records are held in the state, log 15). -/
def Obligations.DiagIsOutput : Prop :=
  ∀ (s : State) (D : List Diag),
    let behind := fun o : Host.Outcome State Fault Refusal =>
      (match o with
        | .next t => .next { t with diag := D ++ t.diag }
        | .fault r => .fault r
        | .refused r => .refused r : Host.Outcome State Fault Refusal)
    (∀ i, exec i { s with diag := D } = behind (exec i { s with diag := [] })) ∧
    step { s with diag := D } = behind (step { s with diag := [] })

/-- What firmware cannot do: no bus primitive changes the configuration or returns a host result, and with standard hooks
none changes `KEEP`, attaches a stream, touches `USER` or sets `FAULTED` (60_exceptions.md R276, R286; that R286 does not
bind other hooks is the model's choice, log 39). -/
def Obligations.FirmwareCannot : Prop :=
  ∀ (s t : State) (op : BusOp), exec op.toInstr s = .next t →
    t.cfg = s.cfg ∧ t.results = s.results ∧
    (standardHooks s.cfg = true →
      t.fifo.keep = s.fifo.keep ∧ t.fifo.streamAttached = s.fifo.streamAttached ∧ t.user = s.user ∧
        t.faulted = s.faulted)

/-- No operation but an address phase, a bus primitive, the auto-increment and DEV.RESET touches the transaction state,
whatever its hooks do (10_state.md R36, which the spec derives from the pseudocode of its operations). -/
def Obligations.PositionFrame : Prop :=
  ∀ (s t : State) (i : Instr), keepsPosition i = true → exec i s = .next t → t.tx = s.tx

/-! ### Invariants of the step -/

/-- Every step keeps the FIFO's bound and the lanes of its samples (10_state.md R41; R47, which the spec derives from
44_sample_fifo.md). -/
def Obligations.StepKeepsFifo : Prop :=
  ∀ s t : State, FifoInv s → step s = .next t → FifoInv t

/-- Every step keeps the transaction state within its ranges: the address within its width, the address count and
AddressPartial in agreement, the latches 0 where the format has none and in Idle, the byte phase 0 or 1 (10_state.md R31,
R33 to R35). -/
def Obligations.StepKeepsPosition : Prop :=
  ∀ s t : State, TxInv s → step s = .next t → TxInv t

/-- Every step keeps the configuration and the canonical form of the field store, so that every stored value fits its field
(00_scope.md R7; 10_state.md R26; the form is the model's, log 8). -/
def Obligations.StepKeepsStore : Prop :=
  ∀ s t : State, Memory.wf s.cfg s.fv = true → step s = .next t → t.cfg = s.cfg ∧ Memory.wf t.cfg t.fv = true

/-- After every step that does not latch a fault the interrupt line holds the level of its condition (60_exceptions.md
R281). -/
def Obligations.StepKeepsIrq : Prop :=
  ∀ s t : State, IrqInv s → step s = .next t → t.faulted = false → IrqInv t

/-! ### The step -/

/-- A step runs the next piece of the operation that the schedule and the queues select. With no agent scheduled nothing
changes; a scheduled agent without an event only gives up its place in the schedule. The bus thread goes on with the
primitive it is in the middle of, else begins the next one: an address phase, whole or as far as its bytes go, is one piece,
and the form of ADDR.SET it decodes to; a data byte is one piece; a misuse, an empty primitive and BUS.FINISH are one piece;
a write left over that finds its transaction cut by a reset is dropped. The feeder and the host run the operation of their
event, but for HOST.FEEDREPEAT and HOST.LOADFILE, of which a piece is one feed, the end of a load being a piece of its own
(30_encoding.md R97; 20_memory.md R70 to R73; the queues and the schedule are the model's, log 9, log 11, and so are the cut
of a write, log 12, and the pieces of a load, log 13). -/
def Obligations.StepRunsEvents : Prop :=
  ∀ (s : State) (sch : List Agent) (now : Time), s.faulted = false → s.cfg.wf = true →
    (s.env.schedule = [] → step s = .next s) ∧
    (∀ agent, s.env.schedule = agent :: sch →
      (match agent with
        | .bus => s.env.busRest = none ∧ s.env.busQueue = []
        | .feeder => s.env.feederQueue = []
        | .host => s.env.hostRest = none ∧ s.env.hostQueue = []) →
      step s = .next { s with env := { s.env with schedule := sch } }) ∧
    (∀ ws more i rest t, s.env.schedule = .bus :: sch → s.env.busRest = none → s.env.latest ≤ now →
      s.env.busQueue = { now := now, op := .write ws } :: more → s.tx.tstate = .idle → s.tx.addrCnt = 0 →
      decode s.cfg.format s.cfg.addrOrder ws = .ok (i, rest) →
      exec i { s with env := { s.env with busQueue := more, schedule := sch, now := now, latest := now } } = .next t →
      step s = .next { t with
        env := { t.env with busRest := if rest = [] then none else some { now := now, op := .write rest } } }) ∧
    (∀ op u, s.env.schedule = .bus :: sch →
      ((∃ more, s.env.busRest = none ∧ s.env.latest ≤ now ∧ s.env.busQueue = { now := now, op := op } :: more ∧
          u = { s with env := { s.env with busQueue := more, schedule := sch, now := now, latest := now } }) ∨
        s.env.busRest = some { now := now, op := op } ∧
          u = { s with env := { s.env with schedule := sch, now := now } }) →
      let runs := fun (piece : BusOp) (left : Option BusOp) => ∀ t, exec piece.toInstr u = .next t →
        step s = .next { t with
          env := { t.env with busRest := left.map fun op => { now := now, op := op } } }
      (∀ ws, op = .write ws → s.env.busRest = none → CountInv s →
        s.tx.tstate = .idle ∨ s.tx.tstate = .addressPartial →
        let due := s.cfg.format.bytes.count - s.tx.addrCnt
        runs (.write (ws.take due)) (if ws.length ≤ due then none else some (.write (ws.drop due)))) ∧
      (∀ ws, op = .write ws → s.env.busRest ≠ none → s.tx.tstate = .idle ∨ s.tx.tstate = .addressPartial →
        step s = .next { s with env := { s.env with schedule := sch, busRest := none } }) ∧
      (∀ b ws, op = .write (b :: ws) → s.tx.tstate = .addressSet ∨ s.tx.tstate = .writing →
        runs (.write [b]) (if ws = [] then none else some (.write ws))) ∧
      (∀ ws, op = .write ws → s.tx.tstate = .reading → runs (.write ws) none) ∧
      (op = .write [] → s.env.busRest = none → runs (.write []) none) ∧
      (∀ n, op = .read (n + 2) → serves s = true → runs (.read 1) (some (.read (n + 1)))) ∧
      (∀ n, op = .read n → n ≤ 1 ∨ serves s = false → runs (.read n) none) ∧
      (op = .finish → runs .finish none)) ∧
    (∀ op more, s.env.schedule = .feeder :: sch → s.env.latest ≤ now →
      s.env.feederQueue = { now := now, op := op } :: more →
      step s = exec (op.toInstr now)
        { s with env := { s.env with feederQueue := more, schedule := sch, now := now, latest := now } }) ∧
    (∀ op more, s.env.schedule = .host :: sch → s.env.hostRest = none → s.env.latest ≤ now →
      s.env.hostQueue = { now := now, op := op } :: more →
      let u := { s with env := { s.env with hostQueue := more, schedule := sch, now := now, latest := now } }
      let feeds := fun (x : Sample) (left : Option HostRest) => ∀ t, exec (.fifoFeed none x) u = .next t →
        step s = .next { t with env := { t.env with hostRest := left.map fun r => { now := now, op := r } } }
      ((∀ x n, op ≠ .feedRepeat x (n + 1)) → (∀ name lines, op ≠ .loadFile name lines) →
        step s = exec op.toInstr u) ∧
      (∀ x n, op = .feedRepeat x (n + 1) → feeds x (if n = 0 then none else some (.feeds x n))) ∧
      (∀ name lines, op = .loadFile name lines →
        (∀ x xs, lines.mapM (lineSample s.cfg) = some (x :: xs) → feeds x (some (.loading xs true .loaded))) ∧
        (∀ good bad rest x xs, lines = good ++ bad :: rest → good.mapM (lineSample s.cfg) = some (x :: xs) →
          lineSample s.cfg bad = none → s.cfg.loadPartial = .preserve →
          feeds x (some (.loading xs true (.cfgError name (good.length + 1) bad)))) ∧
        (lines = [] ∨ (∃ bad rest, lines = bad :: rest ∧ lineSample s.cfg bad = none) ∨
            s.cfg.loadPartial = .discard ∧ lines.mapM (lineSample s.cfg) = none →
          step s = exec (.hostLoadFile name lines) u))) ∧
    (∀ op, s.env.schedule = .host :: sch → s.env.hostRest = some { now := now, op := op } →
      let u := { s with env := { s.env with schedule := sch, now := now } }
      let feeds := fun (x : Sample) (left : Option HostRest) => ∀ t, exec (.fifoFeed none x) u = .next t →
        step s = .next { t with env := { t.env with hostRest := left.map fun r => { now := now, op := r } } }
      (∀ x n, op = .feeds x (n + 1) → feeds x (if n = 0 then none else some (.feeds x n))) ∧
      (∀ x xs keeps result, op = .loading (x :: xs) keeps result → feeds x (some (.loading xs keeps result))) ∧
      (∀ keeps result, op = .loading [] keeps result → result ≠ .none →
        step s = .next (settleIrq { u with
          fifo := { s.fifo with keep := s.fifo.keep || keeps }
          results := s.results ++ [result]
          env := { u.env with hostRest := none } })))

/-- A bus primitive that no other agent interrupts, run as its atomic steps, is the primitive run whole (20_memory.md R70;
R73, which the spec derives; the queues and the schedule are the model's, log 9, log 11). -/
def Obligations.BusStepsEqualWhole : Prop :=
  ∀ (s t : State) (op : BusOp) (now : Time) (more : List (Timed BusOp)) (sch : List Agent),
    s.cfg.wf = true → CountInv s → s.env.busRest = none → s.env.busQueue = { now := now, op := op } :: more →
    s.env.latest ≤ now →
    exec op.toInstr { s with env := { s.env with busQueue := more, schedule := sch, now := now, latest := now } } =
      .next t → t.faulted = false →
      ∃ n, Sys2Proof.core.run n { s with env := { s.env with schedule := List.replicate n .bus ++ sch } } = .next t

/-! ### The order of effects in one byte write -/

/-- REG.WRITEB over fields with callbacks, in field order, then the whole-register callback. Of write callbacks that set the
FIFO mode the one of the highest field written decides, unless the whole-register callback sets it after them; every field is
written as it is without callbacks. A soft reset asked by a field's write callback in mid-byte wipes the fields below it and
its own, and every field not in the byte; the fields of the byte above it are written afterwards, from the same byte, over
their reset values; and the whole-register callback still runs (41_register_ops.md R151, R152, R159;
70_reset_and_hazards.md R316, which the spec derives from them; the whole-register callback is a hook program, a form that is
the model's, log 4). -/
def Obligations.RegisterWriteOrder : Prop :=
  ∀ (s : State) (a k : Nat) (b : Byte) (r : RegisterDef) (h : Nat) (d : FieldDef) (m : Half) (last : Option FifoMode),
    s.faulted = false → s.cfg.wf = true → Memory.wf s.cfg s.fv = true → s.cfg.find a = some r → k < r.width.bytes →
    r.rwcb = last.map (fun mode => .program [{ guard := .lit 1, act := .setMode mode }]) →
    r.fields[h]? = some d → d.acc = .write ∨ d.acc = .readWrite ∨ d.acc = .readToClear →
    d.off < 8 * k + 8 → 8 * k < d.off + d.wid → enumRefuses d m = false →
      let mine := fun (e : FieldDef) (j : Nat) => decide (8 * k ≤ e.off + j) && decide (e.off + j < 8 * k + 8)
      let merged := fun (e : FieldDef) (old n : Half) => ∀ j, n.getLsbD j =
        if decide (j < e.wid) && mine e j then b.getLsbD (e.off + j - 8 * k) else old.getLsbD j
      let takes := fun (e : FieldDef) (old now : Half) =>
        (e.acc = .read → now = old) ∧
        (e.acc = .writeOneToClear → ∀ j, now.getLsbD j =
          (old.getLsbD j && !(mine e j && b.getLsbD (e.off + j - 8 * k)))) ∧
        (e.acc = .write ∨ e.acc = .readWrite ∨ e.acc = .readToClear → ∀ n, merged e old n →
          now = if enumRefuses e n then old else n)
      merged d (getField s a h) m →
      (∀ table rest, d.wcb = some (.whFifoMode table rest) →
        (∀ e ∈ r.fields, e.ccb = none ∧ (e.wcb = none ∨ ∃ table rest, e.wcb = some (.whFifoMode table rest))) →
        (∀ f e, h < f → r.fields[f]? = some e → e.wcb = none) →
        ∃ t, exec (.regWriteB a k b) s = .next t ∧ getField t a h = m ∧
          (∀ f e, r.fields[f]? = some e → takes e (getField s a f) (getField t a f)) ∧
          (∀ a' f', a' ≠ a ∨ r.fields.length ≤ f' → getField t a' f' = getField s a' f') ∧
          t = settleIrq { s with
            fv := t.fv, diag := t.diag
            fifo := { s.fifo with mode := last.getD (table.getD m.toNat rest) } }) ∧
      (d.wcb = some .whSoftReset → m = 1 → d.ccb = none →
        (∀ f e, f ≠ h → r.fields[f]? = some e → e.wcb = none ∧ e.ccb = none) →
        ∃ t, exec (.regWriteB a k b) s = .next t ∧
          (∀ a' f, a' ≠ a ∨ f ≤ h → getField t a' f = s.cfg.slotReset a' f) ∧
          (∀ f e, h < f → r.fields[f]? = some e → takes e (s.cfg.slotReset a f) (getField t a f)) ∧
          t = settleIrq { s with
            fv := t.fv, diag := t.diag
            fifo := { s.fifo with
              q := if s.fifo.keep then s.fifo.q else [], ovr := false, current := s.cfg.dflt
              mode := last.getD s.cfg.modeReset } })
end

