-- ==== Sys2Proof/Laws/State.lean ====
section
/-! SUPPORT. One lemma per field per named update of the state, so that no later proof unfolds a record update; and the
same for the updates that look at the state first. -/

namespace Sys2Proof.Machine

/-! `resetRegister` -/

@[simp] theorem resetRegister_cfg (s : State) (a : Nat) : (resetRegister s a).cfg = s.cfg := rfl
@[simp] theorem resetRegister_fv (s : State) (a : Nat) :
    (resetRegister s a).fv = s.fv.filter fun e => e.1.1 != a := rfl
@[simp] theorem resetRegister_tx (s : State) (a : Nat) : (resetRegister s a).tx = s.tx := rfl
@[simp] theorem resetRegister_fifo (s : State) (a : Nat) : (resetRegister s a).fifo = s.fifo := rfl
@[simp] theorem resetRegister_user (s : State) (a : Nat) : (resetRegister s a).user = s.user := rfl
@[simp] theorem resetRegister_irq (s : State) (a : Nat) : (resetRegister s a).irq = s.irq := rfl
@[simp] theorem resetRegister_faulted (s : State) (a : Nat) : (resetRegister s a).faulted = s.faulted := rfl
@[simp] theorem resetRegister_diag (s : State) (a : Nat) : (resetRegister s a).diag = s.diag := rfl
@[simp] theorem resetRegister_ovrSignals (s : State) (a : Nat) : (resetRegister s a).ovrSignals = s.ovrSignals := rfl
@[simp] theorem resetRegister_busOut (s : State) (a : Nat) : (resetRegister s a).busOut = s.busOut := rfl
@[simp] theorem resetRegister_results (s : State) (a : Nat) : (resetRegister s a).results = s.results := rfl
@[simp] theorem resetRegister_env (s : State) (a : Nat) : (resetRegister s a).env = s.env := rfl

/-! `resetCollection` -/

@[simp] theorem resetCollection_cfg (s : State) : (resetCollection s).cfg = s.cfg := rfl
@[simp] theorem resetCollection_fv (s : State) : (resetCollection s).fv = [] := rfl
@[simp] theorem resetCollection_tx (s : State) : (resetCollection s).tx = s.tx := rfl
@[simp] theorem resetCollection_fifo (s : State) : (resetCollection s).fifo = s.fifo := rfl
@[simp] theorem resetCollection_user (s : State) : (resetCollection s).user = s.user := rfl
@[simp] theorem resetCollection_irq (s : State) : (resetCollection s).irq = s.irq := rfl
@[simp] theorem resetCollection_faulted (s : State) : (resetCollection s).faulted = s.faulted := rfl
@[simp] theorem resetCollection_diag (s : State) : (resetCollection s).diag = s.diag := rfl
@[simp] theorem resetCollection_ovrSignals (s : State) : (resetCollection s).ovrSignals = s.ovrSignals := rfl
@[simp] theorem resetCollection_busOut (s : State) : (resetCollection s).busOut = s.busOut := rfl
@[simp] theorem resetCollection_results (s : State) : (resetCollection s).results = s.results := rfl
@[simp] theorem resetCollection_env (s : State) : (resetCollection s).env = s.env := rfl

/-! `say` -/

@[simp] theorem say_cfg (s : State) (d : Diag) : (say s d).cfg = s.cfg := rfl
@[simp] theorem say_fv (s : State) (d : Diag) : (say s d).fv = s.fv := rfl
@[simp] theorem say_tx (s : State) (d : Diag) : (say s d).tx = s.tx := rfl
@[simp] theorem say_fifo (s : State) (d : Diag) : (say s d).fifo = s.fifo := rfl
@[simp] theorem say_user (s : State) (d : Diag) : (say s d).user = s.user := rfl
@[simp] theorem say_irq (s : State) (d : Diag) : (say s d).irq = s.irq := rfl
@[simp] theorem say_faulted (s : State) (d : Diag) : (say s d).faulted = s.faulted := rfl
@[simp] theorem say_diag (s : State) (d : Diag) : (say s d).diag = s.diag ++ [d] := rfl
@[simp] theorem say_ovrSignals (s : State) (d : Diag) : (say s d).ovrSignals = s.ovrSignals := rfl
@[simp] theorem say_busOut (s : State) (d : Diag) : (say s d).busOut = s.busOut := rfl
@[simp] theorem say_results (s : State) (d : Diag) : (say s d).results = s.results := rfl
@[simp] theorem say_env (s : State) (d : Diag) : (say s d).env = s.env := rfl

/-! `reply` -/

@[simp] theorem reply_cfg (s : State) (bs : List Byte) : (reply s bs).cfg = s.cfg := rfl
@[simp] theorem reply_fv (s : State) (bs : List Byte) : (reply s bs).fv = s.fv := rfl
@[simp] theorem reply_tx (s : State) (bs : List Byte) : (reply s bs).tx = s.tx := rfl
@[simp] theorem reply_fifo (s : State) (bs : List Byte) : (reply s bs).fifo = s.fifo := rfl
@[simp] theorem reply_user (s : State) (bs : List Byte) : (reply s bs).user = s.user := rfl
@[simp] theorem reply_irq (s : State) (bs : List Byte) : (reply s bs).irq = s.irq := rfl
@[simp] theorem reply_faulted (s : State) (bs : List Byte) : (reply s bs).faulted = s.faulted := rfl
@[simp] theorem reply_diag (s : State) (bs : List Byte) : (reply s bs).diag = s.diag := rfl
@[simp] theorem reply_ovrSignals (s : State) (bs : List Byte) : (reply s bs).ovrSignals = s.ovrSignals := rfl
@[simp] theorem reply_busOut (s : State) (bs : List Byte) : (reply s bs).busOut = s.busOut ++ bs := rfl
@[simp] theorem reply_results (s : State) (bs : List Byte) : (reply s bs).results = s.results := rfl
@[simp] theorem reply_env (s : State) (bs : List Byte) : (reply s bs).env = s.env := rfl

/-! `evict` -/

@[simp] theorem evict_cfg (s : State) (x : Sample) : (evict s x).cfg = s.cfg := rfl
@[simp] theorem evict_fv (s : State) (x : Sample) : (evict s x).fv = s.fv := rfl
@[simp] theorem evict_tx (s : State) (x : Sample) : (evict s x).tx = s.tx := rfl
@[simp] theorem evict_fifo (s : State) (x : Sample) :
    (evict s x).fifo = { s.fifo with q := s.fifo.q.tail ++ [x], ovr := true } := rfl
@[simp] theorem evict_user (s : State) (x : Sample) : (evict s x).user = s.user := rfl
@[simp] theorem evict_irq (s : State) (x : Sample) : (evict s x).irq = s.irq := rfl
@[simp] theorem evict_faulted (s : State) (x : Sample) : (evict s x).faulted = s.faulted := rfl
@[simp] theorem evict_diag (s : State) (x : Sample) : (evict s x).diag = s.diag := rfl
@[simp] theorem evict_ovrSignals (s : State) (x : Sample) :
    (evict s x).ovrSignals = if s.fifo.ovr then s.ovrSignals else s.ovrSignals + 1 := rfl
@[simp] theorem evict_busOut (s : State) (x : Sample) : (evict s x).busOut = s.busOut := rfl
@[simp] theorem evict_results (s : State) (x : Sample) : (evict s x).results = s.results := rfl
@[simp] theorem evict_env (s : State) (x : Sample) : (evict s x).env = s.env := rfl

/-! `setAfterStream` -/

@[simp] theorem setAfterStream_cfg (s : State) (b : Bool) : (setAfterStream s b).cfg = s.cfg := rfl
@[simp] theorem setAfterStream_fv (s : State) (b : Bool) : (setAfterStream s b).fv = s.fv := rfl
@[simp] theorem setAfterStream_tx (s : State) (b : Bool) : (setAfterStream s b).tx = s.tx := rfl
@[simp] theorem setAfterStream_fifo (s : State) (b : Bool) :
    (setAfterStream s b).fifo = { s.fifo with afterStream := b } := rfl
@[simp] theorem setAfterStream_user (s : State) (b : Bool) : (setAfterStream s b).user = s.user := rfl
@[simp] theorem setAfterStream_irq (s : State) (b : Bool) : (setAfterStream s b).irq = s.irq := rfl
@[simp] theorem setAfterStream_faulted (s : State) (b : Bool) : (setAfterStream s b).faulted = s.faulted := rfl
@[simp] theorem setAfterStream_diag (s : State) (b : Bool) : (setAfterStream s b).diag = s.diag := rfl
@[simp] theorem setAfterStream_ovrSignals (s : State) (b : Bool) :
    (setAfterStream s b).ovrSignals = s.ovrSignals := rfl
@[simp] theorem setAfterStream_busOut (s : State) (b : Bool) : (setAfterStream s b).busOut = s.busOut := rfl
@[simp] theorem setAfterStream_results (s : State) (b : Bool) : (setAfterStream s b).results = s.results := rfl
@[simp] theorem setAfterStream_env (s : State) (b : Bool) : (setAfterStream s b).env = s.env := rfl

/-! `resetQueue` -/

@[simp] theorem resetQueue_cfg (s : State) : (resetQueue s).cfg = s.cfg := rfl
@[simp] theorem resetQueue_fv (s : State) : (resetQueue s).fv = s.fv := rfl
@[simp] theorem resetQueue_tx (s : State) : (resetQueue s).tx = s.tx := rfl
@[simp] theorem resetQueue_fifo (s : State) :
    (resetQueue s).fifo = { s.fifo with q := if s.fifo.keep then s.fifo.q else [], ovr := false, current := s.cfg.dflt } := rfl
@[simp] theorem resetQueue_user (s : State) : (resetQueue s).user = s.user := rfl
@[simp] theorem resetQueue_irq (s : State) : (resetQueue s).irq = s.irq := rfl
@[simp] theorem resetQueue_faulted (s : State) : (resetQueue s).faulted = s.faulted := rfl
@[simp] theorem resetQueue_diag (s : State) : (resetQueue s).diag = s.diag := rfl
@[simp] theorem resetQueue_ovrSignals (s : State) : (resetQueue s).ovrSignals = s.ovrSignals := rfl
@[simp] theorem resetQueue_busOut (s : State) : (resetQueue s).busOut = s.busOut := rfl
@[simp] theorem resetQueue_results (s : State) : (resetQueue s).results = s.results := rfl
@[simp] theorem resetQueue_env (s : State) : (resetQueue s).env = s.env := rfl

/-! `clearOverrun` -/

@[simp] theorem clearOverrun_cfg (s : State) : (clearOverrun s).cfg = s.cfg := rfl
@[simp] theorem clearOverrun_fv (s : State) : (clearOverrun s).fv = s.fv := rfl
@[simp] theorem clearOverrun_tx (s : State) : (clearOverrun s).tx = s.tx := rfl
@[simp] theorem clearOverrun_fifo (s : State) : (clearOverrun s).fifo = { s.fifo with ovr := false } := rfl
@[simp] theorem clearOverrun_user (s : State) : (clearOverrun s).user = s.user := rfl
@[simp] theorem clearOverrun_irq (s : State) : (clearOverrun s).irq = s.irq := rfl
@[simp] theorem clearOverrun_faulted (s : State) : (clearOverrun s).faulted = s.faulted := rfl
@[simp] theorem clearOverrun_diag (s : State) : (clearOverrun s).diag = s.diag := rfl
@[simp] theorem clearOverrun_ovrSignals (s : State) : (clearOverrun s).ovrSignals = s.ovrSignals := rfl
@[simp] theorem clearOverrun_busOut (s : State) : (clearOverrun s).busOut = s.busOut := rfl
@[simp] theorem clearOverrun_results (s : State) : (clearOverrun s).results = s.results := rfl
@[simp] theorem clearOverrun_env (s : State) : (clearOverrun s).env = s.env := rfl

/-! `setMode` -/

@[simp] theorem setMode_cfg (s : State) (m : FifoMode) : (setMode s m).cfg = s.cfg := rfl
@[simp] theorem setMode_fv (s : State) (m : FifoMode) : (setMode s m).fv = s.fv := rfl
@[simp] theorem setMode_tx (s : State) (m : FifoMode) : (setMode s m).tx = s.tx := rfl
@[simp] theorem setMode_fifo (s : State) (m : FifoMode) : (setMode s m).fifo = { s.fifo with mode := m } := rfl
@[simp] theorem setMode_user (s : State) (m : FifoMode) : (setMode s m).user = s.user := rfl
@[simp] theorem setMode_irq (s : State) (m : FifoMode) : (setMode s m).irq = s.irq := rfl
@[simp] theorem setMode_faulted (s : State) (m : FifoMode) : (setMode s m).faulted = s.faulted := rfl
@[simp] theorem setMode_diag (s : State) (m : FifoMode) : (setMode s m).diag = s.diag := rfl
@[simp] theorem setMode_ovrSignals (s : State) (m : FifoMode) : (setMode s m).ovrSignals = s.ovrSignals := rfl
@[simp] theorem setMode_busOut (s : State) (m : FifoMode) : (setMode s m).busOut = s.busOut := rfl
@[simp] theorem setMode_results (s : State) (m : FifoMode) : (setMode s m).results = s.results := rfl
@[simp] theorem setMode_env (s : State) (m : FifoMode) : (setMode s m).env = s.env := rfl

/-! `setKeep` -/

@[simp] theorem setKeep_cfg (s : State) (b : Bool) : (setKeep s b).cfg = s.cfg := rfl
@[simp] theorem setKeep_fv (s : State) (b : Bool) : (setKeep s b).fv = s.fv := rfl
@[simp] theorem setKeep_tx (s : State) (b : Bool) : (setKeep s b).tx = s.tx := rfl
@[simp] theorem setKeep_fifo (s : State) (b : Bool) : (setKeep s b).fifo = { s.fifo with keep := b } := rfl
@[simp] theorem setKeep_user (s : State) (b : Bool) : (setKeep s b).user = s.user := rfl
@[simp] theorem setKeep_irq (s : State) (b : Bool) : (setKeep s b).irq = s.irq := rfl
@[simp] theorem setKeep_faulted (s : State) (b : Bool) : (setKeep s b).faulted = s.faulted := rfl
@[simp] theorem setKeep_diag (s : State) (b : Bool) : (setKeep s b).diag = s.diag := rfl
@[simp] theorem setKeep_ovrSignals (s : State) (b : Bool) : (setKeep s b).ovrSignals = s.ovrSignals := rfl
@[simp] theorem setKeep_busOut (s : State) (b : Bool) : (setKeep s b).busOut = s.busOut := rfl
@[simp] theorem setKeep_results (s : State) (b : Bool) : (setKeep s b).results = s.results := rfl
@[simp] theorem setKeep_env (s : State) (b : Bool) : (setKeep s b).env = s.env := rfl

/-! `attachStream` -/

@[simp] theorem attachStream_cfg (s : State) : (attachStream s).cfg = s.cfg := rfl
@[simp] theorem attachStream_fv (s : State) : (attachStream s).fv = s.fv := rfl
@[simp] theorem attachStream_tx (s : State) : (attachStream s).tx = s.tx := rfl
@[simp] theorem attachStream_fifo (s : State) :
    (attachStream s).fifo = { s.fifo with streamAttached := true, afterStream := false, keep := true } := rfl
@[simp] theorem attachStream_user (s : State) : (attachStream s).user = s.user := rfl
@[simp] theorem attachStream_irq (s : State) : (attachStream s).irq = s.irq := rfl
@[simp] theorem attachStream_faulted (s : State) : (attachStream s).faulted = s.faulted := rfl
@[simp] theorem attachStream_diag (s : State) : (attachStream s).diag = s.diag := rfl
@[simp] theorem attachStream_ovrSignals (s : State) : (attachStream s).ovrSignals = s.ovrSignals := rfl
@[simp] theorem attachStream_busOut (s : State) : (attachStream s).busOut = s.busOut := rfl
@[simp] theorem attachStream_results (s : State) : (attachStream s).results = s.results := rfl
@[simp] theorem attachStream_env (s : State) : (attachStream s).env = s.env := rfl

/-! `detachStream` -/

@[simp] theorem detachStream_cfg (s : State) : (detachStream s).cfg = s.cfg := rfl
@[simp] theorem detachStream_fv (s : State) : (detachStream s).fv = s.fv := rfl
@[simp] theorem detachStream_tx (s : State) : (detachStream s).tx = s.tx := rfl
@[simp] theorem detachStream_fifo (s : State) :
    (detachStream s).fifo = { s.fifo with streamAttached := false, afterStream := false } := rfl
@[simp] theorem detachStream_user (s : State) : (detachStream s).user = s.user := rfl
@[simp] theorem detachStream_irq (s : State) : (detachStream s).irq = s.irq := rfl
@[simp] theorem detachStream_faulted (s : State) : (detachStream s).faulted = s.faulted := rfl
@[simp] theorem detachStream_diag (s : State) : (detachStream s).diag = s.diag := rfl
@[simp] theorem detachStream_ovrSignals (s : State) : (detachStream s).ovrSignals = s.ovrSignals := rfl
@[simp] theorem detachStream_busOut (s : State) : (detachStream s).busOut = s.busOut := rfl
@[simp] theorem detachStream_results (s : State) : (detachStream s).results = s.results := rfl
@[simp] theorem detachStream_env (s : State) : (detachStream s).env = s.env := rfl

/-! `softReset` -/

@[simp] theorem softReset_cfg (s : State) : (softReset s).cfg = s.cfg := rfl
@[simp] theorem softReset_fv (s : State) : (softReset s).fv = [] := rfl
@[simp] theorem softReset_tx (s : State) : (softReset s).tx = s.tx := rfl
@[simp] theorem softReset_fifo (s : State) :
    (softReset s).fifo = { s.fifo with q := if s.fifo.keep then s.fifo.q else [], ovr := false, current := s.cfg.dflt, mode := s.cfg.modeReset } := rfl
@[simp] theorem softReset_user (s : State) : (softReset s).user = s.user := rfl
@[simp] theorem softReset_irq (s : State) : (softReset s).irq = s.irq := rfl
@[simp] theorem softReset_faulted (s : State) : (softReset s).faulted = s.faulted := rfl
@[simp] theorem softReset_diag (s : State) : (softReset s).diag = s.diag := rfl
@[simp] theorem softReset_ovrSignals (s : State) : (softReset s).ovrSignals = s.ovrSignals := rfl
@[simp] theorem softReset_busOut (s : State) : (softReset s).busOut = s.busOut := rfl
@[simp] theorem softReset_results (s : State) : (softReset s).results = s.results := rfl
@[simp] theorem softReset_env (s : State) : (softReset s).env = s.env := rfl

/-! `deviceReset` -/

@[simp] theorem deviceReset_cfg (s : State) : (deviceReset s).cfg = s.cfg := rfl
@[simp] theorem deviceReset_fv (s : State) : (deviceReset s).fv = [] := rfl
@[simp] theorem deviceReset_tx (s : State) : (deviceReset s).tx = idleTx := rfl
@[simp] theorem deviceReset_fifo (s : State) : (deviceReset s).fifo = resetFifo s.cfg := rfl
@[simp] theorem deviceReset_user (s : State) : (deviceReset s).user = s.cfg.userReset := rfl
@[simp] theorem deviceReset_irq (s : State) : (deviceReset s).irq = s.irq := rfl
@[simp] theorem deviceReset_faulted (s : State) : (deviceReset s).faulted = s.faulted := rfl
@[simp] theorem deviceReset_diag (s : State) : (deviceReset s).diag = s.diag := rfl
@[simp] theorem deviceReset_ovrSignals (s : State) : (deviceReset s).ovrSignals = s.ovrSignals := rfl
@[simp] theorem deviceReset_busOut (s : State) : (deviceReset s).busOut = s.busOut := rfl
@[simp] theorem deviceReset_results (s : State) : (deviceReset s).results = s.results := rfl
@[simp] theorem deviceReset_env (s : State) : (deviceReset s).env = s.env := rfl

/-! `settleIrq` -/

@[simp] theorem settleIrq_cfg (s : State) : (settleIrq s).cfg = s.cfg := rfl
@[simp] theorem settleIrq_fv (s : State) : (settleIrq s).fv = s.fv := rfl
@[simp] theorem settleIrq_tx (s : State) : (settleIrq s).tx = s.tx := rfl
@[simp] theorem settleIrq_fifo (s : State) : (settleIrq s).fifo = s.fifo := rfl
@[simp] theorem settleIrq_user (s : State) : (settleIrq s).user = s.user := rfl
@[simp] theorem settleIrq_irq (s : State) : (settleIrq s).irq = irqHolds s s.cfg.irqCond := rfl
@[simp] theorem settleIrq_faulted (s : State) : (settleIrq s).faulted = s.faulted := rfl
@[simp] theorem settleIrq_diag (s : State) : (settleIrq s).diag = s.diag := rfl
@[simp] theorem settleIrq_ovrSignals (s : State) : (settleIrq s).ovrSignals = s.ovrSignals := rfl
@[simp] theorem settleIrq_busOut (s : State) : (settleIrq s).busOut = s.busOut := rfl
@[simp] theorem settleIrq_results (s : State) : (settleIrq s).results = s.results := rfl
@[simp] theorem settleIrq_env (s : State) : (settleIrq s).env = s.env := rfl

/-! `putUser` -/

@[simp] theorem putUser_cfg (s : State) (l : List Int) : (putUser s l).cfg = s.cfg := rfl
@[simp] theorem putUser_fv (s : State) (l : List Int) : (putUser s l).fv = s.fv := rfl
@[simp] theorem putUser_tx (s : State) (l : List Int) : (putUser s l).tx = s.tx := rfl
@[simp] theorem putUser_fifo (s : State) (l : List Int) : (putUser s l).fifo = s.fifo := rfl
@[simp] theorem putUser_user (s : State) (l : List Int) : (putUser s l).user = l := rfl
@[simp] theorem putUser_irq (s : State) (l : List Int) : (putUser s l).irq = s.irq := rfl
@[simp] theorem putUser_faulted (s : State) (l : List Int) : (putUser s l).faulted = s.faulted := rfl
@[simp] theorem putUser_diag (s : State) (l : List Int) : (putUser s l).diag = s.diag := rfl
@[simp] theorem putUser_ovrSignals (s : State) (l : List Int) : (putUser s l).ovrSignals = s.ovrSignals := rfl
@[simp] theorem putUser_busOut (s : State) (l : List Int) : (putUser s l).busOut = s.busOut := rfl
@[simp] theorem putUser_results (s : State) (l : List Int) : (putUser s l).results = s.results := rfl
@[simp] theorem putUser_env (s : State) (l : List Int) : (putUser s l).env = s.env := rfl

/-! `setCurrent` -/

@[simp] theorem setCurrent_cfg (s : State) (x : Sample) : (setCurrent s x).cfg = s.cfg := rfl
@[simp] theorem setCurrent_fv (s : State) (x : Sample) : (setCurrent s x).fv = s.fv := rfl
@[simp] theorem setCurrent_tx (s : State) (x : Sample) : (setCurrent s x).tx = s.tx := rfl
@[simp] theorem setCurrent_fifo (s : State) (x : Sample) : (setCurrent s x).fifo = { s.fifo with current := x } := rfl
@[simp] theorem setCurrent_user (s : State) (x : Sample) : (setCurrent s x).user = s.user := rfl
@[simp] theorem setCurrent_irq (s : State) (x : Sample) : (setCurrent s x).irq = s.irq := rfl
@[simp] theorem setCurrent_faulted (s : State) (x : Sample) : (setCurrent s x).faulted = s.faulted := rfl
@[simp] theorem setCurrent_diag (s : State) (x : Sample) : (setCurrent s x).diag = s.diag := rfl
@[simp] theorem setCurrent_ovrSignals (s : State) (x : Sample) : (setCurrent s x).ovrSignals = s.ovrSignals := rfl
@[simp] theorem setCurrent_busOut (s : State) (x : Sample) : (setCurrent s x).busOut = s.busOut := rfl
@[simp] theorem setCurrent_results (s : State) (x : Sample) : (setCurrent s x).results = s.results := rfl
@[simp] theorem setCurrent_env (s : State) (x : Sample) : (setCurrent s x).env = s.env := rfl

/-! `setQueue` -/

@[simp] theorem setQueue_cfg (s : State) (q : List Sample) : (setQueue s q).cfg = s.cfg := rfl
@[simp] theorem setQueue_fv (s : State) (q : List Sample) : (setQueue s q).fv = s.fv := rfl
@[simp] theorem setQueue_tx (s : State) (q : List Sample) : (setQueue s q).tx = s.tx := rfl
@[simp] theorem setQueue_fifo (s : State) (q : List Sample) : (setQueue s q).fifo = { s.fifo with q := q } := rfl
@[simp] theorem setQueue_user (s : State) (q : List Sample) : (setQueue s q).user = s.user := rfl
@[simp] theorem setQueue_irq (s : State) (q : List Sample) : (setQueue s q).irq = s.irq := rfl
@[simp] theorem setQueue_faulted (s : State) (q : List Sample) : (setQueue s q).faulted = s.faulted := rfl
@[simp] theorem setQueue_diag (s : State) (q : List Sample) : (setQueue s q).diag = s.diag := rfl
@[simp] theorem setQueue_ovrSignals (s : State) (q : List Sample) : (setQueue s q).ovrSignals = s.ovrSignals := rfl
@[simp] theorem setQueue_busOut (s : State) (q : List Sample) : (setQueue s q).busOut = s.busOut := rfl
@[simp] theorem setQueue_results (s : State) (q : List Sample) : (setQueue s q).results = s.results := rfl
@[simp] theorem setQueue_env (s : State) (q : List Sample) : (setQueue s q).env = s.env := rfl

/-! `setOverrun` -/

@[simp] theorem setOverrun_cfg (s : State) (b : Bool) : (setOverrun s b).cfg = s.cfg := rfl
@[simp] theorem setOverrun_fv (s : State) (b : Bool) : (setOverrun s b).fv = s.fv := rfl
@[simp] theorem setOverrun_tx (s : State) (b : Bool) : (setOverrun s b).tx = s.tx := rfl
@[simp] theorem setOverrun_fifo (s : State) (b : Bool) : (setOverrun s b).fifo = { s.fifo with ovr := b } := rfl
@[simp] theorem setOverrun_user (s : State) (b : Bool) : (setOverrun s b).user = s.user := rfl
@[simp] theorem setOverrun_irq (s : State) (b : Bool) : (setOverrun s b).irq = s.irq := rfl
@[simp] theorem setOverrun_faulted (s : State) (b : Bool) : (setOverrun s b).faulted = s.faulted := rfl
@[simp] theorem setOverrun_diag (s : State) (b : Bool) : (setOverrun s b).diag = s.diag := rfl
@[simp] theorem setOverrun_ovrSignals (s : State) (b : Bool) :
    (setOverrun s b).ovrSignals = if b && !s.fifo.ovr then s.ovrSignals + 1 else s.ovrSignals := rfl
@[simp] theorem setOverrun_busOut (s : State) (b : Bool) : (setOverrun s b).busOut = s.busOut := rfl
@[simp] theorem setOverrun_results (s : State) (b : Bool) : (setOverrun s b).results = s.results := rfl
@[simp] theorem setOverrun_env (s : State) (b : Bool) : (setOverrun s b).env = s.env := rfl

/-! `setAttached` -/

@[simp] theorem setAttached_cfg (s : State) (b : Bool) : (setAttached s b).cfg = s.cfg := rfl
@[simp] theorem setAttached_fv (s : State) (b : Bool) : (setAttached s b).fv = s.fv := rfl
@[simp] theorem setAttached_tx (s : State) (b : Bool) : (setAttached s b).tx = s.tx := rfl
@[simp] theorem setAttached_fifo (s : State) (b : Bool) :
    (setAttached s b).fifo = { s.fifo with streamAttached := b } := rfl
@[simp] theorem setAttached_user (s : State) (b : Bool) : (setAttached s b).user = s.user := rfl
@[simp] theorem setAttached_irq (s : State) (b : Bool) : (setAttached s b).irq = s.irq := rfl
@[simp] theorem setAttached_faulted (s : State) (b : Bool) : (setAttached s b).faulted = s.faulted := rfl
@[simp] theorem setAttached_diag (s : State) (b : Bool) : (setAttached s b).diag = s.diag := rfl
@[simp] theorem setAttached_ovrSignals (s : State) (b : Bool) : (setAttached s b).ovrSignals = s.ovrSignals := rfl
@[simp] theorem setAttached_busOut (s : State) (b : Bool) : (setAttached s b).busOut = s.busOut := rfl
@[simp] theorem setAttached_results (s : State) (b : Bool) : (setAttached s b).results = s.results := rfl
@[simp] theorem setAttached_env (s : State) (b : Bool) : (setAttached s b).env = s.env := rfl

/-! `completeAddress` -/

@[simp] theorem completeAddress_cfg (s : State) (a : BitVec 16) (p : Option Nat) (rw ms : Bool) :
    (completeAddress s a p rw ms).cfg = s.cfg := rfl
@[simp] theorem completeAddress_fv (s : State) (a : BitVec 16) (p : Option Nat) (rw ms : Bool) :
    (completeAddress s a p rw ms).fv = s.fv := rfl
@[simp] theorem completeAddress_tx (s : State) (a : BitVec 16) (p : Option Nat) (rw ms : Bool) :
    (completeAddress s a p rw ms).tx = { tstate := stateAfterAddress p rw, curAddr := a, addrValid := true, addrCnt := 0, addrAcc := 0, rwLatch := rw, msLatch := ms, bytePhase := 0 } := rfl
@[simp] theorem completeAddress_fifo (s : State) (a : BitVec 16) (p : Option Nat) (rw ms : Bool) :
    (completeAddress s a p rw ms).fifo = s.fifo := rfl
@[simp] theorem completeAddress_user (s : State) (a : BitVec 16) (p : Option Nat) (rw ms : Bool) :
    (completeAddress s a p rw ms).user = s.user := rfl
@[simp] theorem completeAddress_irq (s : State) (a : BitVec 16) (p : Option Nat) (rw ms : Bool) :
    (completeAddress s a p rw ms).irq = s.irq := rfl
@[simp] theorem completeAddress_faulted (s : State) (a : BitVec 16) (p : Option Nat) (rw ms : Bool) :
    (completeAddress s a p rw ms).faulted = s.faulted := rfl
@[simp] theorem completeAddress_diag (s : State) (a : BitVec 16) (p : Option Nat) (rw ms : Bool) :
    (completeAddress s a p rw ms).diag = s.diag := rfl
@[simp] theorem completeAddress_ovrSignals (s : State) (a : BitVec 16) (p : Option Nat) (rw ms : Bool) :
    (completeAddress s a p rw ms).ovrSignals = s.ovrSignals := rfl
@[simp] theorem completeAddress_busOut (s : State) (a : BitVec 16) (p : Option Nat) (rw ms : Bool) :
    (completeAddress s a p rw ms).busOut = s.busOut := rfl
@[simp] theorem completeAddress_results (s : State) (a : BitVec 16) (p : Option Nat) (rw ms : Bool) :
    (completeAddress s a p rw ms).results = s.results := rfl
@[simp] theorem completeAddress_env (s : State) (a : BitVec 16) (p : Option Nat) (rw ms : Bool) :
    (completeAddress s a p rw ms).env = s.env := rfl

/-! `setTState` -/

@[simp] theorem setTState_cfg (s : State) (t : TState) : (setTState s t).cfg = s.cfg := rfl
@[simp] theorem setTState_fv (s : State) (t : TState) : (setTState s t).fv = s.fv := rfl
@[simp] theorem setTState_tx (s : State) (t : TState) : (setTState s t).tx = { s.tx with tstate := t } := rfl
@[simp] theorem setTState_fifo (s : State) (t : TState) : (setTState s t).fifo = s.fifo := rfl
@[simp] theorem setTState_user (s : State) (t : TState) : (setTState s t).user = s.user := rfl
@[simp] theorem setTState_irq (s : State) (t : TState) : (setTState s t).irq = s.irq := rfl
@[simp] theorem setTState_faulted (s : State) (t : TState) : (setTState s t).faulted = s.faulted := rfl
@[simp] theorem setTState_diag (s : State) (t : TState) : (setTState s t).diag = s.diag := rfl
@[simp] theorem setTState_ovrSignals (s : State) (t : TState) : (setTState s t).ovrSignals = s.ovrSignals := rfl
@[simp] theorem setTState_busOut (s : State) (t : TState) : (setTState s t).busOut = s.busOut := rfl
@[simp] theorem setTState_results (s : State) (t : TState) : (setTState s t).results = s.results := rfl
@[simp] theorem setTState_env (s : State) (t : TState) : (setTState s t).env = s.env := rfl

/-! `busFinish` -/

@[simp] theorem busFinish_cfg (s : State) : (busFinish s).cfg = s.cfg := rfl
@[simp] theorem busFinish_fv (s : State) : (busFinish s).fv = s.fv := rfl
@[simp] theorem busFinish_tx (s : State) :
    (busFinish s).tx = { s.tx with tstate := .idle, addrCnt := 0, addrAcc := 0, rwLatch := false, msLatch := false, bytePhase := 0, addrValid := s.cfg.addrPreserve && s.tx.addrValid } := rfl
@[simp] theorem busFinish_fifo (s : State) : (busFinish s).fifo = s.fifo := rfl
@[simp] theorem busFinish_user (s : State) : (busFinish s).user = s.user := rfl
@[simp] theorem busFinish_irq (s : State) : (busFinish s).irq = s.irq := rfl
@[simp] theorem busFinish_faulted (s : State) : (busFinish s).faulted = s.faulted := rfl
@[simp] theorem busFinish_diag (s : State) : (busFinish s).diag = s.diag := rfl
@[simp] theorem busFinish_ovrSignals (s : State) : (busFinish s).ovrSignals = s.ovrSignals := rfl
@[simp] theorem busFinish_busOut (s : State) : (busFinish s).busOut = s.busOut := rfl
@[simp] theorem busFinish_results (s : State) : (busFinish s).results = s.results := rfl
@[simp] theorem busFinish_env (s : State) : (busFinish s).env = s.env := rfl

/-! `atTime` -/

@[simp] theorem atTime_cfg (s : State) (t : Time) : (atTime s t).cfg = s.cfg := rfl
@[simp] theorem atTime_fv (s : State) (t : Time) : (atTime s t).fv = s.fv := rfl
@[simp] theorem atTime_tx (s : State) (t : Time) : (atTime s t).tx = s.tx := rfl
@[simp] theorem atTime_fifo (s : State) (t : Time) : (atTime s t).fifo = s.fifo := rfl
@[simp] theorem atTime_user (s : State) (t : Time) : (atTime s t).user = s.user := rfl
@[simp] theorem atTime_irq (s : State) (t : Time) : (atTime s t).irq = s.irq := rfl
@[simp] theorem atTime_faulted (s : State) (t : Time) : (atTime s t).faulted = s.faulted := rfl
@[simp] theorem atTime_diag (s : State) (t : Time) : (atTime s t).diag = s.diag := rfl
@[simp] theorem atTime_ovrSignals (s : State) (t : Time) : (atTime s t).ovrSignals = s.ovrSignals := rfl
@[simp] theorem atTime_busOut (s : State) (t : Time) : (atTime s t).busOut = s.busOut := rfl
@[simp] theorem atTime_results (s : State) (t : Time) : (atTime s t).results = s.results := rfl
@[simp] theorem atTime_env (s : State) (t : Time) : (atTime s t).env = { s.env with now := t } := rfl

/-! `takeBus` -/

section

variable (s : State) (t : Time) (m : List (Timed BusOp))

@[simp] theorem takeBus_cfg : (takeBus s t m).cfg = s.cfg := rfl
@[simp] theorem takeBus_fv : (takeBus s t m).fv = s.fv := rfl
@[simp] theorem takeBus_tx : (takeBus s t m).tx = s.tx := rfl
@[simp] theorem takeBus_fifo : (takeBus s t m).fifo = s.fifo := rfl
@[simp] theorem takeBus_user : (takeBus s t m).user = s.user := rfl
@[simp] theorem takeBus_irq : (takeBus s t m).irq = s.irq := rfl
@[simp] theorem takeBus_faulted : (takeBus s t m).faulted = s.faulted := rfl
@[simp] theorem takeBus_diag : (takeBus s t m).diag = s.diag := rfl
@[simp] theorem takeBus_ovrSignals : (takeBus s t m).ovrSignals = s.ovrSignals := rfl
@[simp] theorem takeBus_busOut : (takeBus s t m).busOut = s.busOut := rfl
@[simp] theorem takeBus_results : (takeBus s t m).results = s.results := rfl
@[simp] theorem takeBus_env : (takeBus s t m).env = { s.env with busQueue := m, latest := t } := rfl

end

/-! `takeFeeder` -/

section

variable (s : State) (t : Time) (m : List (Timed FeederOp))

@[simp] theorem takeFeeder_cfg : (takeFeeder s t m).cfg = s.cfg := rfl
@[simp] theorem takeFeeder_fv : (takeFeeder s t m).fv = s.fv := rfl
@[simp] theorem takeFeeder_tx : (takeFeeder s t m).tx = s.tx := rfl
@[simp] theorem takeFeeder_fifo : (takeFeeder s t m).fifo = s.fifo := rfl
@[simp] theorem takeFeeder_user : (takeFeeder s t m).user = s.user := rfl
@[simp] theorem takeFeeder_irq : (takeFeeder s t m).irq = s.irq := rfl
@[simp] theorem takeFeeder_faulted : (takeFeeder s t m).faulted = s.faulted := rfl
@[simp] theorem takeFeeder_diag : (takeFeeder s t m).diag = s.diag := rfl
@[simp] theorem takeFeeder_ovrSignals : (takeFeeder s t m).ovrSignals = s.ovrSignals := rfl
@[simp] theorem takeFeeder_busOut : (takeFeeder s t m).busOut = s.busOut := rfl
@[simp] theorem takeFeeder_results : (takeFeeder s t m).results = s.results := rfl
@[simp] theorem takeFeeder_env : (takeFeeder s t m).env = { s.env with feederQueue := m, latest := t } := rfl

end

/-! `takeHost` -/

section

variable (s : State) (t : Time) (m : List (Timed HostOp))

@[simp] theorem takeHost_cfg : (takeHost s t m).cfg = s.cfg := rfl
@[simp] theorem takeHost_fv : (takeHost s t m).fv = s.fv := rfl
@[simp] theorem takeHost_tx : (takeHost s t m).tx = s.tx := rfl
@[simp] theorem takeHost_fifo : (takeHost s t m).fifo = s.fifo := rfl
@[simp] theorem takeHost_user : (takeHost s t m).user = s.user := rfl
@[simp] theorem takeHost_irq : (takeHost s t m).irq = s.irq := rfl
@[simp] theorem takeHost_faulted : (takeHost s t m).faulted = s.faulted := rfl
@[simp] theorem takeHost_diag : (takeHost s t m).diag = s.diag := rfl
@[simp] theorem takeHost_ovrSignals : (takeHost s t m).ovrSignals = s.ovrSignals := rfl
@[simp] theorem takeHost_busOut : (takeHost s t m).busOut = s.busOut := rfl
@[simp] theorem takeHost_results : (takeHost s t m).results = s.results := rfl
@[simp] theorem takeHost_env : (takeHost s t m).env = { s.env with hostQueue := m, latest := t } := rfl

end

/-! `leaveBus` -/

@[simp] theorem leaveBus_cfg (s : State) (r : Option (Timed BusOp)) : (leaveBus s r).cfg = s.cfg := rfl
@[simp] theorem leaveBus_fv (s : State) (r : Option (Timed BusOp)) : (leaveBus s r).fv = s.fv := rfl
@[simp] theorem leaveBus_tx (s : State) (r : Option (Timed BusOp)) : (leaveBus s r).tx = s.tx := rfl
@[simp] theorem leaveBus_fifo (s : State) (r : Option (Timed BusOp)) : (leaveBus s r).fifo = s.fifo := rfl
@[simp] theorem leaveBus_user (s : State) (r : Option (Timed BusOp)) : (leaveBus s r).user = s.user := rfl
@[simp] theorem leaveBus_irq (s : State) (r : Option (Timed BusOp)) : (leaveBus s r).irq = s.irq := rfl
@[simp] theorem leaveBus_faulted (s : State) (r : Option (Timed BusOp)) : (leaveBus s r).faulted = s.faulted := rfl
@[simp] theorem leaveBus_diag (s : State) (r : Option (Timed BusOp)) : (leaveBus s r).diag = s.diag := rfl
@[simp] theorem leaveBus_ovrSignals (s : State) (r : Option (Timed BusOp)) :
    (leaveBus s r).ovrSignals = s.ovrSignals := rfl
@[simp] theorem leaveBus_busOut (s : State) (r : Option (Timed BusOp)) : (leaveBus s r).busOut = s.busOut := rfl
@[simp] theorem leaveBus_results (s : State) (r : Option (Timed BusOp)) : (leaveBus s r).results = s.results := rfl
@[simp] theorem leaveBus_env (s : State) (r : Option (Timed BusOp)) :
    (leaveBus s r).env = { s.env with busRest := r } := rfl

/-! `leaveHost` -/

@[simp] theorem leaveHost_cfg (s : State) (r : Option (Timed HostRest)) : (leaveHost s r).cfg = s.cfg := rfl
@[simp] theorem leaveHost_fv (s : State) (r : Option (Timed HostRest)) : (leaveHost s r).fv = s.fv := rfl
@[simp] theorem leaveHost_tx (s : State) (r : Option (Timed HostRest)) : (leaveHost s r).tx = s.tx := rfl
@[simp] theorem leaveHost_fifo (s : State) (r : Option (Timed HostRest)) : (leaveHost s r).fifo = s.fifo := rfl
@[simp] theorem leaveHost_user (s : State) (r : Option (Timed HostRest)) : (leaveHost s r).user = s.user := rfl
@[simp] theorem leaveHost_irq (s : State) (r : Option (Timed HostRest)) : (leaveHost s r).irq = s.irq := rfl
@[simp] theorem leaveHost_faulted (s : State) (r : Option (Timed HostRest)) :
    (leaveHost s r).faulted = s.faulted := rfl
@[simp] theorem leaveHost_diag (s : State) (r : Option (Timed HostRest)) : (leaveHost s r).diag = s.diag := rfl
@[simp] theorem leaveHost_ovrSignals (s : State) (r : Option (Timed HostRest)) :
    (leaveHost s r).ovrSignals = s.ovrSignals := rfl
@[simp] theorem leaveHost_busOut (s : State) (r : Option (Timed HostRest)) : (leaveHost s r).busOut = s.busOut := rfl
@[simp] theorem leaveHost_results (s : State) (r : Option (Timed HostRest)) :
    (leaveHost s r).results = s.results := rfl
@[simp] theorem leaveHost_env (s : State) (r : Option (Timed HostRest)) :
    (leaveHost s r).env = { s.env with hostRest := r } := rfl

/-! `scheduled` -/

@[simp] theorem scheduled_cfg (s : State) (r : List Agent) : (scheduled s r).cfg = s.cfg := rfl
@[simp] theorem scheduled_fv (s : State) (r : List Agent) : (scheduled s r).fv = s.fv := rfl
@[simp] theorem scheduled_tx (s : State) (r : List Agent) : (scheduled s r).tx = s.tx := rfl
@[simp] theorem scheduled_fifo (s : State) (r : List Agent) : (scheduled s r).fifo = s.fifo := rfl
@[simp] theorem scheduled_user (s : State) (r : List Agent) : (scheduled s r).user = s.user := rfl
@[simp] theorem scheduled_irq (s : State) (r : List Agent) : (scheduled s r).irq = s.irq := rfl
@[simp] theorem scheduled_faulted (s : State) (r : List Agent) : (scheduled s r).faulted = s.faulted := rfl
@[simp] theorem scheduled_diag (s : State) (r : List Agent) : (scheduled s r).diag = s.diag := rfl
@[simp] theorem scheduled_ovrSignals (s : State) (r : List Agent) : (scheduled s r).ovrSignals = s.ovrSignals := rfl
@[simp] theorem scheduled_busOut (s : State) (r : List Agent) : (scheduled s r).busOut = s.busOut := rfl
@[simp] theorem scheduled_results (s : State) (r : List Agent) : (scheduled s r).results = s.results := rfl
@[simp] theorem scheduled_env (s : State) (r : List Agent) : (scheduled s r).env = { s.env with schedule := r } := rfl

/-! Updates that look at the state first -/

/-! `setField` -/

@[simp] theorem setField_cfg (s : State) (a f : Nat) (v : Half) :
    (setField s a f v).cfg = s.cfg := by unfold setField; split <;> rfl
@[simp] theorem setField_tx (s : State) (a f : Nat) (v : Half) :
    (setField s a f v).tx = s.tx := by unfold setField; split <;> rfl
@[simp] theorem setField_fifo (s : State) (a f : Nat) (v : Half) :
    (setField s a f v).fifo = s.fifo := by unfold setField; split <;> rfl
@[simp] theorem setField_user (s : State) (a f : Nat) (v : Half) :
    (setField s a f v).user = s.user := by unfold setField; split <;> rfl
@[simp] theorem setField_irq (s : State) (a f : Nat) (v : Half) :
    (setField s a f v).irq = s.irq := by unfold setField; split <;> rfl
@[simp] theorem setField_faulted (s : State) (a f : Nat) (v : Half) :
    (setField s a f v).faulted = s.faulted := by unfold setField; split <;> rfl
@[simp] theorem setField_diag (s : State) (a f : Nat) (v : Half) :
    (setField s a f v).diag = s.diag := by unfold setField; split <;> rfl
@[simp] theorem setField_ovrSignals (s : State) (a f : Nat) (v : Half) :
    (setField s a f v).ovrSignals = s.ovrSignals := by unfold setField; split <;> rfl
@[simp] theorem setField_busOut (s : State) (a f : Nat) (v : Half) :
    (setField s a f v).busOut = s.busOut := by unfold setField; split <;> rfl
@[simp] theorem setField_results (s : State) (a f : Nat) (v : Half) :
    (setField s a f v).results = s.results := by unfold setField; split <;> rfl
@[simp] theorem setField_env (s : State) (a f : Nat) (v : Half) :
    (setField s a f v).env = s.env := by unfold setField; split <;> rfl

/-! `respond` -/

@[simp] theorem respond_cfg (s : State) (r : Result) : (respond s r).cfg = s.cfg := by cases r <;> rfl
@[simp] theorem respond_fv (s : State) (r : Result) : (respond s r).fv = s.fv := by cases r <;> rfl
@[simp] theorem respond_tx (s : State) (r : Result) : (respond s r).tx = s.tx := by cases r <;> rfl
@[simp] theorem respond_fifo (s : State) (r : Result) : (respond s r).fifo = s.fifo := by cases r <;> rfl
@[simp] theorem respond_user (s : State) (r : Result) : (respond s r).user = s.user := by cases r <;> rfl
@[simp] theorem respond_irq (s : State) (r : Result) : (respond s r).irq = s.irq := by cases r <;> rfl
@[simp] theorem respond_faulted (s : State) (r : Result) : (respond s r).faulted = s.faulted := by cases r <;> rfl
@[simp] theorem respond_diag (s : State) (r : Result) : (respond s r).diag = s.diag := by cases r <;> rfl
@[simp] theorem respond_ovrSignals (s : State) (r : Result) :
    (respond s r).ovrSignals = s.ovrSignals := by cases r <;> rfl
@[simp] theorem respond_busOut (s : State) (r : Result) : (respond s r).busOut = s.busOut := by cases r <;> rfl
@[simp] theorem respond_env (s : State) (r : Result) : (respond s r).env = s.env := by cases r <;> rfl

/-! `feed` -/

@[simp] theorem feed_cfg (s : State) (x : Sample) :
    (feed s x).cfg = s.cfg := by unfold feed; split <;> (try split) <;> rfl
@[simp] theorem feed_fv (s : State) (x : Sample) :
    (feed s x).fv = s.fv := by unfold feed; split <;> (try split) <;> rfl
@[simp] theorem feed_tx (s : State) (x : Sample) :
    (feed s x).tx = s.tx := by unfold feed; split <;> (try split) <;> rfl
@[simp] theorem feed_user (s : State) (x : Sample) :
    (feed s x).user = s.user := by unfold feed; split <;> (try split) <;> rfl
@[simp] theorem feed_irq (s : State) (x : Sample) :
    (feed s x).irq = s.irq := by unfold feed; split <;> (try split) <;> rfl
@[simp] theorem feed_faulted (s : State) (x : Sample) :
    (feed s x).faulted = s.faulted := by unfold feed; split <;> (try split) <;> rfl
@[simp] theorem feed_diag (s : State) (x : Sample) :
    (feed s x).diag = s.diag := by unfold feed; split <;> (try split) <;> rfl
@[simp] theorem feed_busOut (s : State) (x : Sample) :
    (feed s x).busOut = s.busOut := by unfold feed; split <;> (try split) <;> rfl
@[simp] theorem feed_results (s : State) (x : Sample) :
    (feed s x).results = s.results := by unfold feed; split <;> (try split) <;> rfl
@[simp] theorem feed_env (s : State) (x : Sample) :
    (feed s x).env = s.env := by unfold feed; split <;> (try split) <;> rfl

/-! `streamTick` -/

@[simp] theorem streamTick_cfg (s : State) (t : Time) :
    (streamTick s t).cfg = s.cfg := by unfold streamTick; split <;> (try split) <;> simp
@[simp] theorem streamTick_fv (s : State) (t : Time) :
    (streamTick s t).fv = s.fv := by unfold streamTick; split <;> (try split) <;> simp
@[simp] theorem streamTick_tx (s : State) (t : Time) :
    (streamTick s t).tx = s.tx := by unfold streamTick; split <;> (try split) <;> simp
@[simp] theorem streamTick_user (s : State) (t : Time) :
    (streamTick s t).user = s.user := by unfold streamTick; split <;> (try split) <;> simp
@[simp] theorem streamTick_irq (s : State) (t : Time) :
    (streamTick s t).irq = s.irq := by unfold streamTick; split <;> (try split) <;> simp
@[simp] theorem streamTick_faulted (s : State) (t : Time) :
    (streamTick s t).faulted = s.faulted := by unfold streamTick; split <;> (try split) <;> simp
@[simp] theorem streamTick_diag (s : State) (t : Time) :
    (streamTick s t).diag = s.diag := by unfold streamTick; split <;> (try split) <;> simp
@[simp] theorem streamTick_busOut (s : State) (t : Time) :
    (streamTick s t).busOut = s.busOut := by unfold streamTick; split <;> (try split) <;> simp
@[simp] theorem streamTick_results (s : State) (t : Time) :
    (streamTick s t).results = s.results := by unfold streamTick; split <;> (try split) <;> simp
@[simp] theorem streamTick_env (s : State) (t : Time) :
    (streamTick s t).env = s.env := by unfold streamTick; split <;> (try split) <;> simp

/-! `pullStream` -/

@[simp] theorem pullStream_cfg (s : State) : (pullStream s).cfg = s.cfg := by unfold pullStream; split <;> simp
@[simp] theorem pullStream_fv (s : State) : (pullStream s).fv = s.fv := by unfold pullStream; split <;> simp
@[simp] theorem pullStream_tx (s : State) : (pullStream s).tx = s.tx := by unfold pullStream; split <;> simp
@[simp] theorem pullStream_user (s : State) : (pullStream s).user = s.user := by unfold pullStream; split <;> simp
@[simp] theorem pullStream_irq (s : State) : (pullStream s).irq = s.irq := by unfold pullStream; split <;> simp
@[simp] theorem pullStream_faulted (s : State) :
    (pullStream s).faulted = s.faulted := by unfold pullStream; split <;> simp
@[simp] theorem pullStream_diag (s : State) : (pullStream s).diag = s.diag := by unfold pullStream; split <;> simp
@[simp] theorem pullStream_busOut (s : State) :
    (pullStream s).busOut = s.busOut := by unfold pullStream; split <;> simp
@[simp] theorem pullStream_results (s : State) :
    (pullStream s).results = s.results := by unfold pullStream; split <;> simp
@[simp] theorem pullStream_env (s : State) : (pullStream s).env = s.env := by unfold pullStream; split <;> simp

/-! `addressByte` -/

@[simp] theorem addressByte_cfg (s : State) (b : Byte) :
    (addressByte s b).cfg = s.cfg := by unfold addressByte; split <;> (try split) <;> rfl
@[simp] theorem addressByte_fv (s : State) (b : Byte) :
    (addressByte s b).fv = s.fv := by unfold addressByte; split <;> (try split) <;> rfl
@[simp] theorem addressByte_fifo (s : State) (b : Byte) :
    (addressByte s b).fifo = s.fifo := by unfold addressByte; split <;> (try split) <;> rfl
@[simp] theorem addressByte_user (s : State) (b : Byte) :
    (addressByte s b).user = s.user := by unfold addressByte; split <;> (try split) <;> rfl
@[simp] theorem addressByte_irq (s : State) (b : Byte) :
    (addressByte s b).irq = s.irq := by unfold addressByte; split <;> (try split) <;> rfl
@[simp] theorem addressByte_faulted (s : State) (b : Byte) :
    (addressByte s b).faulted = s.faulted := by unfold addressByte; split <;> (try split) <;> rfl
@[simp] theorem addressByte_diag (s : State) (b : Byte) :
    (addressByte s b).diag = s.diag := by unfold addressByte; split <;> (try split) <;> rfl
@[simp] theorem addressByte_ovrSignals (s : State) (b : Byte) :
    (addressByte s b).ovrSignals = s.ovrSignals := by unfold addressByte; split <;> (try split) <;> rfl
@[simp] theorem addressByte_busOut (s : State) (b : Byte) :
    (addressByte s b).busOut = s.busOut := by unfold addressByte; split <;> (try split) <;> rfl
@[simp] theorem addressByte_results (s : State) (b : Byte) :
    (addressByte s b).results = s.results := by unfold addressByte; split <;> (try split) <;> rfl
@[simp] theorem addressByte_env (s : State) (b : Byte) :
    (addressByte s b).env = s.env := by unfold addressByte; split <;> (try split) <;> rfl

/-! `advance` -/

@[simp] theorem advance_cfg (s : State) : (advance s).cfg = s.cfg := by unfold advance; split <;> (try split) <;> rfl
@[simp] theorem advance_fv (s : State) : (advance s).fv = s.fv := by unfold advance; split <;> (try split) <;> rfl
@[simp] theorem advance_fifo (s : State) :
    (advance s).fifo = s.fifo := by unfold advance; split <;> (try split) <;> rfl
@[simp] theorem advance_user (s : State) :
    (advance s).user = s.user := by unfold advance; split <;> (try split) <;> rfl
@[simp] theorem advance_irq (s : State) : (advance s).irq = s.irq := by unfold advance; split <;> (try split) <;> rfl
@[simp] theorem advance_faulted (s : State) :
    (advance s).faulted = s.faulted := by unfold advance; split <;> (try split) <;> rfl
@[simp] theorem advance_diag (s : State) :
    (advance s).diag = s.diag := by unfold advance; split <;> (try split) <;> rfl
@[simp] theorem advance_ovrSignals (s : State) :
    (advance s).ovrSignals = s.ovrSignals := by unfold advance; split <;> (try split) <;> rfl
@[simp] theorem advance_busOut (s : State) :
    (advance s).busOut = s.busOut := by unfold advance; split <;> (try split) <;> rfl
@[simp] theorem advance_results (s : State) :
    (advance s).results = s.results := by unfold advance; split <;> (try split) <;> rfl
@[simp] theorem advance_env (s : State) : (advance s).env = s.env := by unfold advance; split <;> (try split) <;> rfl

/-! `missRead` -/

@[simp] theorem missRead_cfg (s : State) (a : Nat) : (missRead s a).cfg = s.cfg := by unfold missRead; split <;> rfl
@[simp] theorem missRead_fv (s : State) (a : Nat) : (missRead s a).fv = s.fv := by unfold missRead; split <;> rfl
@[simp] theorem missRead_tx (s : State) (a : Nat) : (missRead s a).tx = s.tx := by unfold missRead; split <;> rfl
@[simp] theorem missRead_fifo (s : State) (a : Nat) :
    (missRead s a).fifo = s.fifo := by unfold missRead; split <;> rfl
@[simp] theorem missRead_user (s : State) (a : Nat) :
    (missRead s a).user = s.user := by unfold missRead; split <;> rfl
@[simp] theorem missRead_irq (s : State) (a : Nat) : (missRead s a).irq = s.irq := by unfold missRead; split <;> rfl
@[simp] theorem missRead_faulted (s : State) (a : Nat) :
    (missRead s a).faulted = s.faulted := by unfold missRead; split <;> rfl
@[simp] theorem missRead_ovrSignals (s : State) (a : Nat) :
    (missRead s a).ovrSignals = s.ovrSignals := by unfold missRead; split <;> rfl
@[simp] theorem missRead_busOut (s : State) (a : Nat) :
    (missRead s a).busOut = s.busOut := by unfold missRead; split <;> rfl
@[simp] theorem missRead_results (s : State) (a : Nat) :
    (missRead s a).results = s.results := by unfold missRead; split <;> rfl
@[simp] theorem missRead_env (s : State) (a : Nat) : (missRead s a).env = s.env := by unfold missRead; split <;> rfl

/-! `missWrite` -/

@[simp] theorem missWrite_cfg (s : State) (a : Nat) (b : Byte) :
    (missWrite s a b).cfg = s.cfg := by unfold missWrite; split <;> rfl
@[simp] theorem missWrite_fv (s : State) (a : Nat) (b : Byte) :
    (missWrite s a b).fv = s.fv := by unfold missWrite; split <;> rfl
@[simp] theorem missWrite_tx (s : State) (a : Nat) (b : Byte) :
    (missWrite s a b).tx = s.tx := by unfold missWrite; split <;> rfl
@[simp] theorem missWrite_fifo (s : State) (a : Nat) (b : Byte) :
    (missWrite s a b).fifo = s.fifo := by unfold missWrite; split <;> rfl
@[simp] theorem missWrite_user (s : State) (a : Nat) (b : Byte) :
    (missWrite s a b).user = s.user := by unfold missWrite; split <;> rfl
@[simp] theorem missWrite_irq (s : State) (a : Nat) (b : Byte) :
    (missWrite s a b).irq = s.irq := by unfold missWrite; split <;> rfl
@[simp] theorem missWrite_faulted (s : State) (a : Nat) (b : Byte) :
    (missWrite s a b).faulted = s.faulted := by unfold missWrite; split <;> rfl
@[simp] theorem missWrite_ovrSignals (s : State) (a : Nat) (b : Byte) :
    (missWrite s a b).ovrSignals = s.ovrSignals := by unfold missWrite; split <;> rfl
@[simp] theorem missWrite_busOut (s : State) (a : Nat) (b : Byte) :
    (missWrite s a b).busOut = s.busOut := by unfold missWrite; split <;> rfl
@[simp] theorem missWrite_results (s : State) (a : Nat) (b : Byte) :
    (missWrite s a b).results = s.results := by unfold missWrite; split <;> rfl
@[simp] theorem missWrite_env (s : State) (a : Nat) (b : Byte) :
    (missWrite s a b).env = s.env := by unfold missWrite; split <;> rfl

/-! `endLoad` -/

@[simp] theorem endLoad_cfg (s : State) (k : Bool) : (endLoad s k).cfg = s.cfg := by unfold endLoad; split <;> rfl
@[simp] theorem endLoad_fv (s : State) (k : Bool) : (endLoad s k).fv = s.fv := by unfold endLoad; split <;> rfl
@[simp] theorem endLoad_tx (s : State) (k : Bool) : (endLoad s k).tx = s.tx := by unfold endLoad; split <;> rfl
@[simp] theorem endLoad_user (s : State) (k : Bool) : (endLoad s k).user = s.user := by unfold endLoad; split <;> rfl
@[simp] theorem endLoad_irq (s : State) (k : Bool) : (endLoad s k).irq = s.irq := by unfold endLoad; split <;> rfl
@[simp] theorem endLoad_faulted (s : State) (k : Bool) :
    (endLoad s k).faulted = s.faulted := by unfold endLoad; split <;> rfl
@[simp] theorem endLoad_diag (s : State) (k : Bool) : (endLoad s k).diag = s.diag := by unfold endLoad; split <;> rfl
@[simp] theorem endLoad_ovrSignals (s : State) (k : Bool) :
    (endLoad s k).ovrSignals = s.ovrSignals := by unfold endLoad; split <;> rfl
@[simp] theorem endLoad_busOut (s : State) (k : Bool) :
    (endLoad s k).busOut = s.busOut := by unfold endLoad; split <;> rfl
@[simp] theorem endLoad_results (s : State) (k : Bool) :
    (endLoad s k).results = s.results := by unfold endLoad; split <;> rfl
@[simp] theorem endLoad_env (s : State) (k : Bool) : (endLoad s k).env = s.env := by unfold endLoad; split <;> rfl

/-- Reading a field depends on the configuration and the store alone. -/
theorem getField_congr {s t : State} (hc : t.cfg = s.cfg) (hf : t.fv = s.fv) (a f : Nat) :
    getField t a f = getField s a f := by
  simp only [getField, hc, hf]

end Sys2Proof.Machine
end

