-- ==== Sys2Proof/Laws/Memory.lean ====
section
/-! SUPPORT. The field store: a read after a write, the canonical form and that every operation on the store keeps it. -/

namespace Sys2Proof.Machine

/-! ### The order of slots -/

theorem slotLt_iff (x y : Slot) : slotLt x y = true ↔ x.1 < y.1 ∨ x.1 = y.1 ∧ x.2 < y.2 := by
  simp [slotLt]

theorem slotLt_irrefl (x : Slot) : slotLt x x = false := by
  simp [slotLt]

theorem slotLt_trans {x y z : Slot} (h : slotLt x y = true) (g : slotLt y z = true) : slotLt x z = true := by
  rw [slotLt_iff] at *; omega

theorem slotLt_of_not {x y : Slot} (hne : y ≠ x) (h : slotLt x y = false) : slotLt y x = true := by
  rw [slotLt_iff]
  have h' : ¬(x.1 < y.1 ∨ x.1 = y.1 ∧ x.2 < y.2) := by rw [← slotLt_iff]; simp [h]
  have hne' : ¬(y.1 = x.1 ∧ y.2 = x.2) := fun e => hne (Prod.ext e.1 e.2)
  omega

/-! ### Reads after writes -/

theorem find_erase_self (m : Memory) (k : Slot) : Memory.find (Memory.erase m k) k = none := by
  induction m with
  | nil => rfl
  | cons e rest ih =>
    by_cases h : e.1 = k
    · simp [Memory.erase, h, ih]
    · simp [Memory.erase, Memory.find, h, ih]

theorem find_erase_other (m : Memory) {k l : Slot} (hne : l ≠ k) :
    Memory.find (Memory.erase m k) l = Memory.find m l := by
  induction m with
  | nil => rfl
  | cons e rest ih =>
    by_cases h : e.1 = k
    · have : ¬ e.1 = l := fun e' => hne (e'.symm.trans h)
      simp only [Memory.erase, h, Memory.find, if_true]
      rw [ih, if_neg (h ▸ this)]
    · simp [Memory.erase, Memory.find, h, ih]

theorem find_insert_self (m : Memory) (k : Slot) (v : Half) : Memory.find (Memory.insert m k v) k = some v := by
  induction m with
  | nil => simp [Memory.insert, Memory.find]
  | cons e rest ih =>
    unfold Memory.insert
    split
    · simp [Memory.find]
    · split
      · simp [Memory.find]
      · simp [Memory.find, *]

theorem find_insert_other (m : Memory) {k l : Slot} (v : Half) (hne : l ≠ k) :
    Memory.find (Memory.insert m k v) l = Memory.find m l := by
  have hne' : ¬ k = l := fun e => hne e.symm
  induction m with
  | nil => simp [Memory.insert, Memory.find, hne']
  | cons e rest ih =>
    unfold Memory.insert
    split
    · rename_i h
      simp [Memory.find, h, hne']
    · split
      · simp [Memory.find, hne']
      · simp [Memory.find, ih]

/-- The field written reads as the value written, cut to its width. -/
theorem getField_setField_self {s : State} {a f : Nat} {d : FieldDef} (hd : s.cfg.field a f = some d) (v : Half) :
    getField (setField s a f v) a f = cut d v := by
  simp only [setField, hd, getField, Memory.put]
  split
  · rename_i h; simp [find_erase_self, h]
  · simp [find_insert_self]

/-- Every other field reads as before. -/
theorem getField_setField_other (s : State) {a f a' f' : Nat} (v : Half) (hne : (a', f') ≠ (a, f)) :
    getField (setField s a f v) a' f' = getField s a' f' := by
  unfold setField
  split
  · rfl
  · simp only [getField, Memory.put]
    split
    · rw [find_erase_other _ hne]
    · rw [find_insert_other _ _ hne]

/-- After a collection reset every field reads its reset value (42_collection_ops.md R179). -/
theorem getField_resetCollection (s : State) (a f : Nat) :
    getField (resetCollection s) a f = s.cfg.slotReset a f := rfl

theorem find_filter (m : Memory) (p : Slot → Bool) (k : Slot) :
    Memory.find (m.filter fun e => p e.1) k = if p k then Memory.find m k else none := by
  induction m with
  | nil => simp [Memory.find]
  | cons e rest ih =>
    by_cases hp : p e.1 <;> by_cases hk : e.1 = k
    · subst hk; simp [hp, Memory.find]
    · simp [hp, Memory.find, hk, ih]
    · subst hk
      rw [List.filter_cons_of_neg (by simpa using hp), ih]
      simp [hp]
    · simp [hp, Memory.find, hk, ih]

/-- After a register reset its fields read their reset values and every other field as before (41_register_ops.md R155). -/
theorem getField_resetRegister (s : State) (a a' f : Nat) :
    getField (resetRegister s a) a' f = if a' = a then s.cfg.slotReset a' f else getField s a' f := by
  simp only [getField, resetRegister_fv, resetRegister_cfg]
  rw [find_filter s.fv (fun k => k.1 != a)]
  by_cases h : a' = a <;> simp [h]

/-! ### The canonical form -/

theorem ascending_cons (e : Slot × Half) (rest : Memory) :
    Memory.ascending (e :: rest) = true ↔ (∀ x ∈ rest, slotLt e.1 x.1 = true) ∧ Memory.ascending rest = true := by
  simp [Memory.ascending]

theorem mem_erase {m : Memory} {k : Slot} {x : Slot × Half} (h : x ∈ Memory.erase m k) : x ∈ m := by
  induction m with
  | nil => exact h
  | cons e rest ih =>
    by_cases he : e.1 = k
    · simp only [Memory.erase, he, if_true] at h; exact List.mem_cons_of_mem _ (ih h)
    · simp only [Memory.erase, he, if_false, List.mem_cons] at h
      rcases h with rfl | h
      · exact List.mem_cons_self
      · exact List.mem_cons_of_mem _ (ih h)

theorem mem_insert {m : Memory} {k : Slot} {v : Half} {x : Slot × Half} (h : x ∈ Memory.insert m k v) :
    x = (k, v) ∨ x ∈ m := by
  induction m with
  | nil => simpa [Memory.insert] using h
  | cons e rest ih =>
    unfold Memory.insert at h
    split at h
    · simp only [List.mem_cons] at h ⊢; tauto
    · split at h
      · simp only [List.mem_cons] at h ⊢; tauto
      · simp only [List.mem_cons] at h ⊢
        rcases h with rfl | h
        · tauto
        · rcases ih h with h | h <;> tauto

theorem ascending_erase {m : Memory} (k : Slot) (h : Memory.ascending m = true) :
    Memory.ascending (Memory.erase m k) = true := by
  induction m with
  | nil => rfl
  | cons e rest ih =>
    rw [ascending_cons] at h
    by_cases he : e.1 = k
    · simp only [Memory.erase, he, if_true]; exact ih h.2
    · simp only [Memory.erase, he, if_false]
      rw [ascending_cons]
      exact ⟨fun x hx => h.1 x (mem_erase hx), ih h.2⟩

theorem ascending_insert {m : Memory} (k : Slot) (v : Half) (h : Memory.ascending m = true) :
    Memory.ascending (Memory.insert m k v) = true := by
  induction m with
  | nil => simp [Memory.insert, Memory.ascending]
  | cons e rest ih =>
    have h' := h
    rw [ascending_cons] at h
    unfold Memory.insert
    split
    · rename_i he
      rw [ascending_cons]; exact ⟨fun x hx => he ▸ h.1 x hx, h.2⟩
    · rename_i he
      split
      · rename_i hl
        rw [ascending_cons]
        refine ⟨fun x hx => ?_, h'⟩
        rcases List.mem_cons.1 hx with rfl | hx
        · exact hl
        · exact slotLt_trans hl (h.1 x hx)
      · rename_i hl
        rw [ascending_cons]
        refine ⟨fun x hx => ?_, ih h.2⟩
        rcases mem_insert hx with rfl | hx
        · exact slotLt_of_not he (by simpa using hl)
        · exact h.1 x hx

theorem wf_iff (c : Cfg) (m : Memory) :
    Memory.wf c m = true ↔ Memory.ascending m = true ∧ ∀ e ∈ m, Memory.entryOk c e = true := by
  simp [Memory.wf]

/-- The empty store is in canonical form. -/
theorem wf_nil (c : Cfg) : Memory.wf c [] = true := rfl

/-- Removing entries keeps the canonical form. -/
theorem wf_filter {c : Cfg} {m : Memory} (p : Slot × Half → Bool) (h : Memory.wf c m = true) :
    Memory.wf c (m.filter p) = true := by
  rw [wf_iff] at *
  refine ⟨?_, fun e he => h.2 e (List.mem_filter.1 he).1⟩
  have h1 := h.1
  clear h
  induction m with
  | nil => rfl
  | cons e rest ih =>
    rw [ascending_cons] at h1
    by_cases hp : p e
    · rw [List.filter_cons_of_pos hp, ascending_cons]
      exact ⟨fun x hx => h1.1 x (List.mem_filter.1 hx).1, ih h1.2⟩
    · rw [List.filter_cons_of_neg hp]; exact ih h1.2

/-- A cut value is its own cut. -/
theorem cut_cut (d : FieldDef) (v : Half) : cut d (cut d v) = cut d v := by
  simp only [cut, BitVec.and_assoc, BitVec.and_self]

/-- Writing a field keeps the canonical form. -/
theorem wf_setField {s : State} (a f : Nat) (v : Half) (h : Memory.wf s.cfg s.fv = true) :
    Memory.wf s.cfg (setField s a f v).fv = true := by
  unfold setField
  split
  · exact h
  · rename_i d hd
    rw [wf_iff] at h
    simp only [Memory.put]
    split
    · rw [wf_iff]; exact ⟨ascending_erase _ h.1, fun e he => h.2 e (mem_erase he)⟩
    · rename_i hv
      rw [wf_iff]
      refine ⟨ascending_insert _ _ h.1, fun e he => ?_⟩
      rcases mem_insert he with rfl | he
      · simp [Memory.entryOk, hd, cut_cut, hv]
      · exact h.2 e he

/-- Resetting a register keeps the canonical form. -/
theorem wf_resetRegister {s : State} (a : Nat) (h : Memory.wf s.cfg s.fv = true) :
    Memory.wf s.cfg (resetRegister s a).fv = true := wf_filter _ h

/-- Resetting the collection keeps the canonical form. -/
theorem wf_resetCollection (s : State) : Memory.wf s.cfg (resetCollection s).fv = true := rfl

/-- The store of the reset state is in canonical form. -/
theorem wf_reset : Memory.wf State.reset.cfg State.reset.fv = true := rfl

end Sys2Proof.Machine
end

