-- ==== Sys2Proof/Laws/Bits.lean ====
section
/-! SUPPORT. The slices of a field bit by bit (41_register_ops.md R150 to R154), and the checks of a well-formed
configuration one by one (00_scope.md R9). -/

namespace Sys2Proof.Machine

/-! ### Bits -/

theorem lowMask_bit (n j : Nat) : (lowMask n).getLsbD j = (decide (j < 16) && decide (j < n)) := by
  simp [lowMask, BitVec.getLsbD_ofNat, Nat.testBit_two_pow_sub_one]

theorem cut_bit (d : FieldDef) (v : Half) (j : Nat) : (cut d v).getLsbD j = (decide (j < d.wid) && v.getLsbD j) := by
  rw [cut, BitVec.getLsbD_and, lowMask_bit]
  by_cases h : j < 16
  · simp [h, Bool.and_comm]
  · simp [h, BitVec.getLsbD_of_ge v j (by omega)]

/-- A value that fits a field is unchanged by the cut (40_field_ops.md R132). -/
theorem cut_of_fits {d : FieldDef} {v : Half} (h : v.toNat < 2 ^ d.wid) : cut d v = v := by
  apply BitVec.eq_of_getLsbD_eq
  intro j _
  rw [cut_bit]
  by_cases hj : j < d.wid
  · simp [hj]
  · have : v.getLsbD j = false := by
      rw [BitVec.getLsbD, Nat.testBit_lt_two_pow]
      exact Nat.lt_of_lt_of_le h (Nat.pow_le_pow_right (by omega) (by omega))
    simp [this]

/-- The cut is the value modulo the field's range. -/
theorem cut_toNat (d : FieldDef) (v : Half) : (cut d v).toNat = v.toNat % 2 ^ d.wid := by
  apply Nat.eq_of_testBit_eq
  intro j
  rw [Nat.testBit_mod_two_pow]
  exact cut_bit d v j

/-- A reset value fits its field (10_state.md R26). -/
theorem cut_slotReset {c : Cfg} {a f : Nat} {d : FieldDef} (hd : c.field a f = some d) :
    cut d (c.slotReset a f) = c.slotReset a f := by
  simp only [Cfg.field, Option.bind_eq_some_iff] at hd
  obtain ⟨r, hr, hf⟩ := hd
  simp only [Cfg.slotReset, hr, hf]
  exact cut_cut d _

theorem find_mem_store {m : Memory} {k : Slot} {v : Half} (h : Memory.find m k = some v) : (k, v) ∈ m := by
  induction m with
  | nil => simp [Memory.find] at h
  | cons e rest ih =>
    simp only [Memory.find] at h
    split at h
    · rename_i he; cases h; rw [← he]; simp
    · exact List.mem_cons_of_mem _ (ih h)

/-- In canonical form every stored value fits its field (10_state.md R26). -/
theorem cut_getField {s : State} (h : Memory.wf s.cfg s.fv = true) {a f : Nat} {d : FieldDef}
    (hd : s.cfg.field a f = some d) : cut d (getField s a f) = getField s a f := by
  cases hf : Memory.find s.fv (a, f) with
  | none => simp only [getField, hf, Option.getD_none]; exact cut_slotReset hd
  | some v =>
    have he := ((wf_iff _ _).1 h).2 _ (find_mem_store hf)
    simp only [Memory.entryOk, hd, Bool.and_eq_true, beq_iff_eq] at he
    simp only [getField, hf, Option.getD_some, he.1]

/-- The overlap of a field with a byte, bit by bit: bit `j` of the field is bit `d.off + j - 8 * k` of the byte. -/
theorem overlap_none {d : FieldDef} {k : Nat} (h : overlap d k = none) {j : Nat} (hj : j < d.wid) :
    d.off + j < 8 * k ∨ 8 * k + 8 ≤ d.off + j := by
  simp only [overlap] at h
  split at h
  · cases h
  · omega

theorem overlap_some {d : FieldDef} {k : Nat} {p : Overlap} (h : overlap d k = some p) :
    0 < p.count ∧ p.inByte + p.count ≤ 8 ∧ p.inField + p.count ≤ d.wid ∧ d.off + p.inField = 8 * k + p.inByte ∧
      (p.inField = 0 ∨ p.inByte = 0) ∧ (p.inField + p.count = d.wid ∨ p.inByte + p.count = 8) := by
  simp only [overlap] at h
  split at h
  · cases h
    simp only
    omega
  · cases h

/-- The bits of a byte that belong to field bit `j`. -/
theorem overlap_mine {d : FieldDef} {k : Nat} {p : Overlap} (h : overlap d k = some p) {j : Nat} (hj : j < d.wid) :
    (8 * k ≤ d.off + j ∧ d.off + j < 8 * k + 8) ↔ (p.inField ≤ j ∧ j < p.inField + p.count) := by
  have := overlap_some h
  omega

theorem part_bit (p : Overlap) (b : Byte) (j : Nat) :
    ((b.setWidth 16 >>> p.inByte) &&& lowMask p.count : Half).getLsbD j =
      (decide (j < 16) && decide (j < p.count) && b.getLsbD (p.inByte + j)) := by
  rw [BitVec.getLsbD_and, lowMask_bit, BitVec.getLsbD_ushiftRight, BitVec.getLsbD_setWidth]
  by_cases h1 : j < 16 <;> by_cases h2 : j < p.count <;> simp [h1, h2]
  intro hb
  by_contra hc
  rw [BitVec.getLsbD_of_ge b _ (by omega)] at hb
  cases hb

/-- The value handed to FLD.WRITE for a field that is not cleared by writing 1: the bits of this byte, the other bits of the
stored value (41_register_ops.md R151). -/
theorem mergeByte_bit {d : FieldDef} {p : Overlap} (ha : d.acc ≠ .writeOneToClear) (b : Byte) (old : Half) {j : Nat}
    (hj : j < 16) :
    (mergeByte d p b old).getLsbD j =
      if p.inField ≤ j ∧ j < p.inField + p.count then b.getLsbD (p.inByte + (j - p.inField)) else old.getLsbD j := by
  have e : mergeByte d p b old = (old &&& ~~~(lowMask p.count <<< p.inField)) |||
      (((b.setWidth 16 >>> p.inByte) &&& lowMask p.count) <<< p.inField) := by
    unfold mergeByte
    cases hd : d.acc <;> first | rfl | exact absurd hd ha
  have hpart := part_bit p b (j - p.inField)
  rw [e]
  generalize ((b.setWidth 16 >>> p.inByte) &&& lowMask p.count : Half) = part at hpart
  simp only [BitVec.getLsbD_or, BitVec.getLsbD_and, BitVec.getLsbD_not, BitVec.getLsbD_shiftLeft, hpart, lowMask_bit, hj,
    decide_true, Bool.true_and]
  by_cases h1 : j < p.inField
  · have h2 : ¬ (p.inField ≤ j ∧ j < p.inField + p.count) := by omega
    simp [h1, h2]
  · by_cases h3 : j < p.inField + p.count
    · have h2 : p.inField ≤ j ∧ j < p.inField + p.count := by omega
      have h4 : j - p.inField < p.count := by omega
      have h5 : j - p.inField < 16 := by omega
      simp [h1, h2, h4, h5]
    · have h2 : ¬ (p.inField ≤ j ∧ j < p.inField + p.count) := by omega
      have h4 : ¬ j - p.inField < p.count := by omega
      simp [h1, h2, h4]

/-- The value handed to FLD.WRITE for a field cleared by writing 1: the bits of this byte in place, 0 elsewhere. -/
theorem mergeByte_w1c_bit {d : FieldDef} {p : Overlap} (ha : d.acc = .writeOneToClear) (b : Byte) (old : Half) {j : Nat}
    (hj : j < 16) :
    (mergeByte d p b old).getLsbD j =
      (decide (p.inField ≤ j ∧ j < p.inField + p.count) && b.getLsbD (p.inByte + (j - p.inField))) := by
  simp only [mergeByte, ha, BitVec.getLsbD_shiftLeft, part_bit, hj, decide_true, Bool.true_and]
  by_cases h1 : j < p.inField
  · have h2 : ¬ (p.inField ≤ j ∧ j < p.inField + p.count) := by omega
    simp [h1, h2]
  · have h5 : j - p.inField < 16 := by omega
    have h2 : (p.inField ≤ j ∧ j < p.inField + p.count) ↔ j - p.inField < p.count := by omega
    simp [h1, h2, h5]

/-- The bits of a field's value as they stand in the byte read (41_register_ops.md R153). -/
theorem sliceByte_bit (p : Overlap) (v : Half) {j : Nat} (hj : j < 8) :
    (sliceByte p v).getLsbD j =
      (decide (p.inByte ≤ j ∧ j < p.inByte + p.count) && v.getLsbD (p.inField + (j - p.inByte))) := by
  have h16 : j < 16 := by omega
  simp only [sliceByte, BitVec.getLsbD_setWidth, BitVec.getLsbD_shiftLeft, BitVec.getLsbD_and, BitVec.getLsbD_ushiftRight,
    lowMask_bit, hj, h16, decide_true, Bool.true_and]
  by_cases h1 : j < p.inByte
  · have h2 : ¬ (p.inByte ≤ j ∧ j < p.inByte + p.count) := by omega
    simp [h1, h2]
  · have h5 : j - p.inByte < 16 := by omega
    have h2 : (p.inByte ≤ j ∧ j < p.inByte + p.count) ↔ j - p.inByte < p.count := by omega
    simp [h1, h2, h5, Bool.and_comm]

/-- A bit of a register belongs to some field exactly when it is between the ends of one. -/
theorem fieldBits_bit (r : RegisterDef) {j : Nat} (hj : j < 16) :
    (fieldBits r).getLsbD j = r.fields.any fun d => decide (d.off ≤ j) && decide (j < d.off + d.wid) := by
  have main : ∀ (ds : List FieldDef) (m : Half),
      (ds.foldl (fun m d => m ||| (lowMask d.wid <<< d.off)) m).getLsbD j =
        (m.getLsbD j || ds.any fun d => decide (d.off ≤ j) && decide (j < d.off + d.wid)) := by
    intro ds
    induction ds with
    | nil => intro m; simp
    | cons d rest ih =>
      intro m
      rw [List.foldl_cons, ih, List.any_cons, ← Bool.or_assoc]
      congr 1
      rw [BitVec.getLsbD_or, BitVec.getLsbD_shiftLeft, lowMask_bit]
      have h1 : j - d.off < 16 := by omega
      have h2 : d.off ≤ j → (j - d.off < d.wid ↔ j < d.off + d.wid) := by omega
      by_cases h3 : d.off ≤ j
      · simp [hj, h1, h3, h2 h3, Nat.not_lt.2 h3]
      · simp [h3, Nat.lt_of_not_le h3]
  exact (main r.fields 0).trans (by simp)

/-- What the reserved bits of a byte read as (41_register_ops.md R153). -/
theorem reservedByte_bit (r : RegisterDef) (k : Nat) {j : Nat} (hj : j < 8) :
    (reservedByte r k).getLsbD j =
      (r.rsvdRead == .resetDefault && (r.rst.getLsbD (8 * k + j) && !(fieldBits r).getLsbD (8 * k + j))) := by
  unfold reservedByte
  split <;> rename_i h
  · simp [h]
  · rw [h, BitVec.getLsbD_setWidth, BitVec.getLsbD_ushiftRight, BitVec.getLsbD_and, BitVec.getLsbD_not]
    by_cases h2 : 8 * k + j < 16
    · simp [hj, h2]
    · rw [BitVec.getLsbD_of_ge r.rst _ (by omega)]; simp

/-- A tagged bit is written with 1 (41_register_ops.md R154). -/
theorem tagHit_iff (r : RegisterDef) (k : Nat) (b : Byte) :
    tagHit r k b = (List.range 8).any fun j => b.getLsbD j && r.tag.getLsbD (8 * k + j) := by
  rw [Bool.eq_iff_iff]
  simp only [tagHit, bne_iff_ne, ne_eq, List.any_eq_true, List.mem_range, Bool.and_eq_true]
  constructor
  · intro h
    by_contra hc
    apply h
    apply BitVec.eq_of_getLsbD_eq
    intro j hj
    rw [BitVec.getLsbD_and, BitVec.getLsbD_shiftLeft, BitVec.getLsbD_setWidth]
    by_cases hk : j < 8 * k
    · simp [hk]
    · cases hb : b.getLsbD (j - 8 * k) with
      | false => simp
      | true =>
        have h8 : j - 8 * k < 8 := by
          by_contra h9
          rw [BitVec.getLsbD_of_ge b _ (by omega)] at hb
          cases hb
        have ht : r.tag.getLsbD j = false := by
          by_contra ht
          exact hc ⟨j - 8 * k, h8, hb, by rw [show 8 * k + (j - 8 * k) = j by omega]; simpa using ht⟩
        simp [ht]
  · rintro ⟨j, hj, hb, ht⟩ h
    have h2 : ((b.setWidth 16 <<< (8 * k)) &&& r.tag : Half).getLsbD (8 * k + j) = false := by rw [h]; simp
    have h16 : 8 * k + j < 16 := by
      by_contra hc
      rw [BitVec.getLsbD_of_ge r.tag _ (by omega)] at ht
      cases ht
    have h17 : j < 16 := by omega
    rw [BitVec.getLsbD_and, BitVec.getLsbD_shiftLeft, BitVec.getLsbD_setWidth] at h2
    rw [ht] at h2
    simp [h16, h17, hb] at h2

/-! ### The checks of a well-formed configuration -/

theorem allPairs_getElem {α : Type} {f : α → α → Bool} {l : List α} (h : allPairs f l = true) {i j : Nat} {x y : α}
    (hij : i < j) (hx : l[i]? = some x) (hy : l[j]? = some y) : f x y = true := by
  induction l generalizing i j with
  | nil => simp at hx
  | cons a rest ih =>
    simp only [allPairs, Bool.and_eq_true, List.all_eq_true] at h
    cases j with
    | zero => omega
    | succ j =>
      rw [List.getElem?_cons_succ] at hy
      cases i with
      | zero =>
        simp only [List.getElem?_cons_zero, Option.some.injEq] at hx
        subst hx
        exact h.1 _ (List.mem_of_getElem? hy)
      | succ i => exact ih h.2 (Nat.lt_of_succ_lt_succ hij) (by simpa using hx) hy

/-- The checks on a register of a well-formed configuration. -/
theorem Cfg_wf_register {c : Cfg} (h : c.wf = true) {r : RegisterDef} (hr : r ∈ c.map) : registerOk c r = true := by
  simp only [Cfg.wf, Bool.and_eq_true, List.all_eq_true] at h
  exact h.1.1.1.1.1.1.1.1.2 r hr

theorem Cfg_wf_map {c : Cfg} (h : c.wf = true) : c.mapOk = true := by
  simp only [Cfg.wf, Bool.and_eq_true] at h
  exact h.1.1.1.1.1.1.1.1.1

/-- The checks on a field of a well-formed configuration: the field has a bit, lies inside its register, and its clear value
fits. -/
theorem registerOk_field {c : Cfg} {r : RegisterDef} (h : registerOk c r = true) {d : FieldDef} (hd : d ∈ r.fields) :
    1 ≤ d.wid ∧ d.off + d.wid ≤ r.width.bits ∧ d.clearVal.toNat < 2 ^ d.wid ∧
      (d.acc = .readToClear → d.off ≤ 7 → d.off + d.wid ≤ 8) := by
  simp only [registerOk, Bool.and_eq_true, List.all_eq_true] at h
  have hf := h.1.1.1.1 d hd
  simp only [fieldOk, fieldInside, clearValFits, noReadEffectStraddle, readEffect, straddles, Bool.and_eq_true,
    decide_eq_true_eq] at hf
  obtain ⟨⟨⟨⟨⟨h1, h2⟩, _⟩, h3⟩, h4⟩, _⟩ := hf
  refine ⟨h1, h2, h3, fun ha ho => ?_⟩
  rw [ha] at h4
  simp at h4
  omega

/-- Two fields of a register share no bit. -/
theorem registerOk_apart {c : Cfg} {r : RegisterDef} (h : registerOk c r = true) {i j : Nat} {d e : FieldDef}
    (hne : i ≠ j) (hd : r.fields[i]? = some d) (he : r.fields[j]? = some e) :
    d.off + d.wid ≤ e.off ∨ e.off + e.wid ≤ d.off := by
  simp only [registerOk, Bool.and_eq_true] at h
  have hp := h.1.1.1.2
  rcases Nat.lt_or_gt_of_ne hne with hij | hij
  · have := allPairs_getElem hp hij hd he
    simpa [fieldsApart] using this
  · have := allPairs_getElem hp hij he hd
    simp only [fieldsApart, Bool.or_eq_true, decide_eq_true_eq] at this
    omega

end Sys2Proof.Machine
end

