-- ==== Sys2Proof/Laws/Fifo.lean ====
section
/-! SUPPORT. The sample FIFO: what each operation does, said once, and that each keeps the bound and the lanes
(10_state.md R41, R47). -/

namespace Sys2Proof.Machine

/-! ### The configuration -/

/-- What a well-formed configuration says of the FIFO. -/
theorem Cfg_wf_fifo {c : Cfg} (h : c.wf = true) : 1 ≤ c.cap ∧ c.dflt.length = c.lanes := by
  simp only [Cfg.wf, Bool.and_eq_true] at h
  have h1 := h.1.1.1.1.1.2
  simp only [Cfg.fifoOk, Bool.and_eq_true, decide_eq_true_eq, beq_iff_eq] at h1
  exact ⟨h1.1.2, h1.2⟩

/-! ### The stream -/

theorem onLanes_length (n : Nat) (x : Sample) : (onLanes n x).length = n := by simp [onLanes]

/-- An answer OK carries a sample of the configured lanes (44_sample_fifo.md R254). -/
theorem streamAnswer_length {c : Cfg} {t : Time} (h : (streamAnswer c t).2 = .ok) :
    (streamAnswer c t).1.length = c.lanes := by
  unfold streamAnswer at *
  split
  · simp
  · split
    · simp [*] at h
    · split
      · simp [*] at h
      · exact onLanes_length _ _

/-- Everything a stream tick can do (44_sample_fifo.md R255). -/
theorem streamTick_cases (s : State) (t : Time) :
    (s.fifo.streamAttached = false ∧ streamTick s t = s) ∨
    (s.fifo.streamAttached = true ∧ ∃ x, streamAnswer s.cfg t = (x, .ok) ∧ x.length = s.cfg.lanes ∧
      streamTick s t = feed (setAfterStream s false) x) ∨
    (s.fifo.streamAttached = true ∧ (streamAnswer s.cfg t).2 = .beforeStream ∧
      streamTick s t = setAfterStream s false) ∨
    (s.fifo.streamAttached = true ∧ (streamAnswer s.cfg t).2 = .afterStream ∧
      streamTick s t = setAfterStream s true) := by
  unfold streamTick
  cases ha : s.fifo.streamAttached
  · simp
  · have hl := @streamAnswer_length s.cfg t
    rcases hx : streamAnswer s.cfg t with ⟨x, st⟩
    rw [hx] at hl
    cases st <;> simp_all

/-! ### Feeding -/

/-- A feed in Bypass mode (44_sample_fifo.md R232). -/
theorem feed_bypass {s : State} (x : Sample) (h : s.fifo.mode = .bypass) :
    feed s x = { s with fifo := { s.fifo with current := x } } := by simp [feed, h]

/-- A feed with room (44_sample_fifo.md R233). -/
theorem feed_room {s : State} (x : Sample) (h : s.fifo.mode ≠ .bypass) (hq : s.fifo.q.length < s.cfg.cap) :
    feed s x = { s with fifo := { s.fifo with q := s.fifo.q ++ [x] } } := by
  unfold feed
  split <;> simp_all

/-- A feed into a full queue in mode Fifo (44_sample_fifo.md R235). -/
theorem feed_dropped {s : State} (x : Sample) (h : s.fifo.mode = .fifo) (hq : s.cfg.cap ≤ s.fifo.q.length) :
    feed s x = s := by
  simp [feed, h, Nat.not_lt.2 hq]

/-- A feed into a full queue in mode Continuous (44_sample_fifo.md R234). -/
theorem feed_evicts {s : State} (x : Sample) (h : s.fifo.mode = .continuous) (hq : s.cfg.cap ≤ s.fifo.q.length) :
    feed s x = evict s x := by
  simp [feed, h, Nat.not_lt.2 hq]

/-- Everything a feed can do (44_sample_fifo.md R236). -/
theorem feed_cases (s : State) (x : Sample) :
    (s.fifo.mode = .bypass ∧ feed s x = { s with fifo := { s.fifo with current := x } }) ∨
    (s.fifo.mode ≠ .bypass ∧ s.fifo.q.length < s.cfg.cap ∧
      feed s x = { s with fifo := { s.fifo with q := s.fifo.q ++ [x] } }) ∨
    (s.fifo.mode = .fifo ∧ s.cfg.cap ≤ s.fifo.q.length ∧ feed s x = s) ∨
    (s.fifo.mode = .continuous ∧ s.cfg.cap ≤ s.fifo.q.length ∧ feed s x = evict s x) := by
  by_cases hq : s.fifo.q.length < s.cfg.cap
  · cases hm : s.fifo.mode
    · exact .inl ⟨rfl, feed_bypass x hm⟩
    · exact .inr (.inl ⟨by simp, hq, feed_room x (by simp [hm]) hq⟩)
    · exact .inr (.inl ⟨by simp, hq, feed_room x (by simp [hm]) hq⟩)
  · have hq' := Nat.le_of_not_lt hq
    cases hm : s.fifo.mode
    · exact .inl ⟨rfl, feed_bypass x hm⟩
    · exact .inr (.inr (.inl ⟨rfl, hq', feed_dropped x hm hq'⟩))
    · exact .inr (.inr (.inr ⟨rfl, hq', feed_evicts x hm hq'⟩))

/-! ### Dequeuing -/

/-- Everything the dequeue can do (44_sample_fifo.md R239 to R241). -/
theorem popSample_cases (s : State) :
    (s.fifo.mode = .bypass ∧ popSample s = (false, s)) ∨
    (s.fifo.mode ≠ .bypass ∧ s.fifo.q = [] ∧ s.cfg.emptyPolicy = .keepCurrent ∧
      popSample s = (false, say s .wFifoEmpty)) ∨
    (s.fifo.mode ≠ .bypass ∧ s.fifo.q = [] ∧ s.cfg.emptyPolicy = .clearToDefault ∧
      popSample s = (false, say { s with fifo := { s.fifo with current := s.cfg.dflt } } .wFifoEmpty)) ∨
    (s.fifo.mode ≠ .bypass ∧ ∃ x rest, s.fifo.q = x :: rest ∧
      popSample s = (true, { s with fifo := { s.fifo with current := x, q := rest } })) := by
  unfold popSample
  split
  · exact .inl ⟨by assumption, rfl⟩
  · split
    · exact .inr (.inl ⟨by assumption, by assumption, by assumption, rfl⟩)
    · exact .inr (.inr (.inl ⟨by assumption, by assumption, by assumption, rfl⟩))
  · exact .inr (.inr (.inr ⟨by assumption, _, _, by assumption, rfl⟩))

/-! ### The invariant of the FIFO -/

theorem FifoInv_congr {s t : State} (hc : t.cfg = s.cfg) (hf : t.fifo = s.fifo) : FifoInv t ↔ FifoInv s := by
  simp [FifoInv, hc, hf]

theorem FifoInv_queue {s : State} {q : List Sample} (h : FifoInv s) (hl : q.length ≤ s.cfg.cap)
    (hq : ∀ x ∈ q, x.length = s.cfg.lanes) (t : State) (hc : t.cfg = s.cfg) (hq' : t.fifo.q = q)
    (hcur : t.fifo.current = s.fifo.current) : FifoInv t := by
  refine ⟨?_, ?_, ?_⟩
  · rw [hq', hc]; exact hl
  · rw [hq', hc]; exact hq
  · rw [hcur, hc]; exact h.2.2

/-- A feed of a sample with the configured lanes keeps the bound and the lanes. -/
theorem FifoInv_feed {s : State} {x : Sample} (hx : x.length = s.cfg.lanes) (hcap : 1 ≤ s.cfg.cap) (h : FifoInv s) :
    FifoInv (feed s x) := by
  obtain ⟨_, e⟩ | ⟨_, hq, e⟩ | ⟨_, _, e⟩ | ⟨_, hq, e⟩ := feed_cases s x
  · rw [e]; exact ⟨h.1, h.2.1, hx⟩
  · rw [e]
    refine FifoInv_queue h (q := s.fifo.q ++ [x]) (by simpa using hq) ?_ _ rfl rfl rfl
    intro y hy
    rcases List.mem_append.1 hy with hy | hy
    · exact h.2.1 y hy
    · rw [List.mem_singleton.1 hy]; exact hx
  · rw [e]; exact h
  · rw [e]
    have h1 := h.1
    refine FifoInv_queue h (q := s.fifo.q.tail ++ [x]) (by simp; omega) ?_ _ rfl rfl rfl
    intro y hy
    rcases List.mem_append.1 hy with hy | hy
    · exact h.2.1 y (List.mem_of_mem_tail hy)
    · rw [List.mem_singleton.1 hy]; exact hx

/-- A dequeue keeps the bound and the lanes. -/
theorem FifoInv_popSample {s : State} (hd : s.cfg.dflt.length = s.cfg.lanes) (h : FifoInv s) :
    FifoInv (popSample s).2 := by
  obtain ⟨_, e⟩ | ⟨_, _, _, e⟩ | ⟨_, _, _, e⟩ | ⟨_, x, rest, hq, e⟩ := popSample_cases s
  · rw [e]; exact h
  · rw [e]; exact h
  · rw [e]; exact ⟨h.1, h.2.1, hd⟩
  · rw [e]
    have h1 := h.1
    have h2 := h.2.1
    rw [hq] at h1 h2
    exact ⟨by simp at h1 ⊢; omega, fun y hy => h2 y (List.mem_cons_of_mem _ hy), h2 x List.mem_cons_self⟩

/-- A queue reset keeps the bound and the lanes. -/
theorem FifoInv_resetQueue {s : State} (hd : s.cfg.dflt.length = s.cfg.lanes) (h : FifoInv s) :
    FifoInv (resetQueue s) := by
  refine ⟨?_, ?_, ?_⟩
  · simp only [resetQueue]; split
    · exact h.1
    · simp
  · simp only [resetQueue]; split
    · exact h.2.1
    · simp
  · exact hd

/-- The FIFO of a device reset keeps the bound and the lanes. -/
theorem FifoInv_deviceReset {s : State} (hd : s.cfg.dflt.length = s.cfg.lanes) : FifoInv (deviceReset s) :=
  ⟨by simp [deviceReset, resetFifo], by simp [deviceReset, resetFifo], hd⟩

/-! ### Several feeds -/

theorem feedAll_append (s : State) (xs ys : List Sample) : feedAll s (xs ++ ys) = feedAll (feedAll s xs) ys := by
  induction xs generalizing s with
  | nil => rfl
  | cons x rest ih => exact ih _

/-- Repeated feeds are feeds of a constant list (44_sample_fifo.md R237). -/
theorem feedTimes_eq (s : State) (x : Sample) (n : Nat) : feedTimes s x n = feedAll s (List.replicate n x) := by
  induction n generalizing s with
  | zero => rfl
  | succ n ih => exact ih _

end Sys2Proof.Machine
end

