-- ==== Sys2Proof/Laws/Engine.lean ====
section
/-! SUPPORT. What the register engine and the hooks can do, said once: a relation between the state before and the state
after that every primitive update respects is respected by every engine operation and every hook. Instances: what no
engine operation touches, the invariants, and that the standard library always completes. -/

namespace Sys2Proof.Machine

/-- The state an invariant violation in `u` leaves (60_exceptions.md R277). -/
def violated (u : State) (what : Text) : State := { say u (.fInvariant what) with faulted := true }

/-- The state an operation is done in satisfies `P`; it is abandoned or refused only if `stop` holds, and then abandoned by
a violation in a state that satisfies `P`. -/
def Ran.Meets {α : Type} (stop : Prop) (P : State → Prop) : Ran α → Prop
  | .done _ t => P t
  | .abandoned t => stop ∧ ∃ u what, P u ∧ t = violated u what
  | .refused _ => stop

theorem Ran.Meets_done {α : Type} {stop : Prop} {P : State → Prop} (a : α) {t : State} (h : P t) :
    (Ran.done a t).Meets stop P := h

theorem Ran.Meets_mono {α : Type} {stop : Prop} {P Q : State → Prop} {x : Ran α} (h : x.Meets stop P)
    (hpq : ∀ t, P t → Q t) : x.Meets stop Q := by
  cases x with
  | done a t => exact hpq t h
  | abandoned t =>
    obtain ⟨hs, u, what, hu, e⟩ := h
    exact ⟨hs, u, what, hpq u hu, e⟩
  | refused r => exact h

/-- One operation after another, under a transitive relation. -/
theorem Ran.Meets_andThen {α β : Type} {stop : Prop} {R : State → State → Prop}
    (htrans : ∀ s t u, R s t → R t u → R s u) {s : State} {x : Ran α} {f : α → State → Ran β}
    (hx : x.Meets stop (R s)) (hf : ∀ a t, R s t → (f a t).Meets stop (R t)) :
    (x.andThen f).Meets stop (R s) := by
  cases x with
  | done a t => exact Ran.Meets_mono (hf a t hx) fun u hu => htrans _ _ _ hx hu
  | abandoned t => exact hx
  | refused r => exact hx

/-- An operation that may not stop is done. -/
theorem Ran.Meets_total {α : Type} {P : State → Prop} {x : Ran α} (h : x.Meets False P) :
    ∃ a t, x = .done a t ∧ P t := by
  cases x with
  | done a t => exact ⟨a, t, rfl, h⟩
  | abandoned t => exact h.1.elim
  | refused r => exact h.elim

/-- A relation respected by the updates the engine makes itself; of the records it logs none is a violation. -/
structure EngineKept (R : State → State → Prop) : Prop where
  refl : ∀ s, R s s
  trans : ∀ s t u, R s t → R t u → R s u
  setField : ∀ s a f v, R s (setField s a f v)
  say : ∀ s d, (∀ what, d ≠ .fInvariant what) → R s (say s d)

/-- A relation respected by the updates of the standard library too. -/
structure StandardKept (R : State → State → Prop) : Prop extends EngineKept R where
  setAfterStream : ∀ s b, R s (setAfterStream s b)
  feed : ∀ s x, x.length = s.cfg.lanes → R s (feed s x)
  popSample : ∀ s, R s (popSample s).2
  resetQueue : ∀ s, R s (resetQueue s)
  clearOverrun : ∀ s, R s (clearOverrun s)
  setMode : ∀ s m, R s (setMode s m)
  resetCollection : ∀ s, R s (resetCollection s)

/-- A relation respected by every update a hook can make. -/
structure HookKept (R : State → State → Prop) : Prop extends StandardKept R where
  putUser : ∀ s l, R s (putUser s l)
  setCurrent : ∀ s x, x.length = s.cfg.lanes → R s (setCurrent s x)
  setQueue : ∀ s q, q.length ≤ s.cfg.cap → (∀ x ∈ q, x.length = s.cfg.lanes) → R s (setQueue s q)
  setOverrun : ∀ s b, R s (setOverrun s b)
  setKeep : ∀ s b, R s (setKeep s b)
  setAttached : ∀ s b, R s (setAttached s b)

section Derived

variable {R : State → State → Prop}

theorem StandardKept.streamTick (h : StandardKept R) (s : State) (t : Time) : R s (streamTick s t) := by
  obtain ⟨_, e⟩ | ⟨_, x, _, hx, e⟩ | ⟨_, _, e⟩ | ⟨_, _, e⟩ := streamTick_cases s t <;> rw [e]
  · exact h.refl s
  · exact h.trans _ _ _ (h.setAfterStream s false) (h.feed _ x hx)
  · exact h.setAfterStream s false
  · exact h.setAfterStream s true

theorem StandardKept.pullStream (h : StandardKept R) (s : State) : R s (pullStream s) := by
  unfold Machine.pullStream
  split
  · exact h.refl s
  · exact h.streamTick s _

theorem StandardKept.dequeue (h : StandardKept R) (s : State) : R s (dequeue s).2 :=
  h.trans _ _ _ (h.pullStream s) (h.popSample _)

theorem StandardKept.softReset (h : StandardKept R) (s : State) : R s (softReset s) :=
  h.trans _ _ _ (h.trans _ _ _ (h.resetCollection s) (h.resetQueue _)) (h.setMode _ _)

end Derived

/-! ### The engine over a runner -/

/-- A runner respects a relation on the calls singled out. -/
def RunnerMeets (stop : Prop) (good : HookCall → Prop) (R : State → State → Prop) (run : Runner) : Prop :=
  ∀ call s, good call → (run call s).Meets stop (R s)

/-- Every hook of a field makes calls singled out. -/
def GoodField (good : HookCall → Prop) (d : FieldDef) : Prop :=
  (∀ p v, d.prov = some p → good (.provide p v)) ∧
    (∀ h o n, d.wcb = some h → good (.onField h o n)) ∧ (∀ h o n, d.ccb = some h → good (.onField h o n))

/-- Every hook of a register makes calls singled out. -/
def GoodRegister (good : HookCall → Prop) (r : RegisterDef) : Prop :=
  (∀ h k b, r.rwcb = some h → good (.onRegister h k b)) ∧ ∀ d ∈ r.fields, GoodField good d

section Engine

variable {stop : Prop} {good : HookCall → Prop} {R : State → State → Prop} {run : Runner}

theorem fldRead_meets (hR : EngineKept R) (hrun : RunnerMeets stop good R run) (a f : Nat) {d : FieldDef}
    (hd : GoodField good d) (s : State) : (fldRead run a f d s).Meets stop (R s) := by
  have hp : ∀ p, d.prov = some p →
      ((run (.provide p (getField s a f)) s).andThen fun v t => Ran.done (cut d v) t).Meets stop (R s) :=
    fun p hp => Ran.Meets_andThen hR.trans (hrun _ s (hd.1 p _ hp)) fun v t _ => hR.refl t
  unfold fldRead
  split
  · exact hR.refl s
  · split
    · exact hp _ ‹_›
    · exact hR.setField s a f _
  · split
    · exact hp _ ‹_›
    · exact hR.refl s

theorem callField_meets (hR : EngineKept R) (hrun : RunnerMeets stop good R run) {h : Option FieldHook}
    (hg : ∀ k o n, h = some k → good (.onField k o n)) (old new : Half) (s : State) :
    (callField run h old new s).Meets stop (R s) := by
  unfold callField
  split
  · exact hR.refl s
  · exact Ran.Meets_andThen hR.trans (hrun _ s (hg _ _ _ rfl)) fun v t _ => hR.refl t

theorem storeField_meets (hR : EngineKept R) (hrun : RunnerMeets stop good R run) (a f : Nat) {d : FieldDef}
    (hd : GoodField good d) (old new : Half) (s : State) : (storeField run a f d old new s).Meets stop (R s) := by
  refine Ran.Meets_andThen hR.trans
    (Ran.Meets_mono (callField_meets hR hrun hd.2.1 old new _) fun t ht => hR.trans _ _ _ (hR.setField s a f new) ht) ?_
  intro _ t _
  split
  · exact hR.refl t
  · exact callField_meets hR hrun hd.2.2 old new t

theorem fldWrite_meets (hR : EngineKept R) (hrun : RunnerMeets stop good R run) (a f : Nat) {d : FieldDef}
    (hd : GoodField good d) (v : Half) (s : State) : (fldWrite run a f d v s).Meets stop (R s) := by
  unfold fldWrite
  split
  · exact hR.say s _ nofun
  · exact storeField_meets hR hrun a f hd _ _ s
  · split
    · exact hR.say s _ nofun
    · exact storeField_meets hR hrun a f hd _ _ s

theorem writeFields_meets (hR : EngineKept R) (hrun : RunnerMeets stop good R run) (a k : Nat) (b : Byte) (i : Nat)
    {ds : List FieldDef} (hd : ∀ d ∈ ds, GoodField good d) (s : State) :
    (writeFields run a k b i ds s).Meets stop (R s) := by
  induction ds generalizing i s with
  | nil => exact hR.refl s
  | cons d rest ih =>
    have hrest : ∀ e ∈ rest, GoodField good e := fun e he => hd e (List.mem_cons_of_mem _ he)
    unfold writeFields
    split
    · exact ih (i + 1) hrest s
    · exact Ran.Meets_andThen hR.trans (fldWrite_meets hR hrun a i (hd d List.mem_cons_self) _ s)
        fun _ t _ => ih (i + 1) hrest t

theorem regWriteB_meets (hR : EngineKept R) (hrun : RunnerMeets stop good R run) {r : RegisterDef}
    (hr : GoodRegister good r) (k : Nat) (b : Byte) (s : State) : (regWriteB run r k b s).Meets stop (R s) := by
  have htag : R s (sayTagged r k b s) := by
    unfold sayTagged
    split
    · exact hR.say s _ nofun
    · exact hR.refl s
  refine Ran.Meets_andThen hR.trans
    (Ran.Meets_mono (writeFields_meets hR hrun r.addr k b 0 hr.2 _) fun t ht => hR.trans _ _ _ htag ht) ?_
  intro _ t _
  unfold callRegister
  split
  · exact hR.refl t
  · exact Ran.Meets_andThen hR.trans (hrun _ t (hr.1 _ _ _ ‹_›)) fun v u _ => hR.refl u

theorem readFields_meets (hR : EngineKept R) (hrun : RunnerMeets stop good R run) (a k i : Nat)
    {ds : List FieldDef} (hd : ∀ d ∈ ds, GoodField good d) (acc : Byte) (s : State) :
    (readFields run a k i ds acc s).Meets stop (R s) := by
  induction ds generalizing i acc s with
  | nil => exact hR.refl s
  | cons d rest ih =>
    have hrest : ∀ e ∈ rest, GoodField good e := fun e he => hd e (List.mem_cons_of_mem _ he)
    unfold readFields
    split
    · exact ih (i + 1) hrest acc s
    · exact Ran.Meets_andThen hR.trans (fldRead_meets hR hrun a i (hd d List.mem_cons_self) s)
        fun _ t _ => ih (i + 1) hrest _ t

theorem regReadB_meets (hR : EngineKept R) (hrun : RunnerMeets stop good R run) {r : RegisterDef}
    (hr : GoodRegister good r) (k : Nat) (s : State) : (regReadB run r k s).Meets stop (R s) :=
  readFields_meets hR hrun r.addr k 0 hr.2 _ s

/-! ### The collection over a runner -/

theorem find_mem {c : Cfg} {a : Nat} {r : RegisterDef} (h : c.find a = some r) : r ∈ c.map ∧ r.addr = a := by
  unfold Cfg.find at h
  exact ⟨List.mem_of_find?_eq_some h, by simpa using List.find?_some h⟩

theorem field_mem {c : Cfg} {a f : Nat} {d : FieldDef} (h : c.field a f = some d) :
    ∃ r, c.find a = some r ∧ r ∈ c.map ∧ r.addr = a ∧ r.fields[f]? = some d ∧ d ∈ r.fields := by
  unfold Cfg.field at h
  cases hr : c.find a with
  | none => simp [hr] at h
  | some r =>
    simp only [hr, Option.bind_some] at h
    exact ⟨r, rfl, (find_mem hr).1, (find_mem hr).2, h, List.mem_of_getElem? h⟩

theorem locate_mem {c : Cfg} {addr : Nat} {x : RegisterDef × Nat} (h : locate c addr = some x) :
    x.1 ∈ c.map ∧ x.1.addr ≤ addr ∧ addr < x.1.addr + c.span x.1 ∧ x.2 = addr - x.1.addr := by
  unfold locate at h
  rw [Option.map_eq_some_iff] at h
  obtain ⟨r, hr, rfl⟩ := h
  have h1 := List.find?_some hr
  simp only [Bool.and_eq_true, decide_eq_true_eq] at h1
  exact ⟨List.mem_of_find?_eq_some hr, h1.1, h1.2, rfl⟩

theorem offsetTarget_mem {c : Cfg} {base o : Nat} {r : RegisterDef} (h : offsetTarget c base o = some r) :
    c.find base = some r ∧ o < r.width.bytes := by
  unfold offsetTarget at h
  split at h
  · cases h
  · split at h
    · cases h; exact ⟨‹_›, ‹_›⟩
    · cases h

theorem missRead_kept (hR : EngineKept R) (s : State) (addr : Nat) : R s (missRead s addr) := by
  unfold missRead
  split
  · exact hR.refl s
  · exact hR.say s _ nofun

theorem missWrite_kept (hR : EngineKept R) (s : State) (addr : Nat) (b : Byte) : R s (missWrite s addr b) := by
  unfold missWrite
  split
  · exact hR.refl s
  · exact hR.say s _ nofun

theorem collRead_meets (hR : EngineKept R) (hrun : RunnerMeets stop good R run) (addr : Nat) (s : State)
    (hg : ∀ r ∈ s.cfg.map, GoodRegister good r) : (collRead run addr s).Meets stop (R s) := by
  unfold collRead
  split
  · exact missRead_kept hR s addr
  · exact regReadB_meets hR hrun (hg _ (locate_mem ‹_›).1) _ s

theorem collWrite_meets (hR : EngineKept R) (hrun : RunnerMeets stop good R run) (addr : Nat) (b : Byte) (s : State)
    (hg : ∀ r ∈ s.cfg.map, GoodRegister good r) : (collWrite run addr b s).Meets stop (R s) := by
  unfold collWrite
  split
  · exact missWrite_kept hR s addr b
  · exact regWriteB_meets hR hrun (hg _ (locate_mem ‹_›).1) _ b s

theorem collTryRead_meets (hR : EngineKept R) (hrun : RunnerMeets stop good R run) (addr : Nat) (s : State)
    (hg : ∀ r ∈ s.cfg.map, GoodRegister good r) : (collTryRead run addr s).Meets stop (R s) := by
  unfold collTryRead
  split
  · exact hR.refl s
  · exact Ran.Meets_andThen hR.trans (regReadB_meets hR hrun (hg _ (locate_mem ‹_›).1) _ s) fun _ t _ => hR.refl t

theorem collTryWrite_meets (hR : EngineKept R) (hrun : RunnerMeets stop good R run) (addr : Nat) (b : Byte) (s : State)
    (hg : ∀ r ∈ s.cfg.map, GoodRegister good r) : (collTryWrite run addr b s).Meets stop (R s) := by
  unfold collTryWrite
  split
  · exact hR.refl s
  · exact Ran.Meets_andThen hR.trans (regWriteB_meets hR hrun (hg _ (locate_mem ‹_›).1) _ b s) fun _ t _ => hR.refl t

theorem collReadOff_meets (hR : EngineKept R) (hrun : RunnerMeets stop good R run) (base o : Nat) (e : Endian)
    (s : State) (hg : ∀ r ∈ s.cfg.map, GoodRegister good r) : (collReadOff run base o e s).Meets stop (R s) := by
  unfold collReadOff
  split
  · exact missRead_kept hR s base
  · exact regReadB_meets hR hrun (hg _ (find_mem (offsetTarget_mem ‹_›).1).1) _ s

theorem collWriteOff_meets (hR : EngineKept R) (hrun : RunnerMeets stop good R run) (base o : Nat) (b : Byte)
    (e : Endian) (s : State) (hg : ∀ r ∈ s.cfg.map, GoodRegister good r) :
    (collWriteOff run base o b e s).Meets stop (R s) := by
  unfold collWriteOff
  split
  · exact missWrite_kept hR s base b
  · exact regWriteB_meets hR hrun (hg _ (find_mem (offsetTarget_mem ‹_›).1).1) _ b s

end Engine

/-! ### Hooks -/

/-- Every call counts. -/
def anyCall (_ : HookCall) : Prop := True

theorem goodField_any (d : FieldDef) : GoodField anyCall d :=
  ⟨fun _ _ _ => trivial, fun _ _ _ _ => trivial, fun _ _ _ _ => trivial⟩

theorem goodRegister_any (r : RegisterDef) : GoodRegister anyCall r :=
  ⟨fun _ _ _ _ => trivial, fun d _ => goodField_any d⟩

section Hooks

variable {R : State → State → Prop} {run : Runner}

theorem evalLanes_length (w : HookFrame) (s : State) (lanes : List HookExpr) :
    (evalLanes w s lanes).length = lanes.length := by simp [evalLanes]

/-- One step of a hook respects every relation that its update respects. -/
theorem runAct_meets (hR : HookKept R) (hrun : RunnerMeets True anyCall R run) (w : HookFrame) (act : HookAct)
    (s : State) : (runAct run w act s).Meets True (R s) := by
  have hg : ∀ r ∈ s.cfg.map, GoodRegister anyCall r := fun r _ => goodRegister_any r
  have hE := hR.toEngineKept
  have hseq : ∀ {α : Type} {z : Ran α} {g : α → HookFrame}, z.Meets True (R s) →
      (z.andThen fun a t => Ran.done (g a) t).Meets True (R s) := by
    intro α z g hz
    exact Ran.Meets_andThen hE.trans hz fun a t _ => hE.refl t
  cases act with
  | setField a f v =>
    simp only [runAct]; split
    · trivial
    · exact hR.setField s a f _
  | setUser i v => exact hR.putUser s _
  | pushUser v => exact hR.putUser s _
  | replaceUser entries => exact hR.putUser s _
  | keepUser n => exact hR.putUser s _
  | setCurrent lanes =>
    simp only [runAct]; split
    · exact hR.setCurrent s _ (by rw [evalLanes_length]; assumption)
    · trivial
  | setQueue samples =>
    simp only [runAct]; split
    · rename_i h
      exact hR.setQueue s _ h.1 (by simpa using h.2)
    · trivial
  | setOverrun b => exact hR.setOverrun s b
  | setKeep b => exact hR.setKeep s b
  | setAttached b => exact hR.setAttached s b
  | setAfterStream b => exact hR.setAfterStream s b
  | feed lanes =>
    simp only [runAct]; split
    · exact hR.feed s _ (by rw [evalLanes_length]; assumption)
    · trivial
  | deq => exact hR.dequeue s
  | fifoReset => exact hR.resetQueue s
  | clrOvr => exact hR.clearOverrun s
  | setMode m => exact hR.setMode s m
  | streamTick t => exact hR.streamTick s _
  | fldRead a f =>
    simp only [runAct]; split
    · trivial
    · exact hseq (fldRead_meets hE hrun a f (goodField_any _) s)
  | fldWrite a f v =>
    simp only [runAct]; split
    · trivial
    · exact hseq (fldWrite_meets hE hrun a f (goodField_any _) _ s)
  | collRead addr => exact hseq (collRead_meets hE hrun addr s hg)
  | collWrite addr v => exact hseq (collWrite_meets hE hrun addr _ s hg)
  | collTryRead addr => exact hseq (collTryRead_meets hE hrun addr s hg)
  | collTryWrite addr v => exact hseq (collTryWrite_meets hE hrun addr _ s hg)
  | collReadOff base o e => exact hseq (collReadOff_meets hE hrun base o e s hg)
  | collWriteOff base o v e => exact hseq (collWriteOff_meets hE hrun base o _ e s hg)
  | collReset => exact hR.resetCollection s
  | softReset => exact hR.softReset s
  | violation what => exact ⟨trivial, s, what, hR.refl s, rfl⟩

theorem runSteps_meets (hR : HookKept R) (hrun : RunnerMeets True anyCall R run) (steps : List HookStep)
    (w : HookFrame) (s : State) : (runSteps run steps w s).Meets True (R s) := by
  induction steps generalizing w s with
  | nil => exact hR.refl s
  | cons h rest ih =>
    unfold runSteps
    split
    · exact ih w s
    · exact Ran.Meets_andThen hR.trans (runAct_meets hR hrun w h.act s) fun w' t _ => ih w' t

/-- A hook of any kind respects every relation that every update respects. -/
theorem runHook_meets (hR : HookKept R) (hrun : RunnerMeets True anyCall R run) (call : HookCall) (s : State) :
    (runHook run call s).Meets True (R s) := by
  have hseq : ∀ {g : HookFrame → State → Half} (steps w),
      ((runSteps run steps w s).andThen fun a t => Ran.done (g a t) t).Meets True (R s) :=
    fun steps w => Ran.Meets_andThen hR.trans (runSteps_meets hR hrun steps w s) fun a t _ => hR.refl t
  cases call with
  | provide p stored =>
    cases p with
    | pvSample lane k deq => cases deq <;> first | exact hR.refl s | exact hR.dequeue s
    | pvFifoCount => exact hR.refl s
    | pvOvr clear => cases clear <;> first | exact hR.refl s | exact hR.clearOverrun s
    | program steps ret => exact hseq _ _
    | custom id => exact hseq _ _
    | customPure id => exact hR.refl s
  | onField h old new =>
    cases h with
    | whSoftReset =>
      show R s (if new = 1 then softReset s else s)
      split
      · exact hR.softReset s
      · exact hR.refl s
    | whFifoMode table rest => exact hR.setMode s _
    | program steps => exact hseq _ _
    | custom id => exact hseq _ _
  | onRegister h k b =>
    cases h with
    | whClrOvr k0 i =>
      show R s (if k = k0 ∧ b.getLsbD i then clearOverrun s else s)
      split
      · exact hR.clearOverrun s
      · exact hR.refl s
    | program steps => exact hseq _ _
    | custom id => exact hseq _ _

/-- Hooks nested to any depth respect every relation that every update respects. -/
theorem hookRun_meets (hR : HookKept R) (depth : Nat) : RunnerMeets True anyCall R (hookRun depth) := by
  induction depth with
  | zero => exact fun _ _ _ => trivial
  | succ n ih => exact fun call s _ => runHook_meets hR ih call s

end Hooks

/-! ### The standard library -/

/-- A call of a hook of the standard library (00_scope.md R14). -/
def standardCall : HookCall → Prop
  | .provide p _ => standardProvider (some p) = true
  | .onField h _ _ => standardFieldHook (some h) = true
  | .onRegister h _ _ => standardRegHook (some h) = true

theorem goodField_standard {d : FieldDef} (h : standardField d = true) : GoodField standardCall d := by
  simp only [standardField, Bool.and_eq_true] at h
  refine ⟨fun p v e => ?_, fun k o n e => ?_, fun k o n e => ?_⟩
  · rw [e] at h; exact h.1.1
  · rw [e] at h; exact h.1.2
  · rw [e] at h; exact h.2

theorem goodRegister_standard {r : RegisterDef} (h : standardRegister r = true) : GoodRegister standardCall r := by
  simp only [standardRegister, Bool.and_eq_true, List.all_eq_true] at h
  refine ⟨fun k j b e => ?_, fun d hd => goodField_standard (h.2 d hd)⟩
  rw [e] at h; exact h.1

theorem goodMap_standard {c : Cfg} (h : standardHooks c = true) : ∀ r ∈ c.map, GoodRegister standardCall r := by
  simp only [standardHooks, List.all_eq_true] at h
  exact fun r hr => goodRegister_standard (h r hr)

/-- A hook of the standard library always completes, and respects every relation its updates respect. -/
theorem hookRun_standard {R : State → State → Prop} (hR : StandardKept R) {depth : Nat} (h : 1 ≤ depth) :
    RunnerMeets False standardCall R (hookRun depth) := by
  obtain ⟨n, rfl⟩ : ∃ n, depth = n + 1 := ⟨depth - 1, by omega⟩
  intro call s hc
  show (runHook (hookRun n) call s).Meets False (R s)
  cases call with
  | provide p stored =>
    cases p with
    | pvSample lane k deq => cases deq <;> first | exact hR.refl s | exact hR.dequeue s
    | pvFifoCount => exact hR.refl s
    | pvOvr clear => cases clear <;> first | exact hR.refl s | exact hR.clearOverrun s
    | program steps ret => exact absurd hc (by simp [standardCall, standardProvider])
    | custom id => exact absurd hc (by simp [standardCall, standardProvider])
    | customPure id => exact absurd hc (by simp [standardCall, standardProvider])
  | onField h old new =>
    cases h with
    | whSoftReset =>
      show R s (if new = 1 then softReset s else s)
      split
      · exact hR.softReset s
      · exact hR.refl s
    | whFifoMode table rest => exact hR.setMode s _
    | program steps => exact absurd hc (by simp [standardCall, standardFieldHook])
    | custom id => exact absurd hc (by simp [standardCall, standardFieldHook])
  | onRegister h k b =>
    cases h with
    | whClrOvr k0 i =>
      show R s (if k = k0 ∧ b.getLsbD i then clearOverrun s else s)
      split
      · exact hR.clearOverrun s
      · exact hR.refl s
    | program steps => exact absurd hc (by simp [standardCall, standardRegHook])
    | custom id => exact absurd hc (by simp [standardCall, standardRegHook])

end Sys2Proof.Machine
end

