-- ==== Sys2Proof/Laws/Nesting.lean ====
section
/-! SUPPORT. Hooks nested to any depth (42_collection_ops.md R181; log 5): more depth never changes an answer, the runner
`hooks` answers what a deep enough run answers, and it runs a hook with its nested calls run by itself. -/

namespace Sys2Proof.Machine

/-! ### Properties of an operation in its runner -/

/-- A property of operations, each a function of its runner, that holds of those that call no hook and of every hook call,
and that passes to one operation after another. -/
structure RunnerProperty (P : ∀ {α : Type}, (Runner → Ran α) → Prop) : Prop where
  const : ∀ {α : Type} (x : Ran α), P fun _ => x
  call : ∀ c s, P fun run => run c s
  andThen : ∀ {α β : Type} {x : Runner → Ran α} {f : Runner → α → State → Ran β}, P x →
    (∀ a t, P fun run => f run a t) → P fun run => (x run).andThen (f run)

section Uniform

variable {P : ∀ {α : Type}, (Runner → Ran α) → Prop} (hP : RunnerProperty @P)

include hP

theorem fldRead_uniform (a f : Nat) (d : FieldDef) (s : State) : P fun run => fldRead run a f d s := by
  unfold fldRead
  split
  · exact hP.const _
  · split
    · exact hP.andThen (hP.call _ _) fun _ _ => hP.const _
    · exact hP.const _
  · split
    · exact hP.andThen (hP.call _ _) fun _ _ => hP.const _
    · exact hP.const _

theorem callField_uniform (h : Option FieldHook) (old new : Half) (s : State) :
    P fun run => callField run h old new s := by
  unfold callField
  split
  · exact hP.const _
  · exact hP.andThen (hP.call _ _) fun _ _ => hP.const _

theorem storeField_uniform (a f : Nat) (d : FieldDef) (old new : Half) (s : State) :
    P fun run => storeField run a f d old new s := by
  refine hP.andThen (callField_uniform hP _ _ _ _) fun _ t => ?_
  split
  · exact hP.const _
  · exact callField_uniform hP _ _ _ _

theorem fldWrite_uniform (a f : Nat) (d : FieldDef) (v : Half) (s : State) :
    P fun run => fldWrite run a f d v s := by
  unfold fldWrite
  split
  · exact hP.const _
  · exact storeField_uniform hP _ _ _ _ _ _
  · split
    · exact hP.const _
    · exact storeField_uniform hP _ _ _ _ _ _

theorem writeFields_uniform (a k : Nat) (b : Byte) (i : Nat) (ds : List FieldDef) (s : State) :
    P fun run => writeFields run a k b i ds s := by
  induction ds generalizing i s with
  | nil => exact hP.const _
  | cons d rest ih =>
    unfold writeFields
    split
    · exact ih _ _
    · exact hP.andThen (fldWrite_uniform hP _ _ _ _ _) fun _ t => ih _ t

theorem regWriteB_uniform (r : RegisterDef) (k : Nat) (b : Byte) (s : State) :
    P fun run => regWriteB run r k b s := by
  refine hP.andThen (writeFields_uniform hP _ _ _ _ _ _) fun _ t => ?_
  unfold callRegister
  split
  · exact hP.const _
  · exact hP.andThen (hP.call _ _) fun _ _ => hP.const _

theorem readFields_uniform (a k i : Nat) (ds : List FieldDef) (acc : Byte) (s : State) :
    P fun run => readFields run a k i ds acc s := by
  induction ds generalizing i acc s with
  | nil => exact hP.const _
  | cons d rest ih =>
    unfold readFields
    split
    · exact ih _ _ _
    · exact hP.andThen (fldRead_uniform hP _ _ _ _) fun _ t => ih _ _ t

theorem regReadB_uniform (r : RegisterDef) (k : Nat) (s : State) : P fun run => regReadB run r k s :=
  readFields_uniform hP _ _ _ _ _ _

theorem collRead_uniform (addr : Nat) (s : State) : P fun run => collRead run addr s := by
  unfold collRead
  split
  · exact hP.const _
  · exact regReadB_uniform hP _ _ _

theorem collWrite_uniform (addr : Nat) (b : Byte) (s : State) : P fun run => collWrite run addr b s := by
  unfold collWrite
  split
  · exact hP.const _
  · exact regWriteB_uniform hP _ _ _ _

theorem collTryRead_uniform (addr : Nat) (s : State) : P fun run => collTryRead run addr s := by
  unfold collTryRead
  split
  · exact hP.const _
  · exact hP.andThen (regReadB_uniform hP _ _ _) fun _ _ => hP.const _

theorem collTryWrite_uniform (addr : Nat) (b : Byte) (s : State) : P fun run => collTryWrite run addr b s := by
  unfold collTryWrite
  split
  · exact hP.const _
  · exact hP.andThen (regWriteB_uniform hP _ _ _ _) fun _ _ => hP.const _

theorem collReadOff_uniform (base o : Nat) (e : Endian) (s : State) : P fun run => collReadOff run base o e s := by
  unfold collReadOff
  split
  · exact hP.const _
  · exact regReadB_uniform hP _ _ _

theorem collWriteOff_uniform (base o : Nat) (b : Byte) (e : Endian) (s : State) :
    P fun run => collWriteOff run base o b e s := by
  unfold collWriteOff
  split
  · exact hP.const _
  · exact regWriteB_uniform hP _ _ _ _

theorem runAct_uniform (w : HookFrame) (act : HookAct) (s : State) : P fun run => runAct run w act s := by
  have hseq : ∀ {α : Type} {x : Runner → Ran α} {g : α → HookFrame}, P x →
      P fun run => (x run).andThen fun a t => Ran.done (g a) t :=
    fun hx => hP.andThen hx fun _ _ => hP.const _
  cases act with
  | fldRead a f => unfold runAct; dsimp only; split; exacts [hP.const _, hseq (fldRead_uniform hP _ _ _ _)]
  | fldWrite a f v => unfold runAct; dsimp only; split; exacts [hP.const _, hseq (fldWrite_uniform hP _ _ _ _ _)]
  | collRead addr => exact hseq (collRead_uniform hP _ _)
  | collWrite addr v => exact hseq (collWrite_uniform hP _ _ _)
  | collTryRead addr => exact hseq (collTryRead_uniform hP _ _)
  | collTryWrite addr v => exact hseq (collTryWrite_uniform hP _ _ _)
  | collReadOff base o e => exact hseq (collReadOff_uniform hP _ _ _ _)
  | collWriteOff base o v e => exact hseq (collWriteOff_uniform hP _ _ _ _ _)
  | _ => exact hP.const _

theorem runSteps_uniform (steps : List HookStep) (w : HookFrame) (s : State) :
    P fun run => runSteps run steps w s := by
  induction steps generalizing w s with
  | nil => exact hP.const _
  | cons h rest ih =>
    unfold runSteps
    split
    · exact ih _ _
    · exact hP.andThen (runAct_uniform hP _ _ _) fun w' t => ih w' t

theorem runHook_uniform (call : HookCall) (s : State) : P fun run => runHook run call s := by
  have hseq : ∀ {g : HookFrame → State → Half} (steps w),
      P fun run => (runSteps run steps w s).andThen fun a t => Ran.done (g a t) t :=
    fun _ _ => hP.andThen (runSteps_uniform hP _ _ _) fun _ _ => hP.const _
  cases call with
  | provide p stored => cases p <;> first | exact hP.const _ | exact hseq _ _
  | onField h old new => cases h <;> first | exact hP.const _ | exact hseq _ _
  | onRegister h k b => cases h <;> first | exact hP.const _ | exact hseq _ _

end Uniform

/-! ### More depth never changes an answer -/

/-- An operation run by `run'` answers as run by `run`, unless the latter runs out of depth. -/
def Extends (run run' : Runner) {α : Type} (x : Runner → Ran α) : Prop :=
  x run = .refused .hookNesting ∨ x run' = x run

theorem extends_property {run run' : Runner} (h : ∀ c s, Extends run run' fun r => r c s) :
    RunnerProperty (@Extends run run') where
  const _ := .inr rfl
  call := h
  andThen {_ _ x f} hx hf := by
    rcases hx with hx | hx
    · exact .inl (by simp only [hx]; rfl)
    · rw [Extends, hx]
      cases x run with
      | done a t => exact hf a t
      | abandoned t => exact .inr rfl
      | refused r => exact .inr rfl

theorem hookRun_succ (n : Nat) (c : HookCall) (s : State) :
    hookRun n c s = .refused .hookNesting ∨ hookRun (n + 1) c s = hookRun n c s := by
  induction n generalizing c s with
  | zero => exact .inl rfl
  | succ n ih => exact runHook_uniform (extends_property fun c s => ih c s) c s

theorem hookRun_le {m n : Nat} (h : m ≤ n) (c : HookCall) (s : State) :
    hookRun m c s = .refused .hookNesting ∨ hookRun n c s = hookRun m c s := by
  induction h with
  | refl => exact .inr rfl
  | step _ ih =>
    rcases ih with ih | ih
    · exact .inl ih
    · rcases hookRun_succ _ c s with h | h
      · exact .inl (ih.symm.trans h)
      · exact .inr (h.trans ih)

/-! ### The runner of the block -/

theorem firstFrom_spec {α : Type} (p : Nat → Option α) (n : Nat) (a : α) (h : firstFrom p n = some a) :
    ∃ k, p k = some a := by
  refine firstFrom.partial_correctness p (fun _ a => ∃ k, p k = some a) ?_ n a h
  intro f ih n a h
  split at h
  · exact ⟨n, by rw [‹p n = _›]; exact h⟩
  · exact ih _ _ h

theorem firstFrom_ne_none {α : Type} (p : Nat → Option α) {n k : Nat} (hk : n ≤ k) (h : p k ≠ none) :
    firstFrom p n ≠ none := by
  obtain ⟨m, rfl⟩ := Nat.exists_eq_add_of_le hk
  induction m generalizing n with
  | zero =>
    rw [firstFrom]
    split
    · simp
    · exact absurd ‹_› h
  | succ m ih =>
    rw [firstFrom]
    split
    · simp
    · exact ih (by omega) (by rwa [Nat.add_right_comm, Nat.add_assoc])

theorem answerAt_some {c : HookCall} {s : State} {n : Nat} {r : Ran Half} :
    answerAt c s n = some r ↔ hookRun n c s = r ∧ r ≠ .refused .hookNesting := by
  unfold answerAt
  split
  · rename_i h
    simp only [h, reduceCtorEq, false_iff, not_and, ne_eq, not_not]
    exact fun h => h.symm
  · rename_i h
    constructor
    · intro e; cases e; exact ⟨rfl, h⟩
    · rintro ⟨rfl, _⟩; rfl

theorem answerAt_none {c : HookCall} {s : State} {n : Nat} :
    answerAt c s n = none ↔ hookRun n c s = .refused .hookNesting := by
  unfold answerAt
  split
  · simp [*]
  · rename_i h; simpa using h

/-- Everything the runner of the block can do: it answers what every deep enough run answers, and refuses a call that every
depth refuses. -/
theorem hooks_cases (c : HookCall) (s : State) :
    (∃ n, ∀ m, n ≤ m → hookRun m c s = hooks c s) ∧
      (hooks c s = .refused .hookNesting ↔ ∀ n, hookRun n c s = .refused .hookNesting) := by
  have key : ∀ k r, answerAt c s k = some r → hooks c s = r →
      (∃ n, ∀ m, n ≤ m → hookRun m c s = hooks c s) ∧
        (hooks c s = .refused .hookNesting ↔ ∀ n, hookRun n c s = .refused .hookNesting) := by
    intro k r hk hr
    obtain ⟨hk, hne⟩ := answerAt_some.1 hk
    refine ⟨⟨k, fun m hm => ?_⟩, fun e => absurd (hr ▸ e) hne, fun e => absurd (hk ▸ e k) hne⟩
    rcases hookRun_le hm c s with h | h
    · exact absurd (hk ▸ h) hne
    · rw [h, hk, hr]
  cases h8 : answerAt c s 8 with
  | some r => exact key 8 r h8 (by simp only [hooks, h8])
  | none =>
    cases hf : firstFrom (answerAt c s) 9 with
    | some r =>
      obtain ⟨k, hk⟩ := firstFrom_spec _ _ _ hf
      exact key k r hk (by simp only [hooks, h8, hf, Option.getD_some])
    | none =>
      have hall : ∀ n, hookRun n c s = .refused .hookNesting := by
        intro n
        by_cases hn : 9 ≤ n
        · exact answerAt_none.1 (by_contra fun h => firstFrom_ne_none _ hn h hf)
        · rcases hookRun_le (show n ≤ 8 by omega) c s with h | h
          · exact h
          · exact h.symm.trans (answerAt_none.1 h8)
      have e : hooks c s = .refused .hookNesting := by simp only [hooks, h8, hf, Option.getD_none]
      exact ⟨⟨0, fun m _ => (hall m).trans e.symm⟩, fun _ => hall, fun _ => e⟩

/-- An operation run to every deep enough depth does what it does run by `hooks`. -/
def Settles {α : Type} (x : Runner → Ran α) : Prop := ∃ n, ∀ m, n ≤ m → x (hookRun m) = x hooks

theorem settles_property : RunnerProperty @Settles where
  const _ := ⟨0, fun _ _ => rfl⟩
  call c s := (hooks_cases c s).1
  andThen {_ _ x f} hx hf := by
    obtain ⟨n, hn⟩ := hx
    cases e : x hooks with
    | done a t =>
      obtain ⟨k, hk⟩ := hf a t
      refine ⟨max n k, fun m hm => ?_⟩
      simp only [hn m (by omega), e]
      exact hk m (by omega)
    | abandoned t => exact ⟨n, fun m hm => by simp only [hn m hm, e]; rfl⟩
    | refused r => exact ⟨n, fun m hm => by simp only [hn m hm, e]; rfl⟩

/-- The runner of the block runs a hook with every call it makes run by the runner of the block: no depth shows (log 5). -/
theorem hooks_eq_runHook (c : HookCall) (s : State) : hooks c s = runHook hooks c s := by
  obtain ⟨n, hn⟩ := (hooks_cases c s).1
  obtain ⟨k, hk⟩ := runHook_uniform settles_property c s
  rw [← hn (max n k + 1) (by omega)]
  exact hk (max n k) (by omega)

/-- A value provider as the block runs it. -/
theorem hooks_provide (p : Provider) (stored : Half) (s : State) :
    hooks (.provide p stored) s = runProvider hooks p stored s := hooks_eq_runHook _ s

/-- A field callback as the block runs it. -/
theorem hooks_onField (h : FieldHook) (old new : Half) (s : State) :
    hooks (.onField h old new) s = runFieldHook hooks h old new s := hooks_eq_runHook _ s

/-- A whole-register callback as the block runs it. -/
theorem hooks_onRegister (h : RegHook) (k : Nat) (b : Byte) (s : State) :
    hooks (.onRegister h k b) s = runRegHook hooks h k b s := hooks_eq_runHook _ s

/-- The runner of the block respects every relation that every update of a hook respects. -/
theorem hooks_meets {R : State → State → Prop} (hR : HookKept R) : RunnerMeets True anyCall R hooks :=
  fun c s _ => by rw [← (hooks_cases c s).1.choose_spec _ (Nat.le_refl _)]; exact hookRun_meets hR _ c s trivial

/-- The standard library always completes. -/
theorem hooks_standard {R : State → State → Prop} (hR : StandardKept R) : RunnerMeets False standardCall R hooks :=
  fun c s hc => by
    obtain ⟨n, hn⟩ := (hooks_cases c s).1
    rw [← hn (n + 1) (by omega)]
    exact hookRun_standard hR (by omega) c s hc

end Sys2Proof.Machine
end

