-- ==== Sys2Proof/Laws/Frame.lean ====
section
/-! SUPPORT. What the register engine and its hooks leave alone, and what they keep: the instances of the relations of
Laws/Engine.lean. -/

namespace Sys2Proof.Machine

/-! ### What no engine operation and no hook touches -/

/-- The components no hook and no engine operation touches before it is abandoned: the configuration, the transaction state, the interrupt level,
the outputs other than diagnostics, the inputs and the latch (00_scope.md R13, 92_eei_decisions.md D3). -/
structure Framed (s t : State) : Prop where
  cfg : t.cfg = s.cfg
  tx : t.tx = s.tx
  irq : t.irq = s.irq
  busOut : t.busOut = s.busOut
  results : t.results = s.results
  env : t.env = s.env
  faulted : t.faulted = s.faulted

theorem Framed.refl (s : State) : Framed s s := ⟨rfl, rfl, rfl, rfl, rfl, rfl, rfl⟩

theorem Framed.trans {s t u : State} (h : Framed s t) (g : Framed t u) : Framed s u :=
  ⟨g.cfg.trans h.cfg, g.tx.trans h.tx, g.irq.trans h.irq, g.busOut.trans h.busOut, g.results.trans h.results,
    g.env.trans h.env, g.faulted.trans h.faulted⟩

theorem Framed.setField (s : State) (a f : Nat) (v : Half) : Framed s (setField s a f v) := by
  constructor <;> simp

theorem Framed.feed (s : State) (x : Sample) : Framed s (feed s x) := by constructor <;> simp

theorem Framed.popSample (s : State) : Framed s (popSample s).2 := by
  obtain ⟨_, e⟩ | ⟨_, _, _, e⟩ | ⟨_, _, _, e⟩ | ⟨_, _, _, _, e⟩ := popSample_cases s <;> rw [e] <;>
    exact ⟨rfl, rfl, rfl, rfl, rfl, rfl, rfl⟩

/-- No update of a hook touches the frame. -/
theorem framed_kept : HookKept Framed where
  refl := Framed.refl
  trans _ _ _ := Framed.trans
  setField := Framed.setField
  say _ _ _ := ⟨rfl, rfl, rfl, rfl, rfl, rfl, rfl⟩
  setAfterStream _ _ := ⟨rfl, rfl, rfl, rfl, rfl, rfl, rfl⟩
  feed s x _ := Framed.feed s x
  popSample := Framed.popSample
  resetQueue _ := ⟨rfl, rfl, rfl, rfl, rfl, rfl, rfl⟩
  clearOverrun _ := ⟨rfl, rfl, rfl, rfl, rfl, rfl, rfl⟩
  setMode _ _ := ⟨rfl, rfl, rfl, rfl, rfl, rfl, rfl⟩
  resetCollection _ := ⟨rfl, rfl, rfl, rfl, rfl, rfl, rfl⟩
  putUser _ _ := ⟨rfl, rfl, rfl, rfl, rfl, rfl, rfl⟩
  setCurrent _ _ _ := ⟨rfl, rfl, rfl, rfl, rfl, rfl, rfl⟩
  setQueue _ _ _ _ := ⟨rfl, rfl, rfl, rfl, rfl, rfl, rfl⟩
  setOverrun _ _ := ⟨rfl, rfl, rfl, rfl, rfl, rfl, rfl⟩
  setKeep _ _ := ⟨rfl, rfl, rfl, rfl, rfl, rfl, rfl⟩
  setAttached _ _ := ⟨rfl, rfl, rfl, rfl, rfl, rfl, rfl⟩

/-! ### What the standard library leaves alone -/

/-- What the standard library and the engine never change: the latch, `KEEP`, `STREAM_ATTACHED`, `USER` (60_exceptions.md
R276, R286). -/
structure Sober (s t : State) : Prop where
  cfg : t.cfg = s.cfg
  faulted : t.faulted = s.faulted
  keep : t.fifo.keep = s.fifo.keep
  streamAttached : t.fifo.streamAttached = s.fifo.streamAttached
  user : t.user = s.user

theorem Sober.trans {s t u : State} (h : Sober s t) (g : Sober t u) : Sober s u :=
  ⟨g.cfg.trans h.cfg, g.faulted.trans h.faulted, g.keep.trans h.keep, g.streamAttached.trans h.streamAttached, g.user.trans h.user⟩

theorem Sober.feed (s : State) (x : Sample) : Sober s (feed s x) := by
  obtain ⟨_, e⟩ | ⟨_, _, e⟩ | ⟨_, _, e⟩ | ⟨_, _, e⟩ := feed_cases s x <;> rw [e] <;> exact ⟨rfl, rfl, rfl, rfl, rfl⟩

theorem Sober.popSample (s : State) : Sober s (popSample s).2 := by
  obtain ⟨_, e⟩ | ⟨_, _, _, e⟩ | ⟨_, _, _, e⟩ | ⟨_, _, _, _, e⟩ := popSample_cases s <;> rw [e] <;>
    exact ⟨rfl, rfl, rfl, rfl, rfl⟩

theorem sober_kept : StandardKept Sober where
  refl _ := ⟨rfl, rfl, rfl, rfl, rfl⟩
  trans _ _ _ := Sober.trans
  setField s a f v := ⟨by simp, by simp, by simp, by simp, by simp⟩
  say _ _ _ := ⟨rfl, rfl, rfl, rfl, rfl⟩
  setAfterStream _ _ := ⟨rfl, rfl, rfl, rfl, rfl⟩
  feed s x _ := Sober.feed s x
  popSample := Sober.popSample
  resetQueue _ := ⟨rfl, rfl, rfl, rfl, rfl⟩
  clearOverrun _ := ⟨rfl, rfl, rfl, rfl, rfl⟩
  setMode _ _ := ⟨rfl, rfl, rfl, rfl, rfl⟩
  resetCollection _ := ⟨rfl, rfl, rfl, rfl, rfl⟩

/-! ### What every operation keeps -/

/-- A relation that the body of every operation respects: every update of a hook and of the host, and any change of the
transaction state, the interrupt level and the response bytes. -/
structure BodyKept (R : State → State → Prop) : Prop extends HookKept R where
  config : ∀ s t, R s t → t.cfg = s.cfg
  around : ∀ s t, t.cfg = s.cfg → t.fv = s.fv → t.fifo = s.fifo → t.ovrSignals = s.ovrSignals → t.user = s.user →
    t.faulted = s.faulted → t.env = s.env → t.results = s.results → t.diag = s.diag → R s t
  attachStream : ∀ s, R s (attachStream s)
  detachStream : ∀ s, R s (detachStream s)
  resetRegister : ∀ s a, R s (resetRegister s a)
  deviceReset : ∀ s, R s (deviceReset s)

/-- A relation that every operation respects, also when it is abandoned, with any change of the transaction state, the
outputs and the inputs. -/
structure OperationKept (R : State → State → Prop) : Prop extends BodyKept R where
  violation : ∀ s what, R s (violated s what)
  aside : ∀ s t, t.cfg = s.cfg → t.fv = s.fv → t.fifo = s.fifo → t.ovrSignals = s.ovrSignals → R s t

/-- The configuration is constant; with a well-formed one, the FIFO keeps its bound and lanes, the store its canonical
form. -/
structure Steady (s t : State) : Prop where
  cfg : t.cfg = s.cfg
  fifo : s.cfg.wf = true → FifoInv s → FifoInv t
  store : Memory.wf s.cfg s.fv = true → Memory.wf t.cfg t.fv = true

theorem Steady.same {s t : State} (hc : t.cfg = s.cfg) (hf : t.fv = s.fv) (hq : t.fifo.q = s.fifo.q)
    (hcur : t.fifo.current = s.fifo.current) : Steady s t :=
  ⟨hc, fun _ h => by simpa only [FifoInv, hc, hq, hcur] using h, fun h => by rw [hc, hf]; exact h⟩

theorem Steady.trans {s t u : State} (h : Steady s t) (g : Steady t u) : Steady s u :=
  ⟨g.cfg.trans h.cfg, fun hw hi => g.fifo (h.cfg ▸ hw) (h.fifo hw hi), fun hm => g.store (h.store hm)⟩

/-- An update of the FIFO alone. -/
theorem Steady.ofFifo {s t : State} (hc : t.cfg = s.cfg) (hf : t.fv = s.fv)
    (h : s.cfg.wf = true → FifoInv s → FifoInv t) : Steady s t :=
  ⟨hc, h, fun hm => by rw [hc, hf]; exact hm⟩

theorem steady_kept : OperationKept Steady where
  refl _ := Steady.same rfl rfl rfl rfl
  trans _ _ _ := Steady.trans
  setField s a f v :=
    ⟨by simp, fun _ h => (FifoInv_congr (by simp) (by simp)).2 h, fun h => by
      rw [setField_cfg]; exact wf_setField a f v h⟩
  say _ _ _ := Steady.same rfl rfl rfl rfl
  setAfterStream _ _ := Steady.same rfl rfl rfl rfl
  feed s x hx := Steady.ofFifo (by simp) (by simp) fun hw h => FifoInv_feed hx (Cfg_wf_fifo hw).1 h
  popSample s :=
    Steady.ofFifo (Framed.popSample s).cfg
      (by
        obtain ⟨_, e⟩ | ⟨_, _, _, e⟩ | ⟨_, _, _, e⟩ | ⟨_, _, _, _, e⟩ := popSample_cases s <;> rw [e] <;> rfl)
      fun hw h => FifoInv_popSample (Cfg_wf_fifo hw).2 h
  resetQueue s := Steady.ofFifo rfl rfl fun hw h => FifoInv_resetQueue (Cfg_wf_fifo hw).2 h
  clearOverrun _ := Steady.same rfl rfl rfl rfl
  setMode _ _ := Steady.same rfl rfl rfl rfl
  resetCollection _ := ⟨rfl, fun _ h => h, fun _ => rfl⟩
  putUser _ _ := Steady.same rfl rfl rfl rfl
  setCurrent s x hx := Steady.ofFifo rfl rfl fun _ h => ⟨h.1, h.2.1, hx⟩
  setQueue s q hq hx := Steady.ofFifo rfl rfl fun _ h => ⟨hq, hx, h.2.2⟩
  setOverrun _ _ := Steady.same rfl rfl rfl rfl
  setKeep _ _ := Steady.same rfl rfl rfl rfl
  setAttached _ _ := Steady.same rfl rfl rfl rfl
  config _ _ h := h.cfg
  violation _ _ := Steady.same rfl rfl rfl rfl
  around _ _ hc hf hq _ _ _ _ _ _ := Steady.same hc hf (by rw [hq]) (by rw [hq])
  aside _ _ hc hf hq _ := Steady.same hc hf (by rw [hq]) (by rw [hq])
  attachStream _ := Steady.same rfl rfl rfl rfl
  detachStream _ := Steady.same rfl rfl rfl rfl
  resetRegister s a := ⟨rfl, fun _ h => h, fun h => wf_resetRegister a h⟩
  deviceReset s := ⟨rfl, fun hw _ => FifoInv_deviceReset (Cfg_wf_fifo hw).2, fun _ => rfl⟩

/-- The overrun flag never goes from 0 to 1 without a signal (60_exceptions.md R283). -/
structure Signalled (s t : State) : Prop where
  cfg : t.cfg = s.cfg
  le : s.ovrSignals ≤ t.ovrSignals
  rise : s.fifo.ovr = false → t.fifo.ovr = true → s.ovrSignals < t.ovrSignals

theorem Signalled.same {s t : State} (hc : t.cfg = s.cfg) (hs : t.ovrSignals = s.ovrSignals) (ho : t.fifo.ovr = true → s.fifo.ovr = true) :
    Signalled s t :=
  ⟨hc, by omega, fun h1 h2 => by rw [ho h2] at h1; cases h1⟩

theorem Signalled.trans {s t u : State} (h : Signalled s t) (g : Signalled t u) : Signalled s u := by
  refine ⟨g.cfg.trans h.cfg, h.le.trans g.le, fun h1 h2 => ?_⟩
  cases ht : t.fifo.ovr
  · exact Nat.lt_of_le_of_lt h.le (g.rise ht h2)
  · exact Nat.lt_of_lt_of_le (h.rise h1 ht) g.le

theorem Signalled.feed (s : State) (x : Sample) : Signalled s (feed s x) := by
  obtain ⟨_, e⟩ | ⟨_, _, e⟩ | ⟨_, _, e⟩ | ⟨_, _, e⟩ := feed_cases s x <;> rw [e]
  · exact Signalled.same rfl rfl id
  · exact Signalled.same rfl rfl id
  · exact Signalled.same rfl rfl id
  · cases ho : s.fifo.ovr
    · exact ⟨rfl, by simp [evict, ho], fun _ _ => by simp [evict, ho]⟩
    · exact ⟨rfl, by simp [evict, ho], fun h => by rw [ho] at h; cases h⟩

theorem signalled_kept : OperationKept Signalled where
  refl _ := Signalled.same rfl rfl id
  trans _ _ _ := Signalled.trans
  setField s a f v := Signalled.same (by simp) (by simp) (by simp)
  say _ _ _ := Signalled.same rfl rfl id
  setAfterStream _ _ := Signalled.same rfl rfl id
  feed s x _ := Signalled.feed s x
  popSample s := by
    obtain ⟨_, e⟩ | ⟨_, _, _, e⟩ | ⟨_, _, _, e⟩ | ⟨_, _, _, _, e⟩ := popSample_cases s <;> rw [e] <;>
      exact Signalled.same rfl rfl id
  resetQueue _ := Signalled.same rfl rfl fun h => by cases h
  clearOverrun _ := Signalled.same rfl rfl fun h => by cases h
  setMode _ _ := Signalled.same rfl rfl id
  resetCollection _ := Signalled.same rfl rfl id
  putUser _ _ := Signalled.same rfl rfl id
  setCurrent _ _ _ := Signalled.same rfl rfl id
  setQueue _ _ _ _ := Signalled.same rfl rfl id
  setOverrun s b := by
    cases b
    · exact Signalled.same rfl rfl fun h => by cases h
    · cases ho : s.fifo.ovr
      · exact ⟨rfl, by simp [ho], fun _ _ => by simp [ho]⟩
      · exact Signalled.same rfl (by simp [ho]) fun _ => ho
  setKeep _ _ := Signalled.same rfl rfl id
  setAttached _ _ := Signalled.same rfl rfl id
  config _ _ h := h.cfg
  violation _ _ := Signalled.same rfl rfl id
  around _ _ hc _ hq hs _ _ _ _ _ := Signalled.same hc hs (by rw [hq]; exact id)
  aside _ _ hc _ hq hs := Signalled.same hc hs (by rw [hq]; exact id)
  attachStream _ := Signalled.same rfl rfl id
  detachStream _ := Signalled.same rfl rfl id
  resetRegister _ _ := Signalled.same rfl rfl id
  deviceReset _ := Signalled.same rfl rfl fun h => by cases h

/-- What the body of every operation leaves alone before it is abandoned: the configuration, the latch, the inputs and the
results of earlier operations. -/
structure Outline (s t : State) : Prop where
  cfg : t.cfg = s.cfg
  faulted : t.faulted = s.faulted
  env : t.env = s.env
  results : t.results = s.results

theorem Outline.ofFramed {s t : State} (h : Framed s t) : Outline s t := ⟨h.cfg, h.faulted, h.env, h.results⟩

theorem outline_kept : BodyKept Outline where
  refl _ := ⟨rfl, rfl, rfl, rfl⟩
  trans _ _ _ h g := ⟨g.cfg.trans h.cfg, g.faulted.trans h.faulted, g.env.trans h.env, g.results.trans h.results⟩
  setField s a f v := .ofFramed (framed_kept.setField s a f v)
  say s d h := .ofFramed (framed_kept.say s d h)
  setAfterStream s b := .ofFramed (framed_kept.setAfterStream s b)
  feed s x h := .ofFramed (framed_kept.feed s x h)
  popSample s := .ofFramed (framed_kept.popSample s)
  resetQueue s := .ofFramed (framed_kept.resetQueue s)
  clearOverrun s := .ofFramed (framed_kept.clearOverrun s)
  setMode s m := .ofFramed (framed_kept.setMode s m)
  resetCollection s := .ofFramed (framed_kept.resetCollection s)
  putUser s l := .ofFramed (framed_kept.putUser s l)
  setCurrent s x h := .ofFramed (framed_kept.setCurrent s x h)
  setQueue s q h g := .ofFramed (framed_kept.setQueue s q h g)
  setOverrun s b := .ofFramed (framed_kept.setOverrun s b)
  setKeep s b := .ofFramed (framed_kept.setKeep s b)
  setAttached s b := .ofFramed (framed_kept.setAttached s b)
  config _ _ h := h.cfg
  around _ _ hc _ _ _ _ hf he hr _ := ⟨hc, hf, he, hr⟩
  attachStream _ := ⟨rfl, rfl, rfl, rfl⟩
  detachStream _ := ⟨rfl, rfl, rfl, rfl⟩
  resetRegister _ _ := ⟨rfl, rfl, rfl, rfl⟩
  deviceReset _ := ⟨rfl, rfl, rfl, rfl⟩

/-- The configuration stays and the diagnostics only grow, by records none of which is an invariant violation: what the body
of every operation does before it is abandoned (10_state.md R51, 60_exceptions.md R276). -/
structure Logged (s t : State) : Prop where
  cfg : t.cfg = s.cfg
  grow : ∃ ds, t.diag = s.diag ++ ds ∧ ∀ what, Diag.fInvariant what ∉ ds

theorem Logged.same {s t : State} (hc : t.cfg = s.cfg) (hd : t.diag = s.diag) : Logged s t :=
  ⟨hc, [], by simp [hd], by simp⟩

theorem Logged.trans {s t u : State} (h : Logged s t) (g : Logged t u) : Logged s u := by
  obtain ⟨hc, ds, e, hds⟩ := h
  obtain ⟨gc, es, e', hes⟩ := g
  exact ⟨gc.trans hc, ds ++ es, by simp [e', e], fun what hm => (List.mem_append.1 hm).elim (hds what) (hes what)⟩

theorem Logged.say (s : State) (d : Diag) (h : ∀ what, d ≠ .fInvariant what) : Logged s (say s d) :=
  ⟨rfl, [d], rfl, fun what hm => h what (List.mem_singleton.1 hm).symm⟩

theorem logged_kept : BodyKept Logged where
  refl _ := Logged.same rfl rfl
  trans _ _ _ := Logged.trans
  setField s a f v := Logged.same (by simp) (by simp)
  say := Logged.say
  setAfterStream _ _ := Logged.same rfl rfl
  feed s x _ := Logged.same (by simp) (by simp)
  popSample s := by
    obtain ⟨_, e⟩ | ⟨_, _, _, e⟩ | ⟨_, _, _, e⟩ | ⟨_, _, _, _, e⟩ := popSample_cases s <;> rw [e]
    · exact Logged.same rfl rfl
    · exact Logged.say s _ nofun
    · exact ⟨rfl, [.wFifoEmpty], rfl, by simp⟩
    · exact Logged.same rfl rfl
  resetQueue _ := Logged.same rfl rfl
  clearOverrun _ := Logged.same rfl rfl
  setMode _ _ := Logged.same rfl rfl
  resetCollection _ := Logged.same rfl rfl
  putUser _ _ := Logged.same rfl rfl
  setCurrent _ _ _ := Logged.same rfl rfl
  setQueue _ _ _ _ := Logged.same rfl rfl
  setOverrun _ _ := Logged.same rfl rfl
  setKeep _ _ := Logged.same rfl rfl
  setAttached _ _ := Logged.same rfl rfl
  config _ _ h := h.cfg
  around _ _ hc _ _ _ _ _ _ _ hd := Logged.same hc hd
  attachStream _ := Logged.same rfl rfl
  detachStream _ := Logged.same rfl rfl
  resetRegister _ _ := Logged.same rfl rfl
  deviceReset _ := Logged.same rfl rfl

/-- Every register counts when every call does. -/
theorem goodMap_any (c : Cfg) : ∀ r ∈ c.map, GoodRegister anyCall r := fun r _ => goodRegister_any r

end Sys2Proof.Machine
end

