-- ==== Sys2Proof/Laws/Surround.lean ====
section
/-! SUPPORT. The register engine and its hooks do not look at the transaction state, the interrupt level, the outputs or the
inputs other than the timestamp in force: run in other surroundings they do the same (10_state.md R51, R54;
42_collection_ops.md R179). -/

namespace Sys2Proof.Machine

/-- The components the engine does not look at; diagnostics are put before those of the state. -/
structure Surroundings where
  tx : Tx
  irq : Bool
  diag : List Diag
  busOut : List Byte
  results : List Result
  env : Env

/-- A state in other surroundings; the timestamp in force stays. -/
def swap (g : Surroundings) (s : State) : State :=
  { s with tx := g.tx, irq := g.irq, diag := g.diag ++ s.diag, busOut := g.busOut, results := g.results,
           env := { g.env with now := s.env.now } }

/-- The states of an outcome changed. -/
def Ran.onState {α : Type} (h : State → State) : Ran α → Ran α
  | .done a s => .done a (h s)
  | .abandoned s => .abandoned (h s)
  | .refused r => .refused r

section

variable (g : Surroundings) (s : State)

@[simp] theorem swap_cfg : (swap g s).cfg = s.cfg := rfl
@[simp] theorem swap_fv : (swap g s).fv = s.fv := rfl
@[simp] theorem swap_tx : (swap g s).tx = g.tx := rfl
@[simp] theorem swap_fifo : (swap g s).fifo = s.fifo := rfl
@[simp] theorem swap_user : (swap g s).user = s.user := rfl
@[simp] theorem swap_faulted : (swap g s).faulted = s.faulted := rfl
@[simp] theorem swap_ovrSignals : (swap g s).ovrSignals = s.ovrSignals := rfl
@[simp] theorem swap_diag : (swap g s).diag = g.diag ++ s.diag := rfl
@[simp] theorem swap_now : (swap g s).env.now = s.env.now := rfl
@[simp] theorem swap_view : (swap g s).view = s.view := rfl

theorem swap_getField (a f : Nat) : getField (swap g s) a f = getField s a f := rfl

theorem swap_say (d : Diag) : say (swap g s) d = swap g (say s d) := by
  simp [say, swap]

theorem swap_setField (a f : Nat) (v : Half) : setField (swap g s) a f v = swap g (setField s a f v) := by
  unfold setField
  rw [swap_cfg]
  split <;> rfl

theorem swap_feed (x : Sample) : feed (swap g s) x = swap g (feed s x) := by
  unfold feed
  rw [swap_fifo, swap_cfg]
  split
  · rfl
  · split <;> rfl
  · split <;> rfl

theorem swap_setAfterStream (b : Bool) : setAfterStream (swap g s) b = swap g (setAfterStream s b) := rfl

theorem swap_streamTick (t : Time) : streamTick (swap g s) t = swap g (streamTick s t) := by
  unfold streamTick
  rw [swap_fifo, swap_cfg]
  split
  · split
    · rw [swap_setAfterStream, swap_feed]
    · rfl
    · rfl
  · rfl

theorem swap_pullStream : pullStream (swap g s) = swap g (pullStream s) := by
  unfold pullStream
  rw [swap_cfg, swap_now]
  split
  · rfl
  · exact swap_streamTick g s _

theorem swap_popSample : popSample (swap g s) = ((popSample s).1, swap g (popSample s).2) := by
  unfold popSample
  rw [swap_fifo, swap_cfg]
  split
  · rfl
  · split
    · simp [swap_say]
    · simp [← swap_say]; rfl
  · rfl

theorem swap_dequeue : dequeue (swap g s) = ((dequeue s).1, swap g (dequeue s).2) := by
  unfold dequeue
  rw [swap_pullStream, swap_popSample]

theorem swap_softReset : softReset (swap g s) = swap g (softReset s) := rfl

theorem swap_missRead (a : Nat) : missRead (swap g s) a = swap g (missRead s a) := by
  unfold missRead
  rw [swap_cfg]
  split
  · rfl
  · exact swap_say g s _

theorem swap_missWrite (a : Nat) (b : Byte) : missWrite (swap g s) a b = swap g (missWrite s a b) := by
  unfold missWrite
  rw [swap_cfg]
  split
  · rfl
  · exact swap_say g s _

theorem swap_sayTagged (r : RegisterDef) (k : Nat) (b : Byte) :
    sayTagged r k b (swap g s) = swap g (sayTagged r k b s) := by
  unfold sayTagged
  split
  · exact swap_say g s _
  · rfl

end

theorem onState_andThen {α β : Type} (h : State → State) (x : Ran α) (f f' : α → State → Ran β)
    (hf : ∀ a t, f' a (h t) = (f a t).onState h) : (x.onState h).andThen f' = (x.andThen f).onState h := by
  cases x with
  | done a t => exact hf a t
  | abandoned t => rfl
  | refused r => rfl

/-- A runner that does not look at the surroundings. -/
def Blind (run : Runner) : Prop := ∀ g call s, run call (swap g s) = (run call s).onState (swap g)

section Engine

variable {run : Runner} (hrun : Blind run) (g : Surroundings)

include hrun

theorem swap_fldRead (a f : Nat) (d : FieldDef) (s : State) :
    fldRead run a f d (swap g s) = (fldRead run a f d s).onState (swap g) := by
  unfold fldRead
  split
  · rfl
  · split
    · rw [swap_getField, hrun]; exact onState_andThen _ _ _ _ fun _ _ => rfl
    · rw [swap_setField]; rfl
  · split
    · rw [swap_getField, hrun]; exact onState_andThen _ _ _ _ fun _ _ => rfl
    · rfl

theorem swap_callField (h : Option FieldHook) (old new : Half) (s : State) :
    callField run h old new (swap g s) = (callField run h old new s).onState (swap g) := by
  unfold callField
  split
  · rfl
  · rw [hrun]; exact onState_andThen _ _ _ _ fun _ _ => rfl

theorem swap_storeField (a f : Nat) (d : FieldDef) (old new : Half) (s : State) :
    storeField run a f d old new (swap g s) = (storeField run a f d old new s).onState (swap g) := by
  unfold storeField
  rw [swap_setField, swap_callField hrun]
  refine onState_andThen _ _ _ _ fun _ t => ?_
  split
  · rfl
  · exact swap_callField hrun g _ _ _ t

theorem swap_fldWrite (a f : Nat) (d : FieldDef) (v : Half) (s : State) :
    fldWrite run a f d v (swap g s) = (fldWrite run a f d v s).onState (swap g) := by
  unfold fldWrite
  rw [swap_getField]
  split
  · rw [swap_say]; rfl
  · exact swap_storeField hrun g a f d _ _ s
  · split
    · rw [swap_say]; rfl
    · exact swap_storeField hrun g a f d _ _ s

theorem swap_writeFields (a k : Nat) (b : Byte) (i : Nat) (ds : List FieldDef) (s : State) :
    writeFields run a k b i ds (swap g s) = (writeFields run a k b i ds s).onState (swap g) := by
  induction ds generalizing i s with
  | nil => rfl
  | cons d rest ih =>
    unfold writeFields
    split
    · exact ih _ s
    · rw [swap_getField, swap_fldWrite hrun]
      exact onState_andThen _ _ _ _ fun _ t => ih _ t

theorem swap_regWriteB (r : RegisterDef) (k : Nat) (b : Byte) (s : State) :
    regWriteB run r k b (swap g s) = (regWriteB run r k b s).onState (swap g) := by
  unfold regWriteB
  rw [swap_sayTagged, swap_writeFields hrun]
  refine onState_andThen _ _ _ _ fun _ t => ?_
  unfold callRegister
  split
  · rfl
  · rw [hrun]; exact onState_andThen _ _ _ _ fun _ _ => rfl

theorem swap_readFields (a k i : Nat) (ds : List FieldDef) (acc : Byte) (s : State) :
    readFields run a k i ds acc (swap g s) = (readFields run a k i ds acc s).onState (swap g) := by
  induction ds generalizing i acc s with
  | nil => rfl
  | cons d rest ih =>
    unfold readFields
    split
    · exact ih _ _ s
    · rw [swap_fldRead hrun]
      exact onState_andThen _ _ _ _ fun _ t => ih _ _ t

theorem swap_regReadB (r : RegisterDef) (k : Nat) (s : State) :
    regReadB run r k (swap g s) = (regReadB run r k s).onState (swap g) := swap_readFields hrun g _ _ _ _ _ s

theorem swap_collRead (addr : Nat) (s : State) :
    collRead run addr (swap g s) = (collRead run addr s).onState (swap g) := by
  unfold collRead
  rw [swap_cfg]
  split
  · rw [swap_missRead]; rfl
  · exact swap_regReadB hrun g _ _ s

theorem swap_collWrite (addr : Nat) (b : Byte) (s : State) :
    collWrite run addr b (swap g s) = (collWrite run addr b s).onState (swap g) := by
  unfold collWrite
  rw [swap_cfg]
  split
  · rw [swap_missWrite]; rfl
  · exact swap_regWriteB hrun g _ _ _ s

theorem swap_collTryRead (addr : Nat) (s : State) :
    collTryRead run addr (swap g s) = (collTryRead run addr s).onState (swap g) := by
  unfold collTryRead
  rw [swap_cfg]
  split
  · rfl
  · rw [swap_regReadB hrun]; exact onState_andThen _ _ _ _ fun _ _ => rfl

theorem swap_collTryWrite (addr : Nat) (b : Byte) (s : State) :
    collTryWrite run addr b (swap g s) = (collTryWrite run addr b s).onState (swap g) := by
  unfold collTryWrite
  rw [swap_cfg]
  split
  · rfl
  · rw [swap_regWriteB hrun]; exact onState_andThen _ _ _ _ fun _ _ => rfl

theorem swap_collReadOff (base o : Nat) (e : Endian) (s : State) :
    collReadOff run base o e (swap g s) = (collReadOff run base o e s).onState (swap g) := by
  unfold collReadOff
  rw [swap_cfg]
  split
  · rw [swap_missRead]; rfl
  · exact swap_regReadB hrun g _ _ s

theorem swap_collWriteOff (base o : Nat) (b : Byte) (e : Endian) (s : State) :
    collWriteOff run base o b e (swap g s) = (collWriteOff run base o b e s).onState (swap g) := by
  unfold collWriteOff
  rw [swap_cfg]
  split
  · rw [swap_missWrite]; rfl
  · exact swap_regWriteB hrun g _ _ _ s

end Engine

/-! ### Hooks -/

theorem swap_eval (g : Surroundings) (w : HookFrame) (s : State) (e : HookExpr) :
    w.eval (swap g s) e = w.eval s e := rfl

theorem swap_runAct {run : Runner} (hrun : Blind run) (g : Surroundings) (w : HookFrame) (act : HookAct)
    (s : State) : runAct run w act (swap g s) = (runAct run w act s).onState (swap g) := by
  have hmap : ∀ {α : Type} (z : Ran α) (k : α → HookFrame),
      ((z.onState (swap g)).andThen fun a t => Ran.done (k a) t) =
        (z.andThen fun a t => Ran.done (k a) t).onState (swap g) :=
    fun z k => onState_andThen _ _ _ _ fun _ _ => rfl
  cases act with
  | setField a f v =>
    simp only [runAct, swap_cfg, swap_eval]
    split
    · rfl
    · rw [swap_setField]; rfl
  | setCurrent lanes => unfold runAct; dsimp only; rw [swap_cfg]; split <;> rfl
  | setQueue samples =>
    unfold runAct
    dsimp only
    split
    · rename_i h; rw [if_pos (by exact h)]; rfl
    · rename_i h; rw [if_neg (by exact h)]; rfl
  | feed lanes =>
    simp only [runAct, swap_cfg, swap_feed]
    split <;> rfl
  | deq => simp only [runAct, swap_dequeue]; rfl
  | streamTick t => simp only [runAct, swap_eval, swap_streamTick]; rfl
  | fldRead a f =>
    simp only [runAct, swap_cfg]
    split
    · rfl
    · rw [swap_fldRead hrun]; exact hmap _ _
  | fldWrite a f v =>
    simp only [runAct, swap_cfg, swap_eval]
    split
    · rfl
    · rw [swap_fldWrite hrun]; exact hmap _ _
  | collRead addr => simp only [runAct]; rw [swap_collRead hrun]; exact hmap _ _
  | collWrite addr v => simp only [runAct, swap_eval]; rw [swap_collWrite hrun]; exact hmap _ _
  | collTryRead addr => simp only [runAct]; rw [swap_collTryRead hrun]; exact hmap _ _
  | collTryWrite addr v => simp only [runAct, swap_eval]; rw [swap_collTryWrite hrun]; exact hmap _ _
  | collReadOff base o e => simp only [runAct]; rw [swap_collReadOff hrun]; exact hmap _ _
  | collWriteOff base o v e =>
    simp only [runAct, swap_eval]; rw [swap_collWriteOff hrun]; exact hmap _ _
  | violation what => simp only [runAct, takeViolation, swap_say]; rfl
  | _ => rfl

theorem swap_runSteps {run : Runner} (hrun : Blind run) (g : Surroundings) (steps : List HookStep) (w : HookFrame)
    (s : State) : runSteps run steps w (swap g s) = (runSteps run steps w s).onState (swap g) := by
  induction steps generalizing w s with
  | nil => rfl
  | cons h rest ih =>
    unfold runSteps
    rw [swap_eval]
    split
    · exact ih w s
    · rw [swap_runAct hrun]; exact onState_andThen _ _ _ _ fun w' t => ih w' t

theorem swap_sampleByte (g : Surroundings) (s : State) (lane k : Nat) :
    sampleByte (swap g s) lane k = sampleByte s lane k := rfl

theorem swap_runHook {run : Runner} (hrun : Blind run) : Blind (runHook run) := by
  intro g call s
  have hseq : ∀ (steps w) (k : HookFrame → State → Half), (∀ w' t, k w' (swap g t) = k w' t) →
      ((runSteps run steps w (swap g s)).andThen fun w' t => Ran.done (k w' t) t) =
        ((runSteps run steps w s).andThen fun w' t => Ran.done (k w' t) t).onState (swap g) := by
    intro steps w k hk
    rw [swap_runSteps hrun]
    exact onState_andThen _ _ _ _ fun w' t => by rw [hk]; rfl
  cases call with
  | provide p stored =>
    cases p with
    | pvSample lane k deq =>
      cases deq
      · rfl
      · simp only [runHook, runProvider, if_true, swap_dequeue]; rfl
    | pvFifoCount => rfl
    | pvOvr clear => cases clear <;> rfl
    | program steps ret => exact hseq _ _ (fun w t => BitVec.ofInt 16 (w.eval t ret)) fun _ _ => rfl
    | custom id => exact hseq _ _ (fun w t => Config.customValue id stored w.entry t.view) fun _ _ => rfl
    | customPure id => rfl
  | onField h old new =>
    cases h with
    | whSoftReset =>
      simp only [runHook, runFieldHook]
      by_cases hn : new = 1 <;> simp only [hn, if_true, if_false] <;> rfl
    | whFifoMode table rest => rfl
    | program steps => exact hseq _ _ (fun _ _ => 0) fun _ _ => rfl
    | custom id => exact hseq _ _ (fun _ _ => 0) fun _ _ => rfl
  | onRegister h k b =>
    cases h with
    | whClrOvr k0 i =>
      simp only [runHook, runRegHook]
      by_cases hn : k = k0 ∧ b.getLsbD i = true <;> simp only [hn, if_false] <;> rfl
    | program steps => exact hseq _ _ (fun _ _ => 0) fun _ _ => rfl
    | custom id => exact hseq _ _ (fun _ _ => 0) fun _ _ => rfl

/-- No hook, nested to any depth, looks at the surroundings. -/
theorem blind_hookRun (depth : Nat) : Blind (hookRun depth) := by
  induction depth with
  | zero => exact fun _ _ _ => rfl
  | succ n ih => exact swap_runHook ih

theorem blind_hooks : Blind hooks := by
  intro g call s
  obtain ⟨n, hn⟩ := (hooks_cases call (swap g s)).1
  obtain ⟨k, hk⟩ := (hooks_cases call s).1
  rw [← hn (max n k) (by omega), ← hk (max n k) (by omega)]
  exact blind_hookRun _ g call s

end Sys2Proof.Machine
end

