-- ==== Sys2Proof/Laws/Transaction.lean ====
section
/-! SUPPORT. The bus transaction: what a data byte, the address phase and each primitive can do, said once; and how an
operation run as a step ends. -/

namespace Sys2Proof.Machine

/-! ### The interrupt level -/

/-- The interrupt condition depends on the configuration, the stored fields, the FIFO and `USER` alone (60_exceptions.md
R281). -/
theorem irqHolds_congr {s t : State} (hc : t.cfg = s.cfg) (hf : t.fv = s.fv) (hq : t.fifo = s.fifo)
    (hu : t.user = s.user) (c : IrqCond) : irqHolds t c = irqHolds s c := by
  induction c with
  | field a f => simp only [irqHolds, getField_congr hc hf]
  | inv c ih => simp only [irqHolds, ih]
  | both c d ihc ihd => simp only [irqHolds, ihc, ihd]
  | either c d ihc ihd => simp only [irqHolds, ihc, ihd]
  | custom id => simp only [irqHolds, hf, hq, hu]
  | _ => simp only [irqHolds, queuedAtLeast, hq]

/-- A settled state holds the level of its condition (60_exceptions.md R281). -/
theorem IrqInv_settle (s : State) : IrqInv (settleIrq s) :=
  (irqHolds_congr (s := s) (t := settleIrq s) rfl rfl rfl rfl s.cfg.irqCond).symm

/-- Settling again changes nothing. -/
theorem settle_of_IrqInv {s : State} (h : IrqInv s) : settleIrq s = s := by
  simp only [settleIrq, ← (show s.irq = irqHolds s s.cfg.irqCond from h)]

theorem IrqInv_congr {s t : State} (hc : t.cfg = s.cfg) (hf : t.fv = s.fv) (hq : t.fifo = s.fifo)
    (hu : t.user = s.user) (hi : t.irq = s.irq) : IrqInv t ↔ IrqInv s := by
  simp only [IrqInv, hi, hc, irqHolds_congr hc hf hq hu]

/-! ### An operation as a step -/

theorem operate_faulted {s : State} (h : s.faulted = true) (body : State → Ran Result) :
    operate s body = .fault .invariantLatched := by simp [operate, h]

theorem operate_done {s t : State} {body : State → Ran Result} {r : Result} (h : s.faulted = false)
    (hb : body s = .done r t) : operate s body = .next (settleIrq (respond t r)) := by
  simp [operate, h, hb, conclude]

theorem operate_abandoned {s t : State} {body : State → Ran Result} (h : s.faulted = false)
    (hb : body s = .abandoned t) : operate s body = .next t := by
  simp [operate, h, hb, conclude]

theorem operate_refused {s : State} {body : State → Ran Result} {r : Refusal} (h : s.faulted = false)
    (hb : body s = .refused r) : operate s body = .refused r := by
  simp [operate, h, hb, conclude]

/-- Everything an operation that answers a next state has done. -/
theorem operate_next {s t : State} {body : State → Ran Result} (h : operate s body = .next t) :
    s.faulted = false ∧
      ((∃ r u, body s = .done r u ∧ t = settleIrq (respond u r)) ∨ body s = .abandoned t) := by
  unfold operate at h
  split at h
  · cases h
  · refine ⟨by simpa using ‹¬s.faulted = true›, ?_⟩
    cases hb : body s with
    | done r u => rw [hb] at h; cases h; exact .inl ⟨r, u, rfl, rfl⟩
    | abandoned u => rw [hb] at h; cases h; exact .inr rfl
    | refused r => rw [hb] at h; cases h

theorem operatePlain_eq {s : State} (h : s.faulted = false) (f : State → State) :
    operatePlain s f = .next (settleIrq (f s)) :=
  operate_done (body := fun t => .done .none (f t)) (r := .none) (t := f s) h rfl

theorem operatePlain_next {s t : State} {f : State → State} (h : operatePlain s f = .next t) :
    s.faulted = false ∧ t = settleIrq (f s) := by
  obtain ⟨hf, ⟨r, u, hb, rfl⟩ | hb⟩ := operate_next h
  · cases hb; exact ⟨hf, rfl⟩
  · cases hb

theorem operateNothing_eq {s : State} (h : s.faulted = false) : operateNothing s = .next s := by
  simp [operateNothing, h]

theorem operateNothing_next {s t : State} (h : operateNothing s = .next t) : s.faulted = false ∧ t = s := by
  unfold operateNothing at h
  split at h
  · cases h
  · cases h; exact ⟨by simpa using ‹¬s.faulted = true›, rfl⟩

/-- An operation of which the body respects a relation takes a step that does. -/
theorem operate_meets {P : State → Prop} {s t : State} {body : State → Ran Result} {stop : Prop}
    (hb : (body s).Meets stop P) (h : operate s body = .next t) :
    (∃ r u, P u ∧ body s = .done r u ∧ t = settleIrq (respond u r)) ∨
      (stop ∧ ∃ u what, P u ∧ t = violated u what) := by
  obtain ⟨_, ⟨r, u, e, rfl⟩ | e⟩ := operate_next h
  · rw [e] at hb; exact .inl ⟨r, u, hb, e, rfl⟩
  · rw [e] at hb
    exact .inr hb

/-! ### The address phase -/

theorem addressByte_or (s : State) (b : Byte) :
    (s.tx.addrCnt + 1 < s.cfg.format.bytes.count ∧
      addressByte s b =
        { s with tx := { s.tx with addrAcc := b, addrCnt := s.tx.addrCnt + 1, tstate := .addressPartial } }) ∨
    (s.cfg.format.bytes.count ≤ s.tx.addrCnt + 1 ∧ s.cfg.format.bytes = .one ∧ addressByte s b = addrSet s b b) ∨
    (s.cfg.format.bytes.count ≤ s.tx.addrCnt + 1 ∧ s.cfg.format.bytes = .two ∧
      addressByte s b = addrSet s s.tx.addrAcc b) := by
  unfold addressByte
  split
  · exact .inl ⟨‹_›, rfl⟩
  · split
    · exact .inr (.inl ⟨by omega, ‹_›, rfl⟩)
    · exact .inr (.inr ⟨by omega, ‹_›, rfl⟩)

/-- The address phase touches the transaction state alone. -/
theorem addressPhase_frame (s : State) (bytes : List Byte) :
    (addressPhase s bytes).2 = { s with tx := (addressPhase s bytes).2.tx } := by
  induction bytes generalizing s with
  | nil => rfl
  | cons b rest ih =>
    unfold addressPhase
    split
    · have h := ih (addressByte s b)
      have h2 : addressByte s b = { s with tx := (addressByte s b).tx } := by
        obtain ⟨_, e⟩ | ⟨_, _, e⟩ | ⟨_, _, e⟩ := addressByte_or s b <;> rw [e] <;> rfl
      rw [h, h2]
    · rfl

theorem addressPhase_closed {s : State} (h : awaitsAddress s = false) (bytes : List Byte) :
    addressPhase s bytes = (bytes, s) := by
  cases bytes with
  | nil => rfl
  | cons b rest => simp [addressPhase, h]

/-- When bytes are left over the address phase is complete. -/
theorem addressPhase_left {s : State} {bytes : List Byte} (h : (addressPhase s bytes).1 ≠ []) :
    awaitsAddress (addressPhase s bytes).2 = false := by
  induction bytes generalizing s with
  | nil => exact absurd rfl h
  | cons b rest ih =>
    cases ha : awaitsAddress s
    · simp [addressPhase, ha]
    · simp only [addressPhase, ha, if_true] at h ⊢; exact ih h

theorem addressPhase_append (s : State) (xs ys : List Byte) :
    addressPhase s (xs ++ ys) =
      if (addressPhase s xs).1 = [] then addressPhase (addressPhase s xs).2 ys
      else ((addressPhase s xs).1 ++ ys, (addressPhase s xs).2) := by
  induction xs generalizing s with
  | nil => simp [addressPhase]
  | cons b rest ih =>
    cases ha : awaitsAddress s
    · simp [addressPhase, ha]
    · simp only [List.cons_append, addressPhase, ha, if_true]; exact ih _

/-! ### A data byte -/

theorem writeTarget_cases (s : State) (b : Byte) :
    (s.cfg.wideAccess = .offset ∧
      writeTarget s b = collWriteOff hooks s.tx.curAddr.toNat s.tx.bytePhase b (endianOf s.cfg) s) ∨
    (s.cfg.wideAccess = .subRegisters ∧ writeTarget s b = collWrite hooks s.tx.curAddr.toNat b s) := by
  unfold writeTarget
  split
  · exact .inl ⟨‹_›, rfl⟩
  · exact .inr ⟨‹_›, rfl⟩

theorem readTarget_cases (s : State) :
    (s.cfg.wideAccess = .offset ∧
      readTarget s = collReadOff hooks s.tx.curAddr.toNat s.tx.bytePhase (endianOf s.cfg) s) ∨
    (s.cfg.wideAccess = .subRegisters ∧ readTarget s = collRead hooks s.tx.curAddr.toNat s) := by
  unfold readTarget
  split
  · exact .inl ⟨‹_›, rfl⟩
  · exact .inr ⟨‹_›, rfl⟩

/-- The state after a data byte whose register access left `u` (43_bus_transactions.md R198, R203). -/
def moved (u : State) (t : TState) : State := settleIrq (setTState (advance u) t)

@[simp] theorem moved_cfg (u : State) (t : TState) : (moved u t).cfg = u.cfg := by simp [moved]
@[simp] theorem moved_fv (u : State) (t : TState) : (moved u t).fv = u.fv := by simp [moved]
@[simp] theorem moved_fifo (u : State) (t : TState) : (moved u t).fifo = u.fifo := by simp [moved]
@[simp] theorem moved_user (u : State) (t : TState) : (moved u t).user = u.user := by simp [moved]
@[simp] theorem moved_faulted (u : State) (t : TState) : (moved u t).faulted = u.faulted := by simp [moved]
@[simp] theorem moved_ovrSignals (u : State) (t : TState) : (moved u t).ovrSignals = u.ovrSignals := by simp [moved]
@[simp] theorem moved_diag (u : State) (t : TState) : (moved u t).diag = u.diag := by simp [moved]
@[simp] theorem moved_busOut (u : State) (t : TState) : (moved u t).busOut = u.busOut := by simp [moved]
@[simp] theorem moved_results (u : State) (t : TState) : (moved u t).results = u.results := by simp [moved]
@[simp] theorem moved_env (u : State) (t : TState) : (moved u t).env = u.env := by simp [moved]
@[simp] theorem moved_tx (u : State) (t : TState) : (moved u t).tx = { (advance u).tx with tstate := t } := rfl

theorem IrqInv_moved (u : State) (t : TState) : IrqInv (moved u t) := IrqInv_settle _

theorem andThen_done {α β : Type} {x : Ran α} {f : α → State → Ran β} {b : β} {t : State}
    (h : x.andThen f = .done b t) : ∃ a u, x = .done a u ∧ f a u = .done b t := by
  cases x with
  | done a u => exact ⟨a, u, rfl, h⟩
  | abandoned u => cases h
  | refused r => cases h

theorem andThen_abandoned {α β : Type} {x : Ran α} {f : α → State → Ran β} {t : State}
    (h : x.andThen f = .abandoned t) : x = .abandoned t ∨ ∃ a u, x = .done a u ∧ f a u = .abandoned t := by
  cases x with
  | done a u => exact .inr ⟨a, u, rfl, h⟩
  | abandoned u => cases h; exact .inl rfl
  | refused r => cases h

theorem andThen_assoc {α β γ : Type} (x : Ran α) (f : α → State → Ran β) (g : β → State → Ran γ) :
    (x.andThen f).andThen g = x.andThen fun a t => (f a t).andThen g := by
  cases x <;> rfl

/-- Everything a data byte written can do when it is done (43_bus_transactions.md R198). -/
theorem dataWriteByte_done {b : Byte} {s t : State} (h : dataWriteByte b s = .done () t) :
    ∃ u, writeTarget s b = .done () u ∧ t = moved u .writing := by
  obtain ⟨_, u, hu, e⟩ := andThen_done h
  cases e
  exact ⟨u, hu, rfl⟩

/-- Everything a data byte read can do when it is done (43_bus_transactions.md R203). -/
theorem dataReadByte_done {s t : State} (h : dataReadByte s = .done () t) :
    ∃ v u, readTarget s = .done v u ∧ t = reply (moved u .reading) [v] := by
  obtain ⟨v, u, hu, e⟩ := andThen_done h
  cases e
  exact ⟨v, u, hu, rfl⟩

theorem writeBytes_append (xs ys : List Byte) (s : State) :
    writeBytes (xs ++ ys) s = (writeBytes xs s).andThen fun _ t => writeBytes ys t := by
  induction xs generalizing s with
  | nil => rfl
  | cons b rest ih =>
    simp only [List.cons_append, writeBytes, andThen_assoc]
    congr 1; funext _ t; exact ih t

theorem readBytes_add (m n : Nat) (s : State) :
    readBytes (m + n) s = (readBytes m s).andThen fun _ t => readBytes n t := by
  induction m generalizing s with
  | zero => simp [readBytes, Ran.andThen]
  | succ m ih =>
    rw [Nat.succ_add]
    simp only [readBytes, andThen_assoc]
    congr 1; funext _ t; exact ih t

/-! ### The primitives respect what the engine respects -/

/-- A relation that a data byte respects: what the engine respects, and any change of the transaction state, the interrupt
level and the response bytes. -/
structure BusKept (R : State → State → Prop) : Prop extends EngineKept R where
  config : ∀ s t, R s t → t.cfg = s.cfg
  around : ∀ s t, t.cfg = s.cfg → t.fv = s.fv → t.fifo = s.fifo → t.ovrSignals = s.ovrSignals → t.user = s.user →
    t.faulted = s.faulted → t.env = s.env → t.results = s.results → t.diag = s.diag → R s t

theorem BodyKept.toBusKept {R : State → State → Prop} (h : BodyKept R) : BusKept R :=
  { h.toEngineKept with config := h.config, around := h.around }

theorem sober_bus : BusKept Sober :=
  { sober_kept.toEngineKept with
    config := fun _ _ h => h.cfg
    around := fun _ _ hc _ hq _ hu hf _ _ _ => ⟨hc, hf, by rw [hq], by rw [hq], hu⟩ }

section Primitives

variable {stop : Prop} {good : HookCall → Prop} {R : State → State → Prop} {c : Cfg} (hR : BusKept R)
  (hrun : RunnerMeets stop good R hooks) (hg : ∀ r ∈ c.map, GoodRegister good r)

include hR hrun hg

omit hR hrun hg in
theorem readMisuse_plain (s : State) (n : Nat) (what : Text) : readMisuse s n ≠ .fInvariant what := by
  unfold readMisuse
  split <;> nofun

theorem writeTarget_meets (b : Byte) {s : State} (hs : s.cfg = c) : (writeTarget s b).Meets stop (R s) := by
  have hg' : ∀ r ∈ s.cfg.map, GoodRegister good r := hs ▸ hg
  obtain ⟨_, e⟩ | ⟨_, e⟩ := writeTarget_cases s b <;> rw [e]
  · exact collWriteOff_meets hR.toEngineKept hrun _ _ _ _ s hg'
  · exact collWrite_meets hR.toEngineKept hrun _ _ s hg'

theorem readTarget_meets {s : State} (hs : s.cfg = c) : (readTarget s).Meets stop (R s) := by
  have hg' : ∀ r ∈ s.cfg.map, GoodRegister good r := hs ▸ hg
  obtain ⟨_, e⟩ | ⟨_, e⟩ := readTarget_cases s <;> rw [e]
  · exact collReadOff_meets hR.toEngineKept hrun _ _ _ s hg'
  · exact collRead_meets hR.toEngineKept hrun _ s hg'

theorem dataWriteByte_meets (b : Byte) {s : State} (hs : s.cfg = c) : (dataWriteByte b s).Meets stop (R s) :=
  Ran.Meets_andThen hR.trans (writeTarget_meets hR hrun hg b hs) fun _ u _ =>
    hR.around u (moved u .writing) (by simp) (by simp) (by simp) (by simp) (by simp) (by simp) (by simp) (by simp)
      (by simp)

theorem dataReadByte_meets {s : State} (hs : s.cfg = c) : (dataReadByte s).Meets stop (R s) :=
  Ran.Meets_andThen hR.trans (readTarget_meets hR hrun hg hs) fun v u _ =>
    hR.around u (reply (moved u .reading) [v]) (by simp) (by simp) (by simp) (by simp) (by simp) (by simp) (by simp) (by simp)
      (by simp)

theorem writeBytes_meets (bytes : List Byte) {s : State} (hs : s.cfg = c) : (writeBytes bytes s).Meets stop (R s) := by
  induction bytes generalizing s with
  | nil => exact hR.refl s
  | cons b rest ih =>
    exact Ran.Meets_andThen hR.trans (dataWriteByte_meets hR hrun hg b hs) fun _ t ht =>
      ih ((hR.config s t ht).trans hs)

theorem readBytes_meets (n : Nat) {s : State} (hs : s.cfg = c) : (readBytes n s).Meets stop (R s) := by
  induction n generalizing s with
  | zero => exact hR.refl s
  | succ n ih =>
    exact Ran.Meets_andThen hR.trans (dataReadByte_meets hR hrun hg hs) fun _ t ht =>
      ih ((hR.config s t ht).trans hs)

theorem writeRest_meets (rest : List Byte) {s : State} (hs : s.cfg = c) : (writeRest rest s).Meets stop (R s) := by
  unfold writeRest
  split
  · exact hR.refl s
  · split
    · exact hR.say s _ nofun
    · exact writeBytes_meets hR hrun hg _ hs
    · exact writeBytes_meets hR hrun hg _ hs
    · exact hR.refl s
    · exact hR.refl s

theorem busWrite_meets (bytes : List Byte) {s : State} (hs : s.cfg = c) : (busWrite bytes s).Meets stop (R s) := by
  have hf := addressPhase_frame s bytes
  have h1 : R s (addressPhase s bytes).2 :=
    hR.around s _ (by rw [hf]) (by rw [hf]) (by rw [hf]) (by rw [hf]) (by rw [hf]) (by rw [hf])
      (by rw [hf]) (by rw [hf]) (by rw [hf])
  exact Ran.Meets_mono (writeRest_meets hR hrun hg _ ((hR.config s _ h1).trans hs)) fun t ht => hR.trans _ _ _ h1 ht

theorem busRead_meets (n : Nat) {s : State} (hs : s.cfg = c) : (busRead n s).Meets stop (R s) := by
  unfold busRead
  split
  · exact readBytes_meets hR hrun hg n hs
  · exact hR.trans _ _ _ (hR.say s _ (readMisuse_plain s n))
      (hR.around (say s (readMisuse s n)) (takeReadMisuse s (readMisuse s n) n) rfl rfl rfl rfl rfl rfl rfl
        rfl rfl)

end Primitives

end Sys2Proof.Machine
end

