-- ==== Sys2Proof/Laws/Bytes.lean ====
section
/-! SUPPORT. What a field operation and a byte of a register do when no hook is bound (40_field_ops.md R121 to R132,
41_register_ops.md R151 to R154). -/

namespace Sys2Proof.Machine

/-- The value a field without callbacks holds after `FLD.WRITE` (40_field_ops.md R126 to R131). -/
def afterWrite (d : FieldDef) (v old : Half) : Half :=
  match d.acc with
  | .read => old
  | .writeOneToClear => cut d (old &&& ~~~(cut d v))
  | _ => if enumRefuses d (cut d v) then old else cut d v

/-- The record such a write leaves. -/
def writeRecord (a f : Nat) (d : FieldDef) (v : Half) : List Diag :=
  match d.acc with
  | .read => [.wReadonlyWrite a f]
  | .writeOneToClear => []
  | _ => if enumRefuses d (cut d v) then [.wInvalidEnum a f (cut d v)] else []

/-- An operation on the fields of one register: the store changes there alone, the diagnostics grow. -/
structure FieldStep (s t : State) (a : Nat) (D : List Diag) : Prop where
  eq : t = { s with fv := t.fv, diag := s.diag ++ D }
  other : ∀ a' f', a' ≠ a → getField t a' f' = getField s a' f'

theorem FieldStep.refl (s : State) (a : Nat) : FieldStep s s a [] := ⟨by simp, fun _ _ _ => rfl⟩

theorem FieldStep.trans {s t u : State} {a : Nat} {D E : List Diag} (h : FieldStep s t a D) (g : FieldStep t u a E) :
    FieldStep s u a (D ++ E) := by
  refine ⟨?_, fun a' f' hn => (g.other a' f' hn).trans (h.other a' f' hn)⟩
  have e := g.eq
  rw [h.eq] at e
  rw [e]
  simp

theorem FieldStep.cfg {s t : State} {a : Nat} {D : List Diag} (h : FieldStep s t a D) : t.cfg = s.cfg := by rw [h.eq]

/-- Everything `FLD.WRITE` does on a field without callbacks. -/
theorem fldWrite_plain (run : Runner) {s : State} {a f : Nat} {d : FieldDef} (hd : s.cfg.field a f = some d)
    (hw : d.wcb = none) (hc : d.ccb = none) (v : Half) :
    ∃ t, fldWrite run a f d v s = .done () t ∧ FieldStep s t a (writeRecord a f d v) ∧
      getField t a f = afterWrite d v (getField s a f) ∧
      ∀ a' f', (a', f') ≠ (a, f) → getField t a' f' = getField s a' f' := by
  have store : ∀ old new : Half, storeField run a f d old new s = .done () (setField s a f new) := by
    intro old new
    simp [storeField, callField, hw, hc, Ran.andThen]
  have step : ∀ new : Half, FieldStep s (setField s a f new) a [] := fun new =>
    ⟨by simp [setField, hd], fun a' f' hn => getField_setField_other s new fun e => hn (by cases e; rfl)⟩
  have said : ∀ x : Diag, FieldStep s (say s x) a [x] := fun x => ⟨rfl, fun _ _ _ => rfl⟩
  have plain : d.acc = .write ∨ d.acc = .readWrite ∨ d.acc = .readToClear →
      fldWrite run a f d v s =
        (if enumRefuses d (cut d v) then .done () (say s (.wInvalidEnum a f (cut d v)))
         else storeField run a f d (getField s a f) (cut d v) s) ∧
      afterWrite d v (getField s a f) = (if enumRefuses d (cut d v) then getField s a f else cut d v) ∧
      writeRecord a f d v = if enumRefuses d (cut d v) then [.wInvalidEnum a f (cut d v)] else [] := by
    intro h
    rcases h with h | h | h <;> simp [fldWrite, afterWrite, writeRecord, h]
  have done : d.acc = .write ∨ d.acc = .readWrite ∨ d.acc = .readToClear →
      ∃ t, fldWrite run a f d v s = .done () t ∧ FieldStep s t a (writeRecord a f d v) ∧
      getField t a f = afterWrite d v (getField s a f) ∧
      ∀ a' f', (a', f') ≠ (a, f) → getField t a' f' = getField s a' f' := by
    intro h
    obtain ⟨e1, e2, e3⟩ := plain h
    rw [e1, e2, e3]
    split
    · exact ⟨_, rfl, said _, rfl, fun _ _ _ => rfl⟩
    · exact ⟨_, store _ _, step _, by rw [getField_setField_self hd, cut_cut],
        fun a' f' hn => getField_setField_other s _ hn⟩
  cases h : d.acc with
  | read =>
    refine ⟨say s (.wReadonlyWrite a f), by simp [fldWrite, h], by simpa [writeRecord, h] using said _,
      by simp [afterWrite, h]; rfl, fun _ _ _ => rfl⟩
  | write => exact done (.inl h)
  | readWrite => exact done (.inr (.inl h))
  | readToClear => exact done (.inr (.inr h))
  | writeOneToClear =>
    refine ⟨_, by rw [fldWrite, h]; exact store _ _, by simpa [writeRecord, h] using step _,
      by rw [getField_setField_self hd]; simp [afterWrite, h], fun a' f' hn => getField_setField_other s _ hn⟩

/-- The value a field without callbacks holds after a byte of its register is written (41_register_ops.md R151). -/
def afterByte (d : FieldDef) (k : Nat) (b : Byte) (old : Half) : Half :=
  match overlap d k with
  | none => old
  | some p => afterWrite d (mergeByte d p b old) old

/-- The records about the fields of register `a`. -/
def OfFields (a : Nat) (D : List Diag) : Prop :=
  ∀ x ∈ D, (∃ f, x = .wReadonlyWrite a f) ∨ ∃ f v, x = .wInvalidEnum a f v

theorem ofFields_writeRecord (a f : Nat) (d : FieldDef) (v : Half) : OfFields a (writeRecord a f d v) := by
  intro x hx
  unfold writeRecord at hx
  split at hx
  · simp only [List.mem_singleton] at hx; exact .inl ⟨f, hx⟩
  · simp at hx
  · split at hx
    · simp only [List.mem_singleton] at hx; exact .inr ⟨f, _, hx⟩
    · simp at hx

/-- Everything the fields of a register without field callbacks do when a byte is written (41_register_ops.md R151). -/
theorem writeFields_plain (run : Runner) {a : Nat} (k : Nat) (b : Byte) {i : Nat} {ds : List FieldDef} {s : State}
    (hd : ∀ j d, ds[j]? = some d → s.cfg.field a (i + j) = some d) (hn : ∀ d ∈ ds, d.wcb = none ∧ d.ccb = none) :
    ∃ t D, writeFields run a k b i ds s = .done () t ∧ FieldStep s t a D ∧ OfFields a D ∧
      (∀ j d, ds[j]? = some d → getField t a (i + j) = afterByte d k b (getField s a (i + j))) ∧
      ∀ f', f' < i ∨ i + ds.length ≤ f' → getField t a f' = getField s a f' := by
  induction ds generalizing i s with
  | nil => exact ⟨s, [], rfl, FieldStep.refl s a, by simp [OfFields], by simp, fun _ _ => rfl⟩
  | cons d rest ih =>
    have hdi : s.cfg.field a i = some d := by simpa using hd 0 d (by simp)
    have hrest : ∀ u : State, u.cfg = s.cfg → ∀ j e, rest[j]? = some e → u.cfg.field a (i + 1 + j) = some e := by
      intro u hu j e he
      rw [hu, show i + 1 + j = i + (j + 1) by omega]
      exact hd (j + 1) e (by simpa using he)
    have hn' : ∀ e ∈ rest, e.wcb = none ∧ e.ccb = none := fun e he => hn e (List.mem_cons_of_mem _ he)
    have first : ∃ u D, FieldStep s u a D ∧ OfFields a D ∧
        writeFields run a k b i (d :: rest) s = writeFields run a k b (i + 1) rest u ∧
        getField u a i = afterByte d k b (getField s a i) ∧ ∀ f', f' ≠ i → getField u a f' = getField s a f' := by
      cases ho : overlap d k with
      | none =>
        exact ⟨s, [], FieldStep.refl s a, by simp [OfFields], by rw [writeFields, ho], by simp [afterByte, ho],
          fun _ _ => rfl⟩
      | some p =>
        obtain ⟨u, e1, e2, e3, e4⟩ := fldWrite_plain run hdi (hn d (by simp)).1 (hn d (by simp)).2
          (mergeByte d p b (getField s a i))
        exact ⟨u, _, e2, ofFields_writeRecord _ _ _ _, by rw [writeFields, ho]; dsimp only; rw [e1]; rfl, by rw [e3]; simp [afterByte, ho],
          fun f' hf => e4 a f' fun e => hf (by cases e; rfl)⟩
    obtain ⟨u, D, hs, hD, he, hself, hother⟩ := first
    obtain ⟨t, E, e1, e2, e3, e4, e5⟩ := ih (hrest u hs.cfg) hn'
    refine ⟨t, D ++ E, he.trans e1, hs.trans e2, ?_, ?_, ?_⟩
    · intro x hx
      rcases List.mem_append.1 hx with hx | hx
      · exact hD x hx
      · exact e3 x hx
    · intro j e hj
      cases j with
      | zero =>
        simp only [List.getElem?_cons_zero, Option.some.injEq] at hj
        subst hj
        rw [Nat.add_zero, e5 i (.inl (Nat.lt_succ_self i)), hself]
      | succ j =>
        rw [List.getElem?_cons_succ] at hj
        rw [show i + (j + 1) = i + 1 + j by omega, e4 j e hj, hother _ (by omega)]
    · intro f' hf
      rw [e5 f' (by simp only [List.length_cons] at hf; omega), hother f' (by simp only [List.length_cons] at hf; omega)]

/-- The value a field without a provider holds after a byte of its register is read (40_field_ops.md R123 to R125). -/
def afterRead (d : FieldDef) (k : Nat) (old : Half) : Half :=
  match overlap d k with
  | none => old
  | some _ => if d.acc = .readToClear then cut d d.clearVal else old

/-- The bits a field without a provider shows in a byte (41_register_ops.md R153). -/
def shown (d : FieldDef) (k : Nat) (v : Half) : Byte :=
  match overlap d k with
  | none => 0
  | some p => if d.acc = .write then 0 else sliceByte p v

/-- Everything `FLD.READ` does on a field that runs no provider: a write-only one, or one that has none. -/
theorem fldRead_plain (run : Runner) {s : State} {a f : Nat} {d : FieldDef} (hd : s.cfg.field a f = some d)
    (hp : d.acc = .write ∨ d.prov = none) :
    ∃ t, fldRead run a f d s = .done (if d.acc = .write then 0 else getField s a f) t ∧ FieldStep s t a [] ∧
      getField t a f = (if d.acc = .readToClear then cut d d.clearVal else getField s a f) ∧
      ∀ a' f', (a', f') ≠ (a, f) → getField t a' f' = getField s a' f' := by
  cases h : d.acc
  case readToClear =>
    have hp : d.prov = none := by simpa [h] using hp
    refine ⟨setField s a f d.clearVal, by simp [fldRead, h, hp], ⟨by simp [setField, hd], ?_⟩, ?_, ?_⟩
    · exact fun a' f' hn => getField_setField_other s _ fun e => hn (by cases e; rfl)
    · simp [getField_setField_self hd]
    · exact fun a' f' hn => getField_setField_other s _ hn
  case write => exact ⟨s, by simp [fldRead, h], FieldStep.refl s a, by simp, fun _ _ _ => rfl⟩
  all_goals
    have hp : d.prov = none := by simpa [h] using hp
    exact ⟨s, by simp [fldRead, h, hp], FieldStep.refl s a, by simp, fun _ _ _ => rfl⟩

/-- Everything the fields of a register do when a byte is read, if none of the byte runs a provider (41_register_ops.md
R153). -/
theorem readFields_plain (run : Runner) {a : Nat} (k : Nat) {i : Nat} {ds : List FieldDef} {s : State} (acc : Byte)
    (hd : ∀ j d, ds[j]? = some d → s.cfg.field a (i + j) = some d)
    (hn : ∀ d ∈ ds, (overlap d k).isSome = true → d.acc = .write ∨ d.prov = none) :
    ∃ t v, readFields run a k i ds acc s = .done v t ∧ FieldStep s t a [] ∧
      (∀ n : Nat, v.getLsbD n = (acc.getLsbD n ||
        (List.range ds.length).any fun j => (ds[j]?.map fun d => (shown d k (getField s a (i + j))).getLsbD n).getD false)) ∧
      (∀ j d, ds[j]? = some d → getField t a (i + j) = afterRead d k (getField s a (i + j))) ∧
      ∀ f', f' < i ∨ i + ds.length ≤ f' → getField t a f' = getField s a f' := by
  induction ds generalizing i s acc with
  | nil => exact ⟨s, acc, rfl, FieldStep.refl s a, by simp, by simp, fun _ _ => rfl⟩
  | cons d rest ih =>
    have hdi : s.cfg.field a i = some d := by simpa using hd 0 d (by simp)
    have hrest : ∀ u : State, u.cfg = s.cfg → ∀ j e, rest[j]? = some e → u.cfg.field a (i + 1 + j) = some e := by
      intro u hu j e he
      rw [hu, show i + 1 + j = i + (j + 1) by omega]
      exact hd (j + 1) e (by simpa using he)
    have hn' := fun e he => hn e (List.mem_cons_of_mem d he)
    have first : ∃ u acc', FieldStep s u a [] ∧
        readFields run a k i (d :: rest) acc s = readFields run a k (i + 1) rest acc' u ∧
        acc' = acc ||| shown d k (getField s a i) ∧
        getField u a i = afterRead d k (getField s a i) ∧ ∀ f', f' ≠ i → getField u a f' = getField s a f' := by
      cases ho : overlap d k with
      | none =>
        exact ⟨s, acc, FieldStep.refl s a, by rw [readFields, ho], by simp [shown, ho], by simp [afterRead, ho],
          fun _ _ => rfl⟩
      | some p =>
        obtain ⟨u, e1, e2, e3, e4⟩ := fldRead_plain run hdi (hn d (by simp) (by simp [ho]))
        refine ⟨u, _, e2, by rw [readFields, ho]; dsimp only; rw [e1]; rfl, ?_, by rw [e3]; simp [afterRead, ho],
          fun f' hf => e4 a f' fun e => hf (by cases e; rfl)⟩
        simp only [shown, ho]
        split <;> simp [sliceByte]
    obtain ⟨u, acc', hs, he, hacc, hself, hother⟩ := first
    obtain ⟨t, v, e1, e2, e3, e4, e5⟩ := ih acc' (hrest u hs.cfg) hn'
    refine ⟨t, v, he.trans e1, by simpa using hs.trans e2, ?_, ?_, ?_⟩
    · intro n
      rw [e3, hacc, BitVec.getLsbD_or, Bool.or_assoc, List.length_cons, List.range_succ_eq_map, List.any_cons,
        List.any_map]
      congr 2
      apply List.any_congr rfl
      intro j
      simp only [Function.comp_apply, List.getElem?_cons_succ]
      rw [show i + (j + 1) = i + 1 + j by omega, hother _ (by omega)]
    · intro j e hj
      cases j with
      | zero =>
        simp only [List.getElem?_cons_zero, Option.some.injEq] at hj
        subst hj
        rw [Nat.add_zero, e5 i (.inl (Nat.lt_succ_self i)), hself]
      | succ j =>
        rw [List.getElem?_cons_succ] at hj
        rw [show i + (j + 1) = i + 1 + j by omega, e4 j e hj, hother _ (by omega)]
    · intro f' hf
      rw [e5 f' (by simp only [List.length_cons] at hf; omega), hother f' (by simp only [List.length_cons] at hf; omega)]

/-- The fields of a register found at an address are the fields of that address. -/
theorem field_of_find {c : Cfg} {a : Nat} {r : RegisterDef} (h : c.find a = some r) (j : Nat) :
    c.field a j = r.fields[j]? := by simp [Cfg.field, h]

end Sys2Proof.Machine
end

