-- ==== Sys2Proof/Laws/Exec.lean ====
section
/-! SUPPORT. Every operation, and every step, respects what each shared operation respects. -/

namespace Sys2Proof.Machine

section

variable {R : State → State → Prop} (hR : BodyKept R)

include hR

theorem feedAll_kept (xs : List Sample) (s : State) (hx : ∀ x ∈ xs, x.length = s.cfg.lanes) : R s (feedAll s xs) := by
  induction xs generalizing s with
  | nil => exact hR.refl s
  | cons x rest ih =>
    exact hR.trans _ _ _ (hR.feed s x (hx x List.mem_cons_self))
      (ih (feed s x) fun y hy => by rw [feed_cfg]; exact hx y (List.mem_cons_of_mem _ hy))

theorem feedTimes_kept (x : Sample) (n : Nat) (s : State) (hx : x.length = s.cfg.lanes) : R s (feedTimes s x n) := by
  rw [feedTimes_eq]
  exact feedAll_kept hR _ s fun y hy => by rw [List.eq_of_mem_replicate hy]; exact hx

theorem endLoad_kept (s : State) (b : Bool) : R s (endLoad s b) := by
  unfold endLoad
  split
  · exact hR.setKeep _ _
  · exact hR.refl _

end

/-! ### The sample file and the physical values have the configured lanes -/

theorem mapM_length {α β : Type} {f : α → Option β} {xs : List α} {ys : List β} (h : xs.mapM f = some ys) :
    ys.length = xs.length := by
  induction xs generalizing ys with
  | nil => simp at h; simp [← h]
  | cons x rest ih =>
    simp only [List.mapM_cons, Option.pure_def, Option.bind_eq_bind, Option.bind_eq_some_iff, Option.some.injEq] at h
    obtain ⟨y, _, zs, hz, rfl⟩ := h
    simp [ih hz]

theorem lineSample_length {c : Cfg} {line : Text} {x : Sample} (h : lineSample c line = some x) :
    x.length = c.lanes := by
  simp only [lineSample] at h
  split at h
  · rw [mapM_length h]; assumption
  · cases h

theorem parseLines_lanes (c : Cfg) (i : Nat) (lines : List Text) :
    ∀ x ∈ (parseLines c i lines).1, x.length = c.lanes := by
  induction lines generalizing i with
  | nil => simp [parseLines]
  | cons line rest ih =>
    unfold parseLines
    split
    · simp
    · intro x hx
      rcases List.mem_cons.1 hx with rfl | hx
      · exact lineSample_length ‹_›
      · exact ih _ x hx

/-- Every sample a load feeds has the configured lanes. -/
theorem loadPlan_lanes (c : Cfg) (name : Text) (lines : List Text) :
    ∀ x ∈ (loadPlan c name lines).1, x.length = c.lanes := by
  have h := parseLines_lanes c 1 lines
  unfold loadPlan
  split
  · rename_i hp; rw [hp] at h; exact h
  · rename_i hp; rw [hp] at h
    split
    · simp
    · exact h

theorem physLanes_length (s : State) (vs : List Ratio) : (physLanes s vs).1.length = vs.length := by
  induction vs generalizing s with
  | nil => rfl
  | cons v rest ih =>
    unfold physLanes
    split <;> simp [ih]

theorem physLanes_kept {R : State → State → Prop} (hR : EngineKept R) (s : State) (vs : List Ratio) :
    R s (physLanes s vs).2 := by
  induction vs generalizing s with
  | nil => exact hR.refl s
  | cons v rest ih =>
    unfold physLanes
    split
    · exact ih s
    · exact hR.trans _ _ _ (hR.say s (.wClamped _ _) nofun) (ih _)

/-! ### Every operation -/

/-- How an operation ends: it does nothing, or it runs a body that respects every relation that each update respects. -/
def Runs (R : State → State → Prop) (s : State) (o : Host.Outcome State Fault Refusal) : Prop :=
  o = operateNothing s ∨ ∃ body, o = operate s body ∧ (body s).Meets True (R s)

theorem Runs.body {R : State → State → Prop} {s : State} {body : State → Ran Result}
    (h : (body s).Meets True (R s)) : Runs R s (operate s body) := .inr ⟨body, rfl, h⟩

theorem Runs.plain {R : State → State → Prop} {s : State} {f : State → State} (h : R s (f s)) :
    Runs R s (operatePlain s f) := .inr ⟨_, rfl, h⟩

theorem Runs.nothing {R : State → State → Prop} {s : State} : Runs R s (operateNothing s) := .inl rfl

/-- Every operation runs a body that respects every relation that each update respects, or does nothing. -/
theorem exec_runs {R : State → State → Prop} (hR : BodyKept R) (i : Instr) (s : State) : Runs R s (exec i s) := by
  have hE := hR.toEngineKept
  have hB := hR.toBusKept
  have hrun := hooks_meets hR.toHookKept
  have hg := goodMap_any s.cfg
  have hseq : ∀ {α : Type} {z : Ran α} {g : α → Result}, z.Meets True (R s) →
      (z.andThen fun a u => Ran.done (g a) u).Meets True (R s) :=
    fun hz => Ran.Meets_andThen hE.trans hz fun _ u _ => hE.refl u
  cases i with
  | addrSetPlain8 a =>
    show Runs R s (execAddrSetPlain8 a s)
    unfold execAddrSetPlain8
    exact Runs.plain (hR.around _ _ rfl rfl rfl rfl rfl rfl rfl rfl rfl)
  | addrSetRw7 r a =>
    show Runs R s (execAddrSetRw7 r a s)
    unfold execAddrSetRw7
    exact Runs.plain (hR.around _ _ rfl rfl rfl rfl rfl rfl rfl rfl rfl)
  | addrSetRw7Ms6 r m a =>
    show Runs R s (execAddrSetRw7Ms6 r m a s)
    unfold execAddrSetRw7Ms6
    exact Runs.plain (hR.around _ _ rfl rfl rfl rfl rfl rfl rfl rfl rfl)
  | addrSetPlain16 a =>
    show Runs R s (execAddrSetPlain16 a s)
    unfold execAddrSetPlain16
    exact Runs.plain (hR.around _ _ rfl rfl rfl rfl rfl rfl rfl rfl rfl)
  | fldRead a f =>
    show Runs R s (execFldRead a f s)
    unfold execFldRead
    refine Runs.body ?_
    split
    · trivial
    · exact hseq (fldRead_meets hE hrun a f (goodField_any _) s)
  | fldWrite a f v =>
    show Runs R s (execFldWrite a f v s)
    unfold execFldWrite
    refine Runs.body ?_
    split
    · trivial
    · exact hseq (fldWrite_meets hE hrun a f (goodField_any _) _ s)
  | regReadB a k =>
    show Runs R s (execRegReadB a k s)
    unfold execRegReadB
    refine Runs.body ?_
    split
    · trivial
    · exact hseq (regReadB_meets hE hrun (goodRegister_any _) k s)
  | regWriteB a k b =>
    show Runs R s (execRegWriteB a k b s)
    unfold execRegWriteB
    refine Runs.body ?_
    split
    · trivial
    · exact hseq (regWriteB_meets hE hrun (goodRegister_any _) k b s)
  | regReset a =>
    show Runs R s (execRegReset a s)
    unfold execRegReset
    refine Runs.body ?_
    split
    · trivial
    · exact hR.resetRegister s a
  | collRead addr =>
    show Runs R s (execCollRead addr s)
    unfold execCollRead
    exact Runs.body (hseq (collRead_meets hE hrun addr s hg))
  | collWrite addr b =>
    show Runs R s (execCollWrite addr b s)
    unfold execCollWrite
    exact Runs.body (hseq (collWrite_meets hE hrun addr b s hg))
  | collTryRead addr =>
    show Runs R s (execCollTryRead addr s)
    unfold execCollTryRead
    exact Runs.body (hseq (collTryRead_meets hE hrun addr s hg))
  | collTryWrite addr b =>
    show Runs R s (execCollTryWrite addr b s)
    unfold execCollTryWrite
    exact Runs.body (hseq (collTryWrite_meets hE hrun addr b s hg))
  | collReadOff base o e =>
    show Runs R s (execCollReadOff base o e s)
    unfold execCollReadOff
    exact Runs.body (hseq (collReadOff_meets hE hrun base o e s hg))
  | collWriteOff base o b e =>
    show Runs R s (execCollWriteOff base o b e s)
    unfold execCollWriteOff
    exact Runs.body (hseq (collWriteOff_meets hE hrun base o b e s hg))
  | collReset =>
    show Runs R s (execCollReset s)
    unfold execCollReset
    exact Runs.plain (hR.resetCollection s)
  | busWrite bytes =>
    show Runs R s (execBusWrite bytes s)
    cases bytes with
    | nil => exact Runs.nothing
    | cons b rest =>
      unfold execBusWrite
      exact Runs.body (hseq (busWrite_meets hB hrun hg _ rfl))
  | busRead count =>
    show Runs R s (execBusRead count s)
    cases count with
    | zero => exact Runs.nothing
    | succ n =>
      unfold execBusRead
      exact Runs.body (hseq (busRead_meets hB hrun hg _ rfl))
  | busFinish =>
    show Runs R s (execBusFinish s)
    unfold execBusFinish
    exact Runs.plain (hR.around _ _ rfl rfl rfl rfl rfl rfl rfl rfl rfl)
  | advance =>
    show Runs R s (execAdvance s)
    unfold execAdvance
    exact Runs.plain (hR.around _ _ (by simp) (by simp) (by simp) (by simp) (by simp) (by simp) (by simp) (by simp) (by simp))
  | fifoFeed stamp x =>
    show Runs R s (execFifoFeed stamp x s)
    unfold execFifoFeed
    refine Runs.body ?_
    split
    · exact hR.feed s x ‹_›
    · trivial
  | fifoDeq =>
    show Runs R s (execFifoDeq s)
    unfold execFifoDeq
    refine Runs.body ?_
    exact hR.dequeue s
  | fifoReset =>
    show Runs R s (execFifoReset s)
    unfold execFifoReset
    exact Runs.plain (hR.resetQueue s)
  | fifoClrOvr =>
    show Runs R s (execFifoClrOvr s)
    unfold execFifoClrOvr
    exact Runs.plain (hR.clearOverrun s)
  | fifoSetMode m =>
    show Runs R s (execFifoSetMode m s)
    unfold execFifoSetMode
    exact Runs.plain (hR.setMode s m)
  | fifoStreamTick now =>
    show Runs R s (execFifoStreamTick now s)
    unfold execFifoStreamTick
    exact Runs.plain (hR.streamTick s now)
  | hostFeedRepeat x n =>
    show Runs R s (execHostFeedRepeat x n s)
    cases n with
    | zero => exact Runs.nothing
    | succ n =>
      unfold execHostFeedRepeat
      refine Runs.body ?_
      split
      · exact feedTimes_kept hR x _ s ‹_›
      · trivial
  | hostLoadFile name lines =>
    show Runs R s (execHostLoadFile name lines s)
    unfold execHostLoadFile
    refine Runs.body ?_
    have hl := loadPlan_lanes s.cfg name lines
    split
    rename_i hp
    rw [hp] at hl
    exact hR.trans _ _ _ (feedAll_kept hR _ s hl) (endLoad_kept hR _ _)
  | hostAttachStream =>
    show Runs R s (execHostAttachStream s)
    unfold execHostAttachStream
    exact Runs.plain (hR.attachStream s)
  | hostDetachStream =>
    show Runs R s (execHostDetachStream s)
    unfold execHostDetachStream
    exact Runs.plain (hR.detachStream s)
  | hostSetKeep b =>
    show Runs R s (execHostSetKeep b s)
    unfold execHostSetKeep
    exact Runs.plain (hR.setKeep s b)
  | hostSetPhys vs =>
    show Runs R s (execHostSetPhys vs s)
    unfold execHostSetPhys
    refine Runs.body ?_
    split
    · have hp := physLanes_kept hE s vs
      refine hR.trans _ _ _ hp (hR.feed _ _ ?_)
      rw [physLanes_length, hR.config _ _ hp]
      assumption
    · trivial
  | devReset =>
    show Runs R s (execDevReset s)
    unfold execDevReset
    exact Runs.plain (hR.deviceReset s)
  | devSoftReset =>
    show Runs R s (execDevSoftReset s)
    unfold execDevSoftReset
    exact Runs.plain (hR.softReset s)

/-- Everything an operation that answers a next state has done. -/
theorem exec_next {R : State → State → Prop} (hR : BodyKept R) {i : Instr} {s t : State} (h : exec i s = .next t) :
    s.faulted = false ∧
      (t = s ∨ (∃ r u, R s u ∧ t = settleIrq (respond u r)) ∨ ∃ u what, R s u ∧ t = violated u what) := by
  obtain e | ⟨body, e, hb⟩ := exec_runs hR i s <;> rw [e] at h
  · obtain ⟨hf, rfl⟩ := operateNothing_next h
    exact ⟨hf, .inl rfl⟩
  · refine ⟨(operate_next h).1, ?_⟩
    obtain ⟨r, u, hu, _, rfl⟩ | ⟨_, u, what, hu, rfl⟩ := operate_meets hb h
    · exact .inr (.inl ⟨r, u, hu, rfl⟩)
    · exact .inr (.inr ⟨u, what, hu, rfl⟩)

/-- In a faulted state every operation faults (43_bus_transactions.md R211). -/
theorem exec_faulted {s : State} (h : s.faulted = true) (i : Instr) : exec i s = .fault .invariantLatched := by
  obtain e | ⟨body, e, _⟩ := exec_runs outline_kept i s <;> rw [e]
  · simp [operateNothing, h]
  · exact operate_faulted h body

section

variable {R : State → State → Prop} (hR : OperationKept R)

include hR

theorem kept_settle (s : State) : R s (settleIrq s) := hR.aside _ _ rfl rfl rfl rfl

theorem kept_respond (s : State) (r : Result) : R s (respond s r) :=
  hR.aside _ _ (by simp) (by simp) (by simp) (by simp)

/-- A relation from a state that differs aside. -/
theorem kept_from {s t u : State} (h : R t u) (hc : t.cfg = s.cfg) (hf : t.fv = s.fv) (hq : t.fifo = s.fifo)
    (ho : t.ovrSignals = s.ovrSignals) : R s u := hR.trans _ _ _ (hR.aside s t hc hf hq ho) h

theorem operate_kept {s t : State} {body : State → Ran Result} (hb : (body s).Meets True (R s))
    (h : operate s body = .next t) : R s t := by
  obtain ⟨r, u, hu, _, rfl⟩ | ⟨_, u, what, hu, rfl⟩ := operate_meets hb h
  · exact hR.trans _ _ _ hu (hR.trans _ _ _ (kept_respond hR u r) (kept_settle hR _))
  · exact hR.trans _ _ _ hu (hR.violation u what)

/-- Every operation that answers a next state respects every relation that each update respects. -/
theorem exec_kept (i : Instr) {s t : State} (h : exec i s = .next t) : R s t := by
  obtain ⟨_, rfl | ⟨r, u, hu, rfl⟩ | ⟨u, what, hu, rfl⟩⟩ := exec_next hR.toBodyKept h
  · exact hR.refl _
  · exact hR.trans _ _ _ hu (hR.trans _ _ _ (kept_respond hR u r) (kept_settle hR _))
  · exact hR.trans _ _ _ hu (hR.violation u what)

end

/-! ### Every step -/

/-- The bus thread goes on with the primitive it is in the middle of (20_memory.md R72). -/
theorem stepBus_rest {s : State} {ev : Timed BusOp} (h : s.env.busRest = some ev) :
    stepBus s = if writeIsCut s ev.op then .next (leaveBus s none) else runBus s ev := by
  unfold stepBus; rw [h]

/-- Else it begins the next one. -/
theorem stepBus_head {s : State} {ev : Timed BusOp} {more : List (Timed BusOp)} (h : s.env.busRest = none)
    (hq : s.env.busQueue = ev :: more) (hn : s.env.latest ≤ ev.now) :
    stepBus s = runBus (takeBus s ev.now more) ev := by
  unfold stepBus; rw [h, hq]; dsimp only; rw [if_neg (Nat.not_lt.2 hn)]

section

variable {R : State → State → Prop} (hR : OperationKept R)

include hR

theorem runBus_kept {s t : State} {ev : Timed BusOp} (h : runBus s ev = .next t) : R s t := by
  unfold runBus at h
  split at h
  · rename_i u hu
    cases h
    exact hR.trans _ _ _ (hR.aside s (atTime s ev.now) rfl rfl rfl rfl)
      (hR.trans _ _ _ (exec_kept hR _ hu) (hR.aside u _ rfl rfl rfl rfl))
  · cases h
  · cases h

theorem runHost_kept {s t : State} {now : Time} {i : Instr} {rest : Option HostRest}
    (h : runHost s now i rest = .next t) : R s t := by
  unfold runHost at h
  split at h
  · rename_i u hu
    cases h
    exact hR.trans _ _ _ (hR.aside s (atTime s now) rfl rfl rfl rfl)
      (hR.trans _ _ _ (exec_kept hR _ hu) (hR.aside u _ rfl rfl rfl rfl))
  · cases h
  · cases h

theorem stepBus_kept {s t : State} (h : stepBus s = .next t) : R s t := by
  unfold stepBus at h
  split at h
  · split at h
    · cases h; exact hR.aside _ _ rfl rfl rfl rfl
    · exact runBus_kept hR h
  · split at h
    · cases h; exact hR.refl _
    · split at h
      · cases h
      · exact kept_from hR (runBus_kept hR h) rfl rfl rfl rfl

theorem stepFeeder_kept {s t : State} (h : stepFeeder s = .next t) : R s t := by
  unfold stepFeeder at h
  split at h
  · cases h; exact hR.refl _
  · split at h
    · cases h
    · exact kept_from hR (exec_kept hR _ h) rfl rfl rfl rfl

theorem stepHost_kept {s t : State} (h : stepHost s = .next t) : R s t := by
  unfold stepHost at h
  split at h
  · unfold continueHost at h
    split at h
    · exact runHost_kept hR h
    · exact runHost_kept hR h
    · refine kept_from hR (operate_kept hR ?_ h) rfl rfl rfl rfl
      exact endLoad_kept hR.toBodyKept _ _
  · split at h
    · cases h; exact hR.refl _
    · split at h
      · cases h
      · exact kept_from hR (runHost_kept hR h) rfl rfl rfl rfl

/-- Every step respects every relation that each update respects. -/
theorem step_kept {s t : State} (h : step s = .next t) : R s t := by
  unfold step at h
  split at h
  · cases h
  · split at h
    · unfold stepScheduled at h
      split at h
      · cases h; exact hR.refl _
      · rename_i a rest _
        refine hR.trans _ _ _ (hR.aside s (scheduled s rest) rfl rfl rfl rfl) ?_
        cases a with
        | bus => exact stepBus_kept hR h
        | feeder => exact stepFeeder_kept hR h
        | host => exact stepHost_kept hR h
    · cases h

end

/-- A step is taken only in a state that is not faulted, of a well-formed configuration. -/
theorem step_next {s t : State} (h : step s = .next t) :
    s.faulted = false ∧ s.cfg.wf = true ∧ stepScheduled s = .next t := by
  unfold step at h
  split at h
  · cases h
  · split at h
    · exact ⟨by simpa using ‹¬s.faulted = true›, ‹_›, h⟩
    · cases h

end Sys2Proof.Machine
end

