-- ==== Sys2Proof/Laws/Position.lean ====
section
/-! SUPPORT. The invariants of the transaction state (10_state.md R31 to R35), operation by operation and for every step. -/

namespace Sys2Proof.Machine

theorem truncAddr_lt (fmt : AddrFormat) (n : Nat) : (truncAddr fmt n).toNat < 2 ^ fmt.bits := by
  have h : n % 2 ^ fmt.bits < 2 ^ fmt.bits := Nat.mod_lt _ (Nat.two_pow_pos _)
  simp only [truncAddr, BitVec.toNat_ofNat]
  exact Nat.lt_of_le_of_lt (Nat.mod_le _ _) h

theorem phaseModulus_le (c : Cfg) (a : Nat) : 1 ≤ phaseModulus c a ∧ phaseModulus c a ≤ 2 := by
  unfold phaseModulus
  split
  · omega
  · rename_i r _
    cases r.width <;> simp [Width.bytes]

theorem TxInv_congr {s t : State} (hc : t.cfg = s.cfg) (ht : t.tx = s.tx) : TxInv t ↔ TxInv s := by
  simp only [TxInv, AddrInv, CountInv, LatchInv, PhaseInv, hc, ht]

theorem nextAddr_lt (c : Cfg) (a : Nat) : (nextAddr c a).toNat < 2 ^ c.format.bits := by
  unfold nextAddr
  split
  · exact truncAddr_lt _ _
  · split <;> exact truncAddr_lt _ _

theorem TxInv_advance {s : State} (h : TxInv s) : TxInv (advance s) := by
  obtain ⟨ha, hn, hl, hp⟩ := h
  unfold advance
  split
  · rename_i hw
    refine ⟨ha, hn, hl, ?_, fun e => by rw [hw] at e; cases e⟩
    have h2 := phaseModulus_le s.cfg s.tx.curAddr.toNat
    have h3 := Nat.mod_lt (s.tx.bytePhase + 1) h2.1
    show (s.tx.bytePhase + 1) % phaseModulus s.cfg s.tx.curAddr.toNat ≤ 1
    omega
  · split
    · exact ⟨nextAddr_lt _ _, hn, hl, hp⟩
    · exact ⟨ha, hn, hl, hp⟩

theorem advance_tstate (s : State) : (advance s).tx.tstate = s.tx.tstate := by
  unfold advance
  split
  · rfl
  · split <;> rfl

/-- The transaction state in the data phase: no address phase is half received. -/
def DataReady (s : State) : Prop := TxInv s ∧ s.tx.tstate ≠ .addressPartial

theorem DataReady_moved {u : State} (h : DataReady u) {t : TState} (ht : t = .writing ∨ t = .reading) :
    DataReady (moved u t) := by
  obtain ⟨ha, hn, hl, hp⟩ := TxInv_advance h.1
  have hz : (advance u).tx.addrCnt = 0 := by
    have h1 := hn.2
    rw [advance_tstate] at h1
    by_contra hc
    exact h.2 (h1.2 (Nat.pos_of_ne_zero hc))
  have hbytes : 0 < (advance u).cfg.format.bytes.count := by
    cases (advance u).cfg.format.bytes <;> simp [AddrBytes.count]
  refine ⟨⟨ha, ⟨?_, ?_⟩, ⟨hl.1, hl.2.1, ?_⟩, hp⟩, ?_⟩
  · show (advance u).tx.addrCnt < (advance u).cfg.format.bytes.count
    omega
  · show t = .addressPartial ↔ 0 < (advance u).tx.addrCnt
    rcases ht with rfl | rfl <;> simp [hz]
  · show t = .idle → _
    rcases ht with rfl | rfl <;> simp
  · show t ≠ .addressPartial
    rcases ht with rfl | rfl <;> simp

/-! ### The address phase -/

theorem stateAfterAddress_ne (p : Option Nat) (rw : Bool) :
    stateAfterAddress p rw ≠ .addressPartial ∧ stateAfterAddress p rw ≠ .idle := by
  unfold stateAfterAddress
  split
  · simp
  · split <;> simp

theorem DataReady_addrSet (s : State) (b0 b1 : Byte) : DataReady (addrSet s b0 b1) := by
  have hne := stateAfterAddress_ne s.cfg.format.rwBit (flagBit s.cfg.format.rwBit b0)
  have hbytes : 0 < s.cfg.format.bytes.count := by cases s.cfg.format.bytes <;> simp [AddrBytes.count]
  refine ⟨⟨truncAddr_lt _ _, ⟨hbytes, ?_⟩, ⟨?_, ?_, ?_⟩, ⟨by simp [addrSet], fun _ => rfl⟩⟩, hne.1⟩
  · show stateAfterAddress _ _ = _ ↔ 0 < 0
    simp [hne.1]
  · intro h
    show flagBit s.cfg.format.rwBit b0 = false
    rw [show s.cfg.format.rwBit = none from h]; rfl
  · intro h
    show flagBit s.cfg.format.msBit b0 = false
    rw [show s.cfg.format.msBit = none from h]; rfl
  · intro h
    exact absurd h hne.2

theorem TxInv_addressByte {s : State} (b : Byte) (h : TxInv s) (_ : awaitsAddress s = true) :
    TxInv (addressByte s b) := by
  obtain ⟨hlt, e⟩ | ⟨_, _, e⟩ | ⟨_, _, e⟩ := addressByte_or s b <;> rw [e]
  · refine ⟨h.1, ⟨hlt, ?_⟩, ⟨h.2.2.1.1, h.2.2.1.2.1, ?_⟩, h.2.2.2⟩
    · simp
    · intro hi; cases hi
  · exact (DataReady_addrSet s b b).1
  · exact (DataReady_addrSet s s.tx.addrAcc b).1

theorem TxInv_addressPhase {s : State} (bytes : List Byte) (h : TxInv s) : TxInv (addressPhase s bytes).2 := by
  induction bytes generalizing s with
  | nil => exact h
  | cons b rest ih =>
    unfold addressPhase
    split
    · exact ih (TxInv_addressByte b h ‹_›)
    · exact h

/-! ### The primitives -/

/-- One operation after another, under a property. -/
theorem Ran.Meets_bind {α β : Type} {stop : Prop} {P Q : State → Prop} {x : Ran α} {f : α → State → Ran β}
    (hx : x.Meets stop P) (hpq : ∀ t, P t → Q t) (hf : ∀ a t, P t → (f a t).Meets stop Q) :
    (x.andThen f).Meets stop Q := by
  cases x with
  | done a t => exact hf a t hx
  | abandoned t =>
    obtain ⟨hs, u, what, hu, e⟩ := hx
    exact ⟨hs, u, what, hpq u hu, e⟩
  | refused r => exact hx

/-- A register access by the bus leaves the frame alone. -/
theorem writeTarget_framed (b : Byte) (s : State) : (writeTarget s b).Meets True (Framed s) := by
  have hg := goodMap_any s.cfg
  obtain ⟨_, e⟩ | ⟨_, e⟩ := writeTarget_cases s b <;> rw [e]
  · exact collWriteOff_meets framed_kept.toEngineKept (hooks_meets framed_kept) _ _ _ _ s hg
  · exact collWrite_meets framed_kept.toEngineKept (hooks_meets framed_kept) _ _ s hg

theorem readTarget_framed (s : State) : (readTarget s).Meets True (Framed s) := by
  have hg := goodMap_any s.cfg
  obtain ⟨_, e⟩ | ⟨_, e⟩ := readTarget_cases s <;> rw [e]
  · exact collReadOff_meets framed_kept.toEngineKept (hooks_meets framed_kept) _ _ _ s hg
  · exact collRead_meets framed_kept.toEngineKept (hooks_meets framed_kept) _ s hg

theorem DataReady_framed {s u : State} (h : DataReady s) (hf : Framed s u) : DataReady u :=
  ⟨(TxInv_congr hf.cfg hf.tx).2 h.1, by rw [hf.tx]; exact h.2⟩

theorem dataWriteByte_ready (b : Byte) {s : State} (h : DataReady s) : (dataWriteByte b s).Meets True DataReady :=
  Ran.Meets_bind (writeTarget_framed b s) (fun _ hu => DataReady_framed h hu)
    fun _ _ hu => DataReady_moved (DataReady_framed h hu) (.inl rfl)

theorem dataReadByte_ready {s : State} (h : DataReady s) : (dataReadByte s).Meets True DataReady :=
  Ran.Meets_bind (readTarget_framed s) (fun _ hu => DataReady_framed h hu)
    fun _ _ hu => DataReady_moved (DataReady_framed h hu) (.inr rfl)

theorem writeBytes_ready (bytes : List Byte) {s : State} (h : DataReady s) :
    (writeBytes bytes s).Meets True DataReady := by
  induction bytes generalizing s with
  | nil => exact h
  | cons b rest ih => exact Ran.Meets_bind (dataWriteByte_ready b h) (fun _ hu => hu) fun _ _ hu => ih hu

theorem readBytes_ready (n : Nat) {s : State} (h : DataReady s) : (readBytes n s).Meets True DataReady := by
  induction n generalizing s with
  | zero => exact h
  | succ n ih => exact Ran.Meets_bind (dataReadByte_ready h) (fun _ hu => hu) fun _ _ hu => ih hu

theorem busWrite_txInv (bytes : List Byte) {s : State} (h : TxInv s) : (busWrite bytes s).Meets True TxInv := by
  have h1 := TxInv_addressPhase bytes h
  unfold busWrite writeRest
  split
  · exact h1
  · split
    · exact (TxInv_congr rfl rfl).2 h1
    · rename_i ht
      exact Ran.Meets_mono (writeBytes_ready _ ⟨h1, by rw [ht]; simp⟩) fun _ hu => hu.1
    · rename_i ht
      exact Ran.Meets_mono (writeBytes_ready _ ⟨h1, by rw [ht]; simp⟩) fun _ hu => hu.1
    · exact h1
    · exact h1

/-- A served read finds the machine ready for data. -/
theorem serves_ready {s : State} (h : TxInv s) (hs : serves s = true) : DataReady s := by
  refine ⟨h, fun e => ?_⟩
  simp [serves, e] at hs

theorem busRead_txInv (n : Nat) {s : State} (h : TxInv s) : (busRead n s).Meets True TxInv := by
  unfold busRead
  split
  · exact Ran.Meets_mono (readBytes_ready n (serves_ready h ‹_›)) fun _ hu => hu.1
  · exact (TxInv_congr rfl rfl).2 h

theorem TxInv_finish {s : State} (h : TxInv s) : TxInv (busFinish s) := by
  have hbytes : 0 < s.cfg.format.bytes.count := by cases s.cfg.format.bytes <;> simp [AddrBytes.count]
  refine ⟨h.1, ⟨hbytes, ?_⟩, ⟨fun _ => rfl, fun _ => rfl, fun _ => ⟨rfl, rfl⟩⟩, by simp, fun _ => rfl⟩
  simp

theorem TxInv_deviceReset (s : State) : TxInv (deviceReset s) := by
  have hbytes : 0 < s.cfg.format.bytes.count := by cases s.cfg.format.bytes <;> simp [AddrBytes.count]
  refine ⟨?_, ⟨hbytes, ?_⟩, ⟨fun _ => rfl, fun _ => rfl, fun _ => ⟨rfl, rfl⟩⟩, by simp [idleTx], fun _ => rfl⟩
  · show (0 : BitVec 16).toNat < _
    simp
  · simp [idleTx]

/-! ### The operations that leave the transaction state alone -/

/-- The transaction state and the configuration are unchanged (10_state.md R36). -/
structure TxSame (s t : State) : Prop where
  cfg : t.cfg = s.cfg
  tx : t.tx = s.tx

theorem TxSame.ofFramed {s t : State} (h : Framed s t) : TxSame s t := ⟨h.cfg, h.tx⟩

theorem TxSame.conclude {s t u : State} (h : Framed s u) (r : Result)
    (e : t = settleIrq (respond u r) ∨ ∃ what, t = violated u what) : TxSame s t := by
  rcases e with rfl | ⟨what, rfl⟩
  · exact ⟨by simp [h.cfg], by simp [h.tx]⟩
  · exact ⟨h.cfg, h.tx⟩

/-- An operation whose body leaves the frame alone leaves the transaction state alone. -/
theorem operate_txSame {s t : State} {body : State → Ran Result} (hb : (body s).Meets True (Framed s))
    (h : operate s body = .next t) : TxSame s t := by
  obtain ⟨r, u, hu, _, e⟩ | ⟨_, u, what, hu, e⟩ := operate_meets hb h
  · exact TxSame.conclude hu r (.inl e)
  · exact TxSame.conclude hu .none (.inr ⟨what, e⟩)

theorem operatePlain_txSame {s t : State} {f : State → State} (hc : (f s).cfg = s.cfg) (ht : (f s).tx = s.tx)
    (h : operatePlain s f = .next t) : TxSame s t := by
  obtain ⟨_, rfl⟩ := operatePlain_next h
  exact ⟨hc, ht⟩

theorem feedAll_framed (xs : List Sample) (s : State) : Framed s (feedAll s xs) := by
  induction xs generalizing s with
  | nil => exact Framed.refl s
  | cons x rest ih => exact (Framed.feed s x).trans (ih _)

/-- Every operation but an address phase, a bus primitive, the auto-increment and a device reset leaves the transaction
state alone (10_state.md R36). -/
theorem exec_txSame {i : Instr} (hi : keepsPosition i = true) {s t : State} (h : exec i s = .next t) : TxSame s t := by
  have hE := framed_kept.toEngineKept
  have hrun := hooks_meets framed_kept
  have hg := goodMap_any s.cfg
  have hseq : ∀ {α : Type} {z : Ran α} {g : α → Result}, z.Meets True (Framed s) →
      (z.andThen fun a u => Ran.done (g a) u).Meets True (Framed s) :=
    fun hz => Ran.Meets_andThen hE.trans hz fun _ u _ => hE.refl u
  cases i with
  | addrSetPlain8 a => cases hi
  | addrSetRw7 r a => cases hi
  | addrSetRw7Ms6 r m a => cases hi
  | addrSetPlain16 a => cases hi
  | busWrite bytes => cases hi
  | busRead n => cases hi
  | busFinish => cases hi
  | advance => cases hi
  | devReset => cases hi
  | fldRead a f =>
    replace h : execFldRead a f s = .next t := h
    unfold execFldRead at h
    refine operate_txSame ?_ h
    split
    · trivial
    · exact hseq (fldRead_meets hE hrun a f (goodField_any _) s)
  | fldWrite a f v =>
    replace h : execFldWrite a f v s = .next t := h
    unfold execFldWrite at h
    refine operate_txSame ?_ h
    split
    · trivial
    · exact hseq (fldWrite_meets hE hrun a f (goodField_any _) _ s)
  | regReadB a k =>
    replace h : execRegReadB a k s = .next t := h
    unfold execRegReadB at h
    refine operate_txSame ?_ h
    split
    · trivial
    · exact hseq (regReadB_meets hE hrun (goodRegister_any _) k s)
  | regWriteB a k b =>
    replace h : execRegWriteB a k b s = .next t := h
    unfold execRegWriteB at h
    refine operate_txSame ?_ h
    split
    · trivial
    · exact hseq (regWriteB_meets hE hrun (goodRegister_any _) k b s)
  | regReset a =>
    replace h : execRegReset a s = .next t := h
    unfold execRegReset at h
    refine operate_txSame ?_ h
    split
    · trivial
    · exact ⟨rfl, rfl, rfl, rfl, rfl, rfl, rfl⟩
  | collRead addr =>
    replace h : execCollRead addr s = .next t := h
    unfold execCollRead at h
    exact operate_txSame (hseq (collRead_meets hE hrun addr s hg)) h
  | collWrite addr b =>
    replace h : execCollWrite addr b s = .next t := h
    unfold execCollWrite at h
    exact operate_txSame (hseq (collWrite_meets hE hrun addr b s hg)) h
  | collTryRead addr =>
    replace h : execCollTryRead addr s = .next t := h
    unfold execCollTryRead at h
    exact operate_txSame (hseq (collTryRead_meets hE hrun addr s hg)) h
  | collTryWrite addr b =>
    replace h : execCollTryWrite addr b s = .next t := h
    unfold execCollTryWrite at h
    exact operate_txSame (hseq (collTryWrite_meets hE hrun addr b s hg)) h
  | collReadOff base o e =>
    replace h : execCollReadOff base o e s = .next t := h
    unfold execCollReadOff at h
    exact operate_txSame (hseq (collReadOff_meets hE hrun base o e s hg)) h
  | collWriteOff base o b e =>
    replace h : execCollWriteOff base o b e s = .next t := h
    unfold execCollWriteOff at h
    exact operate_txSame (hseq (collWriteOff_meets hE hrun base o b e s hg)) h
  | collReset => exact operatePlain_txSame (f := resetCollection) rfl rfl h
  | fifoFeed stamp x =>
    replace h : execFifoFeed stamp x s = .next t := h
    unfold execFifoFeed at h
    refine operate_txSame ?_ h
    split
    · exact Framed.feed s x
    · trivial
  | fifoDeq =>
    replace h : execFifoDeq s = .next t := h
    unfold execFifoDeq at h
    refine operate_txSame ?_ h
    exact framed_kept.dequeue s
  | fifoReset => exact operatePlain_txSame (f := resetQueue) rfl rfl h
  | fifoClrOvr => exact operatePlain_txSame (f := clearOverrun) rfl rfl h
  | fifoSetMode m => exact operatePlain_txSame (f := fun u => setMode u m) rfl rfl h
  | fifoStreamTick now =>
    exact operatePlain_txSame (f := fun u => streamTick u now) (by simp) (by simp) h
  | hostFeedRepeat x n =>
    cases n with
    | zero =>
      obtain ⟨_, rfl⟩ := operateNothing_next (show operateNothing s = .next t from h)
      exact ⟨rfl, rfl⟩
    | succ n =>
      replace h : execHostFeedRepeat x (n + 1) s = .next t := h
      unfold execHostFeedRepeat at h
      refine operate_txSame ?_ h
      split
      · rw [feedTimes_eq]; exact feedAll_framed _ s
      · trivial
  | hostLoadFile name lines =>
    replace h : execHostLoadFile name lines s = .next t := h
    unfold execHostLoadFile at h
    refine operate_txSame ?_ h
    split
    rename_i samples keeps result _
    have h2 : Framed (feedAll s samples) (endLoad (feedAll s samples) keeps) := by constructor <;> simp
    exact (feedAll_framed samples s).trans h2
  | hostAttachStream => exact operatePlain_txSame (f := attachStream) rfl rfl h
  | hostDetachStream => exact operatePlain_txSame (f := detachStream) rfl rfl h
  | hostSetKeep b => exact operatePlain_txSame (f := fun u => setKeep u b) rfl rfl h
  | hostSetPhys vs =>
    replace h : execHostSetPhys vs s = .next t := h
    unfold execHostSetPhys at h
    refine operate_txSame ?_ h
    split
    · exact (physLanes_kept hE s vs).trans (Framed.feed _ _)
    · trivial
  | devSoftReset => exact operatePlain_txSame (f := softReset) rfl rfl h

/-! ### Every step -/

/-- Every operation an agent can issue keeps the invariants of the transaction state. -/
theorem exec_txInv {i : Instr} (hi : keepsPosition i = true ∨ i = .busFinish ∨ i = .devReset ∨
    (∃ bytes, i = .busWrite bytes) ∨ ∃ n, i = .busRead n) {s t : State} (h : exec i s = .next t) (hs : TxInv s) :
    TxInv t := by
  have hout : ∀ {body : State → Ran Result}, (body s).Meets True TxInv → operate s body = .next t → TxInv t := by
    intro body hb hx
    obtain ⟨r, u, hu, _, rfl⟩ | ⟨_, u, what, hu, rfl⟩ := operate_meets hb hx
    · exact (TxInv_congr (by simp) (by simp)).2 hu
    · exact (TxInv_congr rfl rfl).2 hu
  rcases hi with hi | rfl | rfl | ⟨bytes, rfl⟩ | ⟨n, rfl⟩
  · have hx := exec_txSame hi h
    exact (TxInv_congr hx.cfg hx.tx).2 hs
  · obtain ⟨_, rfl⟩ := operatePlain_next (show operatePlain s busFinish = .next t from h)
    exact (TxInv_congr rfl rfl).2 (TxInv_finish hs)
  · obtain ⟨_, rfl⟩ := operatePlain_next (show operatePlain s deviceReset = .next t from h)
    exact (TxInv_congr rfl rfl).2 (TxInv_deviceReset s)
  · cases bytes with
    | nil =>
      obtain ⟨_, rfl⟩ := operateNothing_next (show operateNothing s = .next t from h)
      exact hs
    | cons b rest =>
      replace h : execBusWrite (b :: rest) s = .next t := h
      unfold execBusWrite at h
      refine hout (Ran.Meets_bind (busWrite_txInv _ hs) (fun _ hu => hu) fun _ u hu => ?_) h
      exact hu
  · cases n with
    | zero =>
      obtain ⟨_, rfl⟩ := operateNothing_next (show operateNothing s = .next t from h)
      exact hs
    | succ n =>
      replace h : execBusRead (n + 1) s = .next t := h
      unfold execBusRead at h
      refine hout (Ran.Meets_bind (busRead_txInv _ hs) (fun _ hu => hu) fun _ u hu => ?_) h
      exact hu

theorem busPiece_issued (s : State) (op : BusOp) :
    (busPiece s op).1.toInstr = .busFinish ∨ (∃ bytes, (busPiece s op).1.toInstr = .busWrite bytes) ∨
      ∃ n, (busPiece s op).1.toInstr = .busRead n := by
  unfold busPiece
  split
  · split <;> exact .inr (.inl ⟨_, rfl⟩)
  · exact .inr (.inr ⟨_, rfl⟩)
  · exact .inr (.inr ⟨_, rfl⟩)
  · split <;> exact .inr (.inr ⟨_, rfl⟩)
  · exact .inl rfl

theorem hostPiece_issued (s : State) (op : HostOp) :
    keepsPosition (hostPiece s op).1 = true ∨ (hostPiece s op).1 = .devReset := by
  unfold hostPiece
  split
  · exact .inl rfl
  · split <;> exact .inl rfl
  · cases op <;> first | exact .inr rfl | exact .inl rfl

theorem runBus_txInv {s t : State} {ev : Timed BusOp} (h : runBus s ev = .next t) (hs : TxInv s) : TxInv t := by
  unfold runBus at h
  split at h
  · rename_i u hu
    cases h
    have hu' : TxInv u := by
      refine exec_txInv ?_ hu ((TxInv_congr rfl rfl).2 hs)
      obtain e | e | e := busPiece_issued s ev.op
      · exact .inr (.inl e)
      · exact .inr (.inr (.inr (.inl e)))
      · exact .inr (.inr (.inr (.inr e)))
    exact (TxInv_congr rfl rfl).2 hu'
  · cases h
  · cases h

theorem runHost_txInv {s t : State} {now : Time} {i : Instr} {rest : Option HostRest}
    (hi : keepsPosition i = true ∨ i = .devReset) (h : runHost s now i rest = .next t) (hs : TxInv s) : TxInv t := by
  unfold runHost at h
  split at h
  · rename_i u hu
    cases h
    have hu' : TxInv u := by
      refine exec_txInv ?_ hu ((TxInv_congr rfl rfl).2 hs)
      rcases hi with hi | hi
      · exact .inl hi
      · exact .inr (.inr (.inl hi))
    exact (TxInv_congr rfl rfl).2 hu'
  · cases h
  · cases h

/-- Every step keeps the invariants of the transaction state (10_state.md R31 to R35). -/
theorem step_txInv {s t : State} (h : step s = .next t) (hs : TxInv s) : TxInv t := by
  obtain ⟨_, _, h⟩ := step_next h
  unfold stepScheduled at h
  split at h
  · cases h; exact hs
  · rename_i a rest _
    have hs' : TxInv (scheduled s rest) := (TxInv_congr rfl rfl).2 hs
    cases a with
    | bus =>
      replace h : stepBus (scheduled s rest) = .next t := h
      unfold stepBus at h
      split at h
      · split at h
        · cases h; exact (TxInv_congr rfl rfl).2 hs'
        · exact runBus_txInv h hs'
      · split at h
        · cases h; exact hs'
        · split at h
          · cases h
          · exact runBus_txInv h ((TxInv_congr rfl rfl).2 hs')
    | feeder =>
      replace h : stepFeeder (scheduled s rest) = .next t := h
      unfold stepFeeder at h
      split at h
      · cases h; exact hs'
      · split at h
        · cases h
        · rename_i ev more _ _
          have hi : keepsPosition (ev.op.toInstr ev.now) = true := by cases ev.op <;> rfl
          exact exec_txInv (.inl hi) h ((TxInv_congr rfl rfl).2 hs')
    | host =>
      replace h : stepHost (scheduled s rest) = .next t := h
      unfold stepHost at h
      split at h
      · unfold continueHost at h
        split at h
        · exact runHost_txInv (.inl rfl) h hs'
        · exact runHost_txInv (.inl rfl) h hs'
        · have hx := operate_txSame (by
            show Framed _ (endLoad _ _)
            constructor <;> simp) h
          exact (TxInv_congr hx.cfg hx.tx).2 ((TxInv_congr rfl rfl).2 hs')
      · split at h
        · cases h; exact hs'
        · split at h
          · cases h
          · exact runHost_txInv (hostPiece_issued _ _) h ((TxInv_congr rfl rfl).2 hs')

end Sys2Proof.Machine
end

