-- ==== Sys2Proof/Laws/Dress.lean ====
section
/-! SUPPORT. No operation looks at the diagnostics or at the inputs other than the timestamp in force: run with other ones
it does the same (10_state.md R51, R56). And the interrupt level after every operation and every step (60_exceptions.md
R281). -/

namespace Sys2Proof.Machine

/-- The states of an outcome changed. -/
def onOutcome (h : State → State) : Host.Outcome State Fault Refusal → Host.Outcome State Fault Refusal
  | .next s => .next (h s)
  | .fault r => .fault r
  | .refused r => .refused r

/-- A state with other inputs, the timestamp in force kept, and diagnostics put before its own. -/
def dress (D : List Diag) (e : Env) (s : State) : State :=
  { s with diag := D ++ s.diag, env := { e with now := s.env.now } }

section

variable (D : List Diag) (e : Env) (s : State)

@[simp] theorem dress_cfg : (dress D e s).cfg = s.cfg := rfl
@[simp] theorem dress_fv : (dress D e s).fv = s.fv := rfl
@[simp] theorem dress_tx : (dress D e s).tx = s.tx := rfl
@[simp] theorem dress_fifo : (dress D e s).fifo = s.fifo := rfl
@[simp] theorem dress_user : (dress D e s).user = s.user := rfl
@[simp] theorem dress_irq : (dress D e s).irq = s.irq := rfl
@[simp] theorem dress_faulted : (dress D e s).faulted = s.faulted := rfl
@[simp] theorem dress_ovrSignals : (dress D e s).ovrSignals = s.ovrSignals := rfl
@[simp] theorem dress_busOut : (dress D e s).busOut = s.busOut := rfl
@[simp] theorem dress_results : (dress D e s).results = s.results := rfl
@[simp] theorem dress_now : (dress D e s).env.now = s.env.now := rfl
@[simp] theorem dress_diag : (dress D e s).diag = D ++ s.diag := rfl

/-- The surroundings of a dressed state. -/
def dressed : Surroundings :=
  { tx := s.tx, irq := s.irq, diag := D, busOut := s.busOut, results := s.results, env := e }

theorem dress_eq_swap : dress D e s = swap (dressed D e s) s := rfl

end

/-- For a state with the same frame, dressing is a change of surroundings. -/
theorem swap_dressed {D : List Diag} {e : Env} {s t : State} (h : Framed s t) :
    swap (dressed D e s) t = dress D e t := by
  simp [swap, dress, dressed, h.tx, h.irq, h.busOut, h.results]

/-- Dressing a blind operation that keeps the frame. -/
theorem onState_dress {α : Type} {D : List Diag} {e : Env} {s : State} {x : Ran α} (h : x.Meets True (Framed s)) :
    x.onState (swap (dressed D e s)) = x.onState (dress D e) := by
  cases x with
  | done a t => simp only [Ran.onState, swap_dressed h]
  | abandoned t =>
    obtain ⟨_, u, what, hu, rfl⟩ := h
    have h1 := swap_dressed (D := D) (e := e) hu
    simp only [Ran.onState]
    congr 1
    simp [swap, dress, dressed, violated, hu.tx, hu.irq, hu.busOut, hu.results]
  | refused r => rfl

theorem dress_respond (D : List Diag) (e : Env) (s : State) (r : Result) :
    respond (dress D e s) r = dress D e (respond s r) := by cases r <;> rfl

theorem dress_settle (D : List Diag) (e : Env) (s : State) : settleIrq (dress D e s) = dress D e (settleIrq s) := by
  simp only [settleIrq, dress]
  congr 1
  exact irqHolds_congr (s := s) (t := dress D e s) rfl rfl rfl rfl _

/-- An operation whose body does not look. -/
theorem dress_operate {D : List Diag} {e : Env} {s : State} {body : State → Ran Result}
    (h : body (dress D e s) = (body s).onState (dress D e)) :
    operate (dress D e s) body = onOutcome (dress D e) (operate s body) := by
  unfold operate
  rw [dress_faulted]
  split
  · rfl
  · rw [h]
    cases body s with
    | done r t => simp only [Ran.onState, conclude, onOutcome, dress_respond, dress_settle]
    | abandoned t => rfl
    | refused r => rfl

theorem dress_operatePlain {D : List Diag} {e : Env} {s : State} {f : State → State}
    (h : f (dress D e s) = dress D e (f s)) :
    operatePlain (dress D e s) f = onOutcome (dress D e) (operatePlain s f) :=
  dress_operate (body := fun t => .done .none (f t)) (by rw [h]; rfl)

theorem dress_operateNothing (D : List Diag) (e : Env) (s : State) :
    operateNothing (dress D e s) = onOutcome (dress D e) (operateNothing s) := by
  unfold operateNothing
  rw [dress_faulted]
  split <;> rfl

/-! ### FIFO -/

theorem dress_feed (D : List Diag) (e : Env) (s : State) (x : Sample) :
    feed (dress D e s) x = dress D e (feed s x) := by
  rw [dress_eq_swap, swap_feed, swap_dressed (Framed.feed s x)]

theorem dress_feedAll (D : List Diag) (e : Env) (s : State) (xs : List Sample) :
    feedAll (dress D e s) xs = dress D e (feedAll s xs) := by
  induction xs generalizing s with
  | nil => rfl
  | cons x rest ih => simp only [feedAll, dress_feed, ih]

theorem dress_streamTick (D : List Diag) (e : Env) (s : State) (t : Time) :
    streamTick (dress D e s) t = dress D e (streamTick s t) := by
  rw [dress_eq_swap, swap_streamTick, swap_dressed (framed_kept.streamTick s t)]

theorem dress_dequeue (D : List Diag) (e : Env) (s : State) :
    dequeue (dress D e s) = ((dequeue s).1, dress D e (dequeue s).2) := by
  rw [dress_eq_swap, swap_dequeue, swap_dressed (framed_kept.dequeue s)]

theorem dress_say (D : List Diag) (e : Env) (s : State) (d : Diag) : say (dress D e s) d = dress D e (say s d) := by
  simp [say, dress]

theorem dress_physLanes (D : List Diag) (e : Env) (s : State) (vs : List Ratio) :
    physLanes (dress D e s) vs = ((physLanes s vs).1, dress D e (physLanes s vs).2) := by
  induction vs generalizing s with
  | nil => rfl
  | cons v rest ih =>
    unfold physLanes
    rw [dress_cfg]
    split
    · simp only [ih]
    · simp only [dress_say, ih]

/-! ### The bus -/

theorem dress_addressByte (D : List Diag) (e : Env) (s : State) (b : Byte) :
    addressByte (dress D e s) b = dress D e (addressByte s b) := by
  unfold addressByte
  rw [dress_tx, dress_cfg]
  split
  · rfl
  · split <;> rfl

theorem dress_addressPhase (D : List Diag) (e : Env) (s : State) (bytes : List Byte) :
    addressPhase (dress D e s) bytes = ((addressPhase s bytes).1, dress D e (addressPhase s bytes).2) := by
  induction bytes generalizing s with
  | nil => rfl
  | cons b rest ih =>
    unfold addressPhase
    rw [show awaitsAddress (dress D e s) = awaitsAddress s from rfl]
    split
    · rw [dress_addressByte, ih]
    · rfl

theorem dress_advance (D : List Diag) (e : Env) (s : State) : advance (dress D e s) = dress D e (advance s) := by
  unfold advance
  rw [dress_cfg]
  split
  · rfl
  · rw [show advanceOpen (dress D e s) = advanceOpen s from rfl]
    split <;> rfl

theorem dress_moved (D : List Diag) (e : Env) (s : State) (t : TState) :
    moved (dress D e s) t = dress D e (moved s t) := by
  unfold moved
  rw [dress_advance, show setTState (dress D e (advance s)) t = dress D e (setTState (advance s) t) from rfl,
    dress_settle]

theorem dress_writeTarget (D : List Diag) (e : Env) (s : State) (b : Byte) :
    writeTarget (dress D e s) b = (writeTarget s b).onState (dress D e) := by
  rw [← onState_dress (writeTarget_framed b s)]
  rw [dress_eq_swap]
  unfold writeTarget
  rw [swap_cfg]
  split
  · exact swap_collWriteOff blind_hooks _ _ _ _ _ s
  · exact swap_collWrite blind_hooks _ _ _ s

theorem dress_readTarget (D : List Diag) (e : Env) (s : State) :
    readTarget (dress D e s) = (readTarget s).onState (dress D e) := by
  rw [← onState_dress (readTarget_framed s)]
  rw [dress_eq_swap]
  unfold readTarget
  rw [swap_cfg]
  split
  · exact swap_collReadOff blind_hooks _ _ _ _ s
  · exact swap_collRead blind_hooks _ _ s

theorem dress_dataWriteByte (D : List Diag) (e : Env) (s : State) (b : Byte) :
    dataWriteByte b (dress D e s) = (dataWriteByte b s).onState (dress D e) := by
  unfold dataWriteByte
  rw [dress_writeTarget]
  exact onState_andThen _ _ _ _ fun _ t =>
    congrArg (Ran.done ()) (dress_moved D e t .writing)

theorem dress_dataReadByte (D : List Diag) (e : Env) (s : State) :
    dataReadByte (dress D e s) = (dataReadByte s).onState (dress D e) := by
  unfold dataReadByte
  rw [dress_readTarget]
  exact onState_andThen _ _ _ _ fun v t =>
    congrArg (fun u => Ran.done () (reply u [v])) (dress_moved D e t .reading)

theorem dress_writeBytes (D : List Diag) (e : Env) (s : State) (bytes : List Byte) :
    writeBytes bytes (dress D e s) = (writeBytes bytes s).onState (dress D e) := by
  induction bytes generalizing s with
  | nil => rfl
  | cons b rest ih =>
    unfold writeBytes
    rw [dress_dataWriteByte]
    exact onState_andThen _ _ _ _ fun _ t => ih t

theorem dress_readBytes (D : List Diag) (e : Env) (s : State) (n : Nat) :
    readBytes n (dress D e s) = (readBytes n s).onState (dress D e) := by
  induction n generalizing s with
  | zero => rfl
  | succ n ih =>
    unfold readBytes
    rw [dress_dataReadByte]
    exact onState_andThen _ _ _ _ fun _ t => ih t

theorem dress_busWrite (D : List Diag) (e : Env) (s : State) (bytes : List Byte) :
    busWrite bytes (dress D e s) = (busWrite bytes s).onState (dress D e) := by
  unfold busWrite
  rw [dress_addressPhase]
  unfold writeRest
  dsimp only
  split
  · rfl
  · rw [dress_tx]
    split
    · simp only [takeWriteMisuse, dress_say]; rfl
    · exact dress_writeBytes D e _ _
    · exact dress_writeBytes D e _ _
    · rfl
    · rfl

theorem dress_busRead (D : List Diag) (e : Env) (s : State) (n : Nat) :
    busRead n (dress D e s) = (busRead n s).onState (dress D e) := by
  unfold busRead
  rw [show serves (dress D e s) = serves s from rfl, show readMisuse (dress D e s) n = readMisuse s n from rfl]
  split
  · exact dress_readBytes D e s n
  · simp only [takeReadMisuse, dress_say]; rfl

/-! ### Every operation -/

/-- A blind operation that keeps the frame, then its result. -/
theorem dress_engine {α : Type} {D : List Diag} {e : Env} {s : State} {x y : Ran α} {g : α → Result}
    (hx : x.Meets True (Framed s)) (hy : y = x.onState (swap (dressed D e s))) :
    (y.andThen fun a u => Ran.done (g a) u) = (x.andThen fun a u => Ran.done (g a) u).onState (dress D e) := by
  rw [hy, onState_dress hx]
  exact onState_andThen _ _ _ _ fun _ _ => rfl

/-- No operation looks at the diagnostics, nor at the inputs other than the timestamp in force (10_state.md R51, R56). -/
theorem exec_dress (D : List Diag) (e : Env) (i : Instr) (s : State) :
    exec i (dress D e s) = onOutcome (dress D e) (exec i s) := by
  have hE := framed_kept.toEngineKept
  have hrun := hooks_meets framed_kept
  have hblind := blind_hooks
  have hg := goodMap_any s.cfg
  cases i with
  | addrSetPlain8 a =>
    show execAddrSetPlain8 a (dress D e s) = onOutcome (dress D e) (execAddrSetPlain8 a s)
    unfold execAddrSetPlain8
    refine dress_operatePlain ?_
    rfl
  | addrSetRw7 r a =>
    show execAddrSetRw7 r a (dress D e s) = onOutcome (dress D e) (execAddrSetRw7 r a s)
    unfold execAddrSetRw7
    refine dress_operatePlain ?_
    rfl
  | addrSetRw7Ms6 r m a =>
    show execAddrSetRw7Ms6 r m a (dress D e s) = onOutcome (dress D e) (execAddrSetRw7Ms6 r m a s)
    unfold execAddrSetRw7Ms6
    refine dress_operatePlain ?_
    rfl
  | addrSetPlain16 a =>
    show execAddrSetPlain16 a (dress D e s) = onOutcome (dress D e) (execAddrSetPlain16 a s)
    unfold execAddrSetPlain16
    refine dress_operatePlain ?_
    rfl
  | fldRead a f =>
    show execFldRead a f (dress D e s) = onOutcome (dress D e) (execFldRead a f s)
    unfold execFldRead
    refine dress_operate ?_
    rw [dress_cfg]
    split
    · rfl
    · exact dress_engine (fldRead_meets hE hrun a f (goodField_any _) s) (swap_fldRead hblind (dressed D e s) _ _ _ s)
  | fldWrite a f v =>
    show execFldWrite a f v (dress D e s) = onOutcome (dress D e) (execFldWrite a f v s)
    unfold execFldWrite
    refine dress_operate ?_
    rw [dress_cfg]
    split
    · rfl
    · exact dress_engine (fldWrite_meets hE hrun a f (goodField_any _) _ s) (swap_fldWrite hblind (dressed D e s) _ _ _ _ s)
  | regReadB a k =>
    show execRegReadB a k (dress D e s) = onOutcome (dress D e) (execRegReadB a k s)
    unfold execRegReadB
    refine dress_operate ?_
    rw [dress_cfg]
    split
    · rfl
    · exact dress_engine (regReadB_meets hE hrun (goodRegister_any _) k s) (swap_regReadB hblind (dressed D e s) _ _ s)
  | regWriteB a k b =>
    show execRegWriteB a k b (dress D e s) = onOutcome (dress D e) (execRegWriteB a k b s)
    unfold execRegWriteB
    refine dress_operate ?_
    rw [dress_cfg]
    split
    · rfl
    · exact dress_engine (regWriteB_meets hE hrun (goodRegister_any _) k b s) (swap_regWriteB hblind (dressed D e s) _ _ _ s)
  | regReset a =>
    show execRegReset a (dress D e s) = onOutcome (dress D e) (execRegReset a s)
    unfold execRegReset
    refine dress_operate ?_
    rw [dress_cfg]
    split <;> rfl
  | collRead addr =>
    show execCollRead addr (dress D e s) = onOutcome (dress D e) (execCollRead addr s)
    unfold execCollRead
    refine dress_operate ?_
    exact dress_engine (collRead_meets hE hrun addr s hg) (swap_collRead hblind (dressed D e s) _ s)
  | collWrite addr b =>
    show execCollWrite addr b (dress D e s) = onOutcome (dress D e) (execCollWrite addr b s)
    unfold execCollWrite
    refine dress_operate ?_
    exact dress_engine (collWrite_meets hE hrun addr b s hg) (swap_collWrite hblind (dressed D e s) _ _ s)
  | collTryRead addr =>
    show execCollTryRead addr (dress D e s) = onOutcome (dress D e) (execCollTryRead addr s)
    unfold execCollTryRead
    refine dress_operate ?_
    exact dress_engine (collTryRead_meets hE hrun addr s hg) (swap_collTryRead hblind (dressed D e s) _ s)
  | collTryWrite addr b =>
    show execCollTryWrite addr b (dress D e s) = onOutcome (dress D e) (execCollTryWrite addr b s)
    unfold execCollTryWrite
    refine dress_operate ?_
    exact dress_engine (collTryWrite_meets hE hrun addr b s hg) (swap_collTryWrite hblind (dressed D e s) _ _ s)
  | collReadOff base o en =>
    show execCollReadOff base o en (dress D e s) = onOutcome (dress D e) (execCollReadOff base o en s)
    unfold execCollReadOff
    refine dress_operate ?_
    exact dress_engine (collReadOff_meets hE hrun base o en s hg) (swap_collReadOff hblind (dressed D e s) _ _ _ s)
  | collWriteOff base o b en =>
    show execCollWriteOff base o b en (dress D e s) = onOutcome (dress D e) (execCollWriteOff base o b en s)
    unfold execCollWriteOff
    refine dress_operate ?_
    exact dress_engine (collWriteOff_meets hE hrun base o b en s hg) (swap_collWriteOff hblind (dressed D e s) _ _ _ _ s)
  | collReset =>
    show execCollReset (dress D e s) = onOutcome (dress D e) (execCollReset s)
    unfold execCollReset
    refine dress_operatePlain ?_
    rfl
  | busWrite bytes =>
    cases bytes with
    | nil => exact dress_operateNothing D e s
    | cons b rest =>
      show execBusWrite (b :: rest) (dress D e s) = onOutcome (dress D e) (execBusWrite (b :: rest) s)
      unfold execBusWrite
      refine dress_operate ?_
      rw [dress_busWrite]
      exact onState_andThen _ _ _ _ fun _ _ => rfl
  | busRead count =>
    cases count with
    | zero => exact dress_operateNothing D e s
    | succ n =>
      show execBusRead (n + 1) (dress D e s) = onOutcome (dress D e) (execBusRead (n + 1) s)
      unfold execBusRead
      refine dress_operate ?_
      rw [dress_busRead]
      exact onState_andThen _ _ _ _ fun _ _ => rfl
  | busFinish =>
    show execBusFinish (dress D e s) = onOutcome (dress D e) (execBusFinish s)
    unfold execBusFinish
    refine dress_operatePlain ?_
    rfl
  | advance =>
    show execAdvance (dress D e s) = onOutcome (dress D e) (execAdvance s)
    unfold execAdvance
    exact dress_operatePlain (dress_advance D e s)
  | fifoFeed stamp x =>
    show execFifoFeed stamp x (dress D e s) = onOutcome (dress D e) (execFifoFeed stamp x s)
    unfold execFifoFeed
    refine dress_operate ?_
    rw [dress_cfg]
    split
    · rw [dress_feed]; rfl
    · rfl
  | fifoDeq =>
    show execFifoDeq (dress D e s) = onOutcome (dress D e) (execFifoDeq s)
    unfold execFifoDeq
    refine dress_operate ?_
    rw [dress_dequeue]; rfl
  | fifoReset =>
    show execFifoReset (dress D e s) = onOutcome (dress D e) (execFifoReset s)
    unfold execFifoReset
    refine dress_operatePlain ?_
    rfl
  | fifoClrOvr =>
    show execFifoClrOvr (dress D e s) = onOutcome (dress D e) (execFifoClrOvr s)
    unfold execFifoClrOvr
    refine dress_operatePlain ?_
    rfl
  | fifoSetMode m =>
    show execFifoSetMode m (dress D e s) = onOutcome (dress D e) (execFifoSetMode m s)
    unfold execFifoSetMode
    refine dress_operatePlain ?_
    rfl
  | fifoStreamTick now =>
    show execFifoStreamTick now (dress D e s) = onOutcome (dress D e) (execFifoStreamTick now s)
    unfold execFifoStreamTick
    exact dress_operatePlain (dress_streamTick D e s now)
  | hostFeedRepeat x n =>
    cases n with
    | zero => exact dress_operateNothing D e s
    | succ n =>
      show execHostFeedRepeat x (n + 1) (dress D e s) = onOutcome (dress D e) (execHostFeedRepeat x (n + 1) s)
      unfold execHostFeedRepeat
      refine dress_operate ?_
      rw [dress_cfg]
      split
      · rw [feedTimes_eq, feedTimes_eq, dress_feedAll]; rfl
      · rfl
  | hostLoadFile name lines =>
    show execHostLoadFile name lines (dress D e s) = onOutcome (dress D e) (execHostLoadFile name lines s)
    unfold execHostLoadFile
    refine dress_operate ?_
    rw [dress_cfg]
    split
    rw [dress_feedAll]
    rename_i keeps _ _
    cases keeps <;> rfl
  | hostAttachStream =>
    show execHostAttachStream (dress D e s) = onOutcome (dress D e) (execHostAttachStream s)
    unfold execHostAttachStream
    refine dress_operatePlain ?_
    rfl
  | hostDetachStream =>
    show execHostDetachStream (dress D e s) = onOutcome (dress D e) (execHostDetachStream s)
    unfold execHostDetachStream
    refine dress_operatePlain ?_
    rfl
  | hostSetKeep b =>
    show execHostSetKeep b (dress D e s) = onOutcome (dress D e) (execHostSetKeep b s)
    unfold execHostSetKeep
    refine dress_operatePlain ?_
    rfl
  | hostSetPhys vs =>
    show execHostSetPhys vs (dress D e s) = onOutcome (dress D e) (execHostSetPhys vs s)
    unfold execHostSetPhys
    refine dress_operate ?_
    rw [dress_cfg]
    split
    · rw [dress_physLanes, dress_feed]; rfl
    · rfl
  | devReset =>
    show execDevReset (dress D e s) = onOutcome (dress D e) (execDevReset s)
    unfold execDevReset
    refine dress_operatePlain ?_
    rfl
  | devSoftReset =>
    show execDevSoftReset (dress D e s) = onOutcome (dress D e) (execDevSoftReset s)
    unfold execDevSoftReset
    refine dress_operatePlain ?_
    rfl

/-! ### The interrupt level -/

theorem IrqInv_of {s t : State} (h : IrqInv s) (hc : t.cfg = s.cfg) (hf : t.fv = s.fv) (hq : t.fifo = s.fifo)
    (hu : t.user = s.user) (hi : t.irq = s.irq) : IrqInv t := (IrqInv_congr hc hf hq hu hi).2 h

/-- After every operation that is not abandoned the interrupt level is settled (60_exceptions.md R281). -/
theorem exec_irq {i : Instr} {s t : State} (h : exec i s = .next t) (hs : IrqInv s) (hf : t.faulted = false) :
    IrqInv t := by
  obtain ⟨_, rfl | ⟨r, u, _, rfl⟩ | ⟨u, what, _, rfl⟩⟩ := exec_next outline_kept h
  · exact hs
  · exact IrqInv_settle _
  · simp [violated] at hf

theorem runBus_irq {s t : State} {ev : Timed BusOp} (h : runBus s ev = .next t) (hs : IrqInv s)
    (hf : t.faulted = false) : IrqInv t := by
  unfold runBus at h
  split at h
  · rename_i u hu
    cases h
    have hu' : IrqInv u := exec_irq hu (IrqInv_of hs rfl rfl rfl rfl rfl) hf
    exact IrqInv_of hu' rfl rfl rfl rfl rfl
  · cases h
  · cases h

theorem runHost_irq {s t : State} {now : Time} {i : Instr} {rest : Option HostRest}
    (h : runHost s now i rest = .next t) (hs : IrqInv s) (hf : t.faulted = false) : IrqInv t := by
  unfold runHost at h
  split at h
  · rename_i u hu
    cases h
    have hu' : IrqInv u := exec_irq hu (IrqInv_of hs rfl rfl rfl rfl rfl) hf
    exact IrqInv_of hu' rfl rfl rfl rfl rfl
  · cases h
  · cases h

/-- After every step that does not set the latch the interrupt level is settled (60_exceptions.md R281). -/
theorem step_irq {s t : State} (h : step s = .next t) (hs : IrqInv s) (hf : t.faulted = false) : IrqInv t := by
  obtain ⟨_, _, h⟩ := step_next h
  unfold stepScheduled at h
  split at h
  · cases h; exact hs
  · rename_i a rest _
    have hs' : IrqInv (scheduled s rest) := IrqInv_of hs rfl rfl rfl rfl rfl
    cases a with
    | bus =>
      replace h : stepBus (scheduled s rest) = .next t := h
      unfold stepBus at h
      split at h
      · split at h
        · cases h; exact IrqInv_of hs' rfl rfl rfl rfl rfl
        · exact runBus_irq h hs' hf
      · split at h
        · cases h; exact hs'
        · split at h
          · cases h
          · exact runBus_irq h (IrqInv_of hs' rfl rfl rfl rfl rfl) hf
    | feeder =>
      replace h : stepFeeder (scheduled s rest) = .next t := h
      unfold stepFeeder at h
      split at h
      · cases h; exact hs'
      · split at h
        · cases h
        · exact exec_irq h (IrqInv_of hs' rfl rfl rfl rfl rfl) hf
    | host =>
      replace h : stepHost (scheduled s rest) = .next t := h
      unfold stepHost at h
      split at h
      · unfold continueHost at h
        split at h
        · exact runHost_irq h hs' hf
        · exact runHost_irq h hs' hf
        · obtain ⟨_, ⟨r, u, _, rfl⟩ | hu⟩ := operate_next h
          · exact IrqInv_settle _
          · cases hu
      · split at h
        · cases h; exact hs'
        · split at h
          · cases h
          · exact runHost_irq h (IrqInv_of hs' rfl rfl rfl rfl rfl) hf

end Sys2Proof.Machine
end

