-- ==== Sys2Proof/Laws/PerInstr.lean ====
section
/-! SUPPORT. What is said of every instruction as syntax: the length of its encoding (30_encoding.md R91, R92, R107). -/

namespace Sys2Proof.Laws.EncodedLength

/-- An instruction has an encoding exactly when it belongs to an address-phase format, and the encoding then has that
format's number of bytes, in either byte order (30_encoding.md R91, R107). -/
def Statement (i : Instr) : Prop :=
  ∀ order : Endian, (encode order i).map List.length = (formatOf i).map fun fmt => fmt.bytes.count

theorem addrSetPlain8 (a : BitVec 8) : Statement (.addrSetPlain8 a) := fun _ => rfl

theorem addrSetRw7 (r : Bool) (a : BitVec 7) : Statement (.addrSetRw7 r a) := fun _ => rfl

theorem addrSetRw7Ms6 (r m : Bool) (a : BitVec 6) : Statement (.addrSetRw7Ms6 r m a) := fun _ => rfl

theorem addrSetPlain16 (a : BitVec 16) : Statement (.addrSetPlain16 a) := by
  intro order; cases order <;> rfl

theorem fldRead (a f : Nat) : Statement (.fldRead a f) := fun _ => rfl

theorem fldWrite (a f v : Nat) : Statement (.fldWrite a f v) := fun _ => rfl

theorem regReadB (a k : Nat) : Statement (.regReadB a k) := fun _ => rfl

theorem regWriteB (a k : Nat) (b : Byte) : Statement (.regWriteB a k b) := fun _ => rfl

theorem regReset (a : Nat) : Statement (.regReset a) := fun _ => rfl

theorem collRead (addr : Nat) : Statement (.collRead addr) := fun _ => rfl

theorem collWrite (addr : Nat) (b : Byte) : Statement (.collWrite addr b) := fun _ => rfl

theorem collTryRead (addr : Nat) : Statement (.collTryRead addr) := fun _ => rfl

theorem collTryWrite (addr : Nat) (b : Byte) : Statement (.collTryWrite addr b) := fun _ => rfl

theorem collReadOff (base o : Nat) (e : Endian) : Statement (.collReadOff base o e) := fun _ => rfl

theorem collWriteOff (base o : Nat) (b : Byte) (e : Endian) : Statement (.collWriteOff base o b e) := fun _ => rfl

theorem collReset : Statement .collReset := fun _ => rfl

theorem busWrite (bytes : List Byte) : Statement (.busWrite bytes) := fun _ => rfl

theorem busRead (count : Nat) : Statement (.busRead count) := fun _ => rfl

theorem busFinish : Statement .busFinish := fun _ => rfl

theorem advance : Statement .advance := fun _ => rfl

theorem fifoFeed (stamp : Option Time) (s : Sample) : Statement (.fifoFeed stamp s) := fun _ => rfl

theorem fifoDeq : Statement .fifoDeq := fun _ => rfl

theorem fifoReset : Statement .fifoReset := fun _ => rfl

theorem fifoClrOvr : Statement .fifoClrOvr := fun _ => rfl

theorem fifoSetMode (m : FifoMode) : Statement (.fifoSetMode m) := fun _ => rfl

theorem fifoStreamTick (t : Time) : Statement (.fifoStreamTick t) := fun _ => rfl

theorem hostFeedRepeat (s : Sample) (n : Nat) : Statement (.hostFeedRepeat s n) := fun _ => rfl

theorem hostLoadFile (name : Text) (lines : List Text) : Statement (.hostLoadFile name lines) := fun _ => rfl

theorem hostAttachStream : Statement .hostAttachStream := fun _ => rfl

theorem hostDetachStream : Statement .hostDetachStream := fun _ => rfl

theorem hostSetKeep (b : Bool) : Statement (.hostSetKeep b) := fun _ => rfl

theorem hostSetPhys (vs : List Ratio) : Statement (.hostSetPhys vs) := fun _ => rfl

theorem devReset : Statement .devReset := fun _ => rfl

theorem devSoftReset : Statement .devSoftReset := fun _ => rfl

end Sys2Proof.Laws.EncodedLength
end

