-- ==== Sys2Proof/Laws/Reads.lean ====
section
/-! SUPPORT. The byte of a register read as the reads of its fields, one operation after another (41_register_ops.md R153,
R159). -/

namespace Sys2Proof.Machine

/-! ### The fields of a byte -/

/-- The fields of a byte among `ds`, by index, the first of `ds` having index `i`. -/
def fieldsRead (k : Nat) : Nat → List FieldDef → List Nat
  | _, [] => []
  | i, d :: rest => if (overlap d k).isSome then i :: fieldsRead k (i + 1) rest else fieldsRead k (i + 1) rest

theorem mem_fieldsRead {k i f : Nat} {ds : List FieldDef} :
    f ∈ fieldsRead k i ds ↔ ∃ j d, f = i + j ∧ ds[j]? = some d ∧ (overlap d k).isSome = true := by
  induction ds generalizing i with
  | nil => simp [fieldsRead]
  | cons d rest ih =>
    have : f ∈ fieldsRead k i (d :: rest) ↔
        (f = i ∧ (overlap d k).isSome = true) ∨ f ∈ fieldsRead k (i + 1) rest := by
      rw [fieldsRead]; split <;> simp_all
    rw [this, ih]
    constructor
    · rintro (⟨rfl, h⟩ | ⟨j, e, rfl, h1, h2⟩)
      · exact ⟨0, d, rfl, by simp, h⟩
      · exact ⟨j + 1, e, by omega, by simpa using h1, h2⟩
    · rintro ⟨_ | j, e, rfl, h1, h2⟩
      · left; simp at h1; subst h1; exact ⟨rfl, h2⟩
      · right; exact ⟨j, e, by omega, by simpa using h1, h2⟩

/-- The field at index `j` of a list has a part in the byte. -/
def hasPart (k : Nat) (ds : List FieldDef) (j : Nat) : Bool := (ds[j]?.map fun d => (overlap d k).isSome).getD false

theorem fieldsRead_eq (k i : Nat) (ds : List FieldDef) :
    fieldsRead k i ds = ((List.range ds.length).filter (hasPart k ds)).map (i + ·) := by
  induction ds generalizing i with
  | nil => rfl
  | cons d rest ih =>
    rw [fieldsRead, List.length_cons, List.range_succ_eq_map, List.filter_cons, ih]
    have : ((List.map Nat.succ (List.range rest.length)).filter (hasPart k (d :: rest))).map (i + ·) =
        ((List.range rest.length).filter (hasPart k rest)).map (i + 1 + ·) := by
      rw [List.filter_map, List.map_map]
      simp only [hasPart, Function.comp_def, Nat.succ_eq_add_one, List.getElem?_cons_succ]
      apply List.map_congr_left
      intro j _; omega
    rw [← this]
    cases ho : (overlap d k).isSome <;> simp [hasPart, ho]

theorem fieldsRead_append (k i : Nat) (ds es : List FieldDef) :
    fieldsRead k i (ds ++ es) = fieldsRead k i ds ++ fieldsRead k (i + ds.length) es := by
  induction ds generalizing i with
  | nil => simp [fieldsRead]
  | cons d rest ih =>
    rw [List.cons_append, fieldsRead, fieldsRead, ih, show i + 1 + rest.length = i + (d :: rest).length by simp; omega]
    split <;> simp

/-- A field of at least one bit has a part in the byte exactly when it starts below the byte's end and ends above its
start (41_register_ops.md R150). -/
theorem overlap_isSome {d : FieldDef} (hw : 1 ≤ d.wid) (k : Nat) :
    (overlap d k).isSome = (decide (d.off < 8 * k + 8) && decide (8 * k < d.off + d.wid)) := by
  unfold overlap
  by_cases h : d.off < 8 * k + 8 ∧ 8 * k < d.off + d.wid
  · simp [h]; omega
  · have : ¬ max d.off (8 * k) < min (d.off + d.wid) (8 * k + 8) := by omega
    simp [this]; omega

/-! ### The byte composed of their values -/

/-- The byte composed of the values of its fields, in field order. -/
def composeByte (k : Nat) : List FieldDef → List Half → Byte → Byte
  | [], _, acc => acc
  | d :: rest, xs, acc =>
    match overlap d k, xs with
    | none, xs => composeByte k rest xs acc
    | some p, x :: xs => composeByte k rest xs (acc ||| sliceByte p x)
    | some _, [] => acc

/-- A bit of the composed byte: it was there before, or one of the fields shows it. -/
theorem composeByte_bit {k i : Nat} {ds : List FieldDef} {xs : List Half} (acc : Byte)
    (hl : xs.length = (fieldsRead k i ds).length) (n : Nat) :
    (composeByte k ds xs acc).getLsbD n = true ↔ acc.getLsbD n = true ∨
      ∃ (q j : Nat) (d : FieldDef) (p : Overlap) (x : Half), (fieldsRead k i ds)[q]? = some (i + j) ∧
        ds[j]? = some d ∧ overlap d k = some p ∧ xs[q]? = some x ∧ (sliceByte p x).getLsbD n = true := by
  induction ds generalizing i xs acc with
  | nil => simp [composeByte]
  | cons d rest ih =>
    cases ho : overlap d k with
    | none =>
      simp only [fieldsRead, ho, Option.isSome_none, Bool.false_eq_true, if_false] at hl ⊢
      simp only [composeByte, ho]
      rw [ih acc hl]
      apply or_congr Iff.rfl
      constructor
      · rintro ⟨q, j, e, p, x, h1, h2, h3⟩
        exact ⟨q, j + 1, e, p, x, by rw [h1]; congr 1; omega, by simpa using h2, h3⟩
      · rintro ⟨q, j, e, p, x, h1, h2, h3⟩
        cases j with
        | zero => simp at h2; subst h2; simp [ho] at h3
        | succ j => exact ⟨q, j, e, p, x, by rw [h1]; congr 1; omega, by simpa using h2, h3⟩
    | some p0 =>
      simp only [fieldsRead, ho, Option.isSome_some, if_true] at hl ⊢
      cases xs with
      | nil => simp at hl
      | cons x0 xs =>
        simp only [composeByte, ho]
        rw [ih _ (by simpa using hl), BitVec.getLsbD_or, Bool.or_eq_true, or_assoc]
        apply or_congr Iff.rfl
        constructor
        · rintro (h | ⟨q, j, e, p, x, h1, h2, h3, h4⟩)
          · exact ⟨0, 0, d, p0, x0, by simp, by simp, ho, by simp, h⟩
          · exact ⟨q + 1, j + 1, e, p, x, by rw [List.getElem?_cons_succ, h1]; congr 1; omega, by simpa using h2, h3,
              by simpa using h4⟩
        · rintro ⟨q, j, e, p, x, h1, h2, h3, h4, h5⟩
          cases q with
          | zero =>
            simp at h1 h4
            subst h1 h4
            simp at h2; subst h2
            rw [ho] at h3; cases h3
            exact .inl h5
          | succ q =>
            right
            simp only [List.getElem?_cons_succ] at h1 h4
            have := (mem_fieldsRead.1 (List.mem_of_getElem? h1))
            obtain ⟨j', d', hj', _⟩ := this
            cases j with
            | zero => omega
            | succ j => exact ⟨q, j, e, p, x, by rw [h1]; congr 1; omega, by simpa using h2, h3, h4, h5⟩

/-- A bit of a field's slice is the field's bit at that place of the register. -/
theorem slice_shows {d : FieldDef} {k : Nat} {p : Overlap} (hp : overlap d k = some p) (x : Half) {j : Nat}
    (hj : j < 8) :
    (sliceByte p x).getLsbD j =
      (decide (d.off ≤ 8 * k + j ∧ 8 * k + j < d.off + d.wid) && x.getLsbD (8 * k + j - d.off)) := by
  rw [sliceByte_bit p x hj]
  have h := overlap_some hp
  congr 1
  · apply decide_eq_decide.2
    by_cases hw : d.off ≤ 8 * k + j ∧ 8 * k + j < d.off + d.wid
    · have hm := overlap_mine hp (j := 8 * k + j - d.off) (by omega)
      omega
    · omega
  · congr 1; omega

/-! ### The reads one after another -/

/-- Reading the fields of two lists is reading those of the first, then those of the second. -/
theorem readFields_append (run : Runner) (a k i : Nat) (ds es : List FieldDef) (acc : Byte) (s : State) :
    readFields run a k i (ds ++ es) acc s =
      (readFields run a k i ds acc s).andThen fun v t => readFields run a k (i + ds.length) es v t := by
  induction ds generalizing i acc s with
  | nil => rfl
  | cons d rest ih =>
    rw [List.cons_append, readFields, readFields, show i + (d :: rest).length = i + 1 + rest.length by simp; omega]
    cases overlap d k with
    | none => exact ih _ _ _
    | some p =>
      dsimp only
      cases fldRead run a i d s with
      | done v t => exact ih _ _ _
      | abandoned t => rfl
      | refused r => rfl

/-- What FLD.READ run alone says of the engine's read, when no hook abandons it. -/
theorem fldRead_exec {s u : State} {a f : Nat} {d : FieldDef} (hd : s.cfg.field a f = some d)
    (h : exec (.fldRead a f) s = .next u) (hu : u.faulted = false) :
    ∃ x t, fldRead hooks a f d s = .done x t ∧ Framed s t ∧ u = settleIrq (respond t (.value x)) := by
  have hm := fldRead_meets (stop := True) framed_kept.toEngineKept (hooks_meets framed_kept) a f (goodField_any d) s
  replace h : execFldRead a f s = .next u := h
  unfold execFldRead at h
  obtain ⟨_, ⟨r, w, e, rfl⟩ | e⟩ := operate_next h <;> simp only [hd] at e <;> cases hr : fldRead hooks a f d s <;>
    rw [hr] at e hm <;> cases e
  · exact ⟨_, _, rfl, hm, rfl⟩
  · obtain ⟨_, w, what, _, rfl⟩ := hm
    cases hu

/-- Reading the fields of a byte is running FLD.READ on each of them in field order: the byte is composed of their results,
and the state is theirs but for the results and the interrupt level. -/
theorem readFields_exec {a k : Nat} {i : Nat} {ds : List FieldDef} {s u : State} (acc : Byte)
    (hd : ∀ j d, ds[j]? = some d → s.cfg.field a (i + j) = some d)
    (h : execAll ((fieldsRead k i ds).map fun f => .fldRead a f) s = .next u) (hs : s.faulted = false)
    (hu : u.faulted = false) :
    ∃ xs t, readFields hooks a k i ds acc s = .done (composeByte k ds xs acc) t ∧ Framed s t ∧
      xs.length = (fieldsRead k i ds).length ∧ u.results = s.results ++ xs.map Result.value ∧ u.fv = t.fv ∧
      ∀ R, settleIrq { u with results := R } = settleIrq { t with results := R } := by
  induction ds generalizing i s acc with
  | nil =>
    simp only [fieldsRead, List.map_nil, execAll] at h
    cases h
    exact ⟨[], _, rfl, Framed.refl _, rfl, by simp, rfl, fun _ => rfl⟩
  | cons d rest ih =>
    have hdi : s.cfg.field a i = some d := by simpa using hd 0 d (by simp)
    have hrest : ∀ w : State, w.cfg = s.cfg → ∀ j e, rest[j]? = some e →
        w.cfg.field a (i + 1 + j) = some e := by
      intro w hw j e he
      rw [hw, show i + 1 + j = i + (j + 1) by omega]
      exact hd (j + 1) e (by simpa using he)
    cases ho : overlap d k with
    | none =>
      simp only [fieldsRead, ho, Option.isSome_none, Bool.false_eq_true, if_false] at h ⊢
      obtain ⟨xs, t, e1, e2⟩ := ih acc (hrest s rfl) h hs
      exact ⟨xs, t, by rw [readFields, ho]; simp only [composeByte, ho]; exact e1, e2⟩
    | some p =>
      simp only [fieldsRead, ho, Option.isSome_some, if_true, List.map_cons, execAll] at h ⊢
      cases hw : exec (.fldRead a i) s with
      | fault r => rw [hw] at h; cases h
      | refused r => rw [hw] at h; cases h
      | next w =>
        rw [hw] at h
        have hwf : w.faulted = false := by
          cases hc : w.faulted with
          | false => rfl
          | true =>
            have h : execAll ((fieldsRead k (i + 1) rest).map fun f => .fldRead a f) w = .next u := h
            cases hl : fieldsRead k (i + 1) rest with
            | nil => rw [hl] at h; simp only [List.map_nil, execAll] at h; cases h; rw [hc] at hu; exact hu
            | cons b l => rw [hl] at h; simp [execAll, exec_faulted hc] at h
        obtain ⟨x, t, hx, hF, rfl⟩ := fldRead_exec hdi hw hwf
        obtain ⟨xs, t2, e1, e2, e3, e4, e5, e6⟩ := ih (acc ||| sliceByte p x) (hrest _ (by simp [hF.cfg])) h hwf
        let g : Surroundings :=
          { tx := t.tx, irq := (settleIrq (respond t (.value x))).irq, diag := [], busOut := t.busOut,
            results := t.results ++ [.value x], env := t.env }
        have hg : settleIrq (respond t (.value x)) = swap g t := rfl
        rw [hg, swap_readFields blind_hooks] at e1
        cases hr : readFields hooks a k (i + 1) rest (acc ||| sliceByte p x) t with
        | abandoned t3 => rw [hr] at e1; cases e1
        | refused r => rw [hr] at e1; cases e1
        | done v t3 =>
          have hm : Framed t t3 := by
            have := readFields_meets (stop := True) framed_kept.toEngineKept (hooks_meets framed_kept) a k (i + 1)
              (fun d _ => goodField_any d) (ds := rest) (acc ||| sliceByte p x) t
            rw [hr] at this; exact this
          rw [hr] at e1
          simp only [Ran.onState, Ran.done.injEq] at e1
          obtain ⟨rfl, rfl⟩ := e1
          refine ⟨x :: xs, t3, ?_, hF.trans hm, by simp [e3], ?_, by simpa using e5, ?_⟩
          · rw [readFields, ho]; dsimp only; rw [hx]; simp only [composeByte, ho]; exact hr
          · rw [e4, show (settleIrq (respond t (.value x))).results = t.results ++ [.value x] from rfl, hF.results]
            simp
          · intro R
            let b : State := { t3 with results := R }
            have hb : ({ swap g t3 with results := R } : State) = { b with irq := g.irq } := by
              have h1 := hm.tx; have h2 := hm.busOut; have h3 := hm.env
              simp [swap, g, b, h1, h2, h3]
            rw [e6 R, hb]
            simp only [settleIrq]
            congr 1
            exact irqHolds_congr (s := b) (t := { b with irq := g.irq }) rfl rfl rfl rfl _

end Sys2Proof.Machine
end

