-- ==== Sys2Proof/Tests/Slice0.lean ====
section
/-! SUPPORT. The model's own tests. Expected results are those of the spec's vectors (95_test_vectors.md; the vector is named
in each docstring) or of the rule named; the witnesses at the end meet the hypotheses of the statements. -/

namespace Sys2Proof.Tests

open Sys2Proof Sys2Proof.Machine

/-! ### Fixtures and helpers -/

/-- A next state that passes a check. -/
def gives (o : Host.Outcome State Fault Refusal) (p : State → Bool) : Bool :=
  match o with
  | .next t => p t
  | .fault _ => false
  | .refused _ => false

/-- A refusal for this reason. -/
def refuses (o : Host.Outcome State Fault Refusal) (r : Refusal) : Bool :=
  match o with
  | .next _ => false
  | .fault _ => false
  | .refused q => q == r

/-- The reset state of a configuration. -/
def start (c : Cfg) : State := settleIrq (deviceReset { State.reset with cfg := c })

/-- A state in a transaction state, at an address. -/
def placed (s : State) (st : TState) (a : BitVec 16) : State :=
  { s with tx := { s.tx with tstate := st, curAddr := a, addrValid := true } }

/-- A state with a FIFO mode and a queue. -/
def queued (s : State) (m : FifoMode) (q : List Sample) : State :=
  settleIrq { s with fifo := { s.fifo with mode := m, q := q } }

/-- Fixture REF-A. -/
def a0 : State := start refA

/-- Register CONFIG of REF-B. -/
def refBConfig : RegisterDef :=
  { addr := 1, width := .w16, rst := 0x1234,
    fields := [{ off := 0, wid := 6, acc := .readWrite }, { off := 6, wid := 4, acc := .readWrite },
      { off := 10, wid := 6, acc := .readWrite }] }

/-- Fixture REF-B (95_test_vectors.md section 1.2). -/
def refB : Cfg :=
  { map :=
      [{ addr := 0, width := .w16, rst := 0,
         fields := [{ off := 0, wid := 8, acc := .read, prov := some (.pvSample 0 0 false) },
           { off := 8, wid := 8, acc := .read, prov := some (.pvSample 0 1 false) }] },
       refBConfig,
       { addr := 2, width := .w8, rst := 0x5A, fields := [{ off := 0, wid := 8, acc := .read }] }]
    wideAccess := .offset
    regEndian := some .msbFirst
    lanes := 1
    cap := 2
    dflt := [0]
    resolution := ⟨128, 0⟩
    minPhys := ⟨-256, 0⟩
    maxPhys := ⟨32767, 127⟩ }

/-- Register WIDE of REF-C. -/
def refCWide : RegisterDef :=
  { addr := 0x20, width := .w16, rst := 0xBEEF,
    fields := [{ off := 0, wid := 6, acc := .readWrite }, { off := 6, wid := 4, acc := .readWrite },
      { off := 10, wid := 6, acc := .readWrite }] }

/-- Fixture REF-C (95_test_vectors.md section 1.3) with a byte order. -/
def refC (e : Endian) : Cfg :=
  { map :=
      [refCWide,
       { addr := 0x22, width := .w8, rst := 0x77, fields := [{ off := 0, wid := 8, acc := .readWrite }] }]
    missPolicy := .logAndZero
    regEndian := some e
    lanes := 3
    cap := 4
    dflt := [0, 0, 0] }

/-- Fixture REF-D (95_test_vectors.md section 1.4) with an address order. -/
def refD (e : Endian) : Cfg :=
  { map :=
      [{ addr := 0x1234, width := .w8, rst := 0, fields := [{ off := 0, wid := 8, acc := .readWrite }] },
       { addr := 0x1235, width := .w8, rst := 0x11, fields := [{ off := 0, wid := 8, acc := .readWrite }] }]
    missPolicy := .logAndZero
    format := plain16
    addrOrder := e
    lanes := 3
    cap := 4
    dflt := [0, 0, 0] }

/-- A configuration of one register over REF-A's parameters. -/
def only (r : RegisterDef) : Cfg := { refA with map := [r] }

/-- A one-field register at address 0. -/
def one (d : FieldDef) : RegisterDef := { addr := 0, width := .w8, rst := 0, fields := [d] }

/-- The state of a one-field configuration. -/
def s1 (d : FieldDef) : State := start (only (one d))

/-! ### Well-formedness: each check refuses an ill-formed term -/

theorem test_wf_fixtures : refA.wf = true ∧ refB.wf = true ∧ (refC .msbFirst).wf = true ∧ (refD .lsbFirst).wf = true := by
  decide

theorem test_wf_refuses_field_without_bits : (only (one { off := 0, wid := 0, acc := .read })).wf = false := by decide
theorem test_wf_refuses_field_outside : (only (one { off := 4, wid := 5, acc := .read })).wf = false := by decide
theorem test_wf_refuses_wide_flag : (only (one { off := 0, wid := 2, acc := .read, kind := .flag })).wf = false := by
  decide
theorem test_wf_refuses_clear_value : (only (one { off := 0, wid := 2, acc := .readToClear, clearVal := 4 })).wf = false := by
  decide
theorem test_wf_refuses_sample_lane :
    (only (one { off := 0, wid := 8, acc := .read, prov := some (.pvSample 3 0 false) })).wf = false := by decide
theorem test_wf_refuses_overlap :
    (only { addr := 0, width := .w8, rst := 0,
            fields := [{ off := 0, wid := 4, acc := .read }, { off := 3, wid := 4, acc := .read }] }).wf = false := by
  decide
theorem test_wf_refuses_descending_fields :
    (only { addr := 0, width := .w8, rst := 0,
            fields := [{ off := 4, wid := 4, acc := .read }, { off := 0, wid := 4, acc := .read }] }).wf = false := by
  decide
theorem test_wf_refuses_wide_reset : (only { addr := 0, width := .w8, rst := 0x100, fields := [] }).wf = false := by decide
theorem test_wf_refuses_tagged_field :
    (only { addr := 0, width := .w8, rst := 0, tag := 1, fields := [{ off := 0, wid := 1, acc := .read }] }).wf = false := by
  decide
theorem test_wf_refuses_straddling_clear :
    (only { addr := 0, width := .w16, rst := 0, fields := [{ off := 6, wid := 4, acc := .readToClear }] }).wf = false := by
  decide
theorem test_wf_refuses_shared_address :
    ({ refA with map := [one { off := 0, wid := 8, acc := .read }, one { off := 0, wid := 8, acc := .read }] }).wf = false := by
  decide
theorem test_wf_refuses_no_byte_order : ({ refB with regEndian := none }).wf = false := by decide
theorem test_wf_refuses_flag_in_mask : ({ refA with format := { plain8 with rwBit := some 7 } }).wf = false := by decide
theorem test_wf_refuses_equal_flags : ({ refA with format := { rw7 with msBit := some 7 } }).wf = false := by decide
theorem test_wf_refuses_address_width : ({ refA with format := { plain8 with bits := 17 } }).wf = false := by decide
theorem test_wf_refuses_no_capacity : ({ refA with cap := 0 }).wf = false := by decide
theorem test_wf_refuses_default_lanes : ({ refA with dflt := [0] }).wf = false := by decide
theorem test_wf_refuses_wrap_up : ({ refA with aiWrap := some (0x28, 0x28) }).wf = false := by decide
theorem test_wf_refuses_empty_range : ({ refA with aiRange := some (0x33, 0x32) }).wf = false := by decide
theorem test_wf_refuses_wide_gate : ({ refA with aiGateFlag := some (0x12, 0) }).wf = false := by decide
theorem test_wf_refuses_range_of_lanes : ({ refA with resolution := ⟨2, 0⟩ }).wf = false := by decide
theorem test_wf_refuses_stream_order :
    ({ refA with stream := .table [(20, [0, 0, 0]), (10, [0, 0, 0])] 30 }).wf = false := by decide
/-- A straddling field is refused with a provider that may change the state, accepted with one that does not (00_scope.md
R9, log 25). -/
theorem test_wf_straddling_provider :
    (only { addr := 0, width := .w16, rst := 0,
            fields := [{ off := 6, wid := 4, acc := .read, prov := some (.custom 0) }] }).wf = false ∧
      (only { addr := 0, width := .w16, rst := 0,
              fields := [{ off := 6, wid := 4, acc := .read, prov := some (.customPure 0) }] }).wf = true := by decide

/-- Operands that name nothing of the configuration (log 21). -/
theorem test_wf_refuses_operands :
    Instr.wf refA (.fldRead 0x10 4) = false ∧ Instr.wf refA (.regReadB 0x10 1) = false ∧
      Instr.wf refA (.regReset 0x14) = false ∧ Instr.wf refA (.fifoFeed none [1]) = false ∧
      Instr.wf refA (.hostSetPhys []) = false ∧ Instr.wf refA (.addrSetPlain16 0) = false := by decide

theorem test_step_refuses_ill_formed : refuses (step { a0 with cfg := { refA with cap := 0 } }) .illFormedConfig = true := by
  decide

/-! ### Decoding: words written out bit by bit from 30_encoding.md R92 and R93 -/

theorem test_decode_plain8 : decodeTableWord 8 0b00110010 = some (.addrSetPlain8 0x32) := by decide
/-- 0xB2 is r = 1, address 0x32 (vector B11). -/
theorem test_decode_rw7 : decode rw7 .msbFirst [0b10110010, 0x55] = .ok (.addrSetRw7 true 0x32, [0x55]) := by decide
/-- 0xB2 is r = 1, m = 0, address 0x32; 0x52 is r = 0, m = 1, address 0x12 (vectors B14, B15). -/
theorem test_decode_rw7ms6 :
    decode rw7ms6 .msbFirst [0b10110010] = .ok (.addrSetRw7Ms6 true false 0x32, []) ∧
      decode rw7ms6 .msbFirst [0b01010010] = .ok (.addrSetRw7Ms6 false true 0x12, []) := by decide
/-- The two orders of the two address bytes (vectors B17, B18). -/
theorem test_decode_plain16 :
    decodeTableWord 16 0b0011010000010010 = some (.addrSetPlain16 0x1234) ∧
      decode plain16 .lsbFirst [0x35, 0x12] = .ok (.addrSetPlain16 0x1235, []) := by decide
theorem test_decode_refuses :
    decode plain16 .msbFirst [0x12] = .error .needMoreBytes ∧ decode plain8 .msbFirst [] = .error .needMoreBytes ∧
      decode { plain8 with mask := 0xFE } .msbFirst [0] = .error .formatHasNoRow ∧ decodeTableWord 32 0 = none := by decide
theorem test_fetch_word_runs :
    gives (step (State.reset.withFetchWord 16 0x3412)) (fun t => t.tx.curAddr == 0x1234 && t.tx.tstate == .addressSet) =
      true := by decide

/-! ### One step of each instruction -/

/-- Vector S8, step 3. -/
theorem test_addrSetPlain8 :
    gives (exec (.addrSetPlain8 0x32) a0) (fun t => t.tx.tstate == .addressSet && t.tx.curAddr == 0x32) = true := by decide
/-- Vector B10: the read flag puts the machine in Reading at once. -/
theorem test_addrSetRw7 :
    gives (exec (.addrSetRw7 true 0x12) (start { refA with format := rw7 }))
      (fun t => t.tx.tstate == .reading && t.tx.rwLatch) = true := by decide
/-- Vector B15: 0x52 is a write with the multiple-operation flag. -/
theorem test_addrSetRw7Ms6 :
    gives (exec (.addrSetRw7Ms6 false true 0x12) (start { refA with format := rw7ms6 }))
      (fun t => t.tx.tstate == .writing && t.tx.msLatch && !t.tx.rwLatch) = true := by decide
/-- Vector B17. -/
theorem test_addrSetPlain16 :
    gives (exec (.addrSetPlain16 0x1234) (start (refD .msbFirst)))
      (fun t => t.tx.tstate == .addressSet && t.tx.curAddr == 0x1234) = true := by decide

/-- Field ID of REF-A reads 0xA5; a field that does not exist is refused by name (log 21). -/
theorem test_fldRead :
    gives (exec (.fldRead 0x00 0) a0) (fun t => t.results == [.value 0xA5]) = true ∧
      refuses (exec (.fldRead 0x01 0) a0) .noSuchField = true := by decide
/-- Vector F10: a value of 4 bits written to a field of 3 is cut to 5. -/
theorem test_fldWrite_cuts :
    gives (exec (.fldWrite 0 0 0b1101) (s1 { off := 0, wid := 3, acc := .readWrite })) (fun t => getField t 0 0 == 5) =
      true := by decide
/-- Vector F2: an unknown symbol is refused with its record, the mode hook does not run. -/
theorem test_fldWrite_enum :
    gives (exec (.fldWrite 0x10 1 3) a0)
      (fun t => t.diag == [.wInvalidEnum 0x10 1 3] && getField t 0x10 1 == 0 && t.fifo.mode == .bypass) = true := by decide

/-- Vector S2: the first read of STATUS shows DRDY and clears it. -/
theorem test_regReadB_clears :
    gives (exec (.regReadB 0x11 0) (setField a0 0x11 0 1)) (fun t => t.results == [.byte 0x05] && getField t 0x11 0 == 0) =
      true := by decide
/-- Vector G3: reserved bits read as their reset bits. -/
theorem test_regReadB_reserved :
    gives (exec (.regReadB 0x13 0) (setField a0 0x13 0 7)) (fun t => t.results == [.byte 0xF7]) = true := by decide
/-- Vector G8: the high byte of a straddled register. -/
theorem test_regWriteB_straddle :
    gives (exec (.regWriteB 0x20 1 0x00) (start (refC .lsbFirst)))
      (fun t => getField t 0x20 0 == 47 && getField t 0x20 1 == 3 && getField t 0x20 2 == 0) = true := by decide
/-- Vector G1: a tagged bit written with 1 is recorded, and the fields are written. -/
theorem test_regWriteB_tagged :
    gives (exec (.regWriteB 0x10 0 0x10) (setField a0 0x10 0 1))
      (fun t => t.diag == [.wTaggedWrite 0x10 0 0x10] && getField t 0x10 0 == 0) = true := by decide
/-- 41_register_ops.md R155: the fields of the register alone, no hook. -/
theorem test_regReset :
    gives (exec (.regReset 0x12) (setField (setField a0 0x12 0 0x99) 0x13 0 7))
      (fun t => getField t 0x12 0 == 0x40 && getField t 0x13 0 == 7) = true := by decide

/-- Vector C1. -/
theorem test_collRead :
    gives (exec (.collRead 0x7F) a0) (fun t => t.results == [.byte 0] && t.diag == [.wUnmappedRead 0x7F]) = true := by decide
/-- Vector G7: the first address of a 16-bit register is its high byte when the high byte goes first. -/
theorem test_collRead_order :
    gives (exec (.collRead 0x20) (start (refC .msbFirst))) (fun t => t.results == [.byte 0xBE]) = true := by decide
/-- Vectors C2 and G9. -/
theorem test_collWrite :
    gives (exec (.collWrite 0x21 0x00) (start (refC .msbFirst))) (fun t => getField t 0x20 0 == 0 && getField t 0x20 1 == 8) =
        true ∧
      gives (exec (.collWrite 0x7F 0xAA) (start { refA with missPolicy := .silent })) (fun t => t.diag == []) = true := by
  decide
/-- Vector C3. -/
theorem test_collTryRead :
    gives (exec (.collTryRead 0x7F) a0) (fun t => t.results == [.hitByte false 0] && t.diag == []) = true ∧
      gives (exec (.collTryRead 0x12) a0) (fun t => t.results == [.hitByte true 0x40]) = true := by decide
/-- Vector C3. -/
theorem test_collTryWrite :
    gives (exec (.collTryWrite 0x12 0x55) a0) (fun t => t.results == [.hit true] && getField t 0x12 0 == 0x55) = true ∧
      gives (exec (.collTryWrite 0x7F 1) a0) (fun t => t.results == [.hit false] && t.diag == []) = true := by decide
/-- Vector C11. -/
theorem test_collReadOff :
    gives (exec (.collReadOff 1 0 .lsbFirst) (start refB)) (fun t => t.results == [.byte 0x34]) = true ∧
      gives (exec (.collReadOff 2 1 .msbFirst) (start refB)) (fun t => t.results == [.byte 0] && t.diag == []) = true := by
  decide
/-- Vector C6: the first byte in transfer order is the high byte; a straddling field keeps its low bits. -/
theorem test_collWriteOff :
    gives (exec (.collWriteOff 1 0 0xAB .msbFirst) (start refB))
      (fun t => getField t 1 0 == 52 && getField t 1 1 == 12 && getField t 1 2 == 42) = true := by decide
/-- Vector C4. -/
theorem test_collReset :
    gives (exec .collReset (queued (setField a0 0x12 0 0x99) .fifo [[1, 2, 3]]))
      (fun t => getField t 0x12 0 == 0x40 && t.fifo.mode == .fifo && t.fifo.q == [[1, 2, 3]]) = true := by decide

/-- Vector P2, step 1 in part: the address byte, the burst flag and two data bytes in one write. -/
theorem test_busWrite :
    gives (exec (.busWrite [0x52, 0x11, 0x0A]) (start { refA with format := rw7ms6 }))
      (fun t => getField t 0x12 0 == 0x11 && getField t 0x13 0 == 0x0A && t.tx.curAddr == 0x14) = true := by decide
/-- Vector B11: bytes after a read address are ignored with one record. -/
theorem test_busWrite_misuse :
    gives (exec (.busWrite [0xB2, 0x55]) (start { refA with format := rw7 }))
      (fun t => t.tx.tstate == .reading && t.diag == [.eWriteWhileReading 1]) = true := by decide
/-- The first two bytes of vector B13: one sample is dequeued, the address advances. -/
theorem test_busRead_burst :
    gives (exec (.busRead 2) (placed (queued a0 .fifo [[100, 0xFF38, 300], [7, 8, 9]]) .addressSet 0x32))
      (fun t => t.busOut == [0x64, 0x00] && t.fifo.q == [[7, 8, 9]] && t.tx.curAddr == 0x34) = true := by decide
/-- Vector B1. -/
theorem test_busRead_misuse :
    gives (exec (.busRead 3) a0) (fun t => t.busOut == [0, 0, 0] && t.diag == [.eReadNoAddress 3]) = true := by decide
/-- Vectors B6 and B19. -/
theorem test_busFinish :
    gives (exec .busFinish (placed a0 .writing 0x11))
        (fun t => t.tx.tstate == .idle && !t.tx.addrValid && t.tx.curAddr == 0x11) = true ∧
      gives (exec .busFinish (placed (start { refA with addrPreserve := true }) .reading 0x13)) (fun t => t.tx.addrValid) =
        true := by decide
/-- Vectors S4 and C5: the wrap, and the byte phase of Offset mode. -/
theorem test_advance :
    gives (exec .advance (placed (start { refA with aiWrap := some (0x2E, 0x28) }) .reading 0x2D))
        (fun t => t.tx.curAddr == 0x28) = true ∧
      gives (exec .advance (placed (start refB) .reading 1)) (fun t => t.tx.curAddr == 1 && t.tx.bytePhase == 1) = true := by
  decide

/-- Vector S6: the fifth sample evicts the oldest and signals once. -/
theorem test_fifoFeed_evicts :
    gives (exec (.fifoFeed none [5, 5, 5]) (queued a0 .continuous [[1, 1, 1], [2, 2, 2], [3, 3, 3], [4, 4, 4]]))
      (fun t => t.fifo.q == [[2, 2, 2], [3, 3, 3], [4, 4, 4], [5, 5, 5]] && t.fifo.ovr && t.ovrSignals == 1) = true := by
  decide
/-- Vector S6: in mode Fifo the newest is dropped silently. -/
theorem test_fifoFeed_drops :
    gives (exec (.fifoFeed (some 9) [5, 5, 5]) (queued a0 .fifo [[1, 1, 1], [2, 2, 2], [3, 3, 3], [4, 4, 4]]))
      (fun t => t.fifo.q.length == 4 && !t.fifo.ovr && t.diag == []) = true := by decide
/-- Vectors S5 and Q3. -/
theorem test_fifoDeq :
    gives (exec .fifoDeq (queued a0 .fifo [[1, 2, 3], [4, 5, 6]]))
        (fun t => t.fifo.current == [1, 2, 3] && t.results == [.dequeued true] && t.irq) = true ∧
      gives (exec .fifoDeq (queued a0 .fifo [])) (fun t => t.diag == [.wFifoEmpty] && t.results == [.dequeued false]) =
        true := by decide
/-- Vector Q11: the queue is kept while `KEEP` is set. -/
theorem test_fifoReset :
    gives (exec .fifoReset (setKeep (queued a0 .fifo [[1, 2, 3]]) true)) (fun t => t.fifo.q == [[1, 2, 3]]) = true ∧
      gives (exec .fifoReset (queued a0 .fifo [[1, 2, 3]])) (fun t => t.fifo.q == [] && !t.irq) = true := by decide
/-- Vector S6. -/
theorem test_fifoClrOvr : gives (exec .fifoClrOvr (setOverrun a0 true)) (fun t => !t.fifo.ovr) = true := by decide
/-- Vector Q5: the queue stays, the interrupt level is that of the new mode. -/
theorem test_fifoSetMode :
    gives (exec (.fifoSetMode .bypass) (queued a0 .fifo [[1, 1, 1]])) (fun t => t.fifo.q == [[1, 1, 1]] && !t.irq) =
      true := by decide
/-- The stream of vector Q10, attached. -/
def streaming : State :=
  attachStream (queued (start { refA with stream := .table [(10, [11, 0, 0]), (20, [22, 0, 0])] 30 }) .fifo [])
/-- Vector Q10. -/
theorem test_fifoStreamTick :
    gives (exec (.fifoStreamTick 12) streaming) (fun t => t.fifo.q == [[11, 0, 0]] && t.irq) = true ∧
      gives (exec (.fifoStreamTick 31) streaming) (fun t => t.fifo.afterStream && t.fifo.q == []) = true := by decide

/-- Vector Q4. -/
theorem test_hostFeedRepeat :
    gives (exec (.hostFeedRepeat [7, 7, 7] 6) (queued a0 .fifo []))
      (fun t => t.fifo.q == List.replicate 4 [7, 7, 7] && !t.fifo.keep) = true := by decide
/-- Vector Q7: `"1 -2 3"` and `"  4\t5   6 \r"`. -/
theorem test_hostLoadFile :
    gives (exec (.hostLoadFile [] [[49, 32, 45, 50, 32, 51], [32, 32, 52, 9, 53, 32, 32, 32, 54, 32, 13]])
        (queued a0 .fifo []))
      (fun t => t.fifo.q == [[1, 0xFFFE, 3], [4, 5, 6]] && t.fifo.keep && t.results == [.loaded]) = true := by decide
/-- Vector Q8: an empty second line; the file is discarded. -/
theorem test_hostLoadFile_error :
    gives (exec (.hostLoadFile [98] [[49, 32, 50, 32, 51], [], [52, 32, 53, 32, 54]]) (queued a0 .fifo []))
      (fun t => t.fifo.q == [] && !t.fifo.keep && t.results == [.cfgError [98] 2 []]) = true := by decide
/-- Vector Q10. -/
theorem test_hostAttachStream :
    gives (exec .hostAttachStream a0) (fun t => t.fifo.keep && t.fifo.streamAttached) = true := by decide
/-- Vector Q11. -/
theorem test_hostDetachStream :
    gives (exec .hostDetachStream streaming) (fun t => !t.fifo.streamAttached && t.fifo.keep) = true := by decide
/-- Vector Q11. -/
theorem test_hostSetKeep : gives (exec (.hostSetKeep false) streaming) (fun t => !t.fifo.keep) = true := by decide
/-- Vector S9: -10.5 at resolution 128 is -1344; 300 is clamped with a record. -/
theorem test_hostSetPhys :
    gives (exec (.hostSetPhys [⟨-21, 1⟩]) (start refB)) (fun t => t.fifo.current == [0xFAC0]) = true ∧
      gives (exec (.hostSetPhys [⟨300, 0⟩]) (start refB))
        (fun t => t.fifo.current == [0x7FFF] && t.diag == [.wClamped ⟨300, 0⟩ ⟨32767, 127⟩]) = true := by decide
/-- Vectors X4 and X5. -/
theorem test_devReset :
    gives (exec .devReset (placed (setKeep (queued (setField a0 0x12 0 0x99) .fifo [[4, 5, 6]]) true) .writing 0x13))
      (fun t => t.fifo.q == [] && !t.fifo.keep && getField t 0x12 0 == 0x40 && t.tx.tstate == .idle && !t.irq) = true := by
  decide
/-- Vector X3: the queue is kept, the transaction goes on. -/
theorem test_devSoftReset :
    gives (exec .devSoftReset (placed (setKeep (queued (setField a0 0x12 0 0x99) .fifo [[4, 5, 6]]) true) .writing 0x13))
      (fun t => t.fifo.q == [[4, 5, 6]] && t.fifo.mode == .bypass && getField t 0x12 0 == 0x40 && t.tx.tstate == .writing) =
        true := by decide

/-! ### Witnesses: concrete values that meet the hypotheses of each statement, clause by clause -/

/-- From a check to the next state it was made on. -/
theorem next_of_gives {o : Host.Outcome State Fault Refusal} {p : State → Bool} (h : gives o p = true) :
    ∃ t, o = .next t ∧ p t = true := by
  cases o with
  | next t => exact ⟨t, rfl, h⟩
  | fault r => cases h
  | refused r => cases h

/-- A machine in the four named formats. -/
def inFormat (fmt : AddrFormat) : State := start { refA with format := fmt }

theorem test_meets_DecodeEncodeAgree :
    formatOf (.addrSetPlain8 0xFF) = some plain8 ∧ formatOf (.addrSetRw7 true 0x7F) = some rw7 ∧
      formatOf (.addrSetRw7Ms6 true true 0x3F) = some rw7ms6 ∧ formatOf (.addrSetPlain16 0xFFFF) = some plain16 := by decide

theorem test_meets_EncodeDecodeAgree :
    decode plain8 .lsbFirst [0xFF, 1] = .ok (.addrSetPlain8 0xFF, [1]) ∧
      decode rw7 .lsbFirst [0xFF, 1] = .ok (.addrSetRw7 true 0x7F, [1]) ∧
      decode rw7ms6 .lsbFirst [0xFF, 1] = .ok (.addrSetRw7Ms6 true true 0x3F, [1]) ∧
      decode plain16 .lsbFirst [0x01, 0xFF, 1] = .ok (.addrSetPlain16 0xFF01, [1]) := by decide

/-- A mask with a gap, cut to 3 bits: the lowest and the highest bit kept, and both reasons for a bit that is 0. -/
theorem test_meets_AddressCompression :
    let fmt : AddrFormat := { bytes := .one, mask := 0b01010101, rwBit := none, msBit := none, bits := 3 }
    (0 < 16 ∧ fmt.mask.getLsbD 0 = true ∧ onesBelow fmt.mask 0 < fmt.bits) ∧
      (4 < 16 ∧ fmt.mask.getLsbD 4 = true ∧ onesBelow fmt.mask 4 < fmt.bits) ∧
      onesBelow fmt.mask 16 = 4 ∧ fmt.bits ≤ 3 ∧ (plain8 = plain8 ∨ plain8 = rw7) := by decide

theorem test_meets_BusWriteRunsDecodedAddress :
    (a0.tx.tstate = .idle ∧ a0.tx.addrCnt = 0 ∧ decode a0.cfg.format a0.cfg.addrOrder [0x32] = .ok (.addrSetPlain8 0x32, [])) ∧
      ((inFormat rw7ms6).tx.tstate = .idle ∧ (inFormat rw7ms6).tx.addrCnt = 0 ∧
        decode (inFormat rw7ms6).cfg.format (inFormat rw7ms6).cfg.addrOrder [0xF2] =
          .ok (.addrSetRw7Ms6 true true 0x32, [])) := by decide

theorem test_meets_AddrSetCompletes :
    (inFormat plain8).faulted = false ∧ (inFormat plain8).cfg.format = plain8 ∧ (inFormat rw7).faulted = false ∧
      (inFormat rw7).cfg.format = rw7 ∧ (inFormat rw7ms6).faulted = false ∧ (inFormat rw7ms6).cfg.format = rw7ms6 ∧
      (inFormat plain16).faulted = false ∧ (inFormat plain16).cfg.format = plain16 := by decide

theorem test_meets_AddressPhaseAnyFormat :
    (a0.faulted = false ∧ a0.tx.tstate = .idle ∧ a0.tx.addrCnt = 0 ∧ a0.cfg.format.bytes = .one) ∧
      ((inFormat plain16).faulted = false ∧ (inFormat plain16).tx.tstate = .idle ∧ (inFormat plain16).tx.addrCnt = 0 ∧
        (inFormat plain16).cfg.format.bytes = .two) ∧
      ∃ t, exec (.busWrite [0x12]) (inFormat plain16) = .next t ∧ (t.tx.tstate == .addressPartial) = true :=
  ⟨by decide, by decide, next_of_gives (by decide)⟩

/-- A field of each access mode. -/
def plain (acc : Access) : FieldDef := { off := 0, wid := 3, acc := acc, clearVal := 2 }

theorem test_meets_FieldRead :
    ∀ acc ∈ [Access.read, .write, .readWrite, .readToClear, .writeOneToClear],
      (s1 (plain acc)).faulted = false ∧ (s1 (plain acc)).cfg.field 0 0 = some (plain acc) ∧ (plain acc).prov = none ∧
        (s1 (plain acc)).cfg.wf = true := by decide

/-- A Read field with a provider. -/
def provided (p : Provider) : FieldDef := { off := 0, wid := 8, acc := .read, prov := some p }

theorem test_meets_FieldReadProvider :
    (∀ p ∈ [Provider.pvFifoCount, .pvOvr true, .pvOvr false, .pvSample 2 1 false, .pvSample 0 0 true],
      (s1 (provided p)).faulted = false ∧ (s1 (provided p)).cfg.field 0 0 = some (provided p) ∧
        (provided p).acc ≠ .write ∧ (provided p).prov = some p) ∧
      ∃ u, exec .fifoDeq (s1 (provided (.pvSample 0 0 true))) = .next u ∧ (!u.faulted) = true :=
  ⟨by decide, next_of_gives (by decide)⟩

/-- An Enum field that refuses unknown symbols. -/
def symbolic (acc : Access) : FieldDef := { off := 0, wid := 2, acc := acc, kind := .symbols [0, 1, 2] .invalid }

theorem test_meets_FieldWriteIgnored :
    ((s1 (plain .read)).faulted = false ∧ (s1 (plain .read)).cfg.field 0 0 = some (plain .read)) ∧
      ∀ acc ∈ [Access.write, .readWrite, .readToClear],
        (s1 (symbolic acc)).faulted = false ∧ (s1 (symbolic acc)).cfg.field 0 0 = some (symbolic acc) ∧
          (symbolic acc).kind = .symbols [0, 1, 2] .invalid ∧ cut (symbolic acc) (BitVec.ofNat 16 3) ∉ [0, 1, 2] := by decide

theorem test_meets_FieldWriteStores :
    ∀ acc ∈ [Access.write, .readWrite, .readToClear, .writeOneToClear],
      (s1 (plain acc)).faulted = false ∧ (s1 (plain acc)).cfg.field 0 0 = some (plain acc) ∧ (plain acc).wcb = none ∧
        (plain acc).ccb = none ∧ (plain acc).wid ≤ 16 ∧
        enumRefuses (plain acc) (cut (plain acc) (BitVec.ofNat 16 13)) = false := by decide

/-- A field with callbacks. -/
def hooked (wcb ccb : Option FieldHook) : FieldDef := { off := 0, wid := 2, acc := .readWrite, wcb := wcb, ccb := ccb }

/-- A machine of one field that stores a value. -/
def s1At (d : FieldDef) (v : Half) : State := setField (s1 d) 0 0 v

/-- The seven clauses, at values that change the field and that do not, at 1 and 0; then a field cleared by writing 1 that
goes from 3 to 1. -/
theorem test_meets_FieldCallbacks :
    let mode : Option FieldHook := some (.whFifoMode [.bypass, .fifo] .continuous)
    let soft : Option FieldHook := some .whSoftReset
    (∀ d ∈ [hooked mode none, hooked none mode, hooked mode mode, hooked soft none, hooked soft mode, hooked mode soft],
      (s1At d 0).faulted = false ∧ (s1At d 0).cfg.field 0 0 = some d ∧ (s1At d 1).cfg.field 0 0 = some d ∧
        d.acc = .readWrite ∧ enumRefuses d (cut d (BitVec.ofNat 16 1)) = false ∧
        enumRefuses d (cut d (BitVec.ofNat 16 0)) = false ∧ (1 : Half) = cut d (BitVec.ofNat 16 1) ∧
        (0 : Half) = cut d (BitVec.ofNat 16 0) ∧ getField (s1At d 0) 0 0 = 0 ∧ getField (s1At d 1) 0 0 = 1) ∧
      ∀ d ∈ [{ hooked mode none with acc := .writeOneToClear }, { hooked mode mode with acc := .writeOneToClear },
          { hooked mode soft with acc := .writeOneToClear }],
        (s1At d 3).faulted = false ∧ (s1At d 3).cfg.field 0 0 = some d ∧
          Memory.wf (s1At d 3).cfg (s1At d 3).fv = true ∧
          (1 : Half) = getField (s1At d 3) 0 0 &&& ~~~(cut d (BitVec.ofNat 16 2)) ∧ getField (s1At d 3) 0 0 ≠ 1 := by decide

theorem test_meets_FieldRoundTrip :
    ∀ acc ∈ [Access.readWrite, .readToClear],
      (s1 (plain acc)).faulted = false ∧ (s1 (plain acc)).cfg.wf = true ∧
        (s1 (plain acc)).cfg.field 0 0 = some (plain acc) ∧ (plain acc).wcb = none ∧ (plain acc).ccb = none ∧
        (plain acc).prov = none ∧ 7 < 2 ^ (plain acc).wid ∧ enumRefuses (plain acc) (BitVec.ofNat 16 7) = false := by decide

/-- Vector E8: a write callback that reports an invariant violation. -/
def tripping : FieldDef := hooked (some (.program [{ guard := .lit 1, act := .violation [98, 97, 100] }])) none

theorem test_meets_ViolationAbandons :
    (s1 tripping).faulted = false ∧ (s1 tripping).cfg.field 0 0 = some tripping ∧
      tripping.acc = .readWrite ∧ enumRefuses tripping (cut tripping (BitVec.ofNat 16 3)) = false ∧
      tripping.wcb = some (.program [{ guard := .lit 1, act := .violation [98, 97, 100] }]) := by decide

/-- A 16-bit register with a straddling field and a field of each access mode, no hook. -/
def mixed (rwcb : Option RegHook) : RegisterDef :=
  { addr := 0, width := .w16, rst := 0x0005, tag := 0x8000, rsvdRead := .resetDefault, rwcb := rwcb,
    fields := [{ off := 0, wid := 2, acc := .read }, { off := 2, wid := 2, acc := .writeOneToClear },
      { off := 4, wid := 2, acc := .readToClear, clearVal := 1 }, { off := 6, wid := 4, acc := .readWrite },
      { off := 10, wid := 2, acc := .write }, { off := 12, wid := 2, acc := .readWrite, kind := .symbols [0, 1] .invalid }] }

/-- A machine of one such register. -/
def mix (rwcb : Option RegHook) : State := start (only (mixed rwcb))

/-- Both alternatives of the register hook, the first and the last byte. -/
theorem test_meets_RegisterWriteByte :
    ∀ h ∈ [none, some (RegHook.whClrOvr 1 0)], (mix h).faulted = false ∧ (mix h).cfg.wf = true ∧
      Memory.wf (mix h).cfg (mix h).fv = true ∧ (mix h).cfg.find 0 = some (mixed h) ∧ 0 < (mixed h).width.bytes ∧
      1 < (mixed h).width.bytes ∧ (∀ d ∈ (mixed h).fields, d.wcb = none ∧ d.ccb = none) ∧ (mixed h).rwcb = h := by decide

/-- The merged value of that statement, for the straddling field and the byte 0xC0 written to byte 0: its low two bits. -/
theorem test_meets_RegisterWriteByte_merged (j : Nat) :
    (3 : Half).getLsbD j =
      if decide (j < 4) && (decide (8 * 0 ≤ 6 + j) && decide (6 + j < 8 * 0 + 8)) then (0xC0 : Byte).getLsbD (6 + j - 8 * 0)
      else (0 : Half).getLsbD j := by
  rcases Nat.lt_or_ge j 16 with h | h
  · interval_cases j <;> decide
  · have h4 : ¬ j < 4 := by omega
    rw [BitVec.getLsbD_of_ge (3 : Half) j h]
    simp [h4]

/-- A register of a ReadToClear field below a provided field, and a machine of it with two samples queued. -/
def dataReg (p : Provider) : RegisterDef :=
  { addr := 0, width := .w8, rst := 3,
    fields := [{ off := 0, wid := 2, acc := .readToClear, clearVal := 1 },
      { off := 2, wid := 6, acc := .read, prov := some p }] }

def dataState (p : Provider) : State := queued (start (only (dataReg p))) .fifo [[0x0105, 2, 3], [4, 5, 6]]

/-- The first clause, at a straddling field and a reserved bit. -/
theorem test_meets_RegisterReadByte :
    (mix none).faulted = false ∧ (mix none).cfg.wf = true ∧ (mix none).cfg.find 0 = some (mixed none) ∧
      1 < (mixed none).width.bytes ∧ (∀ d ∈ (mixed none).fields, d.prov = none) ∧
      ((mixed none).fields[3]?.map fun d => decide (d.off ≤ 8 * 1 + 1) && decide (8 * 1 + 1 < d.off + d.wid)) = some true ∧
      ∀ d ∈ (mixed none).fields, 8 * 1 + 7 < d.off ∨ d.off + d.wid ≤ 8 * 1 + 7 := by decide

/-- The second and the third clause, over every standard provider. -/
theorem test_meets_RegisterReadByte_provided :
    ∀ p ∈ [Provider.pvFifoCount, .pvOvr true, .pvOvr false, .pvSample 2 1 false, .pvSample 0 0 true],
      (dataState p).faulted = false ∧ (dataState p).cfg.wf = true ∧ (dataState p).cfg.find 0 = some (dataReg p) ∧
        0 < (dataReg p).width.bytes ∧ (dataReg p).fields[1]? = some { off := 2, wid := 6, acc := .read, prov := some p } ∧
        ((dataReg p).fields[0]?.map FieldDef.prov) = some none ∧
        gives (execAll [.fldRead 0 0] (dataState p)) (fun _ => true) = true ∧
        gives (exec .fifoDeq (dataState p)) (fun u => !u.faulted) = true ∧
        gives (execAll [.fldRead 0 0, .fldRead 0 1] (dataState p))
          (fun u => !u.faulted && u.results.length == (dataState p).results.length + 2) = true := by decide

/-- 20_memory.md R66, 44_sample_fifo.md R261: the read of a byte clears its ReadToClear field and dequeues the sample it
shows. -/
theorem test_regReadB_dequeues :
    gives (exec (.regReadB 0 0) (dataState (.pvSample 0 0 true)))
      (fun t => t.results == [.byte 0x17] && getField t 0 0 == 1 && t.fifo.q == [[4, 5, 6]] &&
        t.fifo.current == [0x0105, 2, 3]) = true := by decide

theorem test_meets_RegisterRoundTrip :
    let s := start (refC .lsbFirst)
    s.faulted = false ∧ s.cfg.wf = true ∧
      ∀ r ∈ s.cfg.map, s.cfg.find r.addr = some r ∧ 0 < r.width.bytes ∧ r.rwcb = none ∧
        ∀ d ∈ r.fields, d.acc = .readWrite ∧ d.prov = none ∧ d.wcb = none ∧ d.ccb = none ∧ d.kind = .value := by decide

theorem test_meets_RegisterResets :
    (mix none).faulted = false ∧ (mix none).cfg.find 0 = some (mixed none) ∧
      (mixed none).fields[5]? = some { off := 12, wid := 2, acc := .readWrite, kind := .symbols [0, 1] .invalid } := by decide

theorem test_meets_LocateIsFootprint :
    (refC .msbFirst).mapOk = true ∧ locate (refC .msbFirst) 0x21 = some (refCWide, 1) ∧
      locate (refC .msbFirst) 0x23 = none ∧ refB.mapOk = true ∧ locate refB 1 = some (refBConfig, 0) ∧
      locate refB 3 = none := by decide

theorem test_meets_CollectionMisses :
    a0.faulted = false ∧ locate a0.cfg 0x7F = none ∧ (start refB).faulted = false ∧ (start refB).cfg.find 7 = none ∧
      (∀ r ∈ [refBConfig], (start refB).cfg.find 1 = some r ∧ r.width.bytes ≤ 2) := by decide

/-- Both byte orders and both bytes in SubRegisters mode, both bytes in the offset forms, with next states. -/
theorem test_meets_CollectionHits :
    (∀ e ∈ [Endian.msbFirst, .lsbFirst], (start (refC e)).cfg.wf = true ∧ endianOf (start (refC e)).cfg = e ∧
      locate (start (refC e)).cfg 0x20 = some (refCWide, 0) ∧
      locate (start (refC e)).cfg 0x21 = some (refCWide, 1)) ∧
      ((start refB).cfg.wf = true ∧ (start refB).cfg.find 1 = some refBConfig ∧ 0 < refBConfig.width.bytes ∧
        1 < refBConfig.width.bytes) ∧
      (∃ t, exec (.regReadB 0x20 1) (start (refC .lsbFirst)) = .next t ∧
        (!t.faulted && t.results == (start (refC .lsbFirst)).results ++ [.byte 0xBE]) = true) ∧
      ∃ t, exec (.regWriteB 0x20 1 0) (start (refC .lsbFirst)) = .next t ∧ (!t.faulted) = true :=
  ⟨by decide, by decide, next_of_gives (by decide), next_of_gives (by decide)⟩

/-- An operation of every kind. -/
def everyKind : List Instr :=
  [.fldRead 0x10 3, .fldWrite 0x10 3 1, .regReadB 0x37 0, .regWriteB 0x37 0 0xFF, .regReset 0x37, .collRead 0x7F,
   .collWrite 0x7F 0, .collTryRead 0x11, .collTryWrite 0x11 0, .collReadOff 0x11 1 .msbFirst,
   .collWriteOff 0x11 0 0 .lsbFirst, .collReset, .busWrite [0x32, 1], .busRead 2, .busFinish, .advance,
   .fifoFeed none [1, 2, 3], .fifoDeq, .fifoReset, .fifoClrOvr, .fifoSetMode .continuous, .fifoStreamTick 9,
   .hostFeedRepeat [1, 2, 3] 2, .hostLoadFile [] [[]], .hostAttachStream, .hostDetachStream, .hostSetKeep true,
   .hostSetPhys [⟨1, 0⟩, ⟨1, 1⟩, ⟨1, 2⟩], .devReset, .devSoftReset]

theorem test_meets_EveryOperationCompletes :
    (∀ i ∈ everyKind, Instr.wf a0.cfg i = true) ∧ a0.faulted = false ∧ standardHooks a0.cfg = true ∧
      (Instr.wf (inFormat plain8).cfg (.addrSetPlain8 0xFF) = true ∧ standardHooks (inFormat plain8).cfg = true) ∧
      (Instr.wf (inFormat rw7).cfg (.addrSetRw7 true 0x7F) = true ∧ standardHooks (inFormat rw7).cfg = true) ∧
      (Instr.wf (inFormat rw7ms6).cfg (.addrSetRw7Ms6 true true 0) = true ∧ standardHooks (inFormat rw7ms6).cfg = true) ∧
      (Instr.wf (inFormat plain16).cfg (.addrSetPlain16 0xFFFF) = true ∧ standardHooks (inFormat plain16).cfg = true) := by
  decide

theorem test_meets_ResponseLength :
    (∃ t, exec (.busRead 0) a0 = .next t ∧ (!t.faulted) = true) ∧ (∃ t, exec (.busRead 2) a0 = .next t ∧ (!t.faulted) = true) ∧
      ∃ t, exec (.busRead 1) (placed a0 .addressSet 0x12) = .next t ∧ (!t.faulted) = true :=
  ⟨next_of_gives (by decide), next_of_gives (by decide), next_of_gives (by decide)⟩

theorem test_meets_BusSplits :
    (IrqInv a0 ∧ ∃ t, exec (.busWrite [0x12, 0x77]) a0 = .next t ∧ (!t.faulted && t.tx.tstate != .reading) = true) ∧
      (IrqInv (inFormat plain16) ∧ ∃ t, exec (.busWrite [0x12]) (inFormat plain16) = .next t ∧
        (!t.faulted && t.tx.tstate != .reading) = true) ∧
      (IrqInv (placed a0 .addressSet 0x12) ∧ serves (placed a0 .addressSet 0x12) = true ∧
        ∃ t, exec (.busRead 1) (placed a0 .addressSet 0x12) = .next t ∧ (!t.faulted) = true) := by
  refine ⟨⟨?_, next_of_gives (by decide)⟩, ⟨?_, next_of_gives (by decide)⟩, ?_, by decide, next_of_gives (by decide)⟩ <;>
    unfold IrqInv <;> decide

theorem test_meets_DataByteAccess :
    (serves (placed a0 .reading 0x12) = true ∧ ∃ t, exec (.collRead 0x12) (placed a0 .reading 0x12) = .next t ∧
      (!t.faulted && t.results == (placed a0 .reading 0x12).results ++ [.byte 0x40]) = true) ∧
      (serves (placed (start refB) .addressSet 1) = true ∧
        ∃ t, exec (.collReadOff 1 0 .msbFirst) (placed (start refB) .addressSet 1) = .next t ∧
          (!t.faulted && t.results == (placed (start refB) .addressSet 1).results ++ [.byte 0x12]) = true) ∧
      (∃ t, exec (.collWrite 0x12 7) (placed a0 .writing 0x12) = .next t ∧ (!t.faulted) = true) ∧
      ∃ t, exec (.collWriteOff 1 0 7 .msbFirst) (placed (start refB) .addressSet 1) = .next t ∧ (!t.faulted) = true :=
  ⟨⟨by decide, next_of_gives (by decide)⟩, ⟨by decide, next_of_gives (by decide)⟩, next_of_gives (by decide),
    next_of_gives (by decide)⟩

/-- A machine whose configuration keeps the address. -/
def keeping : State := start { refA with addrPreserve := true }

/-- A format of two address bytes with a read flag in the first. -/
def rw15 : AddrFormat := { bytes := .two, mask := 0x7FFF, rwBit := some 7, msBit := none, bits := 15 }

/-- A machine that has the first address byte, with the read flag. -/
def half : State :=
  let s := inFormat rw15
  { s with tx := { s.tx with tstate := .addressPartial, addrCnt := 1, addrAcc := 0xB2 } }

theorem test_meets_BusMisuse :
    (placed a0 .reading 0).faulted = false ∧ (placed a0 .reading 0).tx.tstate = .reading ∧
      ((inFormat rw7).faulted = false ∧ (inFormat rw7).tx.tstate = .idle ∧ (inFormat rw7).tx.addrCnt = 0 ∧
        (inFormat rw7).cfg.format.bytes = .one ∧ (inFormat rw7).cfg.format.rwBit = some 7 ∧
        (0xB2 : Byte).getLsbD 7 = true ∧ ∃ t, exec (.busWrite [0xB2]) (inFormat rw7) = .next t ∧ (!t.faulted) = true) ∧
      ((inFormat rw15).faulted = false ∧ (inFormat rw15).tx.tstate = .idle ∧ (inFormat rw15).tx.addrCnt = 0 ∧
        (inFormat rw15).cfg.format.bytes = .two ∧ (inFormat rw15).cfg.format.rwBit = some 7 ∧
        ∃ t, exec (.busWrite [0xB2, 0x10]) (inFormat rw15) = .next t ∧ (!t.faulted) = true) ∧
      (half.faulted = false ∧ half.tx.tstate = .addressPartial ∧ half.tx.addrCnt = 1 ∧
        half.cfg.format.bytes = .two ∧ half.cfg.format.rwBit = some 7 ∧ half.tx.addrAcc.getLsbD 7 = true ∧
        ∃ t, exec (.busWrite [0x10]) half = .next t ∧ (!t.faulted) = true) ∧
      (a0.tx.tstate = .idle ∧ a0.cfg.addrPreserve = false) ∧
      (keeping.faulted = false ∧ keeping.tx.tstate = .idle ∧ keeping.cfg.addrPreserve = true ∧ keeping.tx.addrValid = false) ∧
      ((placed a0 .addressPartial 0).faulted = false ∧ (placed a0 .addressPartial 0).tx.tstate = .addressPartial) ∧
      ((placed a0 .writing 0).faulted = false ∧ (placed a0 .writing 0).tx.tstate = .writing) :=
  ⟨by decide, by decide, ⟨by decide, by decide, by decide, by decide, by decide, by decide, next_of_gives (by decide)⟩,
    ⟨by decide, by decide, by decide, by decide, by decide, next_of_gives (by decide)⟩,
    ⟨by decide, by decide, by decide, by decide, by decide, by decide, next_of_gives (by decide)⟩, by decide, by decide,
    by decide, by decide⟩

theorem test_meets_EmptyPrimitives : (placed a0 .reading 0x12).faulted = false := by decide
theorem test_meets_BusFinish : (placed a0 .reading 0x12).faulted = false ∧ keeping.faulted = false := by decide

theorem test_meets_AddressPreserve :
    keeping.cfg.addrPreserve = true ∧ (placed keeping .writing 0x12).tx.addrValid = true ∧
      (∃ t, exec .busFinish (placed keeping .writing 0x12) = .next t ∧ (!t.faulted) = true) ∧
      (placed keeping .idle 0x12).tx.tstate = .idle ∧
      ∃ t, exec (.busRead (0 + 1))
        { placed keeping .idle 0x12 with tx := { (placed keeping .idle 0x12).tx with tstate := .addressSet } } = .next t ∧
          (!t.faulted) = true :=
  ⟨by decide, by decide, next_of_gives (by decide), by decide, next_of_gives (by decide)⟩

/-- A configuration with every gate of the auto-increment. -/
def gatedCfg : Cfg :=
  { refA with
    format := rw7ms6
    aiGateFlag := some (0x10, 2)
    aiRange := some (0x32, 0x37)
    aiHoldSet := [0x38]
    aiWrap := some (0x38, 0x32) }

/-- That configuration with every gate open. -/
def gated : State :=
  let s := placed (start gatedCfg) .reading 0x37
  setField { s with tx := { s.tx with msLatch := true } } 0x10 2 1

/-- Every gate open at the edge of the range and at the wrap; each gate closed on its own; Offset mode. -/
theorem test_meets_AdvanceExact :
    ((start refB).faulted = false ∧ (start refB).cfg.wideAccess = .offset) ∧
      (gated.faulted = false ∧ gated.cfg.wideAccess = .subRegisters ∧ gated.cfg.aiBase = true ∧ gated.tx.msLatch = true ∧
        getField gated 0x10 2 = 1 ∧ (0x32 ≤ gated.tx.curAddr.toNat ∧ gated.tx.curAddr.toNat ≤ 0x37) ∧
        gated.tx.curAddr.toNat ∉ gated.cfg.aiHoldSet ∧ gated.tx.curAddr.toNat + 1 = 0x38) ∧
      ((start { refA with aiBase := false }).cfg.aiBase ≠ true ∧ (inFormat rw7ms6).cfg.format.msBit ≠ none ∧
        (inFormat rw7ms6).tx.msLatch ≠ true ∧ getField a0 0x10 2 ≠ 1) := by decide

theorem test_meets_AutoIncrementDeterminism :
    (placed a0 .addressSet 0xFF).cfg.aiGateFlag = none ∧ serves (placed a0 .addressSet 0xFF) = true ∧
      (∃ t, exec (.busRead 1) (placed a0 .addressSet 0xFF) = .next t ∧ (!t.faulted) = true) ∧
      ∃ t, exec (.busWrite [7]) (placed a0 .writing 0x12) = .next t ∧ (!t.faulted) = true :=
  ⟨by decide, by decide, next_of_gives (by decide), next_of_gives (by decide)⟩

theorem test_meets_TransitionTable :
    CountInv a0 ∧ (∃ t, exec .busFinish a0 = .next t ∧ (!t.faulted) = true) ∧
      (∃ t, exec (.busRead (0 + 1)) a0 = .next t ∧ (!t.faulted) = true) ∧
      (∃ t, exec (.busWrite [0x12]) a0 = .next t ∧ (!t.faulted) = true) ∧
      CountInv { inFormat plain16 with tx := { (inFormat plain16).tx with tstate := .addressPartial, addrCnt := 1 } } := by
  refine ⟨?_, next_of_gives (by decide), next_of_gives (by decide), next_of_gives (by decide), ?_⟩ <;>
    unfold CountInv <;> decide

/-- A full queue of REF-A. -/
def full : List Sample := [[1, 1, 1], [2, 2, 2], [3, 3, 3], [4, 4, 4]]

theorem test_meets_FeedCases :
    ([5, 5, 5] : Sample).length = a0.cfg.lanes ∧ (a0.faulted = false ∧ a0.fifo.mode = .bypass) ∧
      ((queued a0 .fifo []).fifo.mode ≠ .bypass ∧ (queued a0 .fifo []).fifo.q.length < a0.cfg.cap) ∧
      ((queued a0 .fifo full).faulted = false ∧ (queued a0 .fifo full).fifo.mode = .fifo ∧
        a0.cfg.cap ≤ (queued a0 .fifo full).fifo.q.length) ∧
      ((queued a0 .continuous full).faulted = false ∧ (queued a0 .continuous full).fifo.mode = .continuous) := by decide

theorem test_meets_FifoOverflowLaw :
    (∀ m ∈ [FifoMode.fifo, .continuous], (queued a0 m full).faulted = false ∧ (queued a0 m full).fifo.mode = m ∧
      1 ≤ (queued a0 m full).cfg.cap ∧ (queued a0 m full).fifo.q.length ≤ (queued a0 m full).cfg.cap) ∧
      ∀ x ∈ [([5, 5, 5] : Sample)], x.length = a0.cfg.lanes := by decide

theorem test_meets_FifoOrderLaw :
    let s := queued a0 .fifo [[1, 1, 1], [2, 2, 2]]
    let xs : List Sample := [[3, 3, 3], [4, 4, 4]]
    s.faulted = false ∧ s.cfg.streamPull = .onTick ∧ s.fifo.mode ≠ .bypass ∧ s.fifo.q.length + xs.length ≤ s.cfg.cap ∧
      (∀ x ∈ xs, x.length = s.cfg.lanes) ∧ 3 < (s.fifo.q ++ xs).length := by decide

/-- A machine whose dequeue asks the stream of vector Q10 first. -/
def pulling (m : FifoMode) (q : List Sample) : State :=
  attachStream (queued (start { refA with streamPull := .onDequeue, stream := .table [(10, [11, 0, 0])] 30 }) m q)

theorem test_meets_DequeueCases :
    (a0.faulted = false ∧ a0.cfg.streamPull = .onTick ∧ a0.fifo.mode = .bypass) ∧
      ((queued a0 .fifo []).fifo.mode ≠ .bypass ∧ (queued a0 .fifo []).fifo.q = []) ∧
      ((queued a0 .continuous full).fifo.mode ≠ .bypass ∧ (queued a0 .continuous full).fifo.q = [1, 1, 1] :: full.tail) ∧
      (pulling .fifo []).cfg.streamPull = .onDequeue ∧
      (∃ p, exec (.fifoStreamTick (pulling .bypass []).env.now) (pulling .bypass []) = .next p ∧
        (p.fifo.mode == .bypass) = true) ∧
      (∃ p, exec (.fifoStreamTick (pulling .fifo []).env.now) (pulling .fifo []) = .next p ∧
        (p.fifo.mode == .fifo && p.fifo.q == []) = true) ∧
      ∃ p, exec (.fifoStreamTick (atTime (pulling .fifo []) 10).env.now) (atTime (pulling .fifo []) 10) = .next p ∧
        (p.fifo.mode == .fifo && p.fifo.q == [[11, 0, 0]]) = true :=
  ⟨by decide, by decide, by decide, by decide, next_of_gives (by decide), next_of_gives (by decide),
    next_of_gives (by decide)⟩

theorem test_meets_FifoControl : (setOverrun (queued a0 .fifo full) true).faulted = false := by decide

/-- The stream detached; attached at 9, 10, 19, 20, 29 and 30. -/
theorem test_meets_StreamTick :
    (a0.faulted = false ∧ a0.fifo.streamAttached = false) ∧ (streaming.faulted = false ∧ streaming.fifo.streamAttached = true) ∧
      streaming.cfg.stream = .table [(10, [11, 0, 0]), (20, [22, 0, 0])] 30 ∧
      streamAnswer streaming.cfg 9 = ([], .beforeStream) ∧ streamAnswer streaming.cfg 10 = ([11, 0, 0], .ok) ∧
      streamAnswer streaming.cfg 19 = ([11, 0, 0], .ok) ∧ streamAnswer streaming.cfg 20 = ([22, 0, 0], .ok) ∧
      streamAnswer streaming.cfg 29 = ([22, 0, 0], .ok) ∧ streamAnswer streaming.cfg 30 = ([], .afterStream) ∧
      ([11, 0, 0] : Sample).length = streaming.cfg.lanes := by decide

theorem test_meets_FeedRepeat : (queued a0 .fifo full).faulted = false := by decide

theorem test_meets_LoadFile :
    let good : List Text := [[49, 32, 50, 32, 51]]
    a0.faulted = false ∧ good.mapM (lineSample a0.cfg) = some [[1, 2, 3]] ∧ lineSample a0.cfg [49] = none ∧
      a0.cfg.loadPartial = .discard ∧ (start { refA with loadPartial := .preserve }).faulted = false ∧
      (start { refA with loadPartial := .preserve }).cfg.loadPartial = .preserve ∧
      good.mapM (lineSample (start { refA with loadPartial := .preserve }).cfg) = some [[1, 2, 3]] ∧
      lineSample (start { refA with loadPartial := .preserve }).cfg [49] = none := by decide

/-- A line with a leading tab, a mixed run and no trailing blank; one with a first token at column 0 and a trailing blank; a
signed fraction; a line of REF-B's one lane. -/
theorem test_meets_TextFormat :
    (∀ ch ∈ ([9] : Text), ch = 32 ∨ ch = 9) ∧
      (∀ x ∈ [(([49] : Text), ([32, 9] : Text))], x.1 ≠ [] ∧ (∀ ch ∈ x.1, ¬ (ch = 32 ∨ ch = 9)) ∧ x.2 ≠ [] ∧
        ∀ ch ∈ x.2, ch = 32 ∨ ch = 9) ∧
      (∀ ch ∈ ([45, 50] : Text), ¬ (ch = 32 ∨ ch = 9)) ∧
      ([9, 49, 32, 9, 45, 50] : Text).getLast? ≠ some 13 ∧ tokens [9, 49, 32, 9, 45, 50] = [[49], [45, 50]] ∧
      ([49, 32, 9] : Text).getLast? ≠ some 13 ∧ tokens [49, 32, 9] = [[49]] ∧
      numeric [45, 49, 46, 53] = some ⟨-15, 9⟩ ∧ refB.wf = true ∧ lineSample refB [45, 49, 46, 53] = some [0xFF40] := by
  decide

/-- 44_sample_fifo.md R248: a value outside the range is malformed, and so are too many tokens and a token that is no
number. -/
theorem test_line_malformed :
    lineSample refB [50, 53, 54] = none ∧ lineSample refB [49, 32, 49] = none ∧ lineSample refB [49, 46] = none ∧
      lineSample refB [] = none := by decide

theorem test_meets_HostFlags : streaming.faulted = false := by decide

/-- In range at both ends, and just past each end. -/
theorem test_meets_SetPhysical :
    refB.wf = true ∧ ([⟨300, 0⟩] : List Ratio).length = (start refB).cfg.lanes ∧
      (Ratio.le refB.minPhys ⟨-256, 0⟩ = true ∧ Ratio.le ⟨-256, 0⟩ refB.maxPhys = true) ∧
      (Ratio.le refB.minPhys ⟨32767, 127⟩ = true ∧ Ratio.le ⟨32767, 127⟩ refB.maxPhys = true) ∧
      Ratio.le ⟨256, 0⟩ refB.maxPhys = false ∧ Ratio.le refB.minPhys ⟨-257, 0⟩ = false := by decide

theorem test_meets_DeviceReset : (setKeep (queued a0 .fifo full) true).faulted = false := by decide
theorem test_meets_SoftReset : (setKeep (queued a0 .fifo full) true).faulted = false := by decide

theorem test_meets_ResetLaws :
    a0.faulted = false ∧ Instr.devSoftReset ∈ [Instr.collReset, .devSoftReset, .devReset] ∧
      ∀ r ∈ a0.cfg.map.take 1, a0.cfg.find 0 = some r ∧
        ∀ d ∈ r.fields.take 1, r.fields[0]? = some d ∧ d.prov = none ∧ d.acc ≠ .write := by decide

theorem test_meets_FaultedStops : { a0 with faulted := true }.faulted = true := by decide

theorem test_meets_OnlyHooksFault :
    standardHooks a0.cfg = true ∧ a0.faulted = false ∧ (∃ t, exec .fifoDeq a0 = .next t ∧ (!t.faulted) = true) ∧
      ∃ t, step a0 = .next t ∧ (!t.faulted) = true :=
  ⟨by decide, by decide, next_of_gives (by decide), next_of_gives (by decide)⟩

/-- A machine with a feed of the feeder scheduled into a full queue. -/
def feeding : State :=
  let s := queued a0 .continuous full
  { s with env := { s.env with feederQueue := [{ now := 3, op := .feed [5, 5, 5] }], schedule := [.feeder] } }

theorem test_meets_OverrunSignalled :
    feeding.fifo.ovr = false ∧ (∃ t, exec (.fifoFeed none [5, 5, 5]) feeding = .next t ∧ t.fifo.ovr = true) ∧
      ∃ t, step feeding = .next t ∧ t.fifo.ovr = true :=
  ⟨by decide, next_of_gives (by decide), next_of_gives (by decide)⟩

theorem test_meets_DiagIsOutput :
    (∃ t, exec .fifoDeq { queued a0 .fifo [] with diag := [] } = .next t ∧ (t.diag == [.wFifoEmpty]) = true) ∧
      ∃ t, step { feeding with diag := [] } = .next t ∧ (!t.faulted) = true :=
  ⟨next_of_gives (by decide), next_of_gives (by decide)⟩

theorem test_meets_FirmwareCannot :
    (∃ t, exec (BusOp.write [0x12, 7]).toInstr a0 = .next t ∧ (!t.faulted) = true) ∧ standardHooks a0.cfg = true ∧
      (∃ t, exec (BusOp.read 1).toInstr (placed a0 .reading 0x32) = .next t ∧ (!t.faulted) = true) ∧
      ∃ t, exec BusOp.finish.toInstr a0 = .next t ∧ (!t.faulted) = true :=
  ⟨next_of_gives (by decide), by decide, next_of_gives (by decide), next_of_gives (by decide)⟩

theorem test_meets_PositionFrame :
    keepsPosition (.collWrite 0x12 7) = true ∧
      ∃ t, exec (.collWrite 0x12 7) (placed a0 .writing 0x12) = .next t ∧ (!t.faulted) = true :=
  ⟨by decide, next_of_gives (by decide)⟩

theorem test_meets_StepKeepsFifo : FifoInv feeding ∧ ∃ t, step feeding = .next t ∧ t.fifo.ovr = true := by
  refine ⟨?_, next_of_gives (by decide)⟩
  unfold FifoInv; decide

/-- A machine whose bus thread writes an address byte and a data byte. -/
def writing : State :=
  { a0 with env := { a0.env with busQueue := [{ now := 2, op := .write [0x12, 0x77] }], schedule := [.bus, .bus] } }

theorem test_meets_StepKeepsPosition :
    TxInv writing ∧ ∃ t, step writing = .next t ∧ (t.tx.tstate == .addressSet && t.env.busRest.isSome) = true := by
  refine ⟨?_, next_of_gives (by decide)⟩
  unfold TxInv AddrInv CountInv LatchInv PhaseInv; decide

theorem test_meets_StepKeepsStore :
    Memory.wf writing.cfg writing.fv = true ∧ ∃ t, step writing = .next t ∧ (!t.faulted) = true :=
  ⟨by decide, next_of_gives (by decide)⟩

theorem test_meets_StepKeepsIrq : IrqInv feeding ∧ ∃ t, step feeding = .next t ∧ (!t.faulted) = true := by
  refine ⟨?_, next_of_gives (by decide)⟩
  unfold IrqInv; decide

/-- A machine whose host sets `KEEP`. -/
def hosting : State :=
  { a0 with env := { a0.env with hostQueue := [{ now := 1, op := .setKeep true }], schedule := [.host] } }

/-- A machine with an agent scheduled and no event. -/
def idling (agent : Agent) : State := { a0 with env := { a0.env with schedule := [agent] } }

/-- A machine whose bus thread has a primitive before it, at the head of its queue or left over. -/
def busy (s : State) (op : BusOp) (left : Bool) : State :=
  { s with env := { s.env with
      busQueue := if left then [] else [{ now := 2, op := op }]
      busRest := if left then some { now := 2, op := op } else none, schedule := [.bus] } }

/-- A machine whose host has an operation before it. -/
def hosted (s : State) (op : HostOp) : State :=
  { s with env := { s.env with hostQueue := [{ now := 2, op := op }], schedule := [.host] } }

/-- A machine whose host has the rest of an operation before it. -/
def loading (op : HostRest) : State :=
  { a0 with env := { a0.env with hostRest := some { now := 2, op := op }, schedule := [.host] } }

/-- No agent; each agent without an event; the address phase of a decoded write; a feeder event; a host event. -/
theorem test_meets_StepRunsEvents :
    (a0.faulted = false ∧ a0.cfg.wf = true ∧ a0.env.schedule = []) ∧
      (∀ agent ∈ [Agent.bus, .feeder, .host], (idling agent).env.schedule = agent :: [] ∧
        (idling agent).env.busRest = none ∧ (idling agent).env.busQueue = [] ∧ (idling agent).env.feederQueue = [] ∧
        (idling agent).env.hostRest = none ∧ (idling agent).env.hostQueue = []) ∧
      (writing.env.latest ≤ 2 ∧ writing.env.schedule = .bus :: [.bus] ∧ writing.env.busRest = none ∧
        writing.env.busQueue = { now := 2, op := .write [0x12, 0x77] } :: [] ∧ writing.tx.tstate = .idle ∧
        writing.tx.addrCnt = 0 ∧
        decode writing.cfg.format writing.cfg.addrOrder [0x12, 0x77] = .ok (.addrSetPlain8 0x12, [0x77])) ∧
      (∃ t, exec (.addrSetPlain8 0x12)
        { writing with env := { writing.env with busQueue := [], schedule := [.bus], now := 2, latest := 2 } } = .next t ∧
          (!t.faulted) = true) ∧
      (feeding.env.latest ≤ 3 ∧ feeding.env.schedule = .feeder :: [] ∧
        feeding.env.feederQueue = { now := 3, op := .feed [5, 5, 5] } :: []) ∧
      (hosting.env.latest ≤ 1 ∧ hosting.env.schedule = .host :: [] ∧ hosting.env.hostRest = none ∧
        hosting.env.hostQueue = { now := 1, op := .setKeep true } :: []) :=
  ⟨by decide, by decide, by decide, next_of_gives (by decide), by decide, by decide⟩

/-- The bus pieces of that statement: an address phase whole and in part, a write cut, a data byte, a misuse, an empty write,
a read served in pieces and a last byte, a read not served, a finish; at the head of the queue and left over. -/
theorem test_meets_StepRunsEvents_bus :
    ((∀ x ∈ [(BusOp.write [0x12], a0), (.write [0x12, 7], a0), (.write [0x12], inFormat plain16), (.write [0x10], half),
          (.write [7], placed a0 .addressSet 0x12), (.write [7, 8], placed a0 .writing 0x12),
          (.write [7], placed a0 .reading 0x12), (.write [], a0), (.read 2, placed a0 .reading 0x12),
          (.read 1, placed a0 .addressSet 0x12), (.read 2, a0), (.finish, a0)],
        gives (step (busy x.2 x.1 false)) (fun t => !t.faulted) = true ∧ (busy x.2 x.1 false).cfg.wf = true ∧
          (busy x.2 x.1 false).env.latest ≤ 2 ∧ (busy x.2 x.1 false).env.busRest = none ∧
          (busy x.2 x.1 false).env.busQueue = { now := 2, op := x.1 } :: []) ∧
      ∀ x ∈ [(BusOp.write [7], a0), (.write [7, 8], placed a0 .writing 0x12), (.read 3, placed a0 .reading 0x12)],
        gives (step (busy x.2 x.1 true)) (fun t => !t.faulted) = true ∧
          (busy x.2 x.1 true).env.busRest = some { now := 2, op := x.1 }) ∧
      gives (step (busy (placed a0 .reading 0x12) (.read 3) true))
        (fun t => t.env.busRest == some { now := 2, op := .read 2 }) = true ∧ CountInv half := by
  refine ⟨by decide, by decide, ?_⟩
  unfold CountInv; decide

/-- The host pieces of that statement: a repeat, a good file, a bad file preserved and discarded; the rest of a repeat, of a
load, and its end. -/
theorem test_meets_StepRunsEvents_host :
    let good : Text := [49, 32, 50, 32, 51]
    let keeps := start { refA with loadPartial := .preserve }
    gives (step (hosted a0 (.feedRepeat [7, 7, 7] 2)))
        (fun t => t.env.hostRest == some { now := 2, op := .feeds [7, 7, 7] 1 }) = true ∧
      gives (step (hosted a0 (.loadFile [] [good])))
        (fun t => t.env.hostRest == some { now := 2, op := .loading [] true .loaded }) = true ∧
      gives (step (hosted keeps (.loadFile [98] [good, []])))
        (fun t => t.env.hostRest == some { now := 2, op := .loading [] true (.cfgError [98] 2 []) }) = true ∧
      gives (step (hosted a0 (.loadFile [98] [good, []]))) (fun t => t.results == [.cfgError [98] 2 []]) = true ∧
      [good].mapM (lineSample a0.cfg) = some [[1, 2, 3]] ∧ lineSample a0.cfg [] = none ∧
      [good].mapM (lineSample keeps.cfg) = some [[1, 2, 3]] ∧ lineSample keeps.cfg [] = none ∧
      gives (step (loading (.feeds [7, 7, 7] 1))) (fun t => t.env.hostRest == none) = true ∧
      gives (step (loading (.loading [[7, 7, 7]] true .loaded)))
        (fun t => t.env.hostRest == some { now := 2, op := .loading [] true .loaded }) = true ∧
      gives (step (loading (.loading [] true .loaded)))
        (fun t => t.env.hostRest == none && t.fifo.keep && t.results == [.loaded]) = true := by decide

theorem test_meets_BusStepsEqualWhole :
    writing.cfg.wf = true ∧ CountInv writing ∧ writing.env.busRest = none ∧
      writing.env.busQueue = { now := 2, op := .write [0x12, 0x77] } :: [] ∧ writing.env.latest ≤ 2 ∧
      ∃ t, exec (BusOp.write [0x12, 0x77]).toInstr
        { writing with env := { writing.env with busQueue := [], schedule := [], now := 2, latest := 2 } } = .next t ∧
          (!t.faulted) = true := by
  refine ⟨by decide, ?_, by decide, by decide, by decide, next_of_gives (by decide)⟩
  unfold CountInv; decide

/-- A register with a callback on its second field, stored 3 and 1 in the first and third, and a register callback. -/
def chained (acc : Access) (wcb : FieldHook) (mode : Option FifoMode) : RegisterDef :=
  { addr := 0, width := .w8, rst := 0,
    rwcb := mode.map fun m => .program [{ guard := .lit 1, act := .setMode m }],
    fields := [{ off := 0, wid := 2, acc := .readWrite }, { off := 2, wid := 1, acc := acc, wcb := some wcb },
      { off := 3, wid := 2, acc := .readWrite }] }

/-- A machine of one such register. -/
def chain (acc : Access) (wcb : FieldHook) (mode : Option FifoMode) : State :=
  setField (setField (start (only (chained acc wcb mode))) 0 0 3) 0 2 1

/-- Both clauses, without and with the register callback, at the middle field of three, in each access mode. -/
theorem test_meets_RegisterWriteOrder :
    ∀ acc ∈ [Access.write, .readWrite, .readToClear],
      ∀ x ∈ [(FieldHook.whFifoMode [.bypass, .fifo] .bypass, none),
          (.whFifoMode [.bypass, .fifo] .bypass, some .continuous), (.whSoftReset, none),
          (.whSoftReset, some FifoMode.continuous)],
        (chain acc x.1 x.2).faulted = false ∧ (chain acc x.1 x.2).cfg.wf = true ∧
          Memory.wf (chain acc x.1 x.2).cfg (chain acc x.1 x.2).fv = true ∧
          (chain acc x.1 x.2).cfg.find 0 = some (chained acc x.1 x.2) ∧ 0 < (chained acc x.1 x.2).width.bytes ∧
          ((chained acc x.1 x.2).fields[1]?.map fun d =>
            decide (d.acc = acc ∧ d.off < 8 ∧ 0 < d.off + d.wid ∧ d.wcb = some x.1 ∧ d.ccb = none) &&
              !enumRefuses d 1) = some true := by decide

/-- The merged values of that statement for the byte 0x14: 1 of the second field, 2 of the third. -/
theorem test_meets_RegisterWriteOrder_merged (j : Nat) :
    ((1 : Half).getLsbD j =
        if decide (j < 1) && (decide (8 * 0 ≤ 2 + j) && decide (2 + j < 8 * 0 + 8)) then (0x14 : Byte).getLsbD (2 + j - 8 * 0)
        else (0 : Half).getLsbD j) ∧
      (2 : Half).getLsbD j =
        if decide (j < 2) && (decide (8 * 0 ≤ 3 + j) && decide (3 + j < 8 * 0 + 8)) then (0x14 : Byte).getLsbD (3 + j - 8 * 0)
        else (0 : Half).getLsbD j := by
  rcases Nat.lt_or_ge j 16 with h | h
  · interval_cases j <;> decide
  · have h1 : ¬ j < 1 := by omega
    have h2 : ¬ j < 2 := by omega
    rw [BitVec.getLsbD_of_ge (1 : Half) j h, BitVec.getLsbD_of_ge (2 : Half) j h]
    simp [h1, h2]

/-- 70_reset_and_hazards.md R316: 0x15 writes the field below, asks the soft reset, then writes the field above. -/
theorem test_regWriteB_soft_reset :
    gives (exec (.regWriteB 0 0 0x15) (chain .write .whSoftReset (some .continuous)))
      (fun t => getField t 0 0 == 0 && getField t 0 1 == 0 && getField t 0 2 == 2 && t.fifo.mode == .continuous) = true := by
  decide

/-! ### What firmware sees -/

/-- A machine without auto-increment that reads, or writes, at an address without a register. -/
def astray (st : TState) : State := placed (start { refA with aiBase := false }) st 0x7F

/-- 10_state.md R57: two byte reads in Reading are two steps and one misuse in Writing, and the feed and the next primitive
fall at the same byte in both; at every turn both runs go on, and what firmware has been shown is the same. -/
theorem test_turns_match_bytes :
    let x : Inputs := { bus := [{ now := 0, op := .read 2 }, { now := 0, op := .read 1 }],
                        feeder := [{ now := 0, op := .feed [1, 2, 3] }], host := [] }
    let after := fun st n => runTurns ([Agent.bus, .feeder, .bus, .bus].take n) 0 ((astray st).facing x)
    (∀ n ∈ [0, 1, 2, 3, 4], ∀ st ∈ [TState.reading, .writing],
      gives (after st n) (fun t => t.env.feederQueue.length == (if n ≤ 1 then 1 else 0)) = true) ∧
      ∀ st ∈ [TState.reading, .writing],
        gives (after st 4) (fun t => t.busOut == [0, 0, 0] && t.env.busQueue == [] && t.env.busRest == none) = true := by
  decide

/-! ### Hooks -/

/-- A provider that returns an entry of `USER` and clears it in its own body (40_field_ops.md R122). -/
theorem test_provider_returns_before :
    gives (exec (.fldRead 0 0)
        { s1 (provided (.program [{ guard := .lit 1, act := .setUser 0 (.lit 0) }] (.before (.user 0)))) with user := [7] })
      (fun t => t.results == [.value 7] && t.user == [0]) = true := by decide

/-- A hook reads the flag of a lenient read (42_collection_ops.md R175), and cuts `USER` back. -/
theorem test_hook_reads_hit :
    gives (exec (.fldWrite 0 0 1)
        { s1 (hooked (some (.program [{ guard := .lit 1, act := .collTryRead 0x7F },
            { guard := .hit, act := .setMode .fifo }, { guard := .lit 1, act := .collTryRead 0 },
            { guard := .hit, act := .keepUser (.acc) }])) none) with user := [4, 5, 6] })
      (fun t => t.fifo.mode == .bypass && t.user == [4]) = true := by decide

/-- Steps that count `USER` down and then write the field again. -/
def countdownSteps : List HookStep :=
  [{ guard := .lt (.lit 0) (.user 0), act := .setUser 0 (.sub (.user 0) (.lit 1)) },
    { guard := .lt (.lit 0) (.before (.user 0)), act := .fldWrite 0 0 .arg1 }]

/-- A callback that writes its own field while `USER` counts down. -/
def countdown : FieldHook := .program countdownSteps

/-- Hooks nest as deep as the state asks (42_collection_ops.md R181; log 5): no bound shows. -/
theorem test_hook_counts_down (n : Nat) (s : State) (old new : Half) (hc : s.cfg = only (one (hooked (some countdown) none)))
    (hu : s.user = [(n : Int)]) : ∃ v t, hooks (.onField countdown old new) s = .done v t ∧ t.user = [0] := by
  induction n generalizing s old new with
  | zero =>
    refine ⟨0, s, ?_, hu⟩
    rw [hooks_onField]
    show runCallback hooks countdownSteps old new s = _
    simp [countdownSteps, runCallback, runSteps, HookFrame.eval, evalExpr, State.frame, State.view, hu, boolInt,
      Ran.andThen]
  | succ n ih =>
    have hd : ∀ t : State, t.cfg = s.cfg → t.cfg.field 0 0 = some (hooked (some countdown) none) := by
      intro t ht
      rw [ht, hc]; rfl
    obtain ⟨v, t, e, ht⟩ := ih (setField (putUser s [(n : Int)]) 0 0 (cut (hooked (some countdown) none) new))
      (getField (putUser s [(n : Int)]) 0 0) (cut (hooked (some countdown) none) new) (by simpa using hc) (by simp)
    have hw : fldWrite hooks 0 0 (hooked (some countdown) none) new (putUser s [(n : Int)]) = .done () t := by
      show storeField hooks 0 0 (hooked (some countdown) none) _ _ _ = _
      simp only [storeField, callField, hooked] at e ⊢
      rw [e]
      simp only [Ran.andThen]
      exact ite_self _
    refine ⟨0, t, ?_, ht⟩
    rw [hooks_onField]
    have e1 : ((n : Int) + 1 - 1) = n := by omega
    have e2 : (0 : Int) < (n : Int) + 1 := by omega
    show runCallback hooks countdownSteps old new s = _
    simp [countdownSteps, runCallback, runSteps, HookFrame.eval, evalExpr, State.frame, State.view, hu, boolInt,
      Ran.andThen, runAct, e1, e2, hd s rfl, hw]

/-- A step that writes the field again. -/
def endlessSteps : List HookStep := [{ guard := .lit 1, act := .fldWrite 0 0 .arg1 }]

/-- A callback that writes its own field for ever. -/
def endless : FieldHook := .program endlessSteps

/-- A hook that calls itself without end is refused (42_collection_ops.md R181; log 5). -/
theorem test_hook_endless (s : State) (old new : Half) (hc : s.cfg = only (one (hooked (some endless) none))) :
    hooks (.onField endless old new) s = .refused .hookNesting := by
  refine (hooks_cases _ s).2.2 fun n => ?_
  induction n generalizing s old new with
  | zero => rfl
  | succ n ih =>
    have hd : s.cfg.field 0 0 = some (hooked (some endless) none) := by rw [hc]; rfl
    have hw : fldWrite (hookRun n) 0 0 (hooked (some endless) none) new s = .refused .hookNesting := by
      show storeField (hookRun n) 0 0 (hooked (some endless) none) _ _ _ = _
      simp only [storeField, callField, hooked]
      rw [ih _ _ _ (by simpa using hc)]
      rfl
    show runCallback (hookRun n) endlessSteps old new s = _
    simp [endlessSteps, runCallback, runSteps, HookFrame.eval, evalExpr, Ran.andThen, runAct, hd,
      hw, State.frame]

end Sys2Proof.Tests
end

/-! ### Every step keeps the configuration and the store's canonical form -/

namespace Sys2Proof.Machine

/-- Every update that an operation, a hook or an agent makes is steady (`steady_kept`), and a step is made of such updates
(`step_kept`), whatever hooks the configuration has. -/
theorem step_steady {s t : State} (h : step s = .next t) : Steady s t := step_kept steady_kept h

/-- Settles O56: a step is steady, so that the configuration stays (00_scope.md R7) and a store in canonical form stays in
it (10_state.md R26). -/
theorem stepKeepsStore : Obligations.StepKeepsStore := by
  intro s t hwf hstep
  have hsteady : Steady s t := step_steady hstep
  exact ⟨hsteady.cfg, hsteady.store hwf⟩

end Sys2Proof.Machine

/-! ### The state after reset -/

namespace Sys2Proof.Machine

/-- REF-A is well formed, so that a machine is built for it (00_scope.md R9). -/
theorem refA_wf : refA.wf = true := by decide

/-- The reset state is what a device reset of it leaves, its interrupt level settled (70_reset_and_hazards.md R302,
R303). -/
theorem reset_eq_deviceReset : State.reset = settleIrq (deviceReset State.reset) := rfl

theorem construct_of_wf {c : Cfg} (h : c.wf = true) :
    construct c = some (settleIrq (deviceReset { State.reset with cfg := c })) := if_pos h

/-- The invariants of the reachable states hold after every device reset; so they hold after reset. -/
theorem reset_invariants : FifoInv State.reset ∧ TxInv State.reset ∧ IrqInv State.reset := by
  have hfifo : FifoInv (deviceReset State.reset) := FifoInv_deviceReset (Cfg_wf_fifo refA_wf).2
  have htx : TxInv (deviceReset State.reset) := TxInv_deviceReset State.reset
  rw [reset_eq_deviceReset]
  exact ⟨(FifoInv_congr rfl rfl).2 hfifo, (TxInv_congr rfl rfl).2 htx, IrqInv_settle _⟩

/-- Settles O47: the components are read off the reset state, and the block built from its configuration is that state
(10_state.md R55; 70_reset_and_hazards.md R302). -/
theorem resetState : Obligations.ResetState := by
  have hbuilt : construct State.reset.cfg = some State.reset := construct_of_wf refA_wf
  exact ⟨rfl, rfl, rfl, rfl, rfl, rfl, rfl, rfl, rfl, rfl, rfl, rfl, hbuilt, refA_wf, wf_reset, reset_invariants⟩

end Sys2Proof.Machine

/-! ### Every step keeps the FIFO's bound and the ranges of the transaction state -/

namespace Sys2Proof.Machine

/-- Settles O54: a step is steady (`step_steady`), and the well-formed configuration it asks for is the one without
which no step is taken (10_state.md R41, R47). -/
theorem stepKeepsFifo : Obligations.StepKeepsFifo := by
  intro s t hfifo hstep
  obtain ⟨_, hwf, _⟩ := step_next hstep
  exact (step_steady hstep).fifo hwf hfifo

/-- Settles O55: every operation an agent can issue keeps the ranges (`exec_txInv`), and so does the step that runs it
(10_state.md R31, R33 to R35). -/
theorem stepKeepsPosition : Obligations.StepKeepsPosition := by
  intro s t htx hstep
  exact step_txInv hstep htx

end Sys2Proof.Machine

/-! ### The transaction state after a bus primitive -/

namespace Sys2Proof.Machine

/-- A whole bus primitive that is not abandoned is done, and the transaction state is the one its body left. -/
theorem operate_completed {s t : State} {x : Ran Unit} (hx : x.Meets True (Outline s))
    (h : operate s (fun _ => x.andThen fun _ u => .done .none u) = .next t) (ht : t.faulted = false) :
    ∃ u, x = .done () u ∧ t.tx = u.tx := by
  obtain ⟨_, ⟨r, u, hb, rfl⟩ | hb⟩ := operate_next h
  · obtain ⟨_, u', hu', e⟩ := andThen_done hb
    cases e
    exact ⟨u, hu', rfl⟩
  · obtain hab | ⟨_, _, _, e⟩ := andThen_abandoned hb
    · rw [hab] at hx
      obtain ⟨_, u, what, _, rfl⟩ := hx
      cases ht
    · cases e

theorem execBusRead_completed {s t : State} {n : Nat} (h : exec (.busRead (n + 1)) s = .next t)
    (ht : t.faulted = false) : ∃ u, busRead (n + 1) s = .done () u ∧ t.tx = u.tx :=
  operate_completed
    (busRead_meets outline_kept.toBusKept (hooks_meets outline_kept.toHookKept) (goodMap_any s.cfg) _ rfl) h ht

theorem execBusWrite_completed {s t : State} {b : Byte} {more : List Byte}
    (h : exec (.busWrite (b :: more)) s = .next t) (ht : t.faulted = false) :
    ∃ u, busWrite (b :: more) s = .done () u ∧ t.tx = u.tx :=
  operate_completed
    (busWrite_meets outline_kept.toBusKept (hooks_meets outline_kept.toHookKept) (goodMap_any s.cfg) _ rfl) h ht

/-! ### Data bytes and the state they leave -/

/-- The last data byte read leaves Reading (43_bus_transactions.md R203). -/
theorem readBytes_tstate {n : Nat} {s t : State} (h : readBytes (n + 1) s = .done () t) :
    t.tx.tstate = .reading := by
  rw [readBytes_add] at h
  obtain ⟨_, u, _, hlast⟩ := andThen_done h
  obtain ⟨_, v, hv, e⟩ := andThen_done hlast
  cases e
  obtain ⟨_, w, _, rfl⟩ := dataReadByte_done hv
  rfl

/-- A data byte written leaves Writing, and so do the bytes after it (43_bus_transactions.md R198). -/
theorem writeBytes_tstate {b : Byte} {more : List Byte} {s t : State} (h : writeBytes (b :: more) s = .done () t) :
    t.tx.tstate = .writing := by
  induction more generalizing b s with
  | nil =>
    obtain ⟨_, u, hu, e⟩ := andThen_done h
    cases e
    obtain ⟨w, _, rfl⟩ := dataWriteByte_done hu
    rfl
  | cons b' rest ih =>
    obtain ⟨_, u, _, hrest⟩ := andThen_done h
    exact ih hrest

/-- A read that is not served leaves the transaction state alone (43_bus_transactions.md R200 to R202). -/
theorem busRead_tstate {n : Nat} {s t : State} (h : busRead (n + 1) s = .done () t) :
    t.tx.tstate = if serves s then .reading else s.tx.tstate := by
  unfold busRead at h
  split at h
  · rw [if_pos ‹_›]
    exact readBytes_tstate h
  · rw [if_neg ‹_›]
    cases h
    rfl

/-- Bytes after the address phase are data, unless the block reads: then they are ignored (43_bus_transactions.md R195
to R197). -/
theorem writeRest_tstate {b : Byte} {more : List Byte} {s t : State} (hs : awaitsAddress s = false)
    (h : writeRest (b :: more) s = .done () t) :
    t.tx.tstate = if s.tx.tstate = .reading then .reading else .writing := by
  cases hst : s.tx.tstate with
  | idle => simp [awaitsAddress, hst] at hs
  | addressPartial => simp [awaitsAddress, hst] at hs
  | reading =>
    simp only [writeRest, hst] at h
    cases h
    simpa [takeWriteMisuse] using hst
  | addressSet =>
    simp only [writeRest, hst] at h
    simpa using writeBytes_tstate h
  | writing =>
    simp only [writeRest, hst] at h
    simpa using writeBytes_tstate h

/-! ### The address phase at the head of a write -/

/-- The first byte of the address phase that byte `b` continues (43_bus_transactions.md R193). -/
def firstAddressByte (s : State) (b : Byte) : Byte := if s.tx.addrCnt = 0 then b else s.tx.addrAcc

/-- The transaction state after a write of `n` bytes to a block that waits for `due` address bytes, when a complete
address phase leads to `opened` (43_bus_transactions.md R192 to R197). -/
def afterAddress (due n : Nat) (opened : TState) : TState :=
  if n < due then .addressPartial else if n = due then opened else if opened = .reading then .reading else .writing

/-- A write longer than the address bytes due. -/
theorem afterAddress_of_lt {due n : Nat} (h : due < n) (opened : TState) :
    afterAddress due n opened = if opened = .reading then .reading else .writing := by
  rw [afterAddress, if_neg (by omega), if_neg (by omega)]

theorem addrSet_awaits (s : State) (b0 b1 : Byte) : awaitsAddress (addrSet s b0 b1) = false := by
  obtain ⟨hpartial, hidle⟩ := stateAfterAddress_ne s.cfg.format.rwBit (flagBit s.cfg.format.rwBit b0)
  simp [awaitsAddress, addrSet, completeAddress, hpartial, hidle]

/-- The last address byte completes the phase with the first one's flags (43_bus_transactions.md R194). -/
theorem addressByte_last {s : State} (hc : CountInv s) (hl : s.cfg.format.bytes.count ≤ s.tx.addrCnt + 1) (b : Byte) :
    addressByte s b = addrSet s (firstAddressByte s b) b := by
  obtain ⟨hlt, _⟩ := hc
  obtain ⟨hshort, _⟩ | ⟨_, hbytes, e⟩ | ⟨_, hbytes, e⟩ := addressByte_or s b
  · omega
  · have hzero : s.tx.addrCnt = 0 := by simpa [hbytes, AddrBytes.count] using hlt
    rw [e, firstAddressByte, if_pos hzero]
  · have hone : s.tx.addrCnt ≠ 0 := by
      simp only [hbytes, AddrBytes.count] at hl
      omega
    rw [e, firstAddressByte, if_neg hone]

/-- A write to a block that waits for an address hands its first byte to the address phase. -/
theorem busWrite_awaits {s : State} (h : awaitsAddress s = true) (b : Byte) (more : List Byte) :
    busWrite (b :: more) s = busWrite more (addressByte s b) := by
  simp only [busWrite, addressPhase, h, if_true]

/-- A write to a block past the address phase is all data. -/
theorem busWrite_closed {s : State} (h : awaitsAddress s = false) (bytes : List Byte) :
    busWrite bytes s = writeRest bytes s := by
  rw [busWrite, addressPhase_closed h]

/-- A write whose first byte is the last one of the address phase. -/
theorem busWrite_lastByte_tstate {s t : State} (hc : CountInv s) (ha : awaitsAddress s = true)
    (hl : s.cfg.format.bytes.count ≤ s.tx.addrCnt + 1) {b : Byte} {more : List Byte}
    (h : busWrite (b :: more) s = .done () t) :
    t.tx.tstate = afterAddress 1 (more.length + 1)
      (stateAfterAddress s.cfg.format.rwBit (flagBit s.cfg.format.rwBit (firstAddressByte s b))) := by
  rw [busWrite_awaits ha, addressByte_last hc hl, busWrite_closed (addrSet_awaits _ _ _)] at h
  cases more with
  | nil =>
    cases h
    rfl
  | cons b' rest =>
    exact (writeRest_tstate (addrSet_awaits _ _ _) h).trans (afterAddress_of_lt (by simp) _).symm

/-- A write to a block that waits for an address, by how many address bytes are due. -/
theorem busWrite_awaits_tstate {s t : State} (hc : CountInv s) (ha : awaitsAddress s = true) {b : Byte}
    {more : List Byte} (h : busWrite (b :: more) s = .done () t) :
    t.tx.tstate = afterAddress (s.cfg.format.bytes.count - s.tx.addrCnt) (more.length + 1)
      (stateAfterAddress s.cfg.format.rwBit (flagBit s.cfg.format.rwBit (firstAddressByte s b))) := by
  obtain ⟨hshort, e⟩ | hlast : (s.tx.addrCnt + 1 < s.cfg.format.bytes.count ∧ addressByte s b =
      { s with tx := { s.tx with addrAcc := b, addrCnt := s.tx.addrCnt + 1, tstate := .addressPartial } }) ∨
      s.cfg.format.bytes.count ≤ s.tx.addrCnt + 1 :=
    (addressByte_or s b).imp id fun h => h.elim (·.1) (·.1)
  · have hcount : s.cfg.format.bytes.count ≤ 2 := by cases s.cfg.format.bytes <;> simp [AddrBytes.count]
    have hzero : s.tx.addrCnt = 0 := by omega
    have hdue : s.cfg.format.bytes.count - s.tx.addrCnt = 2 := by omega
    rw [busWrite_awaits ha, e] at h
    rw [hdue, firstAddressByte, if_pos hzero]
    cases more with
    | nil =>
      cases h
      rfl
    | cons b' rest =>
      rw [busWrite_lastByte_tstate ⟨hshort, by simp⟩ (by simp [awaitsAddress]) (by dsimp only; omega) h]
      simp [afterAddress, firstAddressByte]
  · have hdue : s.cfg.format.bytes.count - s.tx.addrCnt = 1 := by
      have hlt := hc.1
      omega
    rw [hdue]
    exact busWrite_lastByte_tstate hc ha hlast h

/-! ### The transition table -/

theorem execBusFinish_tstate {s t : State} (h : exec .busFinish s = .next t) : t.tx.tstate = .idle := by
  obtain ⟨_, rfl⟩ := operatePlain_next (show operatePlain s busFinish = .next t from h)
  rfl

/-- A write past the address phase: Reading stays, the others go to Writing (43_bus_transactions.md R195 to R197). -/
theorem busWrite_closed_tstate {s t : State} (ha : awaitsAddress s = false) {b : Byte} {more : List Byte}
    (h : busWrite (b :: more) s = .done () t) :
    t.tx.tstate = if s.tx.tstate = .reading then .reading else .writing :=
  writeRest_tstate ha (busWrite_closed ha (b :: more) ▸ h)

/-- The state a complete address phase leads to, by its first byte (43_bus_transactions.md R194). -/
theorem stateAfterAddress_flagBit (p : Option Nat) (b : Byte) :
    stateAfterAddress p (flagBit p b) =
      match p with
      | none => .addressSet
      | some i => if b.getLsbD i then .reading else .writing := by
  cases p <;> rfl

/-- Settles O32: a primitive that is not abandoned is done, and the last of its bytes, or the misuse, says the next
state (43_bus_transactions.md R192 to R213, R215; 10_state.md R33). -/
theorem transitionTable : Obligations.TransitionTable := by
  intro s t hc ht
  refine ⟨execBusFinish_tstate, fun n h => ?_, fun b more h => ?_⟩
  · obtain ⟨u, hu, htx⟩ := execBusRead_completed h ht
    rw [htx, busRead_tstate hu]
    cases hst : s.tx.tstate <;> simp [serves, hst]
  · obtain ⟨u, hu, htx⟩ := execBusWrite_completed h ht
    have hopen := fun ha : awaitsAddress s = true => busWrite_awaits_tstate hc ha hu
    have hclosed := fun ha : awaitsAddress s = false => busWrite_closed_tstate ha hu
    rw [stateAfterAddress_flagBit] at hopen
    rw [htx]
    cases hst : s.tx.tstate with
    | idle => exact hopen (by simp [awaitsAddress, hst])
    | addressPartial => exact hopen (by simp [awaitsAddress, hst])
    | addressSet => simpa [hst] using hclosed (by simp [awaitsAddress, hst])
    | writing => simpa [hst] using hclosed (by simp [awaitsAddress, hst])
    | reading => simpa [hst] using hclosed (by simp [awaitsAddress, hst])

end Sys2Proof.Machine

/-! ### Earlier diagnostics change nothing that an operation or a step does -/

namespace Sys2Proof.Machine

/-- The state with these records logged before its own: `dress` with the inputs left alone. -/
def logFirst (D : List Diag) (s : State) : State := { s with diag := D ++ s.diag }

theorem dress_eq_logFirst {D : List Diag} {e : Env} {t : State} (h : t.env = e) : dress D e t = logFirst D t := by
  rw [dress, ← h]; rfl

/-- An operation that answers a next state leaves the inputs alone. -/
theorem exec_env {i : Instr} {s t : State} (h : exec i s = .next t) : t.env = s.env := by
  obtain ⟨_, rfl | ⟨r, u, hu, rfl⟩ | ⟨u, what, hu, rfl⟩⟩ := exec_next outline_kept h
  · rfl
  · simpa using hu.env
  · exact hu.env

/-- No operation looks at the records so far, and it keeps them (10_state.md R51). -/
theorem exec_logFirst (D : List Diag) (i : Instr) (s : State) :
    exec i (logFirst D s) = onOutcome (logFirst D) (exec i s) := by
  rw [← dress_eq_logFirst (D := D) (t := s) rfl, exec_dress]
  cases h : exec i s with
  | next t => exact congrArg Host.Outcome.next (dress_eq_logFirst (exec_env h))
  | fault r => rfl
  | refused r => rfl

theorem runBus_logFirst (D : List Diag) (s : State) (ev : Timed BusOp) :
    runBus (logFirst D s) ev = onOutcome (logFirst D) (runBus s ev) := by
  have hpiece : busPiece (logFirst D s) ev.op = busPiece s ev.op := rfl
  have htime : atTime (logFirst D s) ev.now = logFirst D (atTime s ev.now) := rfl
  unfold runBus
  rw [hpiece, htime, exec_logFirst]
  cases exec (busPiece s ev.op).1.toInstr (atTime s ev.now) <;> rfl

theorem runHost_logFirst (D : List Diag) (s : State) (now : Time) (i : Instr) (rest : Option HostRest) :
    runHost (logFirst D s) now i rest = onOutcome (logFirst D) (runHost s now i rest) := by
  have htime : atTime (logFirst D s) now = logFirst D (atTime s now) := rfl
  unfold runHost
  rw [htime, exec_logFirst]
  cases exec i (atTime s now) <;> rfl

theorem stepBus_logFirst (D : List Diag) (s : State) :
    stepBus (logFirst D s) = onOutcome (logFirst D) (stepBus s) := by
  unfold stepBus
  rw [show (logFirst D s).env = s.env from rfl]
  split
  · rw [show writeIsCut (logFirst D s) _ = writeIsCut s _ from rfl]
    split
    · rfl
    · exact runBus_logFirst D s _
  · split
    · rfl
    · split
      · rfl
      · rename_i ev more _ _
        exact runBus_logFirst D (takeBus s ev.now more) ev

theorem stepFeeder_logFirst (D : List Diag) (s : State) :
    stepFeeder (logFirst D s) = onOutcome (logFirst D) (stepFeeder s) := by
  unfold stepFeeder
  rw [show (logFirst D s).env = s.env from rfl]
  split
  · rfl
  · split
    · rfl
    · rename_i ev more _ _
      exact exec_logFirst D (ev.op.toInstr ev.now) (atTime (takeFeeder s ev.now more) ev.now)

/-- The end of HOST.LOADFILE is the one host step that is no operation of the table (log 13). -/
theorem endOfLoad_logFirst (D : List Diag) (s : State) (keeps : Bool) (result : Result) :
    operate (logFirst D s) (fun t => .done result (endLoad t keeps)) =
      onOutcome (logFirst D) (operate s fun t => .done result (endLoad t keeps)) := by
  have hdress : ∀ t : State, t.env = s.env → dress D s.env t = logFirst D t := fun _ => dress_eq_logFirst
  rw [← hdress s rfl, dress_operate (by cases keeps <;> rfl)]
  cases h : operate s fun t => .done result (endLoad t keeps) with
  | next t =>
    obtain ⟨_, ⟨r, u, hu, rfl⟩ | hu⟩ := operate_next h <;> cases hu
    exact congrArg Host.Outcome.next (hdress _ (by simp))
  | fault r => rfl
  | refused r => rfl

theorem continueHost_logFirst (D : List Diag) (s : State) (ev : Timed HostRest) :
    continueHost (logFirst D s) ev = onOutcome (logFirst D) (continueHost s ev) := by
  unfold continueHost
  split
  · exact runHost_logFirst D s _ _ _
  · exact runHost_logFirst D s _ _ _
  · exact endOfLoad_logFirst D (leaveHost (atTime s ev.now) none) _ _

theorem stepHost_logFirst (D : List Diag) (s : State) :
    stepHost (logFirst D s) = onOutcome (logFirst D) (stepHost s) := by
  unfold stepHost
  rw [show (logFirst D s).env = s.env from rfl]
  split
  · exact continueHost_logFirst D s _
  · split
    · rfl
    · split
      · rfl
      · rename_i ev more _ _
        exact runHost_logFirst D (takeHost s ev.now more) ev.now (hostPiece s ev.op).1 (hostPiece s ev.op).2

/-- No step looks at the records so far, and it keeps them (10_state.md R51). -/
theorem step_logFirst (D : List Diag) (s : State) : step (logFirst D s) = onOutcome (logFirst D) (step s) := by
  unfold step stepScheduled
  rw [show (logFirst D s).faulted = s.faulted from rfl, show (logFirst D s).cfg = s.cfg from rfl,
    show (logFirst D s).env = s.env from rfl]
  split
  · rfl
  · split
    · split
      · rfl
      · rename_i a rest _
        cases a with
        | bus => exact stepBus_logFirst D (scheduled s rest)
        | feeder => exact stepFeeder_logFirst D (scheduled s rest)
        | host => exact stepHost_logFirst D (scheduled s rest)
    · rfl

/-- Settles O51: a state with the records `D` is the one without records, `D` logged first, which neither an operation
nor a step looks at (10_state.md R51). -/
theorem diagIsOutput : Obligations.DiagIsOutput := by
  intro s D
  have hstart : ({ s with diag := D } : State) = logFirst D { s with diag := [] } := by simp [logFirst]
  rw [hstart]
  refine ⟨fun i => ?_, ?_⟩
  · rw [exec_logFirst]
    cases exec i { s with diag := [] } <;> rfl
  · rw [step_logFirst]
    cases step { s with diag := [] } <;> rfl

end Sys2Proof.Machine

/-! ### A bus primitive as its atomic steps -/

namespace Sys2Proof.Machine

/-! The engine does not look at the interrupt level, and a data byte settles it. -/

/-- The state with another interrupt level. -/
def withIrq (level : Bool) (s : State) : State := { s with irq := level }

theorem settleIrq_eq_withIrq (s : State) : settleIrq s = withIrq (irqHolds s s.cfg.irqCond) s := rfl

/-- What the level was before it is settled does not matter (60_exceptions.md R281). -/
theorem settleIrq_withIrq (level : Bool) (s : State) : settleIrq (withIrq level s) = settleIrq s := by
  have hlevel : irqHolds (withIrq level s) s.cfg.irqCond = irqHolds s s.cfg.irqCond :=
    irqHolds_congr (s := s) (t := withIrq level s) rfl rfl rfl rfl _
  simp only [settleIrq, withIrq] at hlevel ⊢
  rw [hlevel]

theorem advance_withIrq (level : Bool) (s : State) : advance (withIrq level s) = withIrq level (advance s) := by
  unfold advance
  rw [show (withIrq level s).cfg = s.cfg from rfl, show advanceOpen (withIrq level s) = advanceOpen s from rfl]
  split
  · rfl
  · split <;> rfl

theorem moved_withIrq (level : Bool) (u : State) (t : TState) : moved (withIrq level u) t = moved u t := by
  unfold moved
  rw [advance_withIrq, ← settleIrq_withIrq level (setTState (advance u) t)]
  rfl

/-- The surroundings that differ from those of `s` in the interrupt level alone. -/
def relevelled (level : Bool) (s : State) : Surroundings :=
  { tx := s.tx, irq := level, diag := [], busOut := s.busOut, results := s.results, env := s.env }

theorem swap_relevelled {level : Bool} {s u : State} (h : Framed s u) :
    swap (relevelled level s) u = withIrq level u := by
  simp [swap, relevelled, withIrq, ← h.tx, ← h.busOut, ← h.results, ← h.env]

/-- The register access of a data byte does not look at the interrupt level. -/
theorem writeTarget_withIrq {b : Byte} {s u : State} (level : Bool) (h : writeTarget s b = .done () u) :
    writeTarget (withIrq level s) b = .done () (withIrq level u) := by
  have hblind : writeTarget (swap (relevelled level s) s) b =
      (writeTarget s b).onState (swap (relevelled level s)) := by
    unfold writeTarget
    rw [swap_cfg]
    split
    · exact swap_collWriteOff blind_hooks _ _ _ _ _ s
    · exact swap_collWrite blind_hooks _ _ _ s
  have hframed := writeTarget_framed b s
  rw [h] at hframed hblind
  rw [swap_relevelled (Framed.refl s)] at hblind
  rw [hblind, ← swap_relevelled hframed]
  rfl

theorem dataWriteByte_withIrq {b : Byte} {s t : State} (level : Bool) (h : dataWriteByte b s = .done () t) :
    dataWriteByte b (withIrq level s) = .done () t := by
  obtain ⟨u, hu, rfl⟩ := dataWriteByte_done h
  unfold dataWriteByte
  rw [writeTarget_withIrq level hu]
  exact congrArg (Ran.done ()) (moved_withIrq level u .writing)

/-- The bytes after an address phase do the same when the level has been settled in between. -/
theorem writeRest_withIrq {bytes : List Byte} {s t : State} (level : Bool) (h : writeRest bytes s = .done () t) :
    ∃ u, writeRest bytes (withIrq level s) = .done () u ∧ settleIrq u = settleIrq t := by
  cases bytes with
  | nil =>
    cases h
    exact ⟨_, rfl, settleIrq_withIrq level s⟩
  | cons b more =>
    have hsame : (withIrq level s).tx = s.tx := rfl
    have hdata : writeBytes (b :: more) s = .done () t → writeBytes (b :: more) (withIrq level s) = .done () t := by
      intro hw
      obtain ⟨_, u, hu, hrest⟩ := andThen_done hw
      unfold writeBytes
      rw [dataWriteByte_withIrq level hu]
      exact hrest
    cases hst : s.tx.tstate <;> simp only [writeRest, hsame, hst] at h ⊢
    case addressSet => exact ⟨t, hdata h, rfl⟩
    case writing => exact ⟨t, hdata h, rfl⟩
    case reading =>
      cases h
      exact ⟨_, rfl, settleIrq_withIrq level (takeWriteMisuse s (more.length + 1))⟩
    all_goals
      cases h
      exact ⟨_, rfl, settleIrq_withIrq level s⟩

/-! What a primitive that is not abandoned leaves. -/

/-- An operation answers a next state only while the latch is not set (43_bus_transactions.md R211). -/
theorem faulted_of_exec {i : Instr} {s t : State} (h : exec i s = .next t) : s.faulted = false := by
  obtain ⟨hf, _⟩ := exec_next outline_kept h
  exact hf

/-- An operation that is done does not touch the latch. -/
theorem done_faulted {s u : State} {x : Ran Unit} (hx : x.Meets True (Outline s)) (h : x = .done () u) :
    u.faulted = s.faulted := by
  rw [h] at hx
  exact hx.faulted

theorem busWrite_outline (bytes : List Byte) (s : State) : (busWrite bytes s).Meets True (Outline s) :=
  busWrite_meets outline_kept.toBusKept (hooks_meets outline_kept.toHookKept) (goodMap_any s.cfg) bytes rfl

theorem busRead_outline (n : Nat) (s : State) : (busRead n s).Meets True (Outline s) :=
  busRead_meets outline_kept.toBusKept (hooks_meets outline_kept.toHookKept) (goodMap_any s.cfg) n rfl

theorem execBusWrite_of_done {s u : State} {bytes : List Byte} (hne : bytes ≠ []) (hs : s.faulted = false)
    (h : busWrite bytes s = .done () u) : exec (.busWrite bytes) s = .next (settleIrq u) := by
  obtain ⟨b, more, rfl⟩ := List.exists_cons_of_ne_nil hne
  exact operate_done (body := fun v => (busWrite (b :: more) v).andThen fun _ w => .done .none w) (r := .none) hs
    (by rw [h]; rfl)

theorem execBusRead_of_done {s u : State} {n : Nat} (hs : s.faulted = false)
    (h : busRead (n + 1) s = .done () u) : exec (.busRead (n + 1)) s = .next (settleIrq u) :=
  operate_done (body := fun v => (busRead (n + 1) v).andThen fun _ w => .done .none w) (r := .none) hs
    (by rw [h]; rfl)

/-- A write that is not abandoned is done, and then the interrupt level is settled (60_exceptions.md R281). -/
theorem execBusWrite_settled {s t : State} {bytes : List Byte} (hne : bytes ≠ [])
    (h : exec (.busWrite bytes) s = .next t) (ht : t.faulted = false) :
    s.faulted = false ∧ ∃ u, busWrite bytes s = .done () u ∧ t = settleIrq u := by
  obtain ⟨b, more, rfl⟩ := List.exists_cons_of_ne_nil hne
  obtain ⟨u, hu, _⟩ := execBusWrite_completed h ht
  have hs := faulted_of_exec h
  exact ⟨hs, u, hu, Host.Outcome.next.inj (h.symm.trans (execBusWrite_of_done hne hs hu))⟩

/-- A read that is not abandoned is done, and then the interrupt level is settled (60_exceptions.md R281). -/
theorem execBusRead_settled {s t : State} {n : Nat} (h : exec (.busRead (n + 1)) s = .next t)
    (ht : t.faulted = false) : s.faulted = false ∧ ∃ u, busRead (n + 1) s = .done () u ∧ t = settleIrq u := by
  obtain ⟨u, hu, _⟩ := execBusRead_completed h ht
  have hs := faulted_of_exec h
  exact ⟨hs, u, hu, Host.Outcome.next.inj (h.symm.trans (execBusRead_of_done hs hu))⟩

/-! The first piece of a primitive, and the rest of it. -/

/-- A served read of several bytes is a read of one, then of the others (43_bus_transactions.md R199). -/
theorem execBusRead_first {s t : State} {n : Nat} (hserves : serves s = true)
    (h : exec (.busRead (n + 2)) s = .next t) (ht : t.faulted = false) :
    ∃ v, exec (.busRead 1) s = .next v ∧ exec (.busRead (n + 1)) v = .next t := by
  obtain ⟨hs, z, hz, rfl⟩ := execBusRead_settled h ht
  have hread : ∀ k, busRead k s = readBytes k s := fun k => if_pos hserves
  rw [hread] at hz
  obtain ⟨_, w, hw, hrest⟩ := andThen_done hz
  have hone : busRead 1 s = .done () w := by
    rw [hread, readBytes, hw]
    rfl
  have hfaulted := done_faulted (busRead_outline 1 s) hone
  obtain ⟨byte, u, _, rfl⟩ := dataReadByte_done hw
  have hirq : IrqInv (reply (moved u .reading) [byte]) :=
    (IrqInv_congr (by simp) (by simp) (by simp) (by simp) (by simp)).2 (IrqInv_moved u .reading)
  refine ⟨_, (execBusRead_of_done hs hone).trans (congrArg _ (settle_of_IrqInv hirq)),
    execBusRead_of_done (hfaulted.trans hs) ?_⟩
  rwa [busRead, if_pos (by simp [serves])]

/-- In a data state every byte written is data (43_bus_transactions.md R195, R196). -/
theorem busWrite_data {s : State} (hst : s.tx.tstate = .addressSet ∨ s.tx.tstate = .writing) (bytes : List Byte) :
    busWrite bytes s = writeBytes bytes s := by
  rw [busWrite_closed (by obtain e | e := hst <;> simp [awaitsAddress, e])]
  cases bytes with
  | nil => rfl
  | cons b more => obtain e | e := hst <;> simp only [writeRest, e]

/-- Data bytes written are the first one, then the others (43_bus_transactions.md R196). -/
theorem execBusWrite_first {s t : State} {b : Byte} {more : List Byte}
    (hst : s.tx.tstate = .addressSet ∨ s.tx.tstate = .writing) (hmore : more ≠ [])
    (h : exec (.busWrite (b :: more)) s = .next t) (ht : t.faulted = false) :
    ∃ v, exec (.busWrite [b]) s = .next v ∧ awaitsAddress v = false ∧ exec (.busWrite more) v = .next t := by
  obtain ⟨hs, z, hz, rfl⟩ := execBusWrite_settled (List.cons_ne_nil b more) h ht
  rw [busWrite_data hst] at hz
  obtain ⟨_, w, hw, hrest⟩ := andThen_done hz
  have hone : busWrite [b] s = .done () w := by
    rw [busWrite_data hst, writeBytes, hw]
    rfl
  have hfaulted := done_faulted (busWrite_outline [b] s) hone
  obtain ⟨u, _, rfl⟩ := dataWriteByte_done hw
  refine ⟨_, (execBusWrite_of_done (by simp) hs hone).trans (congrArg _ (settle_of_IrqInv (IrqInv_moved u .writing))),
    by simp [awaitsAddress], execBusWrite_of_done hmore (hfaulted.trans hs) ?_⟩
  rwa [busWrite_data (.inr rfl)]

/-- The address bytes due complete the address phase (43_bus_transactions.md R192 to R194). -/
theorem addressPhase_due {s : State} {bytes : List Byte} (hc : CountInv s) (ha : awaitsAddress s = true)
    (hlen : bytes.length = s.cfg.format.bytes.count - s.tx.addrCnt) :
    (addressPhase s bytes).1 = [] ∧ awaitsAddress (addressPhase s bytes).2 = false := by
  induction bytes generalizing s with
  | nil =>
    have hlt := hc.1
    simp only [List.length_nil] at hlen
    omega
  | cons b rest ih =>
    rw [List.length_cons] at hlen
    rw [addressPhase, if_pos ha]
    by_cases hshort : s.tx.addrCnt + 1 < s.cfg.format.bytes.count
    · rw [addressByte, if_pos hshort]
      exact ih ⟨hshort, by simp⟩ (by simp [awaitsAddress]) (by dsimp only; omega)
    · obtain rfl : rest = [] := List.eq_nil_of_length_eq_zero (by omega)
      rw [addressByte_last hc (by omega)]
      exact ⟨rfl, addrSet_awaits _ _ _⟩

/-- The bytes after an address phase do the same when they are written on their own (43_bus_transactions.md R195 to
R197). -/
theorem execBusWrite_address {s t : State} {xs ys : List Byte} (hc : CountInv s) (ha : awaitsAddress s = true)
    (hlen : xs.length = s.cfg.format.bytes.count - s.tx.addrCnt) (hys : ys ≠ [])
    (h : exec (.busWrite (xs ++ ys)) s = .next t) (ht : t.faulted = false) :
    ∃ v, exec (.busWrite xs) s = .next v ∧ awaitsAddress v = false ∧ exec (.busWrite ys) v = .next t := by
  obtain ⟨hs, z, hz, rfl⟩ := execBusWrite_settled (by simp [hys]) h ht
  have hxs : xs ≠ [] := by
    have hlt := hc.1
    exact List.ne_nil_of_length_pos (by omega)
  obtain ⟨hall, hclosed⟩ := addressPhase_due hc ha hlen
  have hphase : busWrite xs s = .done () (addressPhase s xs).2 := by
    rw [busWrite, hall]
    rfl
  rw [busWrite, addressPhase_append, if_pos hall, addressPhase_closed hclosed] at hz
  obtain ⟨u, hu, hsettle⟩ := writeRest_withIrq (irqHolds (addressPhase s xs).2 (addressPhase s xs).2.cfg.irqCond) hz
  rw [← settleIrq_eq_withIrq] at hu
  refine ⟨_, execBusWrite_of_done hxs hs hphase, hclosed, ?_⟩
  rw [← hsettle]
  refine execBusWrite_of_done hys ((done_faulted (busWrite_outline xs s) hphase).trans hs) ?_
  exact (busWrite_closed (s := settleIrq (addressPhase s xs).2) hclosed ys).trans hu

/-! The pieces that the bus thread cuts a primitive into. -/

theorem busPiece_write_awaits {s : State} (h : awaitsAddress s = true) (bytes : List Byte) :
    busPiece s (.write bytes) =
      (.write (bytes.take (addressBytesDue s)), writeLeft (bytes.drop (addressBytesDue s))) := by
  cases hst : s.tx.tstate <;> simp [awaitsAddress, hst] at h <;> simp only [busPiece, hst]

theorem busPiece_write_data {s : State} (h : s.tx.tstate = .addressSet ∨ s.tx.tstate = .writing)
    (bytes : List Byte) : busPiece s (.write bytes) = (.write (bytes.take 1), writeLeft (bytes.drop 1)) := by
  obtain e | e := h <;> simp only [busPiece, e]

/-- How many bytes a primitive has; every piece but the last takes one at least. -/
def busSize : BusOp → Nat
  | .write bytes => bytes.length
  | .read n => n
  | .finish => 0

theorem writeLeft_eq_some {bytes : List Byte} {op : BusOp} (h : writeLeft bytes = some op) :
    op = .write bytes ∧ bytes ≠ [] := by
  cases bytes with
  | nil => cases h
  | cons b more =>
    cases h
    exact ⟨rfl, List.cons_ne_nil b more⟩

theorem busSize_writeLeft_drop {bytes : List Byte} {k : Nat} (hk : 0 < k) {op : BusOp}
    (h : writeLeft (bytes.drop k) = some op) : busSize op < busSize (.write bytes) := by
  obtain ⟨rfl, hne⟩ := writeLeft_eq_some h
  have hlt := List.length_pos_of_ne_nil hne
  simp only [busSize, List.length_drop] at hlt ⊢
  omega

/-- What is left of a primitive after a piece of it is shorter. -/
theorem busSize_busPiece {s : State} {op op' : BusOp} (h : (busPiece s op).2 = some op') : busSize op' < busSize op := by
  cases op with
  | write bytes =>
    have hdue : 0 < addressBytesDue s := Nat.lt_of_lt_of_le Nat.one_pos (Nat.le_max_left _ _)
    cases hst : s.tx.tstate <;> simp only [busPiece, hst] at h
    case reading => cases h
    case idle => exact busSize_writeLeft_drop hdue h
    case addressPartial => exact busSize_writeLeft_drop hdue h
    case addressSet => exact busSize_writeLeft_drop Nat.one_pos h
    case writing => exact busSize_writeLeft_drop Nat.one_pos h
  | read n =>
    match n, h with
    | n + 2, h =>
      simp only [busPiece] at h
      split at h <;> cases h
      exact Nat.lt_succ_self _
  | finish => cases h

/-- A piece that led to `v` leaves something to do that leads on to `t`: nothing, or the rest of a primitive that is not
cut. -/
def LeadsOn (v t : State) : Option BusOp → Prop
  | none => v = t
  | some op => writeIsCut v op = false ∧ exec op.toInstr v = .next t

/-- A write split after `k` bytes, unless no byte is left. -/
theorem execBusWrite_take {s t : State} {bytes : List Byte} {k : Nat} (h : exec (.busWrite bytes) s = .next t)
    (hsplit : bytes.drop k ≠ [] → ∃ v, exec (.busWrite (bytes.take k)) s = .next v ∧ awaitsAddress v = false ∧
      exec (.busWrite (bytes.drop k)) v = .next t) :
    ∃ v, exec (.busWrite (bytes.take k)) s = .next v ∧ LeadsOn v t (writeLeft (bytes.drop k)) := by
  cases hleft : writeLeft (bytes.drop k) with
  | none =>
    have hnil : bytes.drop k = [] := by
      cases hd : bytes.drop k with
      | nil => rfl
      | cons b more => simp [hd, writeLeft] at hleft
    rw [List.take_of_length_le (List.drop_eq_nil_iff.1 hnil)]
    exact ⟨t, h, rfl⟩
  | some op =>
    obtain ⟨rfl, hne⟩ := writeLeft_eq_some hleft
    exact hsplit hne

/-- The first data byte of a write and the rest of it (43_bus_transactions.md R195, R196). -/
theorem exec_busPiece_data {bytes : List Byte} {s t : State}
    (hst : s.tx.tstate = .addressSet ∨ s.tx.tstate = .writing) (h : exec (.busWrite bytes) s = .next t)
    (ht : t.faulted = false) :
    ∃ v, exec (busPiece s (.write bytes)).1.toInstr s = .next v ∧ LeadsOn v t (busPiece s (.write bytes)).2 := by
  rw [busPiece_write_data hst]
  refine execBusWrite_take h fun hleft => ?_
  match bytes, h, hleft with
  | b :: more, h, hleft => exact execBusWrite_first hst hleft h ht

/-- The address bytes of a write and the rest of it (43_bus_transactions.md R192, R193). -/
theorem exec_busPiece_address {bytes : List Byte} {s t : State} (hc : CountInv s) (ha : awaitsAddress s = true)
    (h : exec (.busWrite bytes) s = .next t) (ht : t.faulted = false) :
    ∃ v, exec (busPiece s (.write bytes)).1.toInstr s = .next v ∧ LeadsOn v t (busPiece s (.write bytes)).2 := by
  have hdue : addressBytesDue s = s.cfg.format.bytes.count - s.tx.addrCnt :=
    Nat.max_eq_right (Nat.sub_pos_of_lt hc.1)
  rw [busPiece_write_awaits ha]
  refine execBusWrite_take h fun hleft => execBusWrite_address hc ha ?_ hleft ?_ ht
  · rw [← hdue, List.length_take]
    exact Nat.min_eq_left (Nat.le_of_lt (by simpa using hleft))
  · rwa [List.take_append_drop]

/-- The first atomic step of a bus primitive and the rest of it are the primitive whole (20_memory.md R70). -/
theorem exec_busPiece {op : BusOp} {s t : State} (hc : writeIsCut s op = true → CountInv s)
    (h : exec op.toInstr s = .next t) (ht : t.faulted = false) :
    ∃ v, exec (busPiece s op).1.toInstr s = .next v ∧ LeadsOn v t (busPiece s op).2 := by
  cases op with
  | finish => exact ⟨t, h, rfl⟩
  | read n =>
    match n, h with
    | 0, h => exact ⟨t, h, rfl⟩
    | 1, h => exact ⟨t, h, rfl⟩
    | n + 2, h =>
      simp only [busPiece]
      split
      · obtain ⟨v, hone, hrest⟩ := execBusRead_first ‹_› h ht
        exact ⟨v, hone, rfl, hrest⟩
      · exact ⟨t, h, rfl⟩
  | write bytes =>
    have haddress : awaitsAddress s = true → _ := fun ha => exec_busPiece_address (hc ha) ha h ht
    cases hst : s.tx.tstate with
    | idle => exact haddress (by simp [awaitsAddress, hst])
    | addressPartial => exact haddress (by simp [awaitsAddress, hst])
    | addressSet => exact exec_busPiece_data (.inl hst) h ht
    | writing => exact exec_busPiece_data (.inr hst) h ht
    | reading =>
      simp only [busPiece, hst]
      exact ⟨t, h, rfl⟩

/-! The bus thread scheduled, with nobody else in between. -/

/-- The state with the bus thread scheduled for the next `n` steps and in the middle of `rest`. -/
def onBus (n : Nat) (rest : Option (Timed BusOp)) (s : State) : State :=
  { s with env := { s.env with busRest := rest, schedule := List.replicate n .bus ++ s.env.schedule } }

theorem onBus_zero {s : State} (h : s.env.busRest = none) : onBus 0 none s = s := by
  simp [onBus, ← h]

/-- A piece of a primitive does the same whatever is scheduled after it. -/
theorem runBus_onBus {s v : State} {op : BusOp} (n : Nat) (rest : Option (Timed BusOp))
    (h : exec (busPiece s op).1.toInstr s = .next v) :
    runBus (onBus n rest s) { now := s.env.now, op := op } =
      .next (onBus n ((busPiece s op).2.map fun op' => { now := v.env.now, op := op' }) v) := by
  have hdress : atTime (onBus n rest s) s.env.now = dress [] (onBus n rest s).env s := rfl
  have hpiece : busPiece (onBus n rest s) op = busPiece s op := rfl
  have henv := exec_env h
  unfold runBus
  dsimp only
  rw [hpiece, hdress, exec_dress, h]
  simp only [onOutcome, leaveBus, dress, onBus, henv, List.nil_append]

/-- A step of a block that does not stop, with the bus thread scheduled next. -/
theorem step_bus {s : State} {later : List Agent} (hf : s.faulted = false) (hwf : s.cfg.wf = true)
    (hsched : s.env.schedule = .bus :: later) : step s = stepBus (scheduled s later) := by
  rw [step, hf, hwf, stepScheduled, hsched]
  rfl

/-- The bus thread goes on with a primitive it is in the middle of. -/
theorem step_onBus {s : State} {ev : Timed BusOp} (n : Nat) (hf : s.faulted = false) (hwf : s.cfg.wf = true)
    (hcut : writeIsCut s ev.op = false) :
    step (onBus (n + 1) (some ev) s) = runBus (onBus n (some ev) s) ev := by
  have hsame : writeIsCut (onBus n (some ev) s) ev.op = false := hcut
  have hstep : step (onBus (n + 1) (some ev) s) = stepBus (onBus n (some ev) s) := step_bus hf hwf rfl
  rw [hstep, stepBus_rest rfl, hsame]
  rfl

theorem core_run_succ {s v : State} (n : Nat) (h : step s = .next v) :
    Sys2Proof.core.run (n + 1) s = Sys2Proof.core.run n v := by
  simp only [Host.Core.run, show Sys2Proof.core.step s = .next v from h]

/-- Once begun, a primitive that nobody interrupts runs to the state of the primitive whole (20_memory.md R70, R73): by
induction on the bytes left. -/
theorem runBus_completes {op : BusOp} {s t : State} (hc : writeIsCut s op = true → CountInv s)
    (hwf : s.cfg.wf = true) (hidle : s.env.busRest = none) (h : exec op.toInstr s = .next t)
    (ht : t.faulted = false) :
    ∃ n, ∀ rest, ∃ v, runBus (onBus n rest s) { now := s.env.now, op := op } = .next v ∧
      Sys2Proof.core.run n v = .next t := by
  induction hsize : busSize op using Nat.strong_induction_on generalizing op s with
  | _ size ih =>
  obtain ⟨v, hpiece, hon⟩ := exec_busPiece hc h ht
  have hrun := fun n rest => runBus_onBus n rest hpiece
  have hv : v.env = s.env := exec_env hpiece
  cases hleft : (busPiece s op).2 with
  | none =>
    rw [hleft] at hon hrun
    obtain rfl : v = t := hon
    refine ⟨0, fun rest => ⟨_, hrun 0 rest, ?_⟩⟩
    exact congrArg _ (onBus_zero (hv ▸ hidle))
  | some op' =>
    rw [hleft] at hon hrun
    obtain ⟨hcut, hrest⟩ := hon
    have hwf' : v.cfg.wf = true := (exec_kept steady_kept _ hpiece).cfg ▸ hwf
    have hshorter : busSize op' < size := hsize ▸ busSize_busPiece hleft
    obtain ⟨n, hn⟩ := ih _ hshorter (by simp [hcut]) hwf' (hv ▸ hidle) hrest rfl
    obtain ⟨w, hw, hlast⟩ := hn (some { now := v.env.now, op := op' })
    refine ⟨n + 1, fun rest => ⟨_, hrun (n + 1) rest, ?_⟩⟩
    exact (core_run_succ n ((step_onBus n (faulted_of_exec hrest) hwf' hcut).trans hw)).trans hlast

/-- The state with the head event of the bus queue begun. -/
def begun (s : State) (now : Time) (more : List (Timed BusOp)) (sch : List Agent) : State :=
  { s with env := { s.env with busQueue := more, schedule := sch, now := now, latest := now } }

/-- The bus thread takes the next primitive from its queue. -/
theorem step_onBus_head {s : State} {op : BusOp} {now : Time} {more : List (Timed BusOp)} {sch : List Agent} (n : Nat)
    (hf : s.faulted = false) (hwf : s.cfg.wf = true) (hidle : s.env.busRest = none)
    (hqueue : s.env.busQueue = { now := now, op := op } :: more) (hlatest : s.env.latest ≤ now) :
    step { s with env := { s.env with schedule := List.replicate (n + 1) .bus ++ sch } } =
      runBus (onBus n none (begun s now more sch)) { now := now, op := op } := by
  have hstep : step { s with env := { s.env with schedule := List.replicate (n + 1) .bus ++ sch } } =
      stepBus (scheduled s (List.replicate n Agent.bus ++ sch)) := step_bus hf hwf rfl
  rw [hstep, stepBus_head (s := scheduled s (List.replicate n Agent.bus ++ sch)) hidle hqueue hlatest]
  simp only [onBus, begun, ← hidle]
  rfl

/-- Settles O59: the step that takes the primitive from the queue runs its first piece, and `runBus_completes` the others
(20_memory.md R70, R73). -/
theorem busStepsEqualWhole : Obligations.BusStepsEqualWhole := by
  intro s t op now more sch hwf hc hidle hqueue hlatest hexec ht
  obtain ⟨n, hn⟩ := runBus_completes (s := begun s now more sch) (fun _ => hc) hwf hidle hexec ht
  obtain ⟨v, hv, hrun⟩ := hn none
  have hf : s.faulted = false := faulted_of_exec (s := begun s now more sch) hexec
  have hfirst := step_onBus_head (sch := sch) n hf hwf hidle hqueue hlatest
  exact ⟨n + 1, (core_run_succ n (hfirst.trans hv)).trans hrun⟩

end Sys2Proof.Machine

/-! ### The encoding of the address phase -/

namespace Sys2Proof.Machine

/-! A flag bit put before the bits of an address, and the two bytes of an address word. -/

theorem getLsbD_flag_append {n : Nat} (r : Bool) (a : BitVec n) : (BitVec.ofBool r ++ a).getLsbD n = r := by
  rw [BitVec.getLsbD_append, if_neg (Nat.lt_irrefl n), Nat.sub_self]
  cases r <;> rfl

theorem extract_flag_append {n : Nat} (r : Bool) (a : BitVec n) : (BitVec.ofBool r ++ a).extractLsb' 0 n = a :=
  BitVec.extractLsb'_append_eq_right

theorem extract_flags_append {n : Nat} (r m : Bool) (a : BitVec n) :
    (BitVec.ofBool r ++ (BitVec.ofBool m ++ a)).extractLsb' 0 n = a := by
  apply BitVec.eq_of_getLsbD_eq
  intro j hj
  rw [BitVec.getLsbD_extractLsb', Nat.zero_add, BitVec.getLsbD_append, if_pos (by omega), BitVec.getLsbD_append,
    if_pos hj, decide_eq_true hj, Bool.true_and]

theorem getLsbD_flags_append {n : Nat} (r m : Bool) (a : BitVec n) :
    (BitVec.ofBool r ++ (BitVec.ofBool m ++ a)).getLsbD n = m := by
  rw [BitVec.getLsbD_append, if_pos (by omega), getLsbD_flag_append]

/-- A flag and the bits below it. -/
theorem flag_append_extract {w : Nat} (b : BitVec w) (n : Nat) :
    BitVec.ofBool (b.getLsbD n) ++ b.extractLsb' 0 n = b.extractLsb' 0 (1 + n) := by
  apply BitVec.eq_of_getLsbD_eq
  intro j hj
  rw [BitVec.getLsbD_append]
  by_cases hlow : j < n
  · simp [hlow, hj]
  · obtain rfl : j = n := by omega
    simp [hj]

theorem bytes_append (a : BitVec 16) : a.extractLsb' 8 8 ++ a.extractLsb' 0 8 = a := by
  apply BitVec.eq_of_getLsbD_eq
  intro j hj
  rw [BitVec.getLsbD_append]
  by_cases hlow : j < 8
  · simp [hlow]
  · have hhigh : j - 8 < 8 := by omega
    simp [hlow, hhigh, show 8 + (j - 8) = j by omega]

theorem extract_low_append (x y : Byte) : (x ++ y).extractLsb' 0 8 = y := BitVec.extractLsb'_append_eq_right

theorem extract_high_append (x y : Byte) : (x ++ y).extractLsb' 8 8 = x := BitVec.extractLsb'_append_eq_left

/-! What the decoder reads in each format. -/

theorem decode_plain8 (order : Endian) (b : Byte) (rest : List Byte) :
    decode plain8 order (b :: rest) = .ok (.addrSetPlain8 b, rest) := by
  simp [decode]

theorem decode_rw7 (order : Endian) (b : Byte) (rest : List Byte) :
    decode rw7 order (b :: rest) = .ok (.addrSetRw7 (b.getLsbD 7) (b.extractLsb' 0 7), rest) := by
  simp [decode, show rw7 ≠ plain8 by decide]

theorem decode_rw7ms6 (order : Endian) (b : Byte) (rest : List Byte) :
    decode rw7ms6 order (b :: rest) =
      .ok (.addrSetRw7Ms6 (b.getLsbD 7) (b.getLsbD 6) (b.extractLsb' 0 6), rest) := by
  simp [decode, show rw7ms6 ≠ plain8 by decide, show rw7ms6 ≠ rw7 by decide]

theorem decode_plain16 (order : Endian) (b0 b1 : Byte) (rest : List Byte) :
    decode plain16 order (b0 :: b1 :: rest) = .ok (.addrSetPlain16 (addrWord .two order b0 b1), rest) := by
  cases order <;>
    simp [decode, addrWord, show plain16 ≠ plain8 by decide, show plain16 ≠ rw7 by decide,
      show plain16 ≠ rw7ms6 by decide]

/-- Everything the decoder can read (30_encoding.md R92, R93). -/
theorem decode_ok {fmt : AddrFormat} {order : Endian} {bytes rest : List Byte} {i : Instr}
    (h : decode fmt order bytes = .ok (i, rest)) :
    (fmt = plain8 ∧ ∃ b, bytes = b :: rest ∧ i = .addrSetPlain8 b) ∨
    (fmt = rw7 ∧ ∃ b, bytes = b :: rest ∧ i = .addrSetRw7 (b.getLsbD 7) (b.extractLsb' 0 7)) ∨
    (fmt = rw7ms6 ∧ ∃ b, bytes = b :: rest ∧
      i = .addrSetRw7Ms6 (b.getLsbD 7) (b.getLsbD 6) (b.extractLsb' 0 6)) ∨
    (fmt = plain16 ∧ ∃ b0 b1, bytes = b0 :: b1 :: rest ∧ i = .addrSetPlain16 (addrWord .two order b0 b1)) := by
  by_cases h1 : fmt = plain8
  · subst h1
    cases bytes with
    | nil => simp [decode] at h
    | cons b more =>
      rw [decode_plain8] at h
      cases h
      exact .inl ⟨rfl, b, rfl, rfl⟩
  by_cases h2 : fmt = rw7
  · subst h2
    cases bytes with
    | nil => simp [decode, h1] at h
    | cons b more =>
      rw [decode_rw7] at h
      cases h
      exact .inr (.inl ⟨rfl, b, rfl, rfl⟩)
  by_cases h3 : fmt = rw7ms6
  · subst h3
    cases bytes with
    | nil => simp [decode, h1, h2] at h
    | cons b more =>
      rw [decode_rw7ms6] at h
      cases h
      exact .inr (.inr (.inl ⟨rfl, b, rfl, rfl⟩))
  by_cases h4 : fmt = plain16
  · subst h4
    match bytes with
    | [] => simp [decode, h1, h2, h3] at h
    | [b] => simp [decode, h1, h2, h3] at h
    | b0 :: b1 :: more =>
      rw [decode_plain16] at h
      cases h
      exact .inr (.inr (.inr ⟨rfl, b0, b1, rfl, rfl⟩))
  · simp [decode, h1, h2, h3, h4] at h

/-- Settles O1: form by form, the format's decoder takes the bytes of the encoding apart again (30_encoding.md R92,
R93). -/
theorem decodeEncodeAgree : Obligations.DecodeEncodeAgree := by
  intro order i fmt hfmt
  cases i <;> cases hfmt
  case addrSetPlain8 a => exact ⟨_, rfl, rfl, fun rest => decode_plain8 order a rest⟩
  case addrSetRw7 r a =>
    refine ⟨_, rfl, rfl, fun rest => (decode_rw7 order _ rest).trans ?_⟩
    rw [getLsbD_flag_append, extract_flag_append]
  case addrSetRw7Ms6 r m a =>
    refine ⟨_, rfl, rfl, fun rest => (decode_rw7ms6 order _ rest).trans ?_⟩
    rw [getLsbD_flag_append (n := 7), getLsbD_flags_append, extract_flags_append]
  case addrSetPlain16 a =>
    cases order with
    | msbFirst => exact ⟨_, rfl, rfl, fun rest => (decode_plain16 _ _ _ rest).trans (by rw [addrWord, bytes_append])⟩
    | lsbFirst => exact ⟨_, rfl, rfl, fun rest => (decode_plain16 _ _ _ rest).trans (by rw [addrWord, bytes_append])⟩

/-! The encoding of what the decoder reads. -/

theorem encode_addrWord (order : Endian) (b0 b1 : Byte) :
    encode order (.addrSetPlain16 (addrWord .two order b0 b1)) = some [b0, b1] := by
  cases order <;> simp only [encode, addrWord, extract_low_append, extract_high_append]

theorem encode_of_rw7 (order : Endian) (b : Byte) :
    encode order (.addrSetRw7 (b.getLsbD 7) (b.extractLsb' 0 7)) = some [b] := by
  rw [encode, flag_append_extract]
  simp

theorem encode_of_rw7ms6 (order : Endian) (b : Byte) :
    encode order (.addrSetRw7Ms6 (b.getLsbD 7) (b.getLsbD 6) (b.extractLsb' 0 6)) = some [b] := by
  rw [encode, flag_append_extract b 6]
  exact encode_of_rw7 order b

/-- Settles O2: by the format, which is one of the four that the decoder reads (30_encoding.md R92, R93). -/
theorem encodeDecodeAgree : Obligations.EncodeDecodeAgree := by
  intro fmt order bytes rest i h
  obtain ⟨rfl, b, rfl, rfl⟩ | ⟨rfl, b, rfl, rfl⟩ | ⟨rfl, b, rfl, rfl⟩ | ⟨rfl, b0, b1, rfl, rfl⟩ := decode_ok h
  · exact ⟨rfl, [b], rfl, rfl⟩
  · exact ⟨rfl, [b], encode_of_rw7 order b, rfl⟩
  · exact ⟨rfl, [b], encode_of_rw7ms6 order b, rfl⟩
  · exact ⟨rfl, [b0, b1], encode_addrWord order b0 b1, rfl⟩

/-- Settles O3: the decoder run on each word (30_encoding.md R92, R93). -/
theorem sampleWordsDecode : Obligations.SampleWordsDecode := by
  unfold Obligations.SampleWordsDecode
  decide

end Sys2Proof.Machine

/-! ### The register address of an address word -/

namespace Sys2Proof.Machine

theorem onesBelow_mono (mask : BitVec 16) {m n : Nat} (h : m ≤ n) : onesBelow mask m ≤ onesBelow mask n := by
  induction h with
  | refl => exact Nat.le_refl _
  | step _ ih => exact Nat.le_trans ih (Nat.le_add_right _ _)

theorem onesBelow_le (mask : BitVec 16) (n : Nat) : onesBelow mask n ≤ n := by
  induction n with
  | zero => exact Nat.le_refl 0
  | succ n ih =>
    rw [onesBelow]
    split <;> omega

theorem onesBelow_succ_of_set {mask : BitVec 16} {n : Nat} (h : mask.getLsbD n = true) :
    onesBelow mask (n + 1) = onesBelow mask n + 1 := by
  rw [onesBelow, if_pos h]

/-- Below a run of ones from bit 0 there is no gap. -/
theorem onesBelow_of_run {mask : BitVec 16} {n : Nat} (h : ∀ j < n, mask.getLsbD j = true) : onesBelow mask n = n := by
  induction n with
  | zero => rfl
  | succ n ih =>
    rw [onesBelow_succ_of_set (h n (Nat.lt_succ_self n)), ih fun j hj => h j (Nat.lt_succ_of_lt hj)]

/-- The gathered bits take as many places as the mask has ones. -/
theorem gather_lt (mask aw : BitVec 16) (n : Nat) : gather mask aw n < 2 ^ onesBelow mask n := by
  induction n with
  | zero => exact Nat.one_pos
  | succ n ih =>
    cases hm : mask.getLsbD n with
    | false => simpa [gather, onesBelow, hm] using ih
    | true =>
      rw [onesBelow_succ_of_set hm, Nat.pow_succ, gather]
      split <;> omega

/-- A bit under the mask stands at the place of its rank (30_encoding.md R94). -/
theorem gather_bit {mask : BitVec 16} (aw : BitVec 16) {k n : Nat} (hk : k < n) (hm : mask.getLsbD k = true) :
    (gather mask aw n).testBit (onesBelow mask k) = aw.getLsbD k := by
  induction n with
  | zero => omega
  | succ n ih =>
    rw [gather]
    obtain hlt | rfl : k < n ∨ k = n := by omega
    · have hrank : onesBelow mask k < onesBelow mask n :=
        Nat.lt_of_lt_of_le (by rw [onesBelow_succ_of_set hm]; omega) (onesBelow_mono mask hlt)
      split
      · rw [Nat.add_comm, Nat.testBit_two_pow_add_gt hrank, ih hlt]
      · rw [Nat.add_zero, ih hlt]
    · have hlow : (gather mask aw k).testBit (onesBelow mask k) = false := Nat.testBit_lt_two_pow (gather_lt mask aw k)
      cases haw : aw.getLsbD k with
      | false => simpa [hm] using hlow
      | true =>
        simp only [hm, Bool.and_self, if_true]
        rw [Nat.add_comm, Nat.testBit_two_pow_add_eq, hlow, Bool.not_false]

theorem truncAddr_bit (fmt : AddrFormat) (n k : Nat) :
    (truncAddr fmt n).getLsbD k = (decide (k < 16) && (decide (k < fmt.bits) && n.testBit k)) := by
  rw [truncAddr, BitVec.getLsbD_ofNat, Nat.testBit_mod_two_pow]

/-- A number of fewer bits than an address is not cut. -/
theorem truncAddr_toNat {fmt : AddrFormat} {w : Nat} (a : BitVec w) (hw : w ≤ fmt.bits) :
    truncAddr fmt a.toNat = a.setWidth 16 := by
  apply BitVec.eq_of_getLsbD_eq
  intro j hj
  rw [truncAddr_bit, BitVec.getLsbD_setWidth, ← BitVec.getLsbD, decide_eq_true hj, Bool.true_and, Bool.true_and]
  by_cases hjw : j < w
  · rw [decide_eq_true (by omega), Bool.true_and]
  · rw [BitVec.getLsbD_of_ge a j (by omega), Bool.and_false]

/-- The bits under the mask keep their order with the gaps closed (30_encoding.md R94). -/
theorem regAddr_bit_of_mask {fmt : AddrFormat} (aw : BitVec 16) {n : Nat} (hn : n < 16) (hm : fmt.mask.getLsbD n = true)
    (hb : onesBelow fmt.mask n < fmt.bits) : (regAddr fmt aw).getLsbD (onesBelow fmt.mask n) = aw.getLsbD n := by
  have hrank := onesBelow_le fmt.mask n
  rw [regAddr, truncAddr_bit, gather_bit _ hn hm, decide_eq_true (by omega), decide_eq_true hb, BitVec.getLsbD_and, hm]
  simp

/-- Past the ones of the mask, and past `ADDR_BITS`, the register address has no bit. -/
theorem regAddr_bit_of_le {fmt : AddrFormat} (aw : BitVec 16) {k : Nat}
    (hk : onesBelow fmt.mask 16 ≤ k ∨ fmt.bits ≤ k) : (regAddr fmt aw).getLsbD k = false := by
  rw [regAddr, truncAddr_bit]
  obtain hk | hk := hk
  · have hlt := gather_lt fmt.mask (aw &&& fmt.mask) 16
    rw [Nat.testBit_lt_two_pow (Nat.lt_of_lt_of_le hlt (Nat.pow_le_pow_right Nat.two_pos hk))]
    simp
  · simp [Nat.not_lt.2 hk]

theorem regAddr_masked (fmt : AddrFormat) (aw : BitVec 16) : regAddr fmt (aw &&& fmt.mask) = regAddr fmt aw := by
  rw [regAddr, BitVec.and_assoc, BitVec.and_self, ← regAddr]

/-- For a mask that is a run of ones from bit 0 the register address is the masked word (30_encoding.md R94). -/
theorem regAddr_of_run {fmt : AddrFormat} (hm : fmt.mask = lowMask fmt.bits) (aw : BitVec 16) :
    regAddr fmt aw = aw &&& fmt.mask := by
  apply BitVec.eq_of_getLsbD_eq
  intro j hj
  have hbit : ∀ i, fmt.mask.getLsbD i = (decide (i < 16) && decide (i < fmt.bits)) := fun i => by rw [hm, lowMask_bit]
  by_cases hlow : j < fmt.bits
  · have hset : fmt.mask.getLsbD j = true := by simp [hbit, hj, hlow]
    have hrank : onesBelow fmt.mask j = j := onesBelow_of_run fun i hi => by
      rw [hbit, decide_eq_true (by omega), decide_eq_true (by omega)]
      rfl
    have hkeep := regAddr_bit_of_mask aw hj hset (by omega)
    rw [hrank] at hkeep
    rw [hkeep, BitVec.getLsbD_and, hset, Bool.and_true]
  · rw [regAddr_bit_of_le aw (.inr (by omega)), BitVec.getLsbD_and, hbit, decide_eq_false hlow]
    simp

/-- The masks of the four named formats are runs of ones as long as the address (30_encoding.md R92). -/
theorem named_mask_run {fmt : AddrFormat} (h : fmt = plain8 ∨ fmt = rw7 ∨ fmt = rw7ms6 ∨ fmt = plain16) :
    fmt.mask = lowMask fmt.bits := by
  obtain rfl | rfl | rfl | rfl := h <;> rfl

/-- Settles O4: bit by bit, and a named format's mask is a run of ones (30_encoding.md R94). -/
theorem addressCompression : Obligations.AddressCompression := fun fmt aw =>
  ⟨fun _ hn hm hb => regAddr_bit_of_mask aw hn hm hb, fun _ hk => regAddr_bit_of_le aw hk,
    (regAddr_masked fmt aw).symm, fun h => regAddr_of_run (named_mask_run h) aw⟩

end Sys2Proof.Machine

/-! ### The forms of ADDR.SET and the address phase on the bus -/

namespace Sys2Proof.Machine

/-- The state in which the address phase is complete in the configured format, from its address word and the transaction
state its read flag opens (30_encoding.md R97). -/
theorem addrSet_eq {s : State} {b0 b1 : Byte} {aw : BitVec 16} {opened : TState}
    (hword : addrWord s.cfg.format.bytes s.cfg.addrOrder b0 b1 = aw)
    (hopened : stateAfterAddress s.cfg.format.rwBit (flagBit s.cfg.format.rwBit b0) = opened) :
    addrSet s b0 b1 = { s with tx :=
      { tstate := opened, curAddr := regAddr s.cfg.format aw, addrValid := true, addrCnt := 0, addrAcc := 0
        rwLatch := flagBit s.cfg.format.rwBit b0, msLatch := flagBit s.cfg.format.msBit b0, bytePhase := 0 } } := by
  subst hword hopened
  rfl

/-! A form of ADDR.SET completes the address phase with its fields; its equation is the model's, read off. -/

theorem exec_addrSetPlain8 {s : State} (hs : s.faulted = false) (hfmt : s.cfg.format = plain8) (a : BitVec 8) :
    exec (.addrSetPlain8 a) s = .next (settleIrq (completeAddress s (a.setWidth 16) plain8.rwBit false false)) := by
  have h := operatePlain_eq hs fun t => completeAddress t (truncAddr t.cfg.format a.toNat) plain8.rwBit false false
  rwa [truncAddr_toNat a (by rw [hfmt]; decide)] at h

theorem exec_addrSetRw7 {s : State} (hs : s.faulted = false) (hfmt : s.cfg.format = rw7) (r : Bool) (a : BitVec 7) :
    exec (.addrSetRw7 r a) s = .next (settleIrq (completeAddress s (a.setWidth 16) rw7.rwBit r false)) := by
  have h := operatePlain_eq hs fun t => completeAddress t (truncAddr t.cfg.format a.toNat) rw7.rwBit r false
  rwa [truncAddr_toNat a (by rw [hfmt]; decide)] at h

theorem exec_addrSetRw7Ms6 {s : State} (hs : s.faulted = false) (hfmt : s.cfg.format = rw7ms6) (r m : Bool)
    (a : BitVec 6) :
    exec (.addrSetRw7Ms6 r m a) s = .next (settleIrq (completeAddress s (a.setWidth 16) rw7ms6.rwBit r m)) := by
  have h := operatePlain_eq hs fun t => completeAddress t (truncAddr t.cfg.format a.toNat) rw7ms6.rwBit r m
  rwa [truncAddr_toNat a (by rw [hfmt]; decide)] at h

theorem exec_addrSetPlain16 {s : State} (hs : s.faulted = false) (hfmt : s.cfg.format = plain16) (a : BitVec 16) :
    exec (.addrSetPlain16 a) s = .next (settleIrq (completeAddress s a plain16.rwBit false false)) := by
  have h := operatePlain_eq hs fun t => completeAddress t (truncAddr t.cfg.format a.toNat) plain16.rwBit false false
  rwa [truncAddr_toNat a (by rw [hfmt]; decide), BitVec.setWidth_eq] at h

/-- Settles O6: the equation of each form, its completed address phase written out (30_encoding.md R97;
43_bus_transactions.md R194). -/
theorem addrSetCompletes : Obligations.AddrSetCompletes := fun _ hs =>
  ⟨fun a hfmt => exec_addrSetPlain8 hs hfmt a, fun r a hfmt => exec_addrSetRw7 hs hfmt r a,
    fun r m a hfmt => exec_addrSetRw7Ms6 hs hfmt r m a, fun a hfmt => exec_addrSetPlain16 hs hfmt a⟩

/-! The address phase as bus writes. -/

/-- A block that is Idle has received no byte of an address phase. -/
theorem countInv_of_idle {s : State} (hidle : s.tx.tstate = .idle) (hcnt : s.tx.addrCnt = 0) : CountInv s := by
  refine ⟨?_, by simp [hidle, hcnt]⟩
  rw [hcnt]
  cases s.cfg.format.bytes <;> simp [AddrBytes.count]

/-- The state after the first of two address bytes (43_bus_transactions.md R193). -/
def halfAddressed (s : State) (b : Byte) : State :=
  { s with tx := { s.tx with tstate := .addressPartial, addrCnt := 1, addrAcc := b } }

/-- The last address byte, written on its own, completes the address phase. -/
theorem busWrite_lastByte {s : State} (hc : CountInv s) (ha : awaitsAddress s = true)
    (hl : s.cfg.format.bytes.count ≤ s.tx.addrCnt + 1) (b : Byte) :
    busWrite [b] s = .done () (addrSet s (firstAddressByte s b) b) := by
  rw [busWrite_awaits ha, addressByte_last hc hl, busWrite_closed (addrSet_awaits _ _ _)]
  rfl

/-- The first of two address bytes leaves the phase half done, whatever follows it in the write. -/
theorem busWrite_firstByte {s : State} (hidle : s.tx.tstate = .idle) (hcnt : s.tx.addrCnt = 0)
    (htwo : s.cfg.format.bytes = .two) (b : Byte) (more : List Byte) :
    busWrite (b :: more) s = busWrite more (halfAddressed s b) := by
  rw [busWrite_awaits (by simp [awaitsAddress, hidle]), addressByte,
    if_pos (by simp [htwo, hcnt, AddrBytes.count]), hcnt]
  rfl

theorem busWrite_secondByte {s : State} (htwo : s.cfg.format.bytes = .two) (hpart : s.tx.tstate = .addressPartial)
    (hcnt : s.tx.addrCnt = 1) (b : Byte) : busWrite [b] s = .done () (addrSet s s.tx.addrAcc b) := by
  have hc : CountInv s := ⟨by simp [htwo, hcnt, AddrBytes.count], by simp [hpart, hcnt]⟩
  rw [busWrite_lastByte hc (by simp [awaitsAddress, hpart]) (by simp [htwo, hcnt, AddrBytes.count]), firstAddressByte,
    if_neg (by simp [hcnt])]

section

variable {s : State} (hs : s.faulted = false) (hidle : s.tx.tstate = .idle) (hcnt : s.tx.addrCnt = 0)

include hs hidle hcnt

theorem exec_addressByte (hone : s.cfg.format.bytes = .one) (b : Byte) :
    exec (.busWrite [b]) s = .next (settleIrq (addrSet s b b)) := by
  refine execBusWrite_of_done (by simp) hs ?_
  rw [busWrite_lastByte (countInv_of_idle hidle hcnt) (by simp [awaitsAddress, hidle])
    (by simp [hone, AddrBytes.count]), firstAddressByte, if_pos hcnt]

theorem exec_firstAddressByte (htwo : s.cfg.format.bytes = .two) (b : Byte) :
    exec (.busWrite [b]) s = .next (settleIrq (halfAddressed s b)) :=
  execBusWrite_of_done (by simp) hs (busWrite_firstByte hidle hcnt htwo b [])

theorem exec_addressBytes (htwo : s.cfg.format.bytes = .two) (b0 b1 : Byte) :
    exec (.busWrite [b0, b1]) s = .next (settleIrq (addrSet s b0 b1)) := by
  refine execBusWrite_of_done (by simp) hs ?_
  rw [busWrite_firstByte hidle hcnt htwo]
  exact busWrite_secondByte (s := halfAddressed s b0) htwo rfl rfl b1

end

/-- The two address bytes in two writes: the second one completes the phase the first one opened. -/
theorem exec_secondAddressByte {s : State} (hs : s.faulted = false) (htwo : s.cfg.format.bytes = .two) (b0 b1 : Byte) :
    exec (.busWrite [b1]) (settleIrq (halfAddressed s b0)) = .next (settleIrq (addrSet s b0 b1)) := by
  have hhalf : (settleIrq (halfAddressed s b0)).faulted = false := hs
  have hdone := busWrite_secondByte (s := settleIrq (halfAddressed s b0)) htwo rfl rfl b1
  refine (execBusWrite_of_done (List.cons_ne_nil b1 []) hhalf hdone).trans (congrArg _ ?_)
  exact settleIrq_withIrq (settleIrq (halfAddressed s b0)).irq (addrSet s b0 b1)

/-- Settles O7: the address bytes one by one, each write run to its state (30_encoding.md R93, R95, R97;
43_bus_transactions.md R192 to R194). -/
theorem addressPhaseAnyFormat : Obligations.AddressPhaseAnyFormat := by
  intro s b0 b1 hs hidle hcnt
  have hopened := stateAfterAddress_flagBit s.cfg.format.rwBit b0
  refine ⟨fun hone => ?_, fun htwo => ⟨exec_firstAddressByte hs hidle hcnt htwo b0, ?_, fun t ht => ?_⟩⟩
  · have hword : addrWord s.cfg.format.bytes s.cfg.addrOrder b0 b0 = b0.setWidth 16 := by rw [hone, addrWord]
    exact (exec_addressByte hs hidle hcnt hone b0).trans
      (congrArg (Host.Outcome.next ∘ settleIrq) (addrSet_eq hword hopened))
  · refine (exec_addressBytes hs hidle hcnt htwo b0 b1).trans
      (congrArg (Host.Outcome.next ∘ settleIrq) (addrSet_eq ?_ hopened))
    rw [htwo]
    cases s.cfg.addrOrder <;> rfl
  · rw [exec_firstAddressByte hs hidle hcnt htwo] at ht
    cases ht
    rw [exec_secondAddressByte hs htwo, exec_addressBytes hs hidle hcnt htwo]

/-! A bus write of an address phase is the form its bytes decode to. -/

/-- Masked with a run of ones, a byte is its low bits. -/
theorem masked_byte {n : Nat} (b : Byte) : b.setWidth 16 &&& lowMask n = (b.extractLsb' 0 n).setWidth 16 := by
  apply BitVec.eq_of_getLsbD_eq
  intro j hj
  rw [BitVec.getLsbD_and, lowMask_bit, BitVec.getLsbD_setWidth, BitVec.getLsbD_setWidth, BitVec.getLsbD_extractLsb',
    Nat.zero_add, decide_eq_true hj, Bool.true_and, Bool.true_and, Bool.true_and, Bool.and_comm]

/-- The address byte of a format whose mask is a run of ones. -/
theorem exec_addressByte_run {s : State} (hs : s.faulted = false) (hidle : s.tx.tstate = .idle)
    (hcnt : s.tx.addrCnt = 0) (hone : s.cfg.format.bytes = .one) (hmask : s.cfg.format.mask = lowMask s.cfg.format.bits)
    (b : Byte) :
    exec (.busWrite [b]) s = .next (settleIrq (completeAddress s ((b.extractLsb' 0 s.cfg.format.bits).setWidth 16)
      s.cfg.format.rwBit (flagBit s.cfg.format.rwBit b) (flagBit s.cfg.format.msBit b))) := by
  rw [exec_addressByte hs hidle hcnt hone, addrSet, hone, addrWord, regAddr_of_run hmask, hmask, masked_byte]

/-- Settles O5: by the format read, the address phase and the form leave the same state; in a faulted state neither is
defined (30_encoding.md R91, R94 to R97; 43_bus_transactions.md R192). -/
theorem busWriteRunsDecodedAddress : Obligations.BusWriteRunsDecodedAddress := by
  intro s ws i hidle hcnt hdecode
  cases hs : s.faulted with
  | true => rw [exec_faulted hs, exec_faulted hs]
  | false =>
    have hbyte := exec_addressByte_run hs hidle hcnt
    obtain ⟨hfmt, b, rfl, rfl⟩ | ⟨hfmt, b, rfl, rfl⟩ | ⟨hfmt, b, rfl, rfl⟩ | ⟨hfmt, b0, b1, rfl, rfl⟩ :=
      decode_ok hdecode
    · have hall : b.extractLsb' 0 plain8.bits = b := BitVec.extractLsb'_eq_self
      rw [hbyte (by rw [hfmt]; rfl) (by rw [hfmt]; rfl), exec_addrSetPlain8 hs hfmt, hfmt, hall]
      rfl
    · rw [hbyte (by rw [hfmt]; rfl) (by rw [hfmt]; rfl), exec_addrSetRw7 hs hfmt, hfmt]
      rfl
    · rw [hbyte (by rw [hfmt]; rfl) (by rw [hfmt]; rfl), exec_addrSetRw7Ms6 hs hfmt, hfmt]
      rfl
    · have htwo : s.cfg.format.bytes = .two := by rw [hfmt]; rfl
      have hall : ∀ aw : BitVec 16, aw &&& plain16.mask = aw := fun aw => BitVec.and_allOnes
      rw [exec_addressBytes hs hidle hcnt htwo, exec_addrSetPlain16 hs hfmt, addrSet, htwo,
        regAddr_of_run (by rw [hfmt]; rfl), hfmt, hall]
      rfl

end Sys2Proof.Machine

/-! ### The length of a response -/

namespace Sys2Proof.Machine

/-- A data byte read answers one byte, and its register access none (43_bus_transactions.md R203). -/
theorem dataReadByte_busOut {s t : State} (h : dataReadByte s = .done () t) : ∃ v, t.busOut = s.busOut ++ [v] := by
  obtain ⟨v, u, hu, rfl⟩ := dataReadByte_done h
  have hframed := readTarget_framed s
  rw [hu] at hframed
  exact ⟨v, by rw [reply_busOut, moved_busOut, hframed.busOut]⟩

theorem readBytes_busOut {n : Nat} {s t : State} (h : readBytes n s = .done () t) :
    ∃ out, out.length = n ∧ t.busOut = s.busOut ++ out := by
  induction n generalizing s with
  | zero =>
    cases h
    exact ⟨[], rfl, (List.append_nil _).symm⟩
  | succ n ih =>
    obtain ⟨_, u, hu, hrest⟩ := andThen_done h
    obtain ⟨v, hv⟩ := dataReadByte_busOut hu
    obtain ⟨out, hlength, hout⟩ := ih hrest
    exact ⟨v :: out, by rw [List.length_cons, hlength], by rw [hout, hv, List.append_assoc]; rfl⟩

/-- A read answers the bytes asked: data when it is served, else zeros (43_bus_transactions.md R199 to R202). -/
theorem busRead_busOut {n : Nat} {s t : State} (h : busRead n s = .done () t) :
    ∃ out, out.length = n ∧ t.busOut = s.busOut ++ out := by
  unfold busRead at h
  split at h
  · exact readBytes_busOut h
  · cases h
    exact ⟨List.replicate n 0, List.length_replicate, rfl⟩

/-- Settles O23: a read of no byte is nothing, and one of more that is not abandoned is done (30_encoding.md R100). -/
theorem responseLength : Obligations.ResponseLength := by
  intro s t n h ht
  cases n with
  | zero =>
    obtain ⟨_, rfl⟩ := operateNothing_next (show operateNothing s = .next t from h)
    exact ⟨[], rfl, (List.append_nil _).symm⟩
  | succ n =>
    obtain ⟨_, u, hu, rfl⟩ := execBusRead_settled h ht
    obtain ⟨out, hlength, hout⟩ := busRead_busOut hu
    exact ⟨out, hlength, hout⟩

end Sys2Proof.Machine

/-! ### The piece that a step runs -/

namespace Sys2Proof.Machine

/-! The agent scheduled. -/

theorem step_scheduled {s : State} {agent : Agent} {sch : List Agent} (hs : s.faulted = false)
    (hwf : s.cfg.wf = true) (hsched : s.env.schedule = agent :: sch) : step s = stepAgent agent (scheduled s sch) := by
  rw [step, hs, hwf, stepScheduled, hsched]
  rfl

/-- With no agent scheduled nothing changes (70_reset_and_hazards.md R309). -/
theorem step_unscheduled {s : State} (hs : s.faulted = false) (hwf : s.cfg.wf = true) (hsched : s.env.schedule = []) :
    step s = .next s := by
  rw [step, hs, hwf, stepScheduled, hsched]
  rfl

/-- The agent has no event before it. -/
def NoEvent (s : State) : Agent → Prop
  | .bus => s.env.busRest = none ∧ s.env.busQueue = []
  | .feeder => s.env.feederQueue = []
  | .host => s.env.hostRest = none ∧ s.env.hostQueue = []

theorem stepAgent_noEvent {s : State} {agent : Agent} (h : NoEvent s agent) : stepAgent agent s = .next s := by
  cases agent with
  | bus =>
    obtain ⟨hrest, hqueue⟩ := h
    simp only [stepAgent, stepBus, hrest, hqueue]
  | feeder =>
    have hqueue : s.env.feederQueue = [] := h
    simp only [stepAgent, stepFeeder, hqueue]
  | host =>
    obtain ⟨hrest, hqueue⟩ := h
    simp only [stepAgent, stepHost, hrest, hqueue]

/-! The bus thread. -/

theorem writeLeft_eq (bytes : List Byte) : writeLeft bytes = if bytes = [] then none else some (.write bytes) := by
  cases bytes <;> rfl

theorem runBus_next {s t : State} {ev : Timed BusOp} {piece : BusOp} {left : Option BusOp}
    (hpiece : busPiece s ev.op = (piece, left)) (h : exec piece.toInstr (atTime s ev.now) = .next t) :
    runBus s ev = .next (leaveBus t (left.map fun op => { now := ev.now, op := op })) := by
  rw [runBus, hpiece, h]

/-- The scheduled bus thread takes up the primitive `op`, issued at `now`: it heads the queue, or it is what is left of
one. `u` is the state that its next piece is run in. -/
def TakesUp (s : State) (sch : List Agent) (now : Time) (op : BusOp) (u : State) : Prop :=
  (∃ more, s.env.busRest = none ∧ s.env.latest ≤ now ∧ s.env.busQueue = { now := now, op := op } :: more ∧
    u = { s with env := { s.env with busQueue := more, schedule := sch, now := now, latest := now } }) ∨
  s.env.busRest = some { now := now, op := op } ∧ u = { s with env := { s.env with schedule := sch, now := now } }

/-- Taking the event leaves the configuration and the transaction state alone. -/
theorem TakesUp.keeps {s u : State} {sch : List Agent} {now : Time} {op : BusOp} (h : TakesUp s sch now op u) :
    u.cfg = s.cfg ∧ u.tx = s.tx := by
  obtain ⟨_, _, _, _, rfl⟩ | ⟨_, rfl⟩ := h <;> exact ⟨rfl, rfl⟩

section

variable {s u : State} {sch : List Agent} {now : Time} {op : BusOp} (hs : s.faulted = false) (hwf : s.cfg.wf = true)
  (hsched : s.env.schedule = .bus :: sch) (hop : TakesUp s sch now op u)

include hs hwf hsched hop

/-- A step of the bus thread runs the piece cut off its primitive, unless the primitive is a write left over whose
transaction a reset has cut (20_memory.md R70). -/
theorem step_busPiece (hcut : s.env.busRest ≠ none → writeIsCut s op = false) {piece : BusOp} {left : Option BusOp}
    (hpiece : busPiece s op = (piece, left)) {t : State} (h : exec piece.toInstr u = .next t) :
    step s = .next { t with env := { t.env with busRest := left.map fun op => { now := now, op := op } } } := by
  rw [step_bus hs hwf hsched]
  obtain ⟨more, hrest, hlatest, hqueue, rfl⟩ | ⟨hrest, rfl⟩ := hop
  · rw [stepBus_head (s := scheduled s sch) hrest hqueue hlatest]
    exact runBus_next (s := takeBus (scheduled s sch) now more) (ev := { now := now, op := op }) hpiece h
  · have hgoes : writeIsCut (scheduled s sch) op = false := hcut (by rw [hrest]; exact Option.some_ne_none _)
    rw [stepBus_rest (s := scheduled s sch) hrest, hgoes]
    exact runBus_next (s := scheduled s sch) (ev := { now := now, op := op }) hpiece h

/-- A write left over that finds its transaction cut by a reset is dropped (70_reset_and_hazards.md R303). -/
theorem step_cutWrite (hrest : s.env.busRest ≠ none) (hcut : writeIsCut s op = true) :
    step s = .next { s with env := { s.env with schedule := sch, busRest := none } } := by
  obtain ⟨_, hnone, _⟩ | ⟨hsome, _⟩ := hop
  · exact absurd hnone hrest
  · have hdropped : writeIsCut (scheduled s sch) op = true := hcut
    rw [step_bus hs hwf hsched, stepBus_rest (s := scheduled s sch) hsome, hdropped]
    rfl

end

theorem awaitsAddress_of_open {s : State} (h : s.tx.tstate = .idle ∨ s.tx.tstate = .addressPartial) :
    awaitsAddress s = true := by
  obtain e | e := h <;> simp [awaitsAddress, e]

/-- The address phase of a write is one piece (20_memory.md R70). -/
theorem busPiece_write_address {s : State} (hc : CountInv s)
    (hopen : s.tx.tstate = .idle ∨ s.tx.tstate = .addressPartial) (ws : List Byte) :
    busPiece s (.write ws) = (.write (ws.take (s.cfg.format.bytes.count - s.tx.addrCnt)),
      if ws.length ≤ s.cfg.format.bytes.count - s.tx.addrCnt then none
      else some (.write (ws.drop (s.cfg.format.bytes.count - s.tx.addrCnt)))) := by
  have hdue : addressBytesDue s = s.cfg.format.bytes.count - s.tx.addrCnt :=
    Nat.max_eq_right (Nat.sub_pos_of_lt hc.1)
  simp only [busPiece_write_awaits (awaitsAddress_of_open hopen), hdue, writeLeft_eq, List.drop_eq_nil_iff]

theorem busPiece_write_byte {s : State} (hst : s.tx.tstate = .addressSet ∨ s.tx.tstate = .writing) (b : Byte)
    (ws : List Byte) : busPiece s (.write (b :: ws)) = (.write [b], if ws = [] then none else some (.write ws)) := by
  rw [busPiece_write_data hst, ← writeLeft_eq]
  rfl

theorem busPiece_write_nil (s : State) : busPiece s (.write []) = (.write [], none) := by
  cases hst : s.tx.tstate <;> simp [busPiece, hst, writeLeft]

theorem busPiece_read_whole {s : State} {n : Nat} (h : n ≤ 1 ∨ serves s = false) :
    busPiece s (.read n) = (.read n, none) := by
  match n, h with
  | 0, _ => rfl
  | 1, _ => rfl
  | n + 2, .inr h => simp [busPiece, h]

/-- The bytes of a form at the head of a write are its encoding: alone they decode to the form, and they are as many as
the format has. -/
theorem decode_split {fmt : AddrFormat} {order : Endian} {ws rest : List Byte} {i : Instr}
    (h : decode fmt order ws = .ok (i, rest)) :
    ∃ head, ws = head ++ rest ∧ head.length = fmt.bytes.count ∧ decode fmt order head = .ok (i, []) := by
  obtain ⟨hfmt, head, hencode, rfl⟩ := encodeDecodeAgree fmt order ws rest i h
  obtain ⟨head', hencode', hlength, hdecode⟩ := decodeEncodeAgree order i fmt hfmt
  obtain rfl : head' = head := Option.some.inj (hencode'.symm.trans hencode)
  exact ⟨head', rfl, hlength, by rw [← hdecode [], List.append_nil]⟩

/-- The address phase of a write that decodes is the form it decodes to (30_encoding.md R97). -/
theorem step_decodedAddress {s u t : State} {sch : List Agent} {now : Time} {ws rest : List Byte} {i : Instr}
    (hs : s.faulted = false) (hwf : s.cfg.wf = true) (hsched : s.env.schedule = .bus :: sch)
    (hop : TakesUp s sch now (.write ws) u) (hrest : s.env.busRest = none) (hidle : s.tx.tstate = .idle)
    (hcnt : s.tx.addrCnt = 0) (hdecode : decode s.cfg.format s.cfg.addrOrder ws = .ok (i, rest))
    (h : exec i u = .next t) :
    step s = .next { t with
      env := { t.env with busRest := if rest = [] then none else some { now := now, op := .write rest } } } := by
  obtain ⟨head, rfl, hlength, hhead⟩ := decode_split hdecode
  obtain ⟨hcfg, htx⟩ := hop.keeps
  have hpiece := busPiece_write_address (countInv_of_idle hidle hcnt) (.inl hidle) (head ++ rest)
  rw [hcnt, Nat.sub_zero, ← hlength, List.take_left, List.drop_left] at hpiece
  rw [← htx] at hidle hcnt
  rw [← hcfg] at hhead
  rw [← busWriteRunsDecodedAddress u head i hidle hcnt hhead] at h
  rw [step_busPiece hs hwf hsched hop (fun hsome => absurd hrest hsome) hpiece h]
  cases rest <;> simp

/-! The feeder and the host. -/

theorem stepFeeder_head {s : State} {ev : Timed FeederOp} {more : List (Timed FeederOp)}
    (hqueue : s.env.feederQueue = ev :: more) (hlatest : s.env.latest ≤ ev.now) :
    stepFeeder s = exec (ev.op.toInstr ev.now) (atTime (takeFeeder s ev.now more) ev.now) := by
  rw [stepFeeder, hqueue]
  exact if_neg (Nat.not_lt.2 hlatest)

theorem stepHost_head {s : State} {ev : Timed HostOp} {more : List (Timed HostOp)} (hrest : s.env.hostRest = none)
    (hqueue : s.env.hostQueue = ev :: more) (hlatest : s.env.latest ≤ ev.now) :
    stepHost s = runHost (takeHost s ev.now more) ev.now (hostPiece s ev.op).1 (hostPiece s ev.op).2 := by
  rw [stepHost, hrest, hqueue]
  exact if_neg (Nat.not_lt.2 hlatest)

theorem stepHost_rest {s : State} {ev : Timed HostRest} (hrest : s.env.hostRest = some ev) :
    stepHost s = continueHost s ev := by
  rw [stepHost, hrest]

theorem runHost_next {s t : State} {now : Time} {i : Instr} (left : Option HostRest)
    (h : exec i (atTime s now) = .next t) :
    runHost s now i left =
      .next { t with env := { t.env with hostRest := left.map fun r => { now := now, op := r } } } := by
  rw [runHost, h]
  rfl

/-- An operation that is one piece leaves the host with nothing to do, as it was. -/
theorem runHost_whole {s : State} {now : Time} {i : Instr} (hrest : s.env.hostRest = none) :
    runHost s now i none = exec i (atTime s now) := by
  cases h : exec i (atTime s now) with
  | next t =>
    have hkeeps : t.env.hostRest = none := by rw [exec_env h]; exact hrest
    rw [runHost_next none h, Option.map_none, ← hkeeps]
  | fault r => rw [runHost, h]
  | refused r => rw [runHost, h]

/-- A repeat of one feed is the feed. -/
theorem exec_feedOnce (x : Sample) (s : State) : exec (.hostFeedRepeat x 1) s = exec (.fifoFeed none x) s := rfl

theorem feedsLeft_eq (x : Sample) (n : Nat) : feedsLeft x n = if n = 0 then none else some (.feeds x n) := by
  cases n <;> rfl

/-! The sample file. -/

/-- The lines before the first malformed one are parsed, whatever follows. -/
theorem parseLines_append {c : Cfg} {good : List Text} {xs : List Sample} (h : good.mapM (lineSample c) = some xs)
    (i : Nat) (lines : List Text) :
    parseLines c i (good ++ lines) =
      (xs ++ (parseLines c (i + good.length) lines).1, (parseLines c (i + good.length) lines).2) := by
  induction good generalizing i xs with
  | nil =>
    obtain rfl : [] = xs := by simpa using h
    rfl
  | cons line rest ih =>
    simp only [List.mapM_cons, Option.pure_def, Option.bind_eq_bind, Option.bind_eq_some_iff, Option.some.injEq] at h
    obtain ⟨x, hx, ys, hys, rfl⟩ := h
    rw [List.cons_append, parseLines, hx]
    dsimp only
    rw [ih hys (i + 1), List.length_cons, Nat.add_right_comm, Nat.add_assoc i]
    rfl

theorem parseLines_good {c : Cfg} {lines : List Text} {xs : List Sample} (h : lines.mapM (lineSample c) = some xs)
    (i : Nat) : parseLines c i lines = (xs, none) := by
  simpa [parseLines] using parseLines_append h i []

theorem parseLines_bad {c : Cfg} {bad : Text} (h : lineSample c bad = none) (i : Nat) (rest : List Text) :
    parseLines c i (bad :: rest) = ([], some (i, bad)) := by
  rw [parseLines, h]

/-- A file that does not parse has a first malformed line. -/
theorem parseLines_mapM_none {c : Cfg} {lines : List Text} (h : lines.mapM (lineSample c) = none) (i : Nat) :
    ∃ xs k bad, parseLines c i lines = (xs, some (k, bad)) := by
  induction lines generalizing i with
  | nil => simp at h
  | cons line rest ih =>
    cases hx : lineSample c line with
    | none => exact ⟨[], i, line, parseLines_bad hx i rest⟩
    | some x =>
      have hrest : rest.mapM (lineSample c) = none := by
        cases hr : rest.mapM (lineSample c) with
        | none => rfl
        | some ys => simp [List.mapM_cons, hx, hr] at h
      obtain ⟨xs, k, bad, hparse⟩ := ih hrest (i + 1)
      exact ⟨x :: xs, k, bad, by rw [parseLines, hx]; dsimp only; rw [hparse]⟩

theorem loadPlan_good {c : Cfg} {lines : List Text} {xs : List Sample} (h : lines.mapM (lineSample c) = some xs)
    (name : Text) : loadPlan c name lines = (xs, true, .loaded) := by
  rw [loadPlan, parseLines_good h]

theorem loadPlan_preserve {c : Cfg} {good : List Text} {bad : Text} {x : Sample} {xs : List Sample}
    (hpart : c.loadPartial = .preserve) (h : good.mapM (lineSample c) = some (x :: xs)) (hbad : lineSample c bad = none)
    (name : Text) (rest : List Text) :
    loadPlan c name (good ++ bad :: rest) = (x :: xs, true, .cfgError name (good.length + 1) bad) := by
  rw [loadPlan, parseLines_append h, parseLines_bad hbad, List.append_nil, Nat.add_comm]
  simp only [hpart]
  rfl

/-- The loads that feed nothing. -/
theorem loadPlan_nothing {c : Cfg} {lines : List Text}
    (h : lines = [] ∨ (∃ bad rest, lines = bad :: rest ∧ lineSample c bad = none) ∨
      c.loadPartial = .discard ∧ lines.mapM (lineSample c) = none) (name : Text) : (loadPlan c name lines).1 = [] := by
  obtain rfl | ⟨bad, rest, rfl, hbad⟩ | ⟨hpart, hnone⟩ := h
  · rfl
  · rw [loadPlan, parseLines_bad hbad]
    cases c.loadPartial <;> rfl
  · obtain ⟨xs, k, bad, hparse⟩ := parseLines_mapM_none hnone 1
    rw [loadPlan, hparse]
    simp only [hpart]

/-! The pieces of a host operation. -/

theorem hostPiece_load {s : State} {name : Text} {lines : List Text} {x : Sample} {xs : List Sample} {keeps : Bool}
    {result : Result} (h : loadPlan s.cfg name lines = (x :: xs, keeps, result)) :
    hostPiece s (.loadFile name lines) = (.fifoFeed none x, some (.loading xs keeps result)) := by
  rw [hostPiece, h]

theorem hostPiece_loadNothing {s : State} {name : Text} {lines : List Text}
    (h : (loadPlan s.cfg name lines).1 = []) :
    hostPiece s (.loadFile name lines) = (.hostLoadFile name lines, none) := by
  obtain ⟨keeps, hplan⟩ : ∃ p, loadPlan s.cfg name lines = ([], p) := ⟨_, Prod.ext h rfl⟩
  rw [hostPiece, hplan]

theorem hostPiece_whole {op : HostOp} (s : State) (hfeed : ∀ x n, op ≠ .feedRepeat x (n + 1))
    (hload : ∀ name lines, op ≠ .loadFile name lines) : hostPiece s op = (op.toInstr, none) := by
  cases op with
  | feedRepeat x n =>
    cases n with
    | zero => rfl
    | succ n => exact absurd rfl (hfeed x n)
  | loadFile name lines => exact absurd rfl (hload name lines)
  | _ => rfl

section

variable {s : State} {sch : List Agent} {now : Time} (hs : s.faulted = false) (hwf : s.cfg.wf = true)
  (hsched : s.env.schedule = .host :: sch)

include hs hwf hsched

/-- A step of the host that takes an operation from its queue. -/
theorem step_hostHead {op : HostOp} {more : List (Timed HostOp)} (hrest : s.env.hostRest = none)
    (hlatest : s.env.latest ≤ now) (hqueue : s.env.hostQueue = { now := now, op := op } :: more) {piece : Instr}
    {left : Option HostRest} (hpiece : hostPiece s op = (piece, left)) :
    step s = runHost (takeHost (scheduled s sch) now more) now piece left := by
  have hsame : hostPiece (scheduled s sch) op = (piece, left) := hpiece
  rw [step_scheduled hs hwf hsched]
  refine (stepHost_head (s := scheduled s sch) hrest hqueue hlatest).trans ?_
  rw [hsame]

theorem step_hostRest {ev : Timed HostRest} (hrest : s.env.hostRest = some ev) :
    step s = continueHost (scheduled s sch) ev :=
  (step_scheduled hs hwf hsched).trans (stepHost_rest (s := scheduled s sch) hrest)

end

theorem endLoad_eq (s : State) (keeps : Bool) :
    endLoad s keeps = { s with fifo := { s.fifo with keep := s.fifo.keep || keeps } } := by
  cases keeps <;> simp [endLoad, setKeep]

theorem respond_eq {r : Result} (h : r ≠ .none) (s : State) : respond s r = { s with results := s.results ++ [r] } := by
  cases r
  case none => exact absurd rfl h
  all_goals rfl

/-- The end of a load, a step of its own: `KEEP`, the result, the interrupt level (44_sample_fifo.md R248). -/
theorem continueHost_endOfLoad {s : State} {now : Time} {keeps : Bool} {result : Result} (hs : s.faulted = false)
    (hresult : result ≠ .none) :
    continueHost s { now := now, op := .loading [] keeps result } = .next (settleIrq { s with
      fifo := { s.fifo with keep := s.fifo.keep || keeps }
      results := s.results ++ [result]
      env := { s.env with now := now, hostRest := none } }) := by
  have hdone :=
    operate_done (s := leaveHost (atTime s now) none) (body := fun t => .done result (endLoad t keeps)) hs rfl
  rwa [endLoad_eq, respond_eq hresult] at hdone

/-! The step, agent by agent. -/

/-- Settles O58: the step of the scheduled agent is the piece named, run in the state that has taken its event
(20_memory.md R70 to R73; 30_encoding.md R97). -/
theorem stepRunsEvents : Obligations.StepRunsEvents := by
  intro s sch now hs hwf
  refine ⟨step_unscheduled hs hwf, fun agent hsched hidles => ?_, ?_, ?_, ?_, ?_, ?_⟩
  · rw [step_scheduled hs hwf hsched]
    refine stepAgent_noEvent (s := scheduled s sch) ?_
    cases agent <;> exact hidles
  · intro ws more i rest t hsched hrest hlatest hqueue hidle hcnt hdecode h
    exact step_decodedAddress hs hwf hsched (.inl ⟨more, hrest, hlatest, hqueue, rfl⟩) hrest hidle hcnt hdecode h
  · intro op u hsched hop
    have hpiece := @step_busPiece s u sch now op hs hwf hsched hop
    refine ⟨?_, ?_, ?_, ?_, ?_, ?_, ?_, ?_⟩
    · rintro ws rfl hrest hc hopen due t h
      exact hpiece (fun hsome => absurd hrest hsome) (busPiece_write_address hc hopen ws) h
    · rintro ws rfl hrest hopen
      exact step_cutWrite hs hwf hsched hop hrest (awaitsAddress_of_open hopen)
    · rintro b ws rfl hst t h
      have hclosed : awaitsAddress s = false := by obtain e | e := hst <;> simp [awaitsAddress, e]
      exact hpiece (fun _ => hclosed) (busPiece_write_byte hst b ws) h
    · rintro ws rfl hst t h
      have hclosed : awaitsAddress s = false := by simp [awaitsAddress, hst]
      exact hpiece (fun _ => hclosed) (by simp only [busPiece, hst]) h
    · rintro rfl hrest t h
      exact hpiece (fun hsome => absurd hrest hsome) (busPiece_write_nil s) h
    · rintro n rfl hserves t h
      exact hpiece (fun _ => rfl) (by simp only [busPiece, hserves, if_true]) h
    · rintro n rfl hwhole t h
      exact hpiece (fun _ => rfl) (busPiece_read_whole hwhole) h
    · rintro rfl t h
      exact hpiece (fun _ => rfl) rfl h
  · intro op more hsched hlatest hqueue
    exact (step_scheduled hs hwf hsched).trans (stepFeeder_head (s := scheduled s sch) hqueue hlatest)
  · intro op more hsched hrest hlatest hqueue
    have hhead := @step_hostHead s sch now hs hwf hsched op more hrest hlatest hqueue
    refine ⟨fun hfeed hload => ?_, ?_, ?_⟩
    · exact (hhead (hostPiece_whole s hfeed hload)).trans (runHost_whole hrest)
    · rintro x n rfl t h
      rw [hhead (piece := .hostFeedRepeat x 1) rfl, ← feedsLeft_eq]
      exact runHost_next _ ((exec_feedOnce x _).trans h)
    · rintro name lines rfl
      refine ⟨fun x xs hgood t h => ?_, ?_, fun hnothing => ?_⟩
      · exact (hhead (hostPiece_load (loadPlan_good hgood name))).trans (runHost_next _ h)
      · rintro good bad rest x xs rfl hgood hbad hpart t h
        exact (hhead (hostPiece_load (loadPlan_preserve hpart hgood hbad name rest))).trans (runHost_next _ h)
      · exact (hhead (hostPiece_loadNothing (loadPlan_nothing hnothing name))).trans (runHost_whole hrest)
  · intro op hsched hrest
    have hgoes := step_hostRest hs hwf hsched hrest
    refine ⟨?_, ?_, ?_⟩
    · rintro x n rfl t h
      rw [hgoes, ← feedsLeft_eq]
      exact runHost_next (s := scheduled s sch) _ ((exec_feedOnce x _).trans h)
    · rintro x xs keeps result rfl t h
      exact hgoes.trans (runHost_next (s := scheduled s sch) _ h)
    · rintro keeps result rfl hresult
      exact hgoes.trans (continueHost_endOfLoad (s := scheduled s sch) hs hresult)

end Sys2Proof.Machine

/-! ### The field operations run alone -/

namespace Sys2Proof.Machine

/-! A field operation that the engine completes, as a step. -/

section

variable {s t : State} {a f : Nat} {d : FieldDef} (hs : s.faulted = false) (hd : s.cfg.field a f = some d)

include hs hd

theorem exec_fldRead_done {x : Half} (h : fldRead hooks a f d s = .done x t) :
    exec (.fldRead a f) s = .next (settleIrq { t with results := t.results ++ [.value x] }) := by
  show execFldRead a f s = _
  exact operate_done (r := .value x) hs (by simp only [hd, h, Ran.andThen])

theorem exec_fldWrite_done {v : Nat} (h : fldWrite hooks a f d (BitVec.ofNat 16 v) s = .done () t) :
    exec (.fldWrite a f v) s = .next (settleIrq t) := by
  show execFldWrite a f v s = _
  exact operate_done (r := .none) hs (by simp only [hd, h, Ran.andThen])

end

/-! What FLD.READ does, by access mode and provider (40_field_ops.md R121). -/

section

variable (run : Runner) (a f : Nat) {d : FieldDef} (s : State)

theorem fldRead_writeOnly (hacc : d.acc = .write) : fldRead run a f d s = .done 0 s := by
  simp only [fldRead, hacc]

theorem fldRead_stored (hacc : d.acc = .read ∨ d.acc = .readWrite ∨ d.acc = .writeOneToClear) (hprov : d.prov = none) :
    fldRead run a f d s = .done (getField s a f) s := by
  rcases hacc with hacc | hacc | hacc <;> simp only [fldRead, hacc, hprov]

theorem fldRead_toClear (hacc : d.acc = .readToClear) (hprov : d.prov = none) :
    fldRead run a f d s = .done (getField s a f) (setField s a f d.clearVal) := by
  simp only [fldRead, hacc, hprov]

/-- A provider is asked in every access mode but Write, ReadToClear among them (40_field_ops.md R122). -/
theorem fldRead_provided {p : Provider} (hacc : d.acc ≠ .write) (hprov : d.prov = some p) :
    fldRead run a f d s =
      (run (.provide p (getField s a f)) s).andThen fun v t => .done (cut d v) t := by
  cases h : d.acc
  case write => exact absurd h hacc
  all_goals simp only [fldRead, h, hprov]

end

/-- The clear value of a field of a well-formed configuration fits it, so that it is stored whole (00_scope.md R7). -/
theorem cut_clearVal {c : Cfg} {a f : Nat} {d : FieldDef} (hwf : c.wf = true) (hd : c.field a f = some d) :
    cut d d.clearVal = d.clearVal := by
  obtain ⟨r, -, hr, -, -, hmem⟩ := field_mem hd
  obtain ⟨-, -, hfits, -⟩ := registerOk_field (Cfg_wf_register hwf hr) hmem
  exact cut_of_fits hfits

/-- A store of a field that exists writes `FV` alone: the field holds the value cut to its width, every other field what it
held (10_state.md R26). -/
theorem setField_frame {s : State} {a f : Nat} {d : FieldDef} (hd : s.cfg.field a f = some d) (v : Half) :
    ∃ m, setField s a f v = { s with fv := m } ∧ getField { s with fv := m } a f = cut d v ∧
      ∀ a' f', (a', f') ≠ (a, f) → getField { s with fv := m } a' f' = getField s a' f' := by
  obtain ⟨m, hm⟩ : ∃ m, setField s a f v = { s with fv := m } := by
    simp only [setField, hd]
    exact ⟨_, rfl⟩
  refine ⟨m, hm, ?_⟩
  rw [← hm]
  exact ⟨getField_setField_self hd v, fun _ _ hne => getField_setField_other s v hne⟩

/-- Settles O8: the three reads without a provider, each as a step (40_field_ops.md R123 to R125). -/
theorem fieldRead : Obligations.FieldRead := by
  intro s a f d hs hd
  refine ⟨fun hacc => ?_, fun hprov hacc => ?_, fun hprov hacc hwf => ?_⟩
  · exact exec_fldRead_done hs hd (fldRead_writeOnly hooks a f s hacc)
  · exact exec_fldRead_done hs hd (fldRead_stored hooks a f s hacc hprov)
  · have hread := exec_fldRead_done hs hd (fldRead_toClear hooks a f s hacc hprov)
    obtain ⟨m, hm, hself, hother⟩ := setField_frame hd d.clearVal
    rw [hm] at hread
    exact ⟨_, hread, hself.trans (cut_clearVal hwf hd), hother, rfl⟩

/-! Providers of the standard library (44_sample_fifo.md R261). -/

theorem fifoCount_eq (s : State) :
    fifoCount s = if s.fifo.mode = .bypass then 0 else BitVec.ofNat 16 s.fifo.q.length := by
  cases h : s.fifo.mode <;> simp [fifoCount, h]

/-- The interrupt condition does not look at the results handed over (60_exceptions.md R281). -/
theorem settleIrq_results_comm (s : State) (rs : List Result) :
    { settleIrq s with results := rs } = settleIrq { s with results := rs } := by
  have hirq : irqHolds { s with results := rs } s.cfg.irqCond = irqHolds s s.cfg.irqCond :=
    irqHolds_congr (s := s) (t := { s with results := rs }) rfl rfl rfl rfl s.cfg.irqCond
  simp only [settleIrq, hirq]

theorem exec_fifoDeq {s : State} (hs : s.faulted = false) :
    exec .fifoDeq s = .next (settleIrq (respond (dequeue s).2 (.dequeued (dequeue s).1))) := by
  show execFifoDeq s = _
  exact operate_done hs rfl

/-- FLD.READ of a field with a provider that answers: the provider's value cut to the width, in the state it leaves
(40_field_ops.md R122). -/
theorem exec_fldRead_provided {s t : State} {a f : Nat} {d : FieldDef} {p : Provider} {x : Half}
    (hs : s.faulted = false) (hd : s.cfg.field a f = some d) (hacc : d.acc ≠ .write) (hprov : d.prov = some p)
    (hrun : runProvider hooks p (getField s a f) s = .done x t) :
    exec (.fldRead a f) s = .next (settleIrq { t with results := t.results ++ [.value (cut d x)] }) := by
  refine exec_fldRead_done hs hd ?_
  rw [fldRead_provided hooks a f s hacc hprov, hooks_provide, hrun]
  rfl

/-- Settles O9: what each standard provider answers, as the read of its field; the dequeue of a sample provider is the one
FIFO.DEQ performs (44_sample_fifo.md R261). -/
theorem fieldReadProvider : Obligations.FieldReadProvider := by
  intro s a f d hs hd hacc
  refine ⟨fun hprov => ?_, fun clear hprov => ?_, fun lane k hprov => ?_, fun lane k u hprov hdeq => ?_⟩
  · rw [← fifoCount_eq]
    exact exec_fldRead_provided hs hd hacc hprov rfl
  · cases clear <;> exact exec_fldRead_provided hs hd hacc hprov rfl
  · exact exec_fldRead_provided hs hd hacc hprov rfl
  · have hread := exec_fldRead_provided hs hd hacc hprov rfl
    have hresults : (dequeue s).2.results = s.results := (framed_kept.dequeue s).results
    rw [exec_fifoDeq hs] at hdeq
    cases hdeq
    rw [settleIrq_results_comm]
    simp only [if_true, hresults] at hread
    exact hread

/-! What FLD.WRITE does: ignored with a record, or a value accepted (40_field_ops.md R126). -/

section

variable (run : Runner) (a f : Nat) {d : FieldDef} (s : State)

theorem fldWrite_readonly (hacc : d.acc = .read) (v : Half) :
    fldWrite run a f d v s = .done () (say s (.wReadonlyWrite a f)) := by
  simp only [fldWrite, hacc]

/-- A field that is neither Read nor cleared by writing 1 stores the value cut to its width, unless it refuses it. -/
theorem fldWrite_storing (hacc : d.acc = .write ∨ d.acc = .readWrite ∨ d.acc = .readToClear) (v : Half) :
    fldWrite run a f d v s =
      if enumRefuses d (cut d v) then .done () (say s (.wInvalidEnum a f (cut d v)))
      else storeField run a f d (getField s a f) (cut d v) s := by
  rcases hacc with hacc | hacc | hacc <;> simp only [fldWrite, hacc]

theorem fldWrite_clearing (hacc : d.acc = .writeOneToClear) (v : Half) :
    fldWrite run a f d v s = storeField run a f d (getField s a f) (getField s a f &&& ~~~(cut d v)) s := by
  simp only [fldWrite, hacc]

end

theorem enumRefuses_of_notMem {d : FieldDef} {set : List Half} {v : Half} (hkind : d.kind = .symbols set .invalid)
    (hv : v ∉ set) : enumRefuses d v = true := by
  simp [enumRefuses, hkind, hv]

/-- Settles O10: the two writes that reach no store (40_field_ops.md R129, R130). -/
theorem fieldWriteIgnored : Obligations.FieldWriteIgnored := by
  intro s a f v d hs hd
  refine ⟨fun hacc => ?_, fun set hacc hkind hv => ?_⟩
  · exact exec_fldWrite_done hs hd (fldWrite_readonly hooks a f s hacc _)
  · refine exec_fldWrite_done hs hd ((fldWrite_storing hooks a f s hacc _).trans ?_)
    rw [if_pos (enumRefuses_of_notMem hkind hv)]
    rfl

/-- FLD.WRITE of `v` is accepted and reaches the store line of 40_field_ops.md R126 with the value named. -/
inductive Accepted (s : State) (a f : Nat) (d : FieldDef) (v : Half) : Half → Prop where
  | stored : d.acc = .write ∨ d.acc = .readWrite ∨ d.acc = .readToClear → enumRefuses d (cut d v) = false →
      Accepted s a f d v (cut d v)
  | cleared : d.acc = .writeOneToClear → Accepted s a f d v (getField s a f &&& ~~~(cut d v))

theorem fldWrite_accepted (run : Runner) {s : State} {a f : Nat} {d : FieldDef} {v new : Half}
    (h : Accepted s a f d v new) : fldWrite run a f d v s = storeField run a f d (getField s a f) new s := by
  cases h with
  | stored hacc henum => rw [fldWrite_storing run a f s hacc, henum]; rfl
  | cleared hacc => exact fldWrite_clearing run a f s hacc v

/-! The callbacks of the standard library (44_sample_fifo.md R262). -/

/-- The state a standard field callback leaves, called with the new stored value; a hook of another kind is left out. -/
def fieldHooked (h : Option FieldHook) (new : Half) (s : State) : State :=
  match h with
  | some .whSoftReset => if new = 1 then softReset s else s
  | some (.whFifoMode table rest) => setMode s (table.getD new.toNat rest)
  | _ => s

theorem callField_standard {h : Option FieldHook} (hstd : standardFieldHook h = true) (old new : Half) (s : State) :
    callField hooks h old new s = .done () (fieldHooked h new s) := by
  match h, hstd with
  | none, _ => rfl
  | some .whSoftReset, _ => simp only [callField, hooks_onField, runFieldHook, Ran.andThen, fieldHooked]
  | some (.whFifoMode _ _), _ => simp only [callField, hooks_onField, runFieldHook, Ran.andThen, fieldHooked]

/-- An accepted FLD.WRITE of a field with standard callbacks: the store, the write callback, and the change callback when
the stored value changed (40_field_ops.md R126 to R128). -/
theorem exec_fldWrite_accepted {s : State} {a f v : Nat} {d : FieldDef} {new : Half} {wcb ccb : Option FieldHook}
    (hs : s.faulted = false) (hd : s.cfg.field a f = some d) (haccept : Accepted s a f d (BitVec.ofNat 16 v) new)
    (hw : d.wcb = wcb) (hc : d.ccb = ccb) (hwstd : standardFieldHook wcb = true) (hcstd : standardFieldHook ccb = true) :
    exec (.fldWrite a f v) s = .next (settleIrq
      (fieldHooked (if new = getField s a f then none else ccb) new (fieldHooked wcb new (setField s a f new)))) := by
  refine exec_fldWrite_done hs hd ?_
  rw [fldWrite_accepted hooks haccept, storeField, hw, hc, callField_standard hwstd]
  simp only [Ran.andThen]
  split
  · rfl
  · exact callField_standard hcstd _ _ _

/-- Settles O11: with no callback bound, the accepted write is its store (40_field_ops.md R126, R131, R132). -/
theorem fieldWriteStores : Obligations.FieldWriteStores := by
  intro s a f v d hs hd hw hc
  refine ⟨fun hwid => ?_, fun new haccept => ?_⟩
  · rw [cut_toNat, BitVec.toNat_ofNat, Nat.mod_mod_of_dvd _ (Nat.pow_dvd_pow 2 hwid)]
  · obtain ⟨raw, hraw, rfl⟩ : ∃ raw, Accepted s a f d (BitVec.ofNat 16 v) raw ∧ new = cut d raw := by
      obtain ⟨hacc, henum, rfl⟩ | ⟨hacc, rfl⟩ := haccept
      · exact ⟨_, .stored hacc henum, (cut_cut d _).symm⟩
      · exact ⟨_, .cleared hacc, rfl⟩
    have hexec := exec_fldWrite_accepted hs hd hraw hw hc rfl rfl
    obtain ⟨m, hm, hself, hother⟩ := setField_frame hd raw
    rw [ite_self, hm] at hexec
    exact ⟨_, hexec, hself, hother, rfl⟩

/-- Clearing bits of a value that fits a field leaves a value that fits it. -/
theorem cut_and (d : FieldDef) (x y : Half) : cut d (x &&& y) = cut d x &&& y := by
  simp only [cut, BitVec.and_assoc, BitVec.and_comm y]

/-- Settles O12: the callbacks run on the stored state, one after the other; the change callback only on a changed value
(40_field_ops.md R127, R128). -/
theorem fieldCallbacks : Obligations.FieldCallbacks := by
  intro s a f v d new hs hd haccept stored cleared softly
  obtain ⟨hraw, hcut⟩ : Accepted s a f d (BitVec.ofNat 16 v) new ∧ cut d new = new := by
    obtain ⟨hacc, henum, rfl⟩ | ⟨hacc, hwf, rfl⟩ := haccept
    · exact ⟨.stored hacc henum, cut_cut d _⟩
    · exact ⟨.cleared hacc, by rw [cut_and, cut_getField hwf hd]⟩
  have hexec := @exec_fldWrite_accepted s a f v d new
  obtain ⟨m, hm, hself, hother⟩ := setField_frame hd new
  rw [hm] at hexec
  rw [hcut] at hself
  refine ⟨fun table rest hw hc => ?_, fun table rest hw hc => ?_, fun table rest table' rest' hw hc => ?_,
    fun hw hc hnew => ?_, fun hw hc hnew => ?_, fun table rest hw hc hnew => ?_, fun table rest hw hc hnew hold => ?_⟩
  all_goals have hgoes := hexec hs hd hraw hw hc rfl rfl
  · rw [ite_self] at hgoes
    exact ⟨_, hgoes, ⟨hself, hother⟩, rfl⟩
  · by_cases hsame : new = getField s a f
    · simp only [if_pos hsame] at hgoes ⊢
      exact ⟨_, hgoes, ⟨hself, hother⟩, rfl⟩
    · simp only [if_neg hsame] at hgoes ⊢
      exact ⟨_, hgoes, ⟨hself, hother⟩, rfl⟩
  · by_cases hsame : new = getField s a f
    · simp only [if_pos hsame] at hgoes ⊢
      exact ⟨_, hgoes, ⟨hself, hother⟩, rfl⟩
    · simp only [if_neg hsame] at hgoes ⊢
      exact ⟨_, hgoes, ⟨hself, hother⟩, rfl⟩
  · subst hnew
    rw [ite_self] at hgoes
    exact ⟨_, hgoes, fun _ _ => rfl, rfl⟩
  · have hidle : fieldHooked (some .whSoftReset) new { s with fv := m } = { s with fv := m } := if_neg hnew
    rw [ite_self, hidle] at hgoes
    exact ⟨_, hgoes, ⟨hself, hother⟩, rfl⟩
  · subst hnew
    by_cases hold : getField s a f = 1
    · rw [if_pos hold.symm] at hgoes
      exact ⟨_, hgoes, fun _ _ => rfl, by rw [if_pos hold]; rfl⟩
    · rw [if_neg (Ne.symm hold)] at hgoes
      exact ⟨_, hgoes, fun _ _ => rfl, by rw [if_neg hold]; rfl⟩
  · subst hnew
    rw [if_neg (Ne.symm hold)] at hgoes
    exact ⟨_, hgoes, fun _ _ => rfl, rfl⟩

/-! What is written is what is read. -/

theorem execAll_cons {i : Instr} {rest : List Instr} {s t : State} (h : exec i s = .next t) :
    execAll (i :: rest) s = execAll rest t := by
  simp only [execAll, h]

/-- A number representable in the field's width is stored whole (40_field_ops.md R132, R133). -/
theorem cut_of_representable {d : FieldDef} {v : Nat} (hv : v < 2 ^ d.wid) :
    cut d (BitVec.ofNat 16 v) = BitVec.ofNat 16 v :=
  cut_of_fits (Nat.lt_of_le_of_lt (by rw [BitVec.toNat_ofNat]; exact Nat.mod_le _ _) hv)

/-- Settles O13: the write stores the value (O11), the read after it shows what is stored, and a read of a ReadToClear field
leaves its clear value for the next one (O8). -/
theorem fieldRoundTrip : Obligations.FieldRoundTrip := by
  intro s a f v d hs hwf hd hw hc hprov hv henum
  have hwrite : d.acc = .write ∨ d.acc = .readWrite ∨ d.acc = .readToClear →
      ∃ m, exec (.fldWrite a f v) s = .next (settleIrq { s with fv := m }) ∧
        getField (settleIrq { s with fv := m }) a f = BitVec.ofNat 16 v := by
    intro hacc
    have hcut := cut_of_representable hv
    obtain ⟨-, hstores⟩ := fieldWriteStores s a f v d hs hd hw hc
    obtain ⟨t, hexec, hself, -, ht⟩ := hstores (BitVec.ofNat 16 v) (.inl ⟨hacc, by rw [hcut, henum], hcut.symm⟩)
    rw [ht] at hexec hself
    exact ⟨t.fv, hexec, hself⟩
  refine ⟨fun hacc => ?_, fun hacc => ?_⟩
  · obtain ⟨m, hstep, hself⟩ := hwrite (.inr (.inl hacc))
    obtain ⟨-, hread, -⟩ := fieldRead (settleIrq { s with fv := m }) a f d hs hd
    rw [execAll_cons hstep, execAll_cons (hread hprov (.inr (.inl hacc))), hself]
    exact ⟨_, rfl, rfl⟩
  · obtain ⟨m, hstep, hself⟩ := hwrite (.inr (.inr hacc))
    obtain ⟨-, -, hread⟩ := fieldRead (settleIrq { s with fv := m }) a f d hs hd
    obtain ⟨t, hfirst, hclear, -, ht⟩ := hread hprov hacc hwf
    obtain ⟨-, -, hreadAgain⟩ := fieldRead t a f d (by rw [ht]; exact hs) (by rw [ht]; exact hd)
    obtain ⟨u, hsecond, -, -, hu⟩ := hreadAgain hprov hacc (by rw [ht]; exact hwf)
    rw [execAll_cons hstep, execAll_cons hfirst, execAll_cons hsecond]
    refine ⟨u, rfl, ?_⟩
    have hresults : t.results = s.results ++ [.value (BitVec.ofNat 16 v)] := by rw [ht, ← hself]; rfl
    rw [hu, settleIrq_results, hresults, hclear, List.append_assoc]
    rfl

end Sys2Proof.Machine

/-! ### The register operations run alone -/

namespace Sys2Proof.Machine

/-! A register operation that the engine completes, as a step. -/

section

variable {s t : State} {a k : Nat} {r : RegisterDef} (hs : s.faulted = false) (hr : s.cfg.find a = some r)
  (hk : k < r.width.bytes)

include hr hk in
theorem byteTarget_eq : byteTarget s.cfg a k = some r := by
  simp only [byteTarget, hr, if_pos hk]

include hs hr hk in
theorem exec_regReadB_done {v : Byte} (h : regReadB hooks r k s = .done v t) :
    exec (.regReadB a k) s = .next (settleIrq { t with results := t.results ++ [.byte v] }) := by
  show execRegReadB a k s = _
  exact operate_done (r := .byte v) hs (by simp only [byteTarget_eq hr hk, h, Ran.andThen])

include hs hr hk in
theorem exec_regWriteB_done {b : Byte} (h : regWriteB hooks r k b s = .done () t) :
    exec (.regWriteB a k b) s = .next (settleIrq t) := by
  show execRegWriteB a k b s = _
  exact operate_done (r := .none) hs (by simp only [byteTarget_eq hr hk, h, Ran.andThen])

include hs hr in
theorem exec_regReset : exec (.regReset a) s = .next (settleIrq (resetRegister s a)) := by
  show execRegReset a s = _
  exact operate_done (r := .none) hs (by simp only [hr]; rfl)

end

theorem exec_collReset {s : State} (hs : s.faulted = false) :
    exec .collReset s = .next (settleIrq (resetCollection s)) :=
  operatePlain_eq hs resetCollection

/-- The reset value of a field's slot is its bits of `RST` (10_state.md R26). -/
theorem slotReset_eq {c : Cfg} {a f : Nat} {r : RegisterDef} {d : FieldDef} (hr : c.find a = some r)
    (hd : r.fields[f]? = some d) : c.slotReset a f = (r.rst >>> d.off) &&& lowMask d.wid := by
  simp only [Cfg.slotReset, hr, hd]

/-- Settles O18: the stores the two resets leave, read field by field; a collection reset of a store already reset leaves it
as it is (41_register_ops.md R155; 42_collection_ops.md R179). -/
theorem registerResets : Obligations.RegisterResets := by
  intro s hs
  refine ⟨fun a r hr => ⟨_, exec_regReset hs hr, fun f d hd => ?_, fun a' f hne => ?_, rfl⟩,
    _, exec_collReset hs, fun a r f d hr hd => slotReset_eq hr hd, rfl, ?_⟩
  · exact (getField_resetRegister s a a f).trans ((if_pos rfl).trans (slotReset_eq hr hd))
  · exact (getField_resetRegister s a a' f).trans (if_neg hne)
  · rw [execAll_cons (exec_collReset hs), execAll_cons (exec_collReset (s := settleIrq (resetCollection s)) hs)]
    exact congrArg Host.Outcome.next (settle_of_IrqInv (IrqInv_settle _))

/-! The bits of a byte in a field (41_register_ops.md R151). -/

/-- Bit `j` of field `d` stands in byte `k` of its register. -/
def bitInByte (d : FieldDef) (k j : Nat) : Bool := decide (8 * k ≤ d.off + j) && decide (d.off + j < 8 * k + 8)

/-- `n` is `old` with the bits of byte `k` that belong to the field taken from `b`. -/
def Merged (d : FieldDef) (k : Nat) (b : Byte) (old n : Half) : Prop :=
  ∀ j, n.getLsbD j =
    if decide (j < d.wid) && bitInByte d k j then b.getLsbD (d.off + j - 8 * k) else old.getLsbD j

/-- What a field that held `old` holds after `b` is written to byte `k`, bit by bit (41_register_ops.md R151). -/
def Takes (d : FieldDef) (k : Nat) (b : Byte) (old now : Half) : Prop :=
  (d.acc = .read → now = old) ∧
  (d.acc = .writeOneToClear → ∀ j, now.getLsbD j =
    (old.getLsbD j && !(bitInByte d k j && b.getLsbD (d.off + j - 8 * k)))) ∧
  (d.acc = .write ∨ d.acc = .readWrite ∨ d.acc = .readToClear → ∀ n, Merged d k b old n →
    now = if enumRefuses d n then old else n)

theorem getLsbD_of_cut {d : FieldDef} {v : Half} (h : cut d v = v) {j : Nat} (hj : ¬ j < d.wid) :
    v.getLsbD j = false := by
  rw [← h, cut_bit, decide_eq_false hj, Bool.false_and]

theorem bitInByte_of_none {d : FieldDef} {k : Nat} (h : overlap d k = none) {j : Nat} (hj : j < d.wid) :
    bitInByte d k j = false := by
  have := overlap_none h hj
  simp only [bitInByte, Bool.and_eq_false_iff, decide_eq_false_iff_not]
  omega

theorem bitInByte_of_some {d : FieldDef} {k : Nat} {p : Overlap} (h : overlap d k = some p) {j : Nat} (hj : j < d.wid) :
    bitInByte d k j = decide (p.inField ≤ j ∧ j < p.inField + p.count) := by
  rw [bitInByte, ← Bool.decide_and]
  exact decide_eq_decide.2 (overlap_mine h hj)

/-- The value handed to FLD.WRITE, cut to the field, is the merged value. -/
theorem cut_mergeByte {d : FieldDef} {k : Nat} {p : Overlap} {b : Byte} {old n : Half} (hp : overlap d k = some p)
    (hacc : d.acc ≠ .writeOneToClear) (hold : cut d old = old) (hn : Merged d k b old n) :
    cut d (mergeByte d p b old) = n := by
  refine BitVec.eq_of_getLsbD_eq fun j h16 => ?_
  rw [cut_bit, hn j]
  by_cases hj : j < d.wid
  · have hplace := overlap_some hp
    rw [mergeByte_bit hacc b old h16, bitInByte_of_some hp hj]
    by_cases hin : p.inField ≤ j ∧ j < p.inField + p.count
    · rw [if_pos hin, show p.inByte + (j - p.inField) = d.off + j - 8 * k by omega]
      simp [hj, hin]
    · simp [hj, hin]
  · simp [hj, getLsbD_of_cut hold hj]

/-- A field without callbacks takes the byte as the rule says, bit by bit (41_register_ops.md R151). -/
theorem afterByte_takes {d : FieldDef} {old : Half} (hold : cut d old = old) (k : Nat) (b : Byte) :
    Takes d k b old (afterByte d k b old) := by
  cases hp : overlap d k with
  | none =>
    have hkeep : afterByte d k b old = old := by simp only [afterByte, hp]
    rw [hkeep]
    refine ⟨fun _ => rfl, fun _ j => ?_, fun _ n hn => ?_⟩
    · by_cases hj : j < d.wid
      · simp [bitInByte_of_none hp hj]
      · simp [getLsbD_of_cut hold hj]
    · have hsame : n = old := BitVec.eq_of_getLsbD_eq fun j _ => by
        rw [hn j]
        by_cases hj : j < d.wid
        · simp [bitInByte_of_none hp hj]
        · simp [hj]
      rw [hsame, ite_self]
  | some p =>
    have hwrite : afterByte d k b old = afterWrite d (mergeByte d p b old) old := by simp only [afterByte, hp]
    rw [hwrite]
    refine ⟨fun hacc => by simp only [afterWrite, hacc], fun hacc j => ?_, fun hacc n hn => ?_⟩
    · simp only [afterWrite, hacc]
      by_cases hj : j < d.wid
      · by_cases h16 : j < 16
        · have hplace := overlap_some hp
          rw [bitInByte_of_some hp hj]
          simp only [cut_bit, BitVec.getLsbD_and, BitVec.getLsbD_not, mergeByte_w1c_bit hacc b old h16, hj, h16]
          by_cases hin : p.inField ≤ j ∧ j < p.inField + p.count
          · rw [show p.inByte + (j - p.inField) = d.off + j - 8 * k by omega]
            simp
          · simp [hin]
        · rw [BitVec.getLsbD_of_ge _ j (by omega), BitVec.getLsbD_of_ge old j (by omega), Bool.false_and]
      · rw [cut_bit, decide_eq_false hj, getLsbD_of_cut hold hj, Bool.false_and, Bool.false_and]
    · have hcut : cut d (mergeByte d p b old) = n :=
        cut_mergeByte hp (by rcases hacc with h | h | h <;> simp [h]) hold hn
      rcases hacc with hacc | hacc | hacc <;> simp only [afterWrite, hacc, hcut]

/-! The write of a byte: its record, its fields, its register callback. -/

theorem sayTagged_step (r : RegisterDef) (k : Nat) (b : Byte) (s : State) :
    FieldStep s (sayTagged r k b s) r.addr (if tagHit r k b then [.wTaggedWrite r.addr k b] else []) := by
  unfold sayTagged
  split
  · exact ⟨rfl, fun _ _ _ => rfl⟩
  · exact FieldStep.refl s r.addr

/-- The tagged-bit record changes no field. -/
theorem getField_sayTagged (r : RegisterDef) (k : Nat) (b : Byte) (s : State) (a f : Nat) :
    getField (sayTagged r k b s) a f = getField s a f := by
  unfold sayTagged
  split <;> rfl

theorem regWriteB_done {run : Runner} {r : RegisterDef} {k : Nat} {b : Byte} {s t u : State}
    (hfields : writeFields run r.addr k b 0 r.fields (sayTagged r k b s) = .done () t)
    (hcall : callRegister run r k b t = .done () u) : regWriteB run r k b s = .done () u := by
  rw [regWriteB, hfields]
  exact hcall

theorem callRegister_whClrOvr {r : RegisterDef} {k0 i : Nat} (h : r.rwcb = some (.whClrOvr k0 i)) (k : Nat) (b : Byte)
    (s : State) :
    callRegister hooks r k b s = .done () (if k = k0 ∧ b.getLsbD i = true then clearOverrun s else s) := by
  simp only [callRegister, h, hooks_onRegister, runRegHook, Ran.andThen]

/-- Settles O15: the fields take the byte one by one, each as without callbacks, after the tagged-bit record and before the
whole-register hook. -/
theorem registerWriteByte : Obligations.RegisterWriteByte := by
  intro s a k b r hs hwf hmem hr hk hplain ovr hhook
  obtain ⟨-, rfl⟩ := find_mem hr
  have hfield : ∀ j d, r.fields[j]? = some d → s.cfg.field r.addr j = some d := fun j d hd =>
    (field_of_find hr j).trans hd
  have htag := sayTagged_step r k b s
  obtain ⟨t, ds, hfields, hstep, hof, htakes, hothers⟩ :=
    writeFields_plain hooks (s := sayTagged r k b s) k b (i := 0)
      (fun j d hd => by rw [Nat.zero_add, htag.cfg]; exact hfield j d hd) hplain
  simp only [Nat.zero_add, getField_sayTagged] at htakes hothers
  obtain ⟨heq, hother⟩ := htag.trans hstep
  have hcall : callRegister hooks r k b t = .done () { t with fifo := { s.fifo with ovr := ovr } } := by
    obtain ⟨hnone, rfl⟩ | ⟨k0, i, hsome, rfl⟩ := hhook
    · simp only [callRegister, hnone]
      rw [heq]
    · rw [callRegister_whClrOvr hsome, heq]
      split <;> rfl
  refine ⟨_, ds, exec_regWriteB_done hs hr hk (regWriteB_done hfields hcall), fun f d hd => ?_, ?_, hof, ?_⟩
  · have hbits := afterByte_takes (cut_getField hmem (hfield f d hd)) k b
    rw [← htakes f d hd] at hbits
    exact hbits
  · rintro a' f' (hne | hlen)
    · exact hother a' f' hne
    · by_cases hne : a' = r.addr
      · rw [hne]
        exact hothers f' (.inr hlen)
      · exact hother a' f' hne
  · rw [← tagHit_iff, List.append_assoc]
    conv_lhs => rw [heq]
    rfl

end Sys2Proof.Machine

/-! ### The order of effects in a byte write -/

namespace Sys2Proof.Machine

/-! A field of a byte at its place among the fields (41_register_ops.md R151). -/

/-- Writing the fields of two lists is writing those of the first, then those of the second. -/
theorem writeFields_append (run : Runner) (a k : Nat) (b : Byte) (i : Nat) (ds es : List FieldDef) (s : State) :
    writeFields run a k b i (ds ++ es) s =
      (writeFields run a k b i ds s).andThen fun _ t => writeFields run a k b (i + ds.length) es t := by
  induction ds generalizing i s with
  | nil => rfl
  | cons d rest ih =>
    have hplace : i + (d :: rest).length = i + 1 + rest.length := by rw [List.length_cons]; omega
    rw [List.cons_append, writeFields, writeFields, hplace]
    cases overlap d k with
    | none => exact ih _ _
    | some p =>
      dsimp only
      rw [andThen_assoc]
      exact congrArg _ (funext fun _ => funext fun t => ih _ t)

/-- A list is what stands before one of its elements, the element, and what stands after it. -/
theorem eq_take_cons_drop {ds : List FieldDef} {h : Nat} {d : FieldDef} (hd : ds[h]? = some d) :
    ds = ds.take h ++ d :: ds.drop (h + 1) ∧ (ds.take h).length = h := by
  obtain ⟨hlt, rfl⟩ := List.getElem?_eq_some_iff.1 hd
  rw [← List.drop_eq_getElem_cons, List.take_append_drop]
  exact ⟨rfl, List.length_take_of_le (Nat.le_of_lt hlt)⟩

theorem exists_of_mem_take {ds : List FieldDef} {h : Nat} {e : FieldDef} (he : e ∈ ds.take h) :
    ∃ f, f < h ∧ ds[f]? = some e := by
  obtain ⟨f, hf⟩ := List.mem_iff_getElem?.1 he
  rw [List.getElem?_take] at hf
  split at hf
  · exact ⟨f, ‹_›, hf⟩
  · cases hf

theorem exists_of_mem_drop {ds : List FieldDef} {h : Nat} {e : FieldDef} (he : e ∈ ds.drop (h + 1)) :
    ∃ f, h < f ∧ ds[f]? = some e := by
  obtain ⟨j, hj⟩ := List.mem_iff_getElem?.1 he
  rw [List.getElem?_drop] at hj
  exact ⟨h + 1 + j, by omega, hj⟩

/-- The fields of a byte written: those below one of them, it, and those above it. -/
theorem writeFields_around {run : Runner} {a k h : Nat} {b : Byte} {ds : List FieldDef} {d : FieldDef} {p : Overlap}
    {s t u w : State} (hd : ds[h]? = some d) (hp : overlap d k = some p)
    (hbelow : writeFields run a k b 0 (ds.take h) s = .done () t)
    (hself : fldWrite run a h d (mergeByte d p b (getField t a h)) t = .done () u)
    (habove : writeFields run a k b (h + 1) (ds.drop (h + 1)) u = .done () w) :
    writeFields run a k b 0 ds s = .done () w := by
  obtain ⟨hsplit, hlen⟩ := eq_take_cons_drop hd
  rw [hsplit, writeFields_append, hbelow, Ran.andThen, hlen, Nat.zero_add, writeFields, hp]
  dsimp only
  rw [hself, Ran.andThen, habove]

/-- A field between whose ends a byte has a bit has a part in that byte (41_register_ops.md R150). -/
theorem overlap_eq_some {d : FieldDef} {k : Nat} (hlow : d.off < 8 * k + 8) (hhigh : 8 * k < d.off + d.wid)
    (hwid : 1 ≤ d.wid) : ∃ p, overlap d k = some p :=
  Option.isSome_iff_exists.1 (by rw [overlap_isSome hwid k]; simp [hlow, hhigh])

/-! FLD.WRITE with callbacks: what is stored does not depend on them (40_field_ops.md R126 to R131). -/

theorem afterWrite_storing {d : FieldDef} (hacc : d.acc = .write ∨ d.acc = .readWrite ∨ d.acc = .readToClear)
    (v old : Half) : afterWrite d v old = if enumRefuses d (cut d v) then old else cut d v := by
  rcases hacc with hacc | hacc | hacc <;> simp only [afterWrite, hacc]

/-- FLD.WRITE logs a record and keeps the value, or accepts one; either way the field holds afterwards what it holds
without callbacks. -/
theorem fldWrite_cases (run : Runner) (a f : Nat) (d : FieldDef) (v : Half) (s : State) :
    (∃ x, fldWrite run a f d v s = .done () (say s x) ∧ afterWrite d v (getField s a f) = getField s a f) ∨
      ∃ new, Accepted s a f d v new ∧ afterWrite d v (getField s a f) = cut d new := by
  by_cases hread : d.acc = .read
  · exact .inl ⟨_, fldWrite_readonly run a f s hread v, by simp only [afterWrite, hread]⟩
  by_cases hclear : d.acc = .writeOneToClear
  · exact .inr ⟨_, .cleared hclear, by simp only [afterWrite, hclear]⟩
  have hacc : d.acc = .write ∨ d.acc = .readWrite ∨ d.acc = .readToClear := by
    cases h : d.acc <;> simp [h] at hread hclear ⊢
  rw [fldWrite_storing run a f s hacc, afterWrite_storing hacc]
  cases henum : enumRefuses d (cut d v) with
  | true => exact .inl ⟨_, rfl, rfl⟩
  | false => exact .inr ⟨_, .stored hacc henum, (cut_cut d v).symm⟩

/-- An accepted write of a field with a standard write callback alone: the store, then the callback. -/
theorem fldWrite_hooked {s : State} {a f : Nat} {d : FieldDef} {v new : Half} (h : Accepted s a f d v new)
    (hw : standardFieldHook d.wcb = true) (hc : d.ccb = none) :
    fldWrite hooks a f d v s = .done () (fieldHooked d.wcb new (setField s a f new)) := by
  rw [fldWrite_accepted hooks h, storeField, callField_standard hw, hc]
  simp only [Ran.andThen, callField, ite_self]

/-! Write callbacks that set the FIFO mode. -/

/-- A field whose only callback, if any, sets the FIFO mode when the field is written. -/
def SetsMode (d : FieldDef) : Prop :=
  d.ccb = none ∧ (d.wcb = none ∨ ∃ table rest, d.wcb = some (.whFifoMode table rest))

/-- An operation on the fields of one register that may also log records and set the FIFO mode. -/
structure ModeStep (s t : State) (a : Nat) : Prop where
  eq : t = { s with fv := t.fv, diag := t.diag, fifo := { s.fifo with mode := t.fifo.mode } }
  other : ∀ a' f', a' ≠ a → getField t a' f' = getField s a' f'

theorem ModeStep.refl (s : State) (a : Nat) : ModeStep s s a := ⟨rfl, fun _ _ _ => rfl⟩

theorem ModeStep.trans {s t u : State} {a : Nat} (h : ModeStep s t a) (g : ModeStep t u a) : ModeStep s u a := by
  refine ⟨?_, fun a' f' hne => (g.other a' f' hne).trans (h.other a' f' hne)⟩
  have heq := g.eq
  rw [h.eq] at heq
  exact heq

theorem ModeStep.cfg {s t : State} {a : Nat} (h : ModeStep s t a) : t.cfg = s.cfg := by rw [h.eq]

theorem FieldStep.modeStep {s t : State} {a : Nat} {D : List Diag} (h : FieldStep s t a D) : ModeStep s t a :=
  ⟨by rw [h.eq], h.other⟩

theorem setMode_step (s : State) (m : FifoMode) (a : Nat) : ModeStep s (setMode s m) a := ⟨rfl, fun _ _ _ => rfl⟩

theorem setField_step {s : State} {a f : Nat} {d : FieldDef} (hd : s.cfg.field a f = some d) (v : Half) :
    FieldStep s (setField s a f v) a [] := by
  obtain ⟨m, hm, -, -⟩ := setField_frame hd v
  refine ⟨by rw [hm, List.append_nil], fun a' f' hne => getField_setField_other s v ?_⟩
  exact fun h => hne (congrArg Prod.fst h)

theorem fieldHooked_mode {d : FieldDef} (hd : SetsMode d) (new : Half) (s : State) (a : Nat) :
    standardFieldHook d.wcb = true ∧ ModeStep s (fieldHooked d.wcb new s) a ∧
      ∀ f, getField (fieldHooked d.wcb new s) a f = getField s a f := by
  obtain ⟨-, hnone | ⟨table, rest, hsome⟩⟩ := hd
  · rw [hnone]
    exact ⟨rfl, ModeStep.refl s a, fun _ => rfl⟩
  · rw [hsome]
    exact ⟨rfl, setMode_step s _ a, fun _ => rfl⟩

/-- FLD.WRITE of a field that may set the FIFO mode stores what it stores without callbacks. -/
theorem fldWrite_mode {s : State} {a f : Nat} {d : FieldDef} (hd : s.cfg.field a f = some d) (hset : SetsMode d)
    (v : Half) :
    ∃ t, fldWrite hooks a f d v s = .done () t ∧ ModeStep s t a ∧
      getField t a f = afterWrite d v (getField s a f) ∧ ∀ f', f' ≠ f → getField t a f' = getField s a f' := by
  obtain ⟨x, hwrite, hkeep⟩ | ⟨new, haccept, hnew⟩ := fldWrite_cases hooks a f d v s
  · exact ⟨_, hwrite, ⟨rfl, fun _ _ _ => rfl⟩, hkeep.symm, fun _ _ => rfl⟩
  · obtain ⟨hstd, hmode, hsame⟩ := fieldHooked_mode hset new (setField s a f new) a
    refine ⟨_, fldWrite_hooked haccept hstd hset.1, (setField_step hd new).modeStep.trans hmode, ?_, fun f' hne => ?_⟩
    · rw [hsame, getField_setField_self hd, hnew]
    · rw [hsame, getField_setField_other s new fun h => hne (congrArg Prod.snd h)]

/-- The fields of a byte written, none of them with a callback other than one that sets the FIFO mode: each stores what it
stores without callbacks (41_register_ops.md R151, R159). -/
theorem writeFields_mode {a : Nat} (k : Nat) (b : Byte) {i : Nat} {ds : List FieldDef} {s : State}
    (hd : ∀ j d, ds[j]? = some d → s.cfg.field a (i + j) = some d) (hset : ∀ d ∈ ds, SetsMode d) :
    ∃ t, writeFields hooks a k b i ds s = .done () t ∧ ModeStep s t a ∧
      (∀ j d, ds[j]? = some d → getField t a (i + j) = afterByte d k b (getField s a (i + j))) ∧
      ∀ f, f < i ∨ i + ds.length ≤ f → getField t a f = getField s a f := by
  induction ds generalizing i s with
  | nil => exact ⟨s, rfl, ModeStep.refl s a, by simp, fun _ _ => rfl⟩
  | cons d rest ih =>
    have hdi : s.cfg.field a i = some d := hd 0 d rfl
    obtain ⟨u, hgoes, hu, hself, hothers⟩ : ∃ u,
        writeFields hooks a k b i (d :: rest) s = writeFields hooks a k b (i + 1) rest u ∧ ModeStep s u a ∧
          getField u a i = afterByte d k b (getField s a i) ∧ ∀ f, f ≠ i → getField u a f = getField s a f := by
      cases hp : overlap d k with
      | none =>
        exact ⟨s, by rw [writeFields, hp], ModeStep.refl s a, by simp only [afterByte, hp], fun _ _ => rfl⟩
      | some p =>
        obtain ⟨u, hwrite, hu, hself, hothers⟩ :=
          fldWrite_mode hdi (hset d List.mem_cons_self) (mergeByte d p b (getField s a i))
        refine ⟨u, ?_, hu, by rw [hself]; simp only [afterByte, hp], hothers⟩
        rw [writeFields, hp]
        dsimp only
        rw [hwrite, Ran.andThen]
    obtain ⟨t, hrest, ht, htakes, hframe⟩ := ih (i := i + 1) (s := u)
      (fun j e he => by
        rw [hu.cfg, Nat.add_assoc, Nat.add_comm 1]
        exact hd (j + 1) e he)
      fun e he => hset e (List.mem_cons_of_mem _ he)
    refine ⟨t, hgoes.trans hrest, hu.trans ht, fun j e he => ?_, fun f hf => ?_⟩
    · cases j with
      | zero =>
        cases he
        exact (hframe i (.inl (Nat.lt_succ_self i))).trans hself
      | succ j =>
        rw [show i + (j + 1) = i + 1 + j by omega, htakes j e he, hothers _ (by omega)]
    · rw [List.length_cons] at hf
      rw [hframe f (by omega), hothers f (by omega)]

/-! One field of the byte that stores what the byte merges into it, and the fields around it. -/

section

variable {s : State} {a h : Nat} {r : RegisterDef} (hr : s.cfg.find a = some r)

include hr

theorem field_of_take (j : Nat) (e : FieldDef) (he : (r.fields.take h)[j]? = some e) : s.cfg.field a (0 + j) = some e := by
  rw [List.getElem?_take] at he
  rw [Nat.zero_add, field_of_find hr]
  split at he
  · exact he
  · cases he

theorem field_of_drop (j : Nat) (e : FieldDef) (he : (r.fields.drop (h + 1))[j]? = some e) :
    s.cfg.field a (h + 1 + j) = some e := by
  rw [List.getElem?_drop] at he
  exact (field_of_find hr _).trans he

end

/-- The write of a field that holds what it held before the byte write, and takes the merged value. -/
theorem accepted_merged {s t : State} {a k h : Nat} {b : Byte} {d : FieldDef} {p : Overlap} {m : Half}
    (hp : overlap d k = some p) (hacc : d.acc = .write ∨ d.acc = .readWrite ∨ d.acc = .readToClear)
    (hfits : cut d (getField s a h) = getField s a h) (hm : Merged d k b (getField s a h) m)
    (henum : enumRefuses d m = false) (hsame : getField t a h = getField s a h) :
    Accepted t a h d (mergeByte d p b (getField t a h)) m := by
  have hcut : cut d (mergeByte d p b (getField s a h)) = m :=
    cut_mergeByte hp (by rcases hacc with hacc | hacc | hacc <;> simp [hacc]) hfits hm
  rw [hsame]
  have haccept := Accepted.stored (s := t) (a := a) (f := h) (d := d) (v := mergeByte d p b (getField s a h)) hacc
  rw [hcut] at haccept
  exact haccept henum

section

variable {s : State} {a k h : Nat} {b : Byte} {r : RegisterDef} {d : FieldDef} {p : Overlap} {m : Half}
  (hr : s.cfg.find a = some r) (hd : r.fields[h]? = some d) (hp : overlap d k = some p)
  (hacc : d.acc = .write ∨ d.acc = .readWrite ∨ d.acc = .readToClear)
  (hfits : cut d (getField s a h) = getField s a h) (hm : Merged d k b (getField s a h) m)
  (henum : enumRefuses d m = false)

include hr hd hp hacc hfits hm henum

/-- The mode is the one of the highest field written that sets it (41_register_ops.md R159). -/
theorem writeFields_lastMode {table : List FifoMode} {rest : FifoMode} (hw : d.wcb = some (.whFifoMode table rest))
    (hset : ∀ e ∈ r.fields, SetsMode e) (habove : ∀ f e, h < f → r.fields[f]? = some e → e.wcb = none) {t : State}
    (ht : writeFields hooks a k b 0 r.fields s = .done () t) : t.fifo.mode = table.getD m.toNat rest := by
  obtain ⟨t₁, hbelow, hstep, -, hframe⟩ := writeFields_mode (a := a) k b (field_of_take (h := h) hr)
    fun e he => hset e (List.mem_of_mem_take he)
  have hsame : getField t₁ a h = getField s a h :=
    hframe h (.inr (by rw [Nat.zero_add]; exact List.length_take_le h r.fields))
  have hself := fldWrite_hooked (accepted_merged hp hacc hfits hm henum hsame) (by rw [hw]; rfl)
    (hset d (List.mem_of_getElem? hd)).1
  rw [hw] at hself
  obtain ⟨w, D, hrest, hw', -⟩ := writeFields_plain hooks (a := a) k b
    (s := fieldHooked (some (.whFifoMode table rest)) m (setField t₁ a h m))
    (field_of_drop (h := h) (by
      show (setField t₁ a h m).cfg.find a = some r
      rw [setField_cfg, hstep.cfg, hr]))
    fun e he => by
      obtain ⟨f, hf, he'⟩ := exists_of_mem_drop he
      exact ⟨habove f e hf he', (hset e (List.mem_of_getElem? he')).1⟩
  have hall := writeFields_around hd hp hbelow hself hrest
  rw [ht] at hall
  cases hall
  rw [hw'.eq]
  rfl

/-- A soft reset asked by a field in mid-byte wipes what the byte wrote before; the fields above it take the byte over their
reset values (41_register_ops.md R159; 70_reset_and_hazards.md R316). -/
theorem writeFields_softReset (hw : d.wcb = some .whSoftReset) (hc : d.ccb = none) (hone : m = 1)
    (hplain : ∀ f e, f ≠ h → r.fields[f]? = some e → e.wcb = none ∧ e.ccb = none) :
    ∃ t, writeFields hooks a k b 0 r.fields s = .done () t ∧
      t = { s with fv := t.fv, diag := t.diag, fifo := (softReset s).fifo } ∧
      (∀ a' f, a' ≠ a ∨ f ≤ h → getField t a' f = s.cfg.slotReset a' f) ∧
      ∀ f e, h < f → r.fields[f]? = some e → getField t a f = afterByte e k b (s.cfg.slotReset a f) := by
  subst hone
  obtain ⟨t₁, D, hbelow, hstep, -, -, hframe⟩ := writeFields_plain hooks (a := a) k b (field_of_take (h := h) hr)
    fun e he => by
      obtain ⟨f, hf, he'⟩ := exists_of_mem_take he
      exact hplain f e (Nat.ne_of_lt hf) he'
  have hsame : getField t₁ a h = getField s a h :=
    hframe h (.inr (by rw [Nat.zero_add]; exact List.length_take_le h r.fields))
  have hself := fldWrite_hooked (accepted_merged hp hacc hfits hm henum hsame) (by rw [hw]; rfl) hc
  have hstored := hstep.trans (setField_step (by rw [hstep.cfg, field_of_find hr, hd]) 1)
  have hwiped : fieldHooked d.wcb 1 (setField t₁ a h 1) =
      { s with fv := [], diag := s.diag ++ (D ++ []), fifo := (softReset s).fifo } := by
    rw [hw, hstored.eq]
    rfl
  rw [hwiped] at hself
  obtain ⟨t, E, hrest, ht, -, htakes, hkeeps⟩ := writeFields_plain hooks (a := a) k b
    (s := { s with fv := [], diag := s.diag ++ (D ++ []), fifo := (softReset s).fifo }) (field_of_drop (h := h) hr)
    fun e he => by
      obtain ⟨f, hf, he'⟩ := exists_of_mem_drop he
      exact hplain f e (Nat.ne_of_gt hf) he'
  refine ⟨t, writeFields_around hd hp hbelow hself hrest, by rw [ht.eq], fun a' f hf => ?_, fun f e hf he => ?_⟩
  · by_cases hne : a' = a
    · obtain hne' | hle := hf
      · exact absurd hne hne'
      · rw [hne]
        exact hkeeps f (.inl (Nat.lt_succ_of_le hle))
    · exact ht.other a' f hne
  · obtain ⟨j, rfl⟩ := Nat.exists_eq_add_of_lt hf
    have hnow := htakes j e (by rw [List.getElem?_drop, ← he]; congr 1; omega)
    rw [show h + 1 + j = h + j + 1 by omega] at hnow
    exact hnow

end

/-! A whole-register callback that may set the FIFO mode. -/

/-- The register callback decides the mode if it sets one (41_register_ops.md R152). -/
theorem callRegister_setMode {r : RegisterDef} {last : Option FifoMode}
    (h : r.rwcb = last.map fun mode => .program [{ guard := .lit 1, act := .setMode mode }]) (k : Nat) (b : Byte)
    (s : State) : callRegister hooks r k b s = .done () (setMode s (last.getD s.fifo.mode)) := by
  cases last with
  | none => rw [callRegister, h]; rfl
  | some mode =>
    rw [callRegister, h]
    simp only [Option.map_some, hooks_onRegister]
    rfl

/-- Settles O60: every field but the resetting one is written as without callbacks, the mode is the last one set, and a soft
reset in mid-byte leaves to the fields above it alone what the byte writes (41_register_ops.md R159). -/
theorem registerWriteOrder : Obligations.RegisterWriteOrder := by
  intro s a k b r h d m last hs hwf hmem hr hk hrwcb hd hacc hlow hhigh henum mine merged takes hm
  obtain ⟨hrmem, rfl⟩ := find_mem hr
  obtain ⟨hwid, -⟩ := registerOk_field (Cfg_wf_register hwf hrmem) (List.mem_of_getElem? hd)
  obtain ⟨p, hp⟩ := overlap_eq_some hlow hhigh hwid
  have hfield : ∀ f e, r.fields[f]? = some e → s.cfg.field r.addr f = some e := fun f e he =>
    (field_of_find hr f).trans he
  have htag := sayTagged_step r k b s
  have hr' : (sayTagged r k b s).cfg.find r.addr = some r := by rw [htag.cfg, hr]
  have hsaid := getField_sayTagged r k b s
  have hfits : cut d (getField s r.addr h) = getField s r.addr h := cut_getField hmem (hfield h d hd)
  have htakes : ∀ f e, r.fields[f]? = some e →
      Takes e k b (getField s r.addr f) (afterByte e k b (getField s r.addr f)) := fun f e he =>
    afterByte_takes (cut_getField hmem (hfield f e he)) k b
  refine ⟨fun table rest hw hmodes habove => ?_, fun hw hone hc hplain => ?_⟩
  · obtain ⟨t, hfields, hstep, hvalues, hframe⟩ := writeFields_mode (s := sayTagged r k b s) (i := 0) k b
      (fun j e he => by rw [Nat.zero_add, htag.cfg]; exact hfield j e he) hmodes
    simp only [Nat.zero_add, hsaid] at hvalues hframe
    have hmode := writeFields_lastMode hr' hd hp hacc (by rw [hsaid, hfits]) (by rw [hsaid]; exact hm) henum hw hmodes
      habove hfields
    obtain ⟨heq, hother⟩ := htag.modeStep.trans hstep
    have hall : ∀ f e, r.fields[f]? = some e → Takes e k b (getField s r.addr f) (getField t r.addr f) :=
      fun f e he => by rw [hvalues f e he]; exact htakes f e he
    refine ⟨_, exec_regWriteB_done hs hr hk (regWriteB_done hfields (callRegister_setMode hrwcb k b t)), ?_,
      fun f e he => hall f e he, ?_, ?_⟩
    · obtain ⟨-, -, hstores⟩ := hall h d hd
      exact (hstores hacc m hm).trans (by rw [henum]; rfl)
    · rintro a' f' (hne | hlen)
      · exact hother a' f' hne
      · by_cases hne : a' = r.addr
        · rw [hne]
          exact hframe f' (.inr hlen)
        · exact hother a' f' hne
    · rw [hmode]
      conv_lhs => rw [heq]
      rfl
  · obtain ⟨t, hfields, heq, hwiped, hvalues⟩ := writeFields_softReset hr' hd hp hacc (by rw [hsaid, hfits])
      (by rw [hsaid]; exact hm) henum hw hc hone hplain
    rw [htag.cfg] at hwiped hvalues
    refine ⟨_, exec_regWriteB_done hs hr hk (regWriteB_done hfields (callRegister_setMode hrwcb k b t)), hwiped,
      fun f e hf he => ?_, ?_⟩
    · have hbits : Takes e k b (s.cfg.slotReset r.addr f) (getField t r.addr f) := by
        rw [hvalues f e hf he]
        exact afterByte_takes (cut_slotReset (hfield f e he)) k b
      exact hbits
    · rw [htag.eq] at heq
      conv_lhs => rw [heq]
      rfl

end Sys2Proof.Machine

/-! ### The byte read from a register -/

namespace Sys2Proof.Machine

/-! What the bits of the byte show (41_register_ops.md R153). -/

/-- Byte `k` shows the value `x` of field `d`: on the bits of the field that it holds it has the bits of `x`. -/
def Shows (k : Nat) (v : Byte) (d : FieldDef) (x : Half) : Prop :=
  ∀ j, j < 8 → d.off ≤ 8 * k + j → 8 * k + j < d.off + d.wid → v.getLsbD j = x.getLsbD (8 * k + j - d.off)

/-- Bit `n` of byte `k` is set in the value of one of the fields `ds`, the first of them having index `i`. -/
def ShownAt (k i : Nat) (ds : List FieldDef) (val : Nat → FieldDef → Half) (n : Nat) : Prop :=
  ∃ j d, ds[j]? = some d ∧ d.off ≤ 8 * k + n ∧ 8 * k + n < d.off + d.wid ∧
    (val (i + j) d).getLsbD (8 * k + n - d.off) = true

/-- The byte is the reserved pattern with the values of the fields put in their places. -/
def Composed (r : RegisterDef) (k : Nat) (val : Nat → FieldDef → Half) (v : Byte) : Prop :=
  ∀ n, n < 8 → (v.getLsbD n = true ↔ (reservedByte r k).getLsbD n = true ∨ ShownAt k 0 r.fields val n)

section

variable {c : Cfg} {r : RegisterDef} {k : Nat} {val : Nat → FieldDef → Half} {v : Byte} (h : Composed r k val v)
  (hk : k < r.width.bytes)

include hk in
theorem bit_lt_of_byte {j : Nat} (hj : j < 8) : 8 * k + j < 16 := by
  cases hw : r.width <;> simp [hw, Width.bytes] at hk <;> omega

include h hk in
theorem composed_reserved {j : Nat} (hj : j < 8)
    (hout : ∀ d ∈ r.fields, 8 * k + j < d.off ∨ d.off + d.wid ≤ 8 * k + j) :
    v.getLsbD j = (r.rsvdRead == .resetDefault && r.rst.getLsbD (8 * k + j)) := by
  have hfree : (fieldBits r).getLsbD (8 * k + j) = false := by
    rw [fieldBits_bit r (bit_lt_of_byte hk hj), List.any_eq_false]
    intro d hd
    have := hout d hd
    simp only [Bool.and_eq_true, decide_eq_true_eq]
    omega
  have hnone : ¬ ShownAt k 0 r.fields val j := by
    rintro ⟨f, d, hd, hlow, hhigh, -⟩
    have := hout d (List.mem_of_getElem? hd)
    omega
  have hbit := h j hj
  rw [reservedByte_bit r k hj, hfree, or_iff_left hnone, ← Bool.eq_iff_iff] at hbit
  rw [hbit, Bool.not_false, Bool.and_true]

include h hk in
/-- No two fields share a bit, and a reserved bit is of no field, so that a field's bits are its value's. -/
theorem composed_shows (hreg : registerOk c r = true) {f : Nat} {d : FieldDef} (hd : r.fields[f]? = some d) :
    Shows k v d (val f d) := by
  intro j hj hlow hhigh
  have htaken : (fieldBits r).getLsbD (8 * k + j) = true := by
    rw [fieldBits_bit r (bit_lt_of_byte hk hj), List.any_eq_true]
    exact ⟨d, List.mem_of_getElem? hd, by simp [hlow, hhigh]⟩
  have hreserved : ¬ (reservedByte r k).getLsbD j = true := by
    rw [reservedByte_bit r k hj, htaken]
    simp
  rw [Bool.eq_iff_iff, h j hj, or_iff_right hreserved]
  constructor
  · rintro ⟨f', e, he, helow, hehigh, hbit⟩
    rw [Nat.zero_add] at hbit
    by_cases hsame : f' = f
    · subst hsame
      rw [hd] at he
      cases he
      exact hbit
    · have := registerOk_apart hreg hsame he hd
      omega
  · exact fun hbit => ⟨f, d, hd, hlow, hhigh, by rw [Nat.zero_add]; exact hbit⟩

end

/-! The same of the lists of fields that the engine reads one after another. -/

theorem shownAt_congr {k i n : Nat} {ds : List FieldDef} {val val' : Nat → FieldDef → Half}
    (h : ∀ j d, ds[j]? = some d → val (i + j) d = val' (i + j) d) : ShownAt k i ds val n ↔ ShownAt k i ds val' n :=
  exists_congr fun j => exists_congr fun d => and_congr_right fun hd => by rw [h j d hd]

/-- A bit shown by a list of fields is shown below one of them, by it, or above it. -/
theorem shownAt_around {k h n : Nat} {ds : List FieldDef} {d : FieldDef} (hd : ds[h]? = some d)
    (val : Nat → FieldDef → Half) :
    ShownAt k 0 ds val n ↔ ShownAt k 0 (ds.take h) val n ∨
      (decide (d.off ≤ 8 * k + n ∧ 8 * k + n < d.off + d.wid) && (val h d).getLsbD (8 * k + n - d.off)) = true ∨
      ShownAt k (h + 1) (ds.drop (h + 1)) val n := by
  simp only [ShownAt, Nat.zero_add, List.getElem?_drop, List.getElem?_take, Bool.and_eq_true, decide_eq_true_eq]
  constructor
  · rintro ⟨f, e, he, hlow, hhigh, hbit⟩
    rcases Nat.lt_trichotomy f h with hlt | rfl | hgt
    · exact .inl ⟨f, e, by rw [if_pos hlt, he], hlow, hhigh, hbit⟩
    · rw [hd] at he
      cases he
      exact .inr (.inl ⟨⟨hlow, hhigh⟩, hbit⟩)
    · obtain ⟨j, rfl⟩ := Nat.exists_eq_add_of_le (Nat.succ_le_of_lt hgt)
      exact .inr (.inr ⟨j, e, he, hlow, hhigh, hbit⟩)
  · rintro (⟨f, e, he, hshown⟩ | ⟨⟨hlow, hhigh⟩, hbit⟩ | ⟨j, e, he, hshown⟩)
    · split at he
      · exact ⟨f, e, he, hshown⟩
      · cases he
    · exact ⟨h, d, hd, hlow, hhigh, hbit⟩
    · exact ⟨h + 1 + j, e, he, hshown⟩

/-- What a field without a provider reads as in a state. -/
def plainValue (s : State) (a f : Nat) (d : FieldDef) : Half := if d.acc = .write then 0 else getField s a f

theorem shown_bit (d : FieldDef) (k : Nat) (x : Half) {n : Nat} (hn : n < 8) :
    (shown d k x).getLsbD n = true ↔ d.off ≤ 8 * k + n ∧ 8 * k + n < d.off + d.wid ∧
      (if d.acc = .write then 0 else x).getLsbD (8 * k + n - d.off) = true := by
  cases hp : overlap d k with
  | none =>
    have hout : ¬ (d.off ≤ 8 * k + n ∧ 8 * k + n < d.off + d.wid) := fun hin => by
      have := overlap_none hp (j := 8 * k + n - d.off) (by omega)
      omega
    simp only [shown, hp, ← and_assoc, hout, false_and, iff_false]
    simp
  | some p =>
    simp only [shown, hp]
    split
    · simp
    · rw [slice_shows hp x hn, Bool.and_eq_true, decide_eq_true_eq, and_assoc]

/-! A state with another field store: the only thing that reads of plain fields change. -/

/-- A state with another field store. -/
def withStore (M : Memory) (s : State) : State := { s with fv := M }

section

variable (M : Memory) (s : State)

@[simp] theorem withStore_cfg : (withStore M s).cfg = s.cfg := rfl
@[simp] theorem withStore_fv : (withStore M s).fv = M := rfl
@[simp] theorem withStore_fifo : (withStore M s).fifo = s.fifo := rfl
@[simp] theorem withStore_env : (withStore M s).env = s.env := rfl

end

/-- What a field holds is a matter of the configuration and the store. -/
theorem getField_withStore {s w : State} {M : Memory} (hcfg : w.cfg = s.cfg) (hw : w.fv = M) (a f : Nat) :
    getField w a f = getField (withStore M s) a f :=
  getField_congr (s := withStore M s) (t := w) hcfg hw a f

/-- Everything the fields of a byte do when none of them runs a provider, with the bits of the byte (41_register_ops.md
R153). -/
theorem readFields_shows (run : Runner) {a : Nat} (k : Nat) {i : Nat} {ds : List FieldDef} {s : State} (acc : Byte)
    (hd : ∀ j d, ds[j]? = some d → s.cfg.field a (i + j) = some d)
    (hn : ∀ d ∈ ds, (overlap d k).isSome = true → d.acc = .write ∨ d.prov = none) :
    ∃ M v, readFields run a k i ds acc s = .done v (withStore M s) ∧
      (∀ n, n < 8 → (v.getLsbD n = true ↔ acc.getLsbD n = true ∨ ShownAt k i ds (plainValue s a) n)) ∧
      (∀ a' f, a' ≠ a ∨ f < i ∨ i + ds.length ≤ f → getField (withStore M s) a' f = getField s a' f) ∧
      ∀ j d, ds[j]? = some d → getField (withStore M s) a (i + j) = afterRead d k (getField s a (i + j)) := by
  obtain ⟨t, v, hread, hstep, hbits, hvalues, hframe⟩ := readFields_plain run (a := a) k acc hd hn
  obtain ⟨heq, hother⟩ := hstep
  rw [List.append_nil] at heq
  rw [heq] at hread hvalues hframe hother
  refine ⟨t.fv, v, hread, fun n hlt => ?_, fun a' f hf => ?_, hvalues⟩
  · rw [hbits n, Bool.or_eq_true, List.any_eq_true]
    apply or_congr Iff.rfl
    constructor
    · rintro ⟨j, -, hj⟩
      cases hdj : ds[j]? with
      | none => rw [hdj] at hj; simp at hj
      | some d =>
        rw [hdj] at hj
        exact ⟨j, d, hdj, (shown_bit d k _ hlt).1 hj⟩
    · rintro ⟨j, d, hdj, hshown⟩
      refine ⟨j, List.mem_range.2 (List.getElem?_eq_some_iff.1 hdj).1, ?_⟩
      rw [hdj]
      exact (shown_bit d k _ hlt).2 hshown
  · by_cases hne : a' = a
    · rw [hne]
      exact hframe f (by tauto)
    · exact hother a' f hne

/-! The reads of the fields of a byte, and the byte read. -/

section

variable {s m : State} {a k i : Nat} {ds : List FieldDef}

/-- A read of a field that runs no provider does not set the latch. -/
theorem execAll_plainReads_faulted {fs : List Nat}
    (hplain : ∀ f ∈ fs, ∃ d, s.cfg.field a f = some d ∧ (d.acc = .write ∨ d.prov = none)) (hs : s.faulted = false)
    (hm : execAll (fs.map fun f => .fldRead a f) s = .next m) : m.faulted = false := by
  induction fs generalizing s with
  | nil =>
    cases hm
    exact hs
  | cons f rest ih =>
    obtain ⟨d, hd, hprov⟩ := hplain f List.mem_cons_self
    obtain ⟨t, hread, hstep, -⟩ := fldRead_plain hooks hd hprov
    rw [List.map_cons, execAll_cons (exec_fldRead_done hs hd hread)] at hm
    refine ih (fun g hg => ?_) (by rw [hstep.eq]; exact hs) hm
    rw [settleIrq_cfg, hstep.cfg]
    exact hplain g (List.mem_cons_of_mem f hg)

/-- The store that the reads of plain fields leave, run one after another and run by the engine. -/
theorem fv_of_plainReads {acc v : Byte} {M : Memory} (hd : ∀ j d, ds[j]? = some d → s.cfg.field a (i + j) = some d)
    (hn : ∀ d ∈ ds, (overlap d k).isSome = true → d.acc = .write ∨ d.prov = none) (hs : s.faulted = false)
    (hm : execAll ((fieldsRead k i ds).map fun f => .fldRead a f) s = .next m)
    (hread : readFields hooks a k i ds acc s = .done v (withStore M s)) : m.fv = M := by
  have hfaulted := execAll_plainReads_faulted (fun f hf => by
    obtain ⟨j, d, rfl, hdj, hp⟩ := mem_fieldsRead.1 hf
    exact ⟨d, hd j d hdj, hn d (List.mem_of_getElem? hdj) hp⟩) hs hm
  obtain ⟨xs, t, hexec, -, -, -, hfv, -⟩ := readFields_exec acc hd hm hs hfaulted
  rw [hread] at hexec
  cases hexec
  exact hfv

end

/-- The fields of a byte read: those below one of them, it, and those above it. -/
theorem readFields_around {run : Runner} {a k h : Nat} {ds : List FieldDef} {d : FieldDef} {p : Overlap} {x : Half}
    {acc v v' : Byte} {s t u w : State} (hd : ds[h]? = some d) (hp : overlap d k = some p)
    (hbelow : readFields run a k 0 (ds.take h) acc s = .done v t) (hself : fldRead run a h d t = .done x u)
    (habove : readFields run a k (h + 1) (ds.drop (h + 1)) (v ||| sliceByte p x) u = .done v' w) :
    readFields run a k 0 ds acc s = .done v' w := by
  obtain ⟨hsplit, hlen⟩ := eq_take_cons_drop hd
  rw [hsplit, readFields_append, hbelow, Ran.andThen, hlen, Nat.zero_add, readFields, hp]
  dsimp only
  rw [hself, Ran.andThen, habove]

/-- The fields of a byte below one of them. -/
theorem filter_fieldsRead {k h : Nat} {ds : List FieldDef} {d : FieldDef} (hd : ds[h]? = some d) :
    ((fieldsRead k 0 ds).filter fun f => decide (f < h)) = fieldsRead k 0 (ds.take h) := by
  obtain ⟨hsplit, hlen⟩ := eq_take_cons_drop hd
  conv_lhs => rw [hsplit]
  rw [fieldsRead_append, List.filter_append, hlen, Nat.zero_add, List.filter_eq_self.2, List.filter_eq_nil_iff.2,
    List.append_nil]
  · intro f hf
    obtain ⟨j, -, rfl, -⟩ := mem_fieldsRead.1 hf
    simp
  · intro f hf
    obtain ⟨j, e, rfl, he, -⟩ := mem_fieldsRead.1 hf
    have hlt := (List.getElem?_eq_some_iff.1 he).1
    rw [hlen] at hlt
    simpa using hlt

/-! A field backed by a provider of the standard library, read after the store has changed below it. -/

section

variable (M : Memory) (s : State)

theorem feed_withStore (x : Sample) : feed (withStore M s) x = withStore M (feed s x) := by
  unfold feed
  rw [withStore_fifo, withStore_cfg]
  split
  · rfl
  · split <;> rfl
  · split <;> rfl

theorem streamTick_withStore (t : Time) : streamTick (withStore M s) t = withStore M (streamTick s t) := by
  unfold streamTick
  rw [withStore_fifo, withStore_cfg]
  split
  · split
    · exact feed_withStore M (setAfterStream s false) _
    · rfl
    · rfl
  · rfl

theorem pullStream_withStore : pullStream (withStore M s) = withStore M (pullStream s) := by
  unfold pullStream
  rw [withStore_cfg, withStore_env]
  split
  · rfl
  · exact streamTick_withStore M s _

theorem popSample_withStore : (popSample (withStore M s)).2 = withStore M (popSample s).2 := by
  unfold popSample
  rw [withStore_fifo, withStore_cfg]
  split
  · rfl
  · split <;> rfl
  · rfl

/-- The dequeue does not look at the field store (44_sample_fifo.md R238). -/
theorem dequeue_withStore : (dequeue (withStore M s)).2 = withStore M (dequeue s).2 := by
  rw [dequeue, pullStream_withStore, popSample_withStore, dequeue]

end

/-- Read in `s` with the store `M`, the field shows `x` cut to it and leaves `w` with that store; `w` is `u` but for the
results and the interrupt level. -/
structure Supplied (s u : State) (M : Memory) (a h : Nat) (d : FieldDef) (x : Half) (w : State) : Prop where
  read : fldRead hooks a h d (withStore M s) = .done (cut d x) (withStore M w)
  cfg : w.cfg = s.cfg
  results : w.results = s.results
  alike : ∀ N R, settleIrq { w with fv := N, results := R } = settleIrq { u with fv := N, results := R }

section

variable {s : State} {M : Memory} {a h : Nat} {d : FieldDef} (hacc : d.acc ≠ .write)

include hacc

theorem supplied_fifoCount (hprov : d.prov = some .pvFifoCount) :
    Supplied s s M a h d (if s.fifo.mode = .bypass then 0 else BitVec.ofNat 16 s.fifo.q.length) s where
  read := by
    rw [fldRead_provided hooks a h _ hacc hprov, hooks_provide, ← fifoCount_eq]
    rfl
  cfg := rfl
  results := rfl
  alike _ _ := rfl

theorem supplied_ovr {clear : Bool} (hprov : d.prov = some (.pvOvr clear)) :
    Supplied s { s with fifo := { s.fifo with ovr := if clear then false else s.fifo.ovr } } M a h d
      (if s.fifo.ovr then 1 else 0) { s with fifo := { s.fifo with ovr := if clear then false else s.fifo.ovr } } where
  read := by
    rw [fldRead_provided hooks a h _ hacc hprov, hooks_provide]
    cases clear <;> rfl
  cfg := rfl
  results := rfl
  alike _ _ := rfl

/-- A sample byte, of the current sample or of the one that the read dequeues (44_sample_fifo.md R261). -/
theorem supplied_sample {lane i : Nat} {deq : Bool} {u : State} (hs : s.faulted = false)
    (hprov : d.prov = some (.pvSample lane i deq)) (hu : if deq then exec .fifoDeq s = .next u else u = s) :
    Supplied s u M a h d (laneByte (transformLane { u with fv := M } lane (u.fifo.current.getD lane 0)) i)
      (if deq then (dequeue s).2 else s) := by
  cases deq with
  | false =>
    cases hu
    refine ⟨?_, rfl, rfl, fun _ _ => rfl⟩
    rw [fldRead_provided hooks a h _ hacc hprov, hooks_provide]
    rfl
  | true =>
    have hu : exec .fifoDeq s = .next u := hu
    have hframe := framed_kept.dequeue s
    rw [exec_fifoDeq hs] at hu
    cases hu
    refine ⟨?_, hframe.cfg, hframe.results, fun N R => ?_⟩
    · rw [fldRead_provided hooks a h _ hacc hprov, hooks_provide]
      show Ran.done (cut d (sampleByte (dequeue (withStore M s)).2 lane i)) (dequeue (withStore M s)).2 = _
      rw [dequeue_withStore]
      rfl
    · exact (settleIrq_withIrq _ { (dequeue s).2 with fv := N, results := R }).symm

end

/-! The values of the fields of a byte, in the order in which they are read. -/

theorem fieldsRead_nodup (k : Nat) (ds : List FieldDef) : (fieldsRead k 0 ds).Nodup := by
  rw [fieldsRead_eq]
  exact (List.nodup_range.filter _).map fun i j hij => by simpa using hij

/-- The value read of a field of the byte, from the list of the values read. -/
def resultOf (k : Nat) (ds : List FieldDef) (xs : List Half) (f : Nat) (_ : FieldDef) : Half :=
  xs.getD ((fieldsRead k 0 ds).idxOf f) 0

theorem resultOf_eq {k q f : Nat} {ds : List FieldDef} {xs : List Half} {d : FieldDef} {x : Half}
    (hf : (fieldsRead k 0 ds)[q]? = some f) (hx : xs[q]? = some x) : resultOf k ds xs f d = x := by
  obtain ⟨hlt, rfl⟩ := List.getElem?_eq_some_iff.1 hf
  rw [resultOf, (fieldsRead_nodup k ds).idxOf_getElem, List.getD_eq_getElem?_getD, hx, Option.getD_some]

theorem composed_of_results {r : RegisterDef} {k : Nat} {xs : List Half}
    (hlen : xs.length = (fieldsRead k 0 r.fields).length) :
    Composed r k (resultOf k r.fields xs) (composeByte k r.fields xs (reservedByte r k)) := by
  intro n hn
  rw [composeByte_bit _ hlen]
  refine or_congr Iff.rfl ⟨?_, ?_⟩
  · rintro ⟨q, j, d, p, x, hq, hd, hp, hx, hbit⟩
    rw [slice_shows hp x hn, Bool.and_eq_true, decide_eq_true_eq] at hbit
    obtain ⟨⟨hlow, hhigh⟩, hbit⟩ := hbit
    exact ⟨j, d, hd, hlow, hhigh, by rw [resultOf_eq hq hx]; exact hbit⟩
  · rintro ⟨j, d, hd, hlow, hhigh, hbit⟩
    obtain ⟨p, hp⟩ := overlap_eq_some (d := d) (k := k) (by omega) (by omega) (by omega)
    obtain ⟨q, hq⟩ := List.mem_iff_getElem?.1
      (mem_fieldsRead.2 ⟨j, d, rfl, hd, by rw [hp]; rfl⟩ : 0 + j ∈ fieldsRead k 0 r.fields)
    obtain ⟨x, hx⟩ : ∃ x, xs[q]? = some x :=
      ⟨_, List.getElem?_eq_getElem (hlen ▸ (List.getElem?_eq_some_iff.1 hq).1)⟩
    refine ⟨q, j, d, p, x, hq, hd, hp, hx, ?_⟩
    rw [resultOf_eq hq hx] at hbit
    rw [slice_shows hp x hn, hbit]
    simp [hlow, hhigh]

/-- The values `val` but for the field at `h`, whose value is `y`. -/
def withValue (h : Nat) (y : Half) (val : Nat → FieldDef → Half) (f : Nat) (d : FieldDef) : Half :=
  if f = h then y else val f d

@[simp] theorem withValue_self (h : Nat) (y : Half) (val : Nat → FieldDef → Half) (d : FieldDef) :
    withValue h y val h d = y := if_pos rfl

theorem withValue_other {h f : Nat} (hne : f ≠ h) (y : Half) (val : Nat → FieldDef → Half) (d : FieldDef) :
    withValue h y val f d = val f d := if_neg hne

/-! REG.READB as a step: plain fields, one provider, any providers. -/

/-- The field reaches into byte `k`, by its ends. -/
def reaches (d : FieldDef) (k : Nat) : Bool := decide (d.off < 8 * k + 8) && decide (8 * k < d.off + d.wid)

/-- The reserved bits of the byte read as the register's reserved pattern. -/
def ReservedRead (r : RegisterDef) (k : Nat) (v : Byte) : Prop :=
  ∀ j, j < 8 → (∀ d ∈ r.fields, 8 * k + j < d.off ∨ d.off + d.wid ≤ 8 * k + j) →
    v.getLsbD j = (r.rsvdRead == .resetDefault && r.rst.getLsbD (8 * k + j))

/-- The byte shows, and the read leaves, the fields other than `own` as fields without a provider; no other field changes. -/
def Plainly (s : State) (a k : Nat) (r : RegisterDef) (own : Option Nat) (t : State) (v : Byte) : Prop :=
  (∀ f d, r.fields[f]? = some d → own ≠ some f → Shows k v d (if d.acc = .write then 0 else getField s a f)) ∧
  (∀ f d, r.fields[f]? = some d → getField t a f =
    if d.acc = .readToClear ∧ reaches d k = true ∧ own ≠ some f then d.clearVal else getField s a f) ∧
  (∀ a' f', a' ≠ a ∨ r.fields.length ≤ f' → getField t a' f' = getField s a' f')

section

variable {s : State} {a k : Nat} {r : RegisterDef} (hs : s.faulted = false) (hwf : s.cfg.wf = true)
  (hr : s.cfg.find a = some r) (hk : k < r.width.bytes)

include hwf hr in
theorem registerOk_of_find : registerOk s.cfg r = true := Cfg_wf_register hwf (find_mem hr).1

include hwf hr in
theorem overlap_isSome_eq_reaches {d : FieldDef} (hd : d ∈ r.fields) : (overlap d k).isSome = reaches d k := by
  obtain ⟨hwid, -⟩ := registerOk_field (registerOk_of_find hwf hr) hd
  exact overlap_isSome hwid k

include hwf hr in
/-- The fields of the byte, in field order. -/
theorem fieldsRead_eq_filter : fieldsRead k 0 r.fields =
    (List.range r.fields.length).filter fun f => (r.fields[f]?.map fun d => reaches d k).getD false := by
  have hpart : hasPart k r.fields = fun f => (r.fields[f]?.map fun d => reaches d k).getD false := by
    funext f
    rw [hasPart]
    cases hd : r.fields[f]? with
    | none => rfl
    | some d => exact overlap_isSome_eq_reaches hwf hr (List.mem_of_getElem? hd)
  rw [fieldsRead_eq, hpart]
  simp

include hwf hr in
theorem afterRead_eq {f : Nat} {d : FieldDef} (hd : r.fields[f]? = some d) (old : Half) :
    afterRead d k old = if d.acc = .readToClear ∧ reaches d k = true then d.clearVal else old := by
  rw [afterRead, ← overlap_isSome_eq_reaches hwf hr (List.mem_of_getElem? hd),
    cut_clearVal hwf ((field_of_find hr f).trans hd)]
  cases overlap d k <;> simp

include hs hwf hr hk

/-- Over fields none of which runs a provider. -/
theorem exec_regReadB_plain
    (hplain : ∀ d ∈ r.fields, reaches d k = true → d.acc = .write ∨ d.prov = none) :
    ∃ t v, exec (.regReadB a k) s = .next t ∧ ReservedRead r k v ∧ Plainly s a k r none t v ∧
      t = settleIrq { s with fv := t.fv, results := s.results ++ [.byte v] } := by
  obtain ⟨-, rfl⟩ := find_mem hr
  obtain ⟨M, v, hread, hbits, hframe, hvalues⟩ := readFields_shows hooks k (i := 0) (reservedByte r k)
    (fun j d hd => by rw [Nat.zero_add, field_of_find hr, hd])
    fun d hd hp => hplain d hd (by rw [← overlap_isSome_eq_reaches hwf hr hd]; exact hp)
  have hcomposed : Composed r k (plainValue s r.addr) v := hbits
  refine ⟨_, v, exec_regReadB_done hs hr hk hread, fun j hj => composed_reserved hcomposed hk hj,
    ⟨fun f d hd _ => composed_shows hcomposed hk (registerOk_of_find hwf hr) hd, fun f d hd => ?_,
      fun a' f' hf => ?_⟩, rfl⟩
  · have hnow := (hvalues f d hd).trans (afterRead_eq hwf hr hd _)
    rw [Nat.zero_add] at hnow
    refine Eq.trans hnow ?_
    simp
  · exact hframe a' f' (hf.imp_right fun hle => .inr (by rw [Nat.zero_add]; exact hle))

section

variable {h : Nat} {d : FieldDef} {m u w : State} {x : Half} (hd : r.fields[h]? = some d) (hin : reaches d k = true)
  (hplain : ∀ f e, f ≠ h → r.fields[f]? = some e → reaches e k = true → e.acc = .write ∨ e.prov = none)
  (hm : execAll ((fieldsRead k 0 (r.fields.take h)).map fun f => .fldRead a f) s = .next m)
  (hsup : Supplied s u m.fv a h d x w)

include hd hin hplain hm hsup

omit hk in
/-- The fields of a byte read, one of them supplied by a provider: the fields below it, it, and the fields above it. -/
theorem readFields_supplied :
    ∃ N v, readFields hooks a k 0 r.fields (reservedByte r k) s = .done v (withStore N w) ∧
      Composed r k (withValue h (cut d x) (plainValue s a)) v ∧
      (∀ f e, r.fields[f]? = some e → getField (withStore N s) a f =
        if f = h then getField s a f else afterRead e k (getField s a f)) ∧
      ∀ a' f, a' ≠ a ∨ r.fields.length ≤ f → getField (withStore N s) a' f = getField s a' f := by
  obtain ⟨p, hp⟩ := Option.isSome_iff_exists.1
    ((overlap_isSome_eq_reaches hwf hr (List.mem_of_getElem? hd)).trans hin)
  have hothers : ∀ f e, f ≠ h → r.fields[f]? = some e → (overlap e k).isSome = true → e.acc = .write ∨ e.prov = none :=
    fun f e hne he hpart =>
      hplain f e hne he ((overlap_isSome_eq_reaches hwf hr (List.mem_of_getElem? he)).symm.trans hpart)
  have hbelowPlain : ∀ e ∈ r.fields.take h, (overlap e k).isSome = true → e.acc = .write ∨ e.prov = none := fun e he => by
    obtain ⟨f, hf, he'⟩ := exists_of_mem_take he
    exact hothers f e (Nat.ne_of_lt hf) he'
  have habovePlain : ∀ e ∈ r.fields.drop (h + 1), (overlap e k).isSome = true → e.acc = .write ∨ e.prov = none :=
    fun e he => by
      obtain ⟨f, hf, he'⟩ := exists_of_mem_drop he
      exact hothers f e (Nat.ne_of_gt hf) he'
  obtain ⟨M, v₁, hbelow, hbits₁, hframe₁, hvalues₁⟩ :=
    readFields_shows hooks k (reservedByte r k) (field_of_take (h := h) hr) hbelowPlain
  rw [(eq_take_cons_drop hd).2, Nat.zero_add] at hframe₁
  rw [fv_of_plainReads (field_of_take hr) hbelowPlain hs hm hbelow] at hsup
  obtain ⟨N, v, habove, hbits, hframe, hvalues⟩ :=
    readFields_shows hooks k (s := withStore M w) (v₁ ||| sliceByte p (cut d x))
      (field_of_drop (h := h) (by rw [withStore_cfg, hsup.cfg, hr])) habovePlain
  have hlook : ∀ K a' f, getField (withStore K w) a' f = getField (withStore K s) a' f := fun K =>
    getField_withStore hsup.cfg rfl
  have hframe' : ∀ a' f, a' ≠ a ∨ f < h + 1 ∨ h + 1 + (r.fields.drop (h + 1)).length ≤ f →
      getField (withStore N s) a' f = getField (withStore M s) a' f := fun a' f hf =>
    (hlook N a' f).symm.trans ((hframe a' f hf).trans (hlook M a' f))
  refine ⟨N, v, readFields_around hd hp hbelow hsup.read habove, fun n hn => ?_, fun f e he => ?_, fun a' f hf => ?_⟩
  · rw [hbits n hn, BitVec.getLsbD_or, Bool.or_eq_true, hbits₁ n hn, slice_shows hp _ hn, shownAt_around hd, or_assoc,
      or_assoc]
    refine or_congr Iff.rfl (or_congr (shownAt_congr fun j e he => ?_) (or_congr ?_ (shownAt_congr fun j e he => ?_)))
    · have hlt := (List.getElem?_eq_some_iff.1 he).1
      rw [(eq_take_cons_drop hd).2] at hlt
      rw [withValue_other (by omega)]
    · rw [withValue_self]
    · rw [withValue_other (by omega), plainValue, plainValue, hlook, hframe₁ a _ (.inr (.inr (by omega)))]
  · rcases Nat.lt_trichotomy f h with hlt | rfl | hgt
    · have hnow := hvalues₁ f e (by rw [List.getElem?_take, if_pos hlt, he])
      rw [Nat.zero_add] at hnow
      rw [if_neg (Nat.ne_of_lt hlt), hframe' a f (.inr (.inl (Nat.lt_succ_of_lt hlt))), hnow]
    · rw [if_pos rfl, hframe' a f (.inr (.inl (Nat.lt_succ_self f))), hframe₁ a f (.inr (.inr (Nat.le_refl f)))]
    · obtain ⟨j, rfl⟩ := Nat.exists_eq_add_of_le (Nat.succ_le_of_lt hgt)
      have hnow := hvalues j e (by rw [List.getElem?_drop]; exact he)
      rw [hlook, hframe₁ a _ (.inr (.inr (by omega)))] at hnow
      rw [if_neg (by omega)]
      exact (hlook N a _).symm.trans hnow
  · have hlt := (List.getElem?_eq_some_iff.1 hd).1
    rw [hframe' a' f (by rw [List.length_drop]; omega), hframe₁ a' f (by omega)]

/-- Over one field that a provider supplies, the others of the byte plain. -/
theorem exec_regReadB_supplied :
    ∃ t v, exec (.regReadB a k) s = .next t ∧ ReservedRead r k v ∧ Shows k v d (cut d x) ∧
      Plainly s a k r (some h) t v ∧ t = settleIrq { u with fv := t.fv, results := s.results ++ [.byte v] } := by
  obtain ⟨N, v, hread, hcomposed, hvalues, hframe⟩ := readFields_supplied hs hwf hr hd hin hplain hm hsup
  have haddr := (find_mem hr).2
  rw [← haddr] at hread
  have hok := registerOk_of_find hwf hr
  have hlook : ∀ R a' f, getField (settleIrq { withStore N w with results := R }) a' f = getField (withStore N s) a' f :=
    fun R => getField_withStore hsup.cfg rfl
  refine ⟨_, v, exec_regReadB_done hs hr hk hread, fun j hj => composed_reserved hcomposed hk hj, ?_,
    ⟨fun f e he hne => ?_, fun f e he => ?_, fun a' f' hf => (hlook _ a' f').trans (hframe a' f' hf)⟩, ?_⟩
  · have hshows := composed_shows hcomposed hk hok hd
    rwa [withValue_self] at hshows
  · have hshows := composed_shows hcomposed hk hok he
    rwa [withValue_other fun heq => hne (congrArg some heq.symm)] at hshows
  · rw [hlook, hvalues f e he, afterRead_eq hwf hr he]
    by_cases hself : f = h
    · simp [hself]
    · simp [hself, Ne.symm hself]
  · exact (hsup.alike N _).trans (by rw [show (withStore N w).results = s.results from hsup.results]; rfl)

end

/-- Over fields with any providers: FLD.READ of each field of the byte, in field order (41_register_ops.md R153, R159). -/
theorem exec_regReadB_reads {u : State} {xs : List Half}
    (hu : execAll ((fieldsRead k 0 r.fields).map fun f => .fldRead a f) s = .next u) (huf : u.faulted = false)
    (hxs : u.results = s.results ++ xs.map .value) :
    ∃ v, exec (.regReadB a k) s = .next (settleIrq { u with results := s.results ++ [.byte v] }) ∧ ReservedRead r k v ∧
      ∀ (i f : Nat) (d : FieldDef) (x : Half), (fieldsRead k 0 r.fields)[i]? = some f → r.fields[f]? = some d →
        xs[i]? = some x → Shows k v d x := by
  obtain ⟨-, rfl⟩ := find_mem hr
  obtain ⟨ys, t, hread, hframed, hlen, hys, -, hsettle⟩ := readFields_exec (i := 0) (reservedByte r k)
    (fun j d hd => by rw [Nat.zero_add, field_of_find hr, hd]) hu hs huf
  have hsame : xs = ys := by
    rw [hxs] at hys
    exact List.map_injective_iff.2 (fun _ _ => Result.value.inj) (List.append_cancel_left hys)
  subst hsame
  have hcomposed := composed_of_results hlen
  refine ⟨_, (exec_regReadB_done hs hr hk hread).trans ?_, fun j hj => composed_reserved hcomposed hk hj,
    fun i f d x hf hd hx => ?_⟩
  · rw [hframed.results, hsettle]
  · have hshows := composed_shows hcomposed hk (registerOk_of_find hwf hr) hd
    rwa [resultOf_eq hf hx] at hshows

end

/-- Settles O16: the byte is composed of the reserved pattern and what the fields read as, one after another in field order
(41_register_ops.md R153, R159). -/
theorem registerReadByte : Obligations.RegisterReadByte := by
  intro s a k r hs hwf hr hk inByte fieldsOf shows reserved plainly
  have hfields : fieldsOf = fieldsRead k 0 r.fields := (fieldsRead_eq_filter hwf hr).symm
  refine ⟨fun hplain => exec_regReadB_plain hs hwf hr hk hplain, ?_, fun u xs hu huf hxs => ?_⟩
  · intro h d m u x hd hin hacc hothers hm hanswer
    rw [hfields, filter_fieldsRead hd] at hm
    obtain ⟨w, hsup⟩ : ∃ w, Supplied s u m.fv a h d x w := by
      obtain ⟨hprov, rfl, rfl⟩ | ⟨clear, hprov, rfl, rfl⟩ | ⟨lane, i, deq, hprov, hu, rfl⟩ := hanswer
      · exact ⟨_, supplied_fifoCount hacc hprov⟩
      · exact ⟨_, supplied_ovr hacc hprov⟩
      · exact ⟨_, supplied_sample hacc hs hprov hu⟩
    exact exec_regReadB_supplied hs hwf hr hk hd hin hothers hm hsup
  · rw [hfields] at hu ⊢
    exact exec_regReadB_reads hs hwf hr hk hu huf hxs

end Sys2Proof.Machine

/-! ### The collection operations run alone -/

namespace Sys2Proof.Machine

/-! LOCATE and the lookup of a base address (42_collection_ops.md R171, R177). -/

/-- An address in the footprints of two registers: they are the same register (00_scope.md R9, item (a)). -/
theorem eq_of_footprints_meet {c : Cfg} (hmap : c.mapOk = true) {r t : RegisterDef} (hr : r ∈ c.map) (ht : t ∈ c.map)
    {addr : Nat} (hrlow : r.addr ≤ addr) (hrhigh : addr < r.addr + c.span r) (htlow : t.addr ≤ addr)
    (hthigh : addr < t.addr + c.span t) : r = t := by
  obtain ⟨i, hi⟩ := List.getElem?_of_mem hr
  obtain ⟨j, hj⟩ := List.getElem?_of_mem ht
  rcases Nat.lt_trichotomy i j with hij | rfl | hji
  · have hapart := allPairs_getElem hmap hij hi hj
    simp only [footprintsApart, Bool.or_eq_true, decide_eq_true_eq] at hapart
    omega
  · exact Option.some.inj (hi.symm.trans hj)
  · have hapart := allPairs_getElem hmap hji hj hi
    simp only [footprintsApart, Bool.or_eq_true, decide_eq_true_eq] at hapart
    omega

theorem find?_eq_some_of_unique {α : Type} {p : α → Bool} {l : List α} {x : α} (hx : x ∈ l) (hp : p x = true)
    (hunique : ∀ y ∈ l, p y = true → y = x) : l.find? p = some x := by
  obtain ⟨y, hy⟩ := Option.isSome_iff_exists.1 (List.find?_isSome.2 ⟨x, hx, hp⟩)
  rw [hy, hunique y (List.mem_of_find?_eq_some hy) (List.find?_some hy)]

theorem locate_eq_some_iff {c : Cfg} (hmap : c.mapOk = true) {addr o : Nat} {r : RegisterDef} :
    locate c addr = some (r, o) ↔
      r ∈ c.map ∧ o = addr - r.addr ∧ r.addr ≤ addr ∧ addr < r.addr + c.span r := by
  constructor
  · intro h
    obtain ⟨hmem, hlow, hhigh, ho⟩ := locate_mem h
    exact ⟨hmem, ho, hlow, hhigh⟩
  · rintro ⟨hmem, rfl, hlow, hhigh⟩
    have hfind : (c.map.find? fun t => decide (t.addr ≤ addr) && decide (addr < t.addr + c.span t)) = some r := by
      refine find?_eq_some_of_unique hmem (by simp [hlow, hhigh]) fun t ht hp => ?_
      simp only [Bool.and_eq_true, decide_eq_true_eq] at hp
      exact eq_of_footprints_meet hmap ht hmem hp.1 hp.2 hlow hhigh
    simp only [locate, hfind, Option.map_some]

theorem span_pos (c : Cfg) (r : RegisterDef) : 0 < c.span r := by
  cases hw : c.wideAccess <;> cases hb : r.width <;> simp [Cfg.span, hw, hb, Width.bytes]

theorem span_le_bytes (c : Cfg) (r : RegisterDef) : c.span r ≤ r.width.bytes := by
  cases hw : c.wideAccess <;> cases hb : r.width <;> simp [Cfg.span, hw, hb, Width.bytes]

/-- A register of the map is the one found at its own address. -/
theorem find_of_mem {c : Cfg} (hmap : c.mapOk = true) {r : RegisterDef} (hr : r ∈ c.map) : c.find r.addr = some r := by
  refine find?_eq_some_of_unique hr (by simp) fun t ht hp => ?_
  have haddr : t.addr = r.addr := by simpa using hp
  have ht0 := span_pos c t
  have hr0 := span_pos c r
  exact eq_of_footprints_meet hmap ht hr (addr := r.addr) (by omega) (by omega) (by omega) (by omega)

/-- Settles O19: the registers whose footprint holds an address are one at most, so the first found is the one; a footprint
is all the register's bytes, or its own address alone (42_collection_ops.md R171). -/
theorem locateIsFootprint : Obligations.LocateIsFootprint := by
  intro c addr o r hmap
  rw [locate_eq_some_iff hmap]
  cases hwide : c.wideAccess with
  | subRegisters => simp only [Cfg.span, hwide]
  | offset =>
    simp only [Cfg.span, hwide]
    exact and_congr_right fun _ => and_congr_right fun _ => by omega

/-! A collection operation on a miss (42_collection_ops.md R172). -/

theorem missRead_eq (s : State) (addr : Nat) :
    missRead s addr = { s with diag := s.diag ++ (match s.cfg.missPolicy with
      | .silent => []
      | .logAndZero => [.wUnmappedRead addr]) } := by
  cases h : s.cfg.missPolicy <;> simp [missRead, say, h]

theorem missWrite_eq (s : State) (addr : Nat) (b : Byte) :
    missWrite s addr b = { s with diag := s.diag ++ (match s.cfg.missPolicy with
      | .silent => []
      | .logAndZero => [.wUnmappedWrite addr b]) } := by
  cases h : s.cfg.missPolicy <;> simp [missWrite, say, h]

section

variable {s : State} {addr : Nat} (hs : s.faulted = false) (hmiss : locate s.cfg addr = none)

include hs hmiss

theorem exec_collRead_miss :
    exec (.collRead addr) s = .next (settleIrq (respond (missRead s addr) (.byte 0))) := by
  show execCollRead addr s = _
  exact operate_done hs (by simp only [collRead, hmiss, Ran.andThen])

theorem exec_collWrite_miss (b : Byte) :
    exec (.collWrite addr b) s = .next (settleIrq (respond (missWrite s addr b) .none)) := by
  show execCollWrite addr b s = _
  exact operate_done hs (by simp only [collWrite, hmiss, Ran.andThen])

theorem exec_collTryRead_miss :
    exec (.collTryRead addr) s = .next (settleIrq (respond s (.hitByte false 0))) := by
  show execCollTryRead addr s = _
  exact operate_done hs (by simp only [collTryRead, hmiss, Ran.andThen])

theorem exec_collTryWrite_miss (b : Byte) :
    exec (.collTryWrite addr b) s = .next (settleIrq (respond s (.hit false))) := by
  show execCollTryWrite addr b s = _
  exact operate_done hs (by simp only [collTryWrite, hmiss, Ran.andThen])

end

theorem offsetTarget_eq_none {c : Cfg} {base o : Nat} (h : ∀ r, c.find base = some r → r.width.bytes ≤ o) :
    offsetTarget c base o = none := by
  rw [Option.eq_none_iff_forall_ne_some]
  intro r hr
  obtain ⟨hfind, ho⟩ := offsetTarget_mem hr
  exact absurd (h r hfind) (by omega)

section

variable {s : State} {base o : Nat} (hs : s.faulted = false) (hmiss : offsetTarget s.cfg base o = none) (e : Endian)

include hs hmiss

theorem exec_collReadOff_miss :
    exec (.collReadOff base o e) s = .next (settleIrq (respond (missRead s base) (.byte 0))) := by
  show execCollReadOff base o e s = _
  exact operate_done hs (by simp only [collReadOff, hmiss, Ran.andThen])

theorem exec_collWriteOff_miss (b : Byte) :
    exec (.collWriteOff base o b e) s = .next (settleIrq (respond (missWrite s base b) .none)) := by
  show execCollWriteOff base o b e s = _
  exact operate_done hs (by simp only [collWriteOff, hmiss, Ran.andThen])

end

/-- Settles O20: each form's miss, with its record written out (42_collection_ops.md R172 to R178). -/
theorem collectionMisses : Obligations.CollectionMisses := by
  intro s hs
  refine ⟨fun addr b hmiss => ⟨?_, ?_, exec_collTryRead_miss hs hmiss, exec_collTryWrite_miss hs hmiss b⟩,
    fun base o e b hmiss => ⟨?_, ?_⟩⟩
  · rw [exec_collRead_miss hs hmiss, missRead_eq]
    rfl
  · rw [exec_collWrite_miss hs hmiss, missWrite_eq]
    rfl
  · rw [exec_collReadOff_miss hs (offsetTarget_eq_none hmiss), missRead_eq]
    rfl
  · rw [exec_collWriteOff_miss hs (offsetTarget_eq_none hmiss), missWrite_eq]
    rfl

/-! A collection operation on a hit (42_collection_ops.md R173 to R178). -/

/-- Two operations with the same body in the state they are run in are the same step. -/
theorem operate_congr {s : State} {body body' : State → Ran Result} (h : body s = body' s) :
    operate s body = operate s body' := by
  simp only [operate, h]

theorem sigIndex_lt {nb o : Nat} (ho : o < nb) (e : Endian) : sigIndex nb o e < nb := by
  cases e <;> simp only [sigIndex] <;> omega

/-- The body of a register access that is not abandoned is done, and it leaves the results as they are. -/
theorem operate_done_of_unfaulted {α : Type} {s t : State} {x : Ran α} {result : α → Result}
    (hx : x.Meets True (Outline s))
    (h : operate s (fun _ => x.andThen fun v u => .done (result v) u) = .next t) (ht : t.faulted = false) :
    ∃ v u, x = .done v u ∧ t = settleIrq (respond u (result v)) ∧ u.results = s.results := by
  have hwhole : (x.andThen fun v u => Ran.done (result v) u).Meets True (Outline s) :=
    Ran.Meets_andThen outline_kept.trans hx fun _ u _ => outline_kept.refl u
  obtain ⟨r, u, -, hbody, rfl⟩ | ⟨-, u, what, -, rfl⟩ := operate_meets hwhole h
  · obtain ⟨v, u', hdone, e⟩ := andThen_done hbody
    cases e
    rw [hdone] at hx
    exact ⟨v, u, hdone, rfl, Outline.results hx⟩
  · cases ht

section

variable {s : State} {r : RegisterDef} (k : Nat)

theorem regReadB_outline : (regReadB hooks r k s).Meets True (Outline s) :=
  regReadB_meets outline_kept.toEngineKept (hooks_meets outline_kept.toHookKept) (goodRegister_any r) k s

theorem regWriteB_outline (b : Byte) : (regWriteB hooks r k b s).Meets True (Outline s) :=
  regWriteB_meets outline_kept.toEngineKept (hooks_meets outline_kept.toHookKept) (goodRegister_any r) k b s

end

/-- The register operation on a byte of the map, without the lookup. -/
theorem exec_regReadB_eq {s : State} {a k : Nat} {r : RegisterDef} (hr : s.cfg.find a = some r) (hk : k < r.width.bytes) :
    exec (.regReadB a k) s = operate s fun _ => (regReadB hooks r k s).andThen fun v u => .done (.byte v) u := by
  show execRegReadB a k s = _
  exact operate_congr (by simp only [byteTarget_eq hr hk])

theorem exec_regWriteB_eq {s : State} {a k : Nat} {r : RegisterDef} (hr : s.cfg.find a = some r) (hk : k < r.width.bytes)
    (b : Byte) :
    exec (.regWriteB a k b) s = operate s fun _ => (regWriteB hooks r k b s).andThen fun _ u => .done .none u := by
  show execRegWriteB a k b s = _
  exact operate_congr (by simp only [byteTarget_eq hr hk])

section

variable {s : State} {addr o : Nat} {r : RegisterDef} (hwf : s.cfg.wf = true) (hit : locate s.cfg addr = some (r, o))

include hwf hit

theorem find_of_locate : s.cfg.find r.addr = some r :=
  find_of_mem (Cfg_wf_map hwf) (locate_mem hit).1

theorem sigIndex_lt_of_locate (e : Endian) : sigIndex r.width.bytes o e < r.width.bytes := by
  obtain ⟨-, rfl, hlow, hhigh⟩ := (locate_eq_some_iff (Cfg_wf_map hwf)).1 hit
  have hspan := span_le_bytes s.cfg r
  exact sigIndex_lt (by omega) e

theorem exec_collRead_hit :
    exec (.collRead addr) s = exec (.regReadB r.addr (sigIndex r.width.bytes o (endianOf s.cfg))) s := by
  rw [exec_regReadB_eq (find_of_locate hwf hit) (sigIndex_lt_of_locate hwf hit _)]
  show execCollRead addr s = _
  exact operate_congr (by simp only [collRead, hit])

theorem exec_collWrite_hit (b : Byte) :
    exec (.collWrite addr b) s = exec (.regWriteB r.addr (sigIndex r.width.bytes o (endianOf s.cfg)) b) s := by
  rw [exec_regWriteB_eq (find_of_locate hwf hit) (sigIndex_lt_of_locate hwf hit _)]
  show execCollWrite addr b s = _
  exact operate_congr (by simp only [collWrite, hit])

theorem exec_collTryRead_hit {t : State} {v : Byte}
    (h : exec (.regReadB r.addr (sigIndex r.width.bytes o (endianOf s.cfg))) s = .next t) (ht : t.faulted = false)
    (hv : t.results = s.results ++ [.byte v]) :
    exec (.collTryRead addr) s = .next { t with results := s.results ++ [.hitByte true v] } := by
  rw [exec_regReadB_eq (find_of_locate hwf hit) (sigIndex_lt_of_locate hwf hit _)] at h
  obtain ⟨v', u, hdone, rfl, hres⟩ := operate_done_of_unfaulted (regReadB_outline _) h ht
  obtain rfl : v' = v := by
    have hsame : u.results ++ [Result.byte v'] = s.results ++ [.byte v] := hv
    rw [hres] at hsame
    simpa using hsame
  have hstep : exec (.collTryRead addr) s = .next (settleIrq (respond u (.hitByte true v'))) := by
    show execCollTryRead addr s = _
    exact operate_done (operate_next h).1 (by simp only [collTryRead, hit, hdone, Ran.andThen])
  rw [hstep, settleIrq_results_comm, ← hres]
  rfl

theorem exec_collTryWrite_hit {t : State} {b : Byte}
    (h : exec (.regWriteB r.addr (sigIndex r.width.bytes o (endianOf s.cfg)) b) s = .next t) (ht : t.faulted = false) :
    exec (.collTryWrite addr b) s = .next { t with results := s.results ++ [.hit true] } := by
  rw [exec_regWriteB_eq (find_of_locate hwf hit) (sigIndex_lt_of_locate hwf hit _)] at h
  obtain ⟨_, u, hdone, rfl, hres⟩ := operate_done_of_unfaulted (regWriteB_outline _ b) h ht
  have hstep : exec (.collTryWrite addr b) s = .next (settleIrq (respond u (.hit true))) := by
    show execCollTryWrite addr b s = _
    exact operate_done (operate_next h).1 (by simp only [collTryWrite, hit, hdone, Ran.andThen])
  rw [hstep, settleIrq_results_comm, ← hres]
  rfl

end

section

variable {s : State} {base o : Nat} {r : RegisterDef} (hr : s.cfg.find base = some r) (ho : o < r.width.bytes)
  (e : Endian)

include hr ho

theorem offsetTarget_eq_some : offsetTarget s.cfg base o = some r := by
  simp only [offsetTarget, hr, if_pos ho]

theorem exec_collReadOff_hit :
    exec (.collReadOff base o e) s = exec (.regReadB base (sigIndex r.width.bytes o e)) s := by
  rw [exec_regReadB_eq hr (sigIndex_lt ho e)]
  show execCollReadOff base o e s = _
  exact operate_congr (by simp only [collReadOff, offsetTarget_eq_some hr ho])

theorem exec_collWriteOff_hit (b : Byte) :
    exec (.collWriteOff base o b e) s = exec (.regWriteB base (sigIndex r.width.bytes o e) b) s := by
  rw [exec_regWriteB_eq hr (sigIndex_lt ho e)]
  show execCollWriteOff base o b e s = _
  exact operate_congr (by simp only [collWriteOff, offsetTarget_eq_some hr ho])

end

/-- Settles O21: each form's hit; the byte index of the statement is the significance index of the byte order
(42_collection_ops.md R173 to R178; 20_memory.md R62). -/
theorem collectionHits : Obligations.CollectionHits := by
  intro s addr o e r b hwf k
  have hk : k = sigIndex r.width.bytes o e := by cases e <;> rfl
  rw [hk]
  refine ⟨?_, fun hr ho => ⟨exec_collReadOff_hit hr ho e, exec_collWriteOff_hit hr ho e b⟩⟩
  rintro hit rfl
  exact ⟨exec_collRead_hit hwf hit, exec_collWrite_hit hwf hit b, fun t v => exec_collTryRead_hit hwf hit,
    fun t => exec_collTryWrite_hit hwf hit⟩

end Sys2Proof.Machine

/-! ### Every operation completes under the standard library -/

namespace Sys2Proof.Machine

/-- How an operation ends that nothing stops: it does nothing, or it runs a body that is done and respects a relation. -/
def RunsThrough (R : State → State → Prop) (s : State) (o : Host.Outcome State Fault Refusal) : Prop :=
  o = operateNothing s ∨ ∃ body, o = operate s body ∧ (body s).Meets False (R s)

section

variable {R : State → State → Prop} {s : State}

theorem RunsThrough.body {body : State → Ran Result} (h : (body s).Meets False (R s)) :
    RunsThrough R s (operate s body) := .inr ⟨body, rfl, h⟩

theorem RunsThrough.done {body : State → Ran Result} {r : Result} {t : State} (hb : body s = .done r t) (h : R s t) :
    RunsThrough R s (operate s body) := .inr ⟨body, rfl, by rw [hb]; exact h⟩

theorem RunsThrough.plain {f : State → State} (h : R s (f s)) : RunsThrough R s (operatePlain s f) := .done rfl h

theorem RunsThrough.nothing : RunsThrough R s (operateNothing s) := .inl rfl

/-- Run through in an unfaulted state, an operation that leaves the latch alone completes unfaulted. -/
theorem RunsThrough.completes {o : Host.Outcome State Fault Refusal} (h : RunsThrough Outline s o)
    (hs : s.faulted = false) : ∃ t, o = .next t ∧ t.faulted = false := by
  obtain rfl | ⟨body, rfl, hb⟩ := h
  · exact ⟨s, operateNothing_eq hs, hs⟩
  · obtain ⟨r, t, hdone, hout⟩ := Ran.Meets_total hb
    refine ⟨_, operate_done hs hdone, ?_⟩
    rw [settleIrq_faulted, respond_faulted, hout.faulted, hs]

end

/-- The register of a byte that the configuration has. -/
theorem byteTarget_of_hasByte {c : Cfg} {a k : Nat} (h : c.hasByte a k = true) :
    ∃ r ∈ c.map, byteTarget c a k = some r := by
  cases hr : c.find a with
  | none => simp [Cfg.hasByte, hr] at h
  | some r =>
    have hk : k < r.width.bytes := by simpa [Cfg.hasByte, hr] using h
    exact ⟨r, (find_mem hr).1, by simp only [byteTarget, hr, if_pos hk]⟩

/-- With hooks of the standard library and operands of the configuration every operation runs through. -/
theorem exec_runsThrough {R : State → State → Prop} (hR : BodyKept R) {i : Instr} {s : State}
    (hstd : standardHooks s.cfg = true) (hi : Instr.wf s.cfg i = true) : RunsThrough R s (exec i s) := by
  have hE := hR.toEngineKept
  have hB := hR.toBusKept
  have hrun := hooks_standard hR.toStandardKept
  have hg := goodMap_standard hstd
  have hseq : ∀ {α : Type} {x : Ran α} {g : α → Result}, x.Meets False (R s) →
      (x.andThen fun a u => Ran.done (g a) u).Meets False (R s) :=
    fun hx => Ran.Meets_andThen hE.trans hx fun _ u _ => hE.refl u
  have htx : ∀ tx, R s { s with tx := tx } := fun tx => hR.around _ _ rfl rfl rfl rfl rfl rfl rfl rfl rfl
  unfold exec
  cases i with
  | addrSetPlain8 a => exact .plain (htx _)
  | addrSetRw7 r a => exact .plain (htx _)
  | addrSetRw7Ms6 r m a => exact .plain (htx _)
  | addrSetPlain16 a => exact .plain (htx _)
  | fldRead a f =>
    obtain ⟨d, hd⟩ := Option.isSome_iff_exists.1 hi
    obtain ⟨r, -, hr, -, -, hmem⟩ := field_mem hd
    refine .body ?_
    simp only [hd]
    exact hseq (fldRead_meets hE hrun a f ((hg r hr).2 d hmem) s)
  | fldWrite a f v =>
    obtain ⟨d, hd⟩ := Option.isSome_iff_exists.1 hi
    obtain ⟨r, -, hr, -, -, hmem⟩ := field_mem hd
    refine .body ?_
    simp only [hd]
    exact hseq (fldWrite_meets hE hrun a f ((hg r hr).2 d hmem) _ s)
  | regReadB a k =>
    obtain ⟨r, hr, htarget⟩ := byteTarget_of_hasByte hi
    refine .body ?_
    simp only [htarget]
    exact hseq (regReadB_meets hE hrun (hg r hr) k s)
  | regWriteB a k b =>
    obtain ⟨r, hr, htarget⟩ := byteTarget_of_hasByte hi
    refine .body ?_
    simp only [htarget]
    exact hseq (regWriteB_meets hE hrun (hg r hr) k b s)
  | regReset a =>
    obtain ⟨r, hr⟩ := Option.isSome_iff_exists.1 hi
    exact .done (r := .none) (by simp only [hr]) (hR.resetRegister s a)
  | collRead addr => exact .body (hseq (collRead_meets hE hrun addr s hg))
  | collWrite addr b => exact .body (hseq (collWrite_meets hE hrun addr b s hg))
  | collTryRead addr => exact .body (hseq (collTryRead_meets hE hrun addr s hg))
  | collTryWrite addr b => exact .body (hseq (collTryWrite_meets hE hrun addr b s hg))
  | collReadOff base o e => exact .body (hseq (collReadOff_meets hE hrun base o e s hg))
  | collWriteOff base o b e => exact .body (hseq (collWriteOff_meets hE hrun base o b e s hg))
  | collReset => exact .plain (hR.resetCollection s)
  | busWrite bytes =>
    cases bytes with
    | nil => exact .nothing
    | cons b rest =>
      unfold execBusWrite
      exact .body (hseq (busWrite_meets hB hrun hg (b :: rest) rfl))
  | busRead count =>
    cases count with
    | zero => exact .nothing
    | succ n =>
      unfold execBusRead
      exact .body (hseq (busRead_meets hB hrun hg (n + 1) rfl))
  | busFinish => exact .plain (htx _)
  | advance =>
    exact .plain (hR.around _ _ (advance_cfg s) (advance_fv s) (advance_fifo s) (advance_ovrSignals s) (advance_user s)
      (advance_faulted s) (advance_env s) (advance_results s) (advance_diag s))
  | fifoFeed stamp x =>
    have hx : x.length = s.cfg.lanes := beq_iff_eq.1 hi
    exact .done (r := .none) (if_pos hx) (hR.feed s x hx)
  | fifoDeq => exact .done rfl (hR.dequeue s)
  | fifoReset => exact .plain (hR.resetQueue s)
  | fifoClrOvr => exact .plain (hR.clearOverrun s)
  | fifoSetMode m => exact .plain (hR.setMode s m)
  | fifoStreamTick now => exact .plain (hR.streamTick s now)
  | hostFeedRepeat x n =>
    have hx : x.length = s.cfg.lanes := beq_iff_eq.1 hi
    cases n with
    | zero => exact .nothing
    | succ n =>
      unfold execHostFeedRepeat
      exact .done (r := .none) (if_pos hx) (feedTimes_kept hR x (n + 1) s hx)
  | hostLoadFile name lines =>
    exact .done rfl (hR.trans _ _ _ (feedAll_kept hR _ s (loadPlan_lanes s.cfg name lines)) (endLoad_kept hR _ _))
  | hostAttachStream => exact .plain (hR.attachStream s)
  | hostDetachStream => exact .plain (hR.detachStream s)
  | hostSetKeep b => exact .plain (hR.setKeep s b)
  | hostSetPhys vs =>
    have hvs : vs.length = s.cfg.lanes := beq_iff_eq.1 hi
    have hp := physLanes_kept hE s vs
    refine .done (r := .none) (if_pos hvs) (hR.trans _ _ _ hp (hR.feed _ _ ?_))
    rw [physLanes_length, hR.config _ _ hp, hvs]
  | devReset => exact .plain (hR.deviceReset s)
  | devSoftReset => exact .plain (hR.softReset s)

/-- Settles O22: every operation runs through, and none touches the latch on its way (42_collection_ops.md R170;
43_bus_transactions.md R191; 60_exceptions.md R276). -/
theorem everyOperationCompletes : Obligations.EveryOperationCompletes := fun _ _ hs hstd hi =>
  (exec_runsThrough outline_kept hstd hi).completes hs

end Sys2Proof.Machine

/-! ### The auto-increment run alone -/

namespace Sys2Proof.Machine

/-! ADVANCE by the access mode and the gates (43_bus_transactions.md R205 to R207). -/

section

variable {s : State}

theorem advance_offset (hw : s.cfg.wideAccess = .offset) :
    advance s =
      { s with tx := { s.tx with bytePhase := (s.tx.bytePhase + 1) % phaseModulus s.cfg s.tx.curAddr.toNat } } := by
  simp only [advance, hw]

theorem advance_open (hw : s.cfg.wideAccess = .subRegisters) (ho : advanceOpen s = true) :
    advance s = { s with tx := { s.tx with curAddr := nextAddr s.cfg s.tx.curAddr.toNat } } := by
  simp only [advance, hw, ho, if_true]

theorem advance_held (hw : s.cfg.wideAccess = .subRegisters) (ho : advanceOpen s = false) : advance s = s := by
  simp [advance, hw, ho]

end

/-! The gates (43_bus_transactions.md R205). -/

theorem flagGate_iff (s : State) :
    flagGate s = true ↔ ∀ ga gf, s.cfg.aiGateFlag = some (ga, gf) → getField s ga gf = 1 := by
  unfold flagGate
  split
  · simp [*]
  · rename_i a f hflag
    simp [hflag]

theorem rangeGate_iff (c : Cfg) (a : Nat) :
    rangeGate c a = true ↔ ∀ lo hi, c.aiRange = some (lo, hi) → lo ≤ a ∧ a ≤ hi := by
  unfold rangeGate
  split
  · simp [*]
  · rename_i lo hi hrange
    simp [hrange]

theorem advanceOpen_iff (s : State) :
    advanceOpen s = true ↔ s.cfg.aiBase = true ∧ (s.cfg.format.msBit = none ∨ s.tx.msLatch = true) ∧
      (∀ ga gf, s.cfg.aiGateFlag = some (ga, gf) → getField s ga gf = 1) ∧
      (∀ lo hi, s.cfg.aiRange = some (lo, hi) → lo ≤ s.tx.curAddr.toNat ∧ s.tx.curAddr.toNat ≤ hi) ∧
      s.tx.curAddr.toNat ∉ s.cfg.aiHoldSet := by
  have hmultiple : multipleGate s = true ↔ s.cfg.format.msBit = none ∨ s.tx.msLatch = true := by
    simp [multipleGate]
  have hhold : holdGate s.cfg s.tx.curAddr.toNat = true ↔ s.tx.curAddr.toNat ∉ s.cfg.aiHoldSet := by simp [holdGate]
  simp only [advanceOpen, Bool.and_eq_true, hmultiple, flagGate_iff, rangeGate_iff, hhold, and_assoc]

/-- The next address, the cut to `ADDR_BITS` put last (43_bus_transactions.md R206; log 27). -/
theorem nextAddr_eq (c : Cfg) (a : Nat) :
    nextAddr c a = BitVec.ofNat 16 ((match c.aiWrap with
      | none => a + 1
      | some (wrapAt, wrapTo) => if a + 1 = wrapAt then wrapTo else a + 1) % 2 ^ c.format.bits) := by
  unfold nextAddr truncAddr
  cases c.aiWrap with
  | none => rfl
  | some wrap => exact (apply_ite (fun n => BitVec.ofNat 16 (n % 2 ^ c.format.bits)) _ _ _).symm

theorem exec_advance {s : State} (hs : s.faulted = false) : exec .advance s = .next (settleIrq (advance s)) :=
  operatePlain_eq hs advance

/-- Settles O30: the mode and the gates choose the branch of ADVANCE (43_bus_transactions.md R205 to R207, R209). -/
theorem advanceExact : Obligations.AdvanceExact := by
  intro s hs
  rw [exec_advance hs]
  refine ⟨fun hw => ?_, fun hw => ⟨fun hheld => ?_, fun hopen => ?_⟩⟩
  · rw [advance_offset hw]
    rfl
  · rw [← advanceOpen_iff, Bool.not_eq_true] at hheld
    rw [advance_held hw hheld]
  · rw [← advanceOpen_iff] at hopen
    rw [advance_open hw hopen]
    exact congrArg (fun a => Host.Outcome.next (settleIrq { s with tx := { s.tx with curAddr := a } }))
      (nextAddr_eq s.cfg _)

end Sys2Proof.Machine

/-! ### The addresses a burst touches -/

namespace Sys2Proof.Machine

/-- Without a run-time flag the gates read the configuration, the multiple-operation latch and the address alone
(43_bus_transactions.md R205). -/
theorem advanceOpen_static {s : State} (hflag : s.cfg.aiGateFlag = none) :
    advanceOpen s = staticOpen s.cfg s.tx.msLatch s.tx.curAddr := by
  have hopen : flagGate s = true := by simp [flagGate, hflag]
  simp only [advanceOpen, staticOpen, multipleGate, hopen, Bool.and_true]

/-! The place after one data byte, and after one more than `n`, by the access mode (43_bus_transactions.md R209). -/

section

variable {c : Cfg} (ms : Bool) (n : Nat)

theorem addrAfter_offset (hw : c.wideAccess = .offset) (a : BitVec 16) : addrAfter c ms n a = a := by
  cases n <;> simp only [addrAfter, hw]

theorem addrAfter_subRegisters (hw : c.wideAccess = .subRegisters) (a : BitVec 16) :
    addrAfter c ms (n + 1) a = addrAfter c ms n (if staticOpen c ms a then nextAddr c a.toNat else a) := by
  simp only [addrAfter, hw]

theorem phaseAfter_offset (hw : c.wideAccess = .offset) (a p : Nat) :
    phaseAfter c a (n + 1) p = phaseAfter c a n ((p + 1) % phaseModulus c a) := by
  simp only [phaseAfter, hw]

theorem phaseAfter_subRegisters (hw : c.wideAccess = .subRegisters) (a p : Nat) : phaseAfter c a n p = p := by
  cases n <;> simp only [phaseAfter, hw]

end

/-- State `t` stands `n` data bytes after `s`: its address and byte phase are those that the start, the latch and the
configuration say (43_bus_transactions.md R214). -/
structure BytesOn (n : Nat) (s t : State) : Prop where
  cfg : t.cfg = s.cfg
  msLatch : t.tx.msLatch = s.tx.msLatch
  curAddr : t.tx.curAddr = addrAfter s.cfg s.tx.msLatch n s.tx.curAddr
  bytePhase : t.tx.bytePhase = phaseAfter s.cfg s.tx.curAddr.toNat n s.tx.bytePhase

theorem BytesOn.refl (s : State) : BytesOn 0 s s := ⟨rfl, rfl, rfl, rfl⟩

/-- Nothing but the configuration and the transaction state says where a state stands. -/
theorem BytesOn.congr {n : Nat} {s t u : State} (h : BytesOn n s t) (hcfg : u.cfg = t.cfg) (htx : u.tx = t.tx) :
    BytesOn n s u :=
  ⟨hcfg.trans h.cfg, by rw [htx, h.msLatch], by rw [htx, h.curAddr], by rw [htx, h.bytePhase]⟩

/-- The auto-increment is one data byte on. -/
theorem BytesOn.advance {s : State} (hflag : s.cfg.aiGateFlag = none) : BytesOn 1 s (advance s) := by
  cases hw : s.cfg.wideAccess with
  | offset =>
    rw [advance_offset hw]
    exact ⟨rfl, rfl, (addrAfter_offset _ 1 hw _).symm, (phaseAfter_offset 0 hw _ _).symm⟩
  | subRegisters =>
    have haddr := addrAfter_subRegisters s.tx.msLatch 0 hw s.tx.curAddr
    have hphase := phaseAfter_subRegisters 1 hw s.tx.curAddr.toNat s.tx.bytePhase
    rw [← advanceOpen_static hflag, addrAfter] at haddr
    cases ho : advanceOpen s with
    | true =>
      rw [advance_open hw ho]
      exact ⟨rfl, rfl, by rw [haddr, ho, if_pos rfl], hphase.symm⟩
    | false =>
      rw [advance_held hw ho]
      exact ⟨rfl, rfl, by simp [haddr, ho], hphase.symm⟩

/-- One data byte, then `n` others. -/
theorem BytesOn.cons {n : Nat} {s t u : State} (h : BytesOn 1 s t) (g : BytesOn n t u) : BytesOn (n + 1) s u := by
  obtain ⟨hcfg, hms, haddr, hphase⟩ := h
  obtain ⟨gcfg, gms, gaddr, gphase⟩ := g
  rw [hcfg, hms, haddr] at gaddr
  rw [hcfg, haddr, hphase] at gphase
  refine ⟨gcfg.trans hcfg, gms.trans hms, gaddr.trans ?_, gphase.trans ?_⟩ <;> cases hw : s.cfg.wideAccess
  · rw [addrAfter_subRegisters _ 0 hw, addrAfter_subRegisters _ n hw, addrAfter]
  · rw [addrAfter_offset _ _ hw, addrAfter_offset _ _ hw, addrAfter_offset _ _ hw]
  · rw [phaseAfter_subRegisters _ hw, phaseAfter_subRegisters _ hw, phaseAfter_subRegisters _ hw]
  · rw [addrAfter_offset _ _ hw, phaseAfter_offset 0 hw, phaseAfter_offset n hw, phaseAfter]

/-- A register access leaves the place alone, the auto-increment after it is one data byte on. -/
theorem BytesOn.moved {s u : State} (hflag : s.cfg.aiGateFlag = none) (hu : Framed s u) (x : TState) :
    BytesOn 1 s (moved u x) := by
  obtain ⟨hcfg, hms, haddr, hphase⟩ := BytesOn.advance (s := u) (by rw [hu.cfg, hflag])
  rw [hu.cfg, hu.tx] at haddr hphase
  rw [hu.tx] at hms
  exact ⟨(moved_cfg u x).trans hu.cfg, hms, haddr, hphase⟩

theorem dataReadByte_bytesOn {s t : State} (hflag : s.cfg.aiGateFlag = none) (h : dataReadByte s = .done () t) :
    BytesOn 1 s t := by
  obtain ⟨v, u, hu, rfl⟩ := dataReadByte_done h
  have hframed := readTarget_framed s
  rw [hu] at hframed
  exact (BytesOn.moved hflag hframed .reading).congr rfl rfl

theorem dataWriteByte_bytesOn {b : Byte} {s t : State} (hflag : s.cfg.aiGateFlag = none)
    (h : dataWriteByte b s = .done () t) : BytesOn 1 s t := by
  obtain ⟨u, hu, rfl⟩ := dataWriteByte_done h
  have hframed := writeTarget_framed b s
  rw [hu] at hframed
  exact BytesOn.moved hflag hframed .writing

theorem readBytes_bytesOn {n : Nat} {s t : State} (hflag : s.cfg.aiGateFlag = none) (h : readBytes n s = .done () t) :
    BytesOn n s t := by
  induction n generalizing s with
  | zero =>
    cases h
    exact BytesOn.refl _
  | succ n ih =>
    obtain ⟨_, u, hu, hrest⟩ := andThen_done h
    have hfirst := dataReadByte_bytesOn hflag hu
    exact hfirst.cons (ih (by rw [hfirst.cfg, hflag]) hrest)

theorem writeBytes_bytesOn {bytes : List Byte} {s t : State} (hflag : s.cfg.aiGateFlag = none)
    (h : writeBytes bytes s = .done () t) : BytesOn bytes.length s t := by
  induction bytes generalizing s with
  | nil =>
    cases h
    exact BytesOn.refl _
  | cons b more ih =>
    obtain ⟨_, u, hu, hrest⟩ := andThen_done h
    have hfirst := dataWriteByte_bytesOn hflag hu
    exact hfirst.cons (ih (by rw [hfirst.cfg, hflag]) hrest)

/-- A served read reads data bytes (43_bus_transactions.md R199). -/
theorem busRead_served {s : State} (h : serves s = true) (n : Nat) : busRead n s = readBytes n s := if_pos h

/-- Settles O31: a data byte is one auto-increment on, whatever its register access did, and a primitive is its data
bytes one after another (43_bus_transactions.md R205 to R209, R214). -/
theorem autoIncrementDeterminism : Obligations.AutoIncrementDeterminism := by
  intro s t hflag ht
  refine ⟨fun n hserves h => ?_, fun bytes hst h => ?_⟩
  · suffices hon : BytesOn n s t from ⟨hon.curAddr, hon.bytePhase⟩
    cases n with
    | zero =>
      obtain ⟨_, rfl⟩ := operateNothing_next (show operateNothing s = .next t from h)
      exact BytesOn.refl t
    | succ n =>
      obtain ⟨_, u, hu, rfl⟩ := execBusRead_settled h ht
      rw [busRead_served hserves] at hu
      exact (readBytes_bytesOn hflag hu).congr rfl rfl
  · suffices hon : BytesOn bytes.length s t from ⟨hon.curAddr, hon.bytePhase⟩
    by_cases hne : bytes = []
    · subst hne
      obtain ⟨_, rfl⟩ := operateNothing_next (show operateNothing s = .next t from h)
      exact BytesOn.refl t
    · obtain ⟨_, u, hu, rfl⟩ := execBusWrite_settled hne h ht
      rw [busWrite_data hst] at hu
      exact (writeBytes_bytesOn hflag hu).congr rfl rfl

end Sys2Proof.Machine

/-! ### A bus primitive in two pieces -/

namespace Sys2Proof.Machine

/-! A primitive begun with the interrupt level settled ends with it settled (60_exceptions.md R281). -/

theorem IrqInv_addressByte {s : State} (h : IrqInv s) (b : Byte) : IrqInv (addressByte s b) :=
  IrqInv_of h (by simp) (by simp) (by simp) (by simp) (by simp)

theorem IrqInv_writeBytes {bytes : List Byte} {s t : State} (hs : IrqInv s) (h : writeBytes bytes s = .done () t) :
    IrqInv t := by
  induction bytes generalizing s with
  | nil =>
    cases h
    exact hs
  | cons b more ih =>
    obtain ⟨_, u, hu, hrest⟩ := andThen_done h
    obtain ⟨w, _, rfl⟩ := dataWriteByte_done hu
    exact ih (IrqInv_moved w .writing) hrest

theorem IrqInv_reply {s : State} (h : IrqInv s) (bytes : List Byte) : IrqInv (reply s bytes) :=
  IrqInv_of h rfl rfl rfl rfl rfl

theorem IrqInv_readBytes {n : Nat} {s t : State} (hs : IrqInv s) (h : readBytes n s = .done () t) : IrqInv t := by
  induction n generalizing s with
  | zero =>
    cases h
    exact hs
  | succ n ih =>
    obtain ⟨_, u, hu, hrest⟩ := andThen_done h
    obtain ⟨v, w, _, rfl⟩ := dataReadByte_done hu
    exact ih (IrqInv_reply (IrqInv_moved w .reading) [v]) hrest

/-- A block past the address phase is in a data state or reads. -/
theorem data_or_reading {s : State} (h : awaitsAddress s = false) :
    (s.tx.tstate = .addressSet ∨ s.tx.tstate = .writing) ∨ s.tx.tstate = .reading := by
  cases hst : s.tx.tstate <;> simp [awaitsAddress, hst] at h ⊢

/-- A write in Reading is ignored whole (43_bus_transactions.md R197). -/
theorem busWrite_reading {s : State} (h : s.tx.tstate = .reading) (b : Byte) (more : List Byte) :
    busWrite (b :: more) s = .done () (takeWriteMisuse s (more.length + 1)) := by
  rw [busWrite_closed (by simp [awaitsAddress, h])]
  simp only [writeRest, h]

/-- A write that does not end in Reading goes on with the bytes of the next one, and the level stays settled
(43_bus_transactions.md R196). -/
theorem busWrite_append {xs : List Byte} {s u : State} (hs : IrqInv s) (h : busWrite xs s = .done () u)
    (hu : u.tx.tstate ≠ .reading) : IrqInv u ∧ ∀ ys, busWrite (xs ++ ys) s = busWrite ys u := by
  induction xs generalizing s with
  | nil =>
    cases h
    exact ⟨hs, fun _ => rfl⟩
  | cons b more ih =>
    cases ha : awaitsAddress s with
    | true =>
      rw [busWrite_awaits ha] at h
      obtain ⟨hirq, hrest⟩ := ih (IrqInv_addressByte hs b) h
      exact ⟨hirq, fun ys => (busWrite_awaits ha b (more ++ ys)).trans (hrest ys)⟩
    | false =>
      obtain hst | hst := data_or_reading ha
      · rw [busWrite_data hst] at h
        refine ⟨IrqInv_writeBytes hs h, fun ys => ?_⟩
        rw [busWrite_data hst, busWrite_data (.inr (writeBytes_tstate h)), writeBytes_append, h]
        rfl
      · rw [busWrite_reading hst] at h
        cases h
        exact absurd hst hu

/-! A primitive of one byte or more, as a step. -/

theorem exec_busWrite {s : State} (hs : s.faulted = false) {bytes : List Byte} (hne : bytes ≠ []) :
    exec (.busWrite bytes) s = conclude ((busWrite bytes s).andThen fun _ u => .done .none u) := by
  obtain ⟨b, more, rfl⟩ := List.exists_cons_of_ne_nil hne
  exact if_neg (by simp [hs])

theorem exec_busRead {s : State} (hs : s.faulted = false) (n : Nat) :
    exec (.busRead (n + 1)) s = conclude ((busRead (n + 1) s).andThen fun _ u => .done .none u) :=
  if_neg (by simp [hs])

theorem exec_busWrite_nil {s : State} (hs : s.faulted = false) : exec (.busWrite []) s = .next s :=
  operateNothing_eq hs

theorem exec_busRead_zero {s : State} (hs : s.faulted = false) : exec (.busRead 0) s = .next s :=
  operateNothing_eq hs

theorem exec_busWrite_append {s t : State} {xs : List Byte} (hs : IrqInv s) (h : exec (.busWrite xs) s = .next t)
    (ht : t.faulted = false) (hst : t.tx.tstate ≠ .reading) (ys : List Byte) :
    exec (.busWrite (xs ++ ys)) s = exec (.busWrite ys) t := by
  by_cases hxs : xs = []
  · subst hxs
    obtain ⟨_, rfl⟩ := operateNothing_next (show operateNothing s = .next t from h)
    rfl
  by_cases hys : ys = []
  · rw [hys, List.append_nil, h, exec_busWrite_nil ht]
  obtain ⟨hsf, u, hu, rfl⟩ := execBusWrite_settled hxs h ht
  obtain ⟨hirq, hrest⟩ := busWrite_append hs hu hst
  rw [settle_of_IrqInv hirq] at ht ⊢
  rw [exec_busWrite hsf (by simp [hxs]), exec_busWrite ht hys, hrest]

theorem exec_busRead_add {s t : State} {m : Nat} (hs : IrqInv s) (hserves : serves s = true)
    (h : exec (.busRead m) s = .next t) (ht : t.faulted = false) (n : Nat) :
    exec (.busRead (m + n)) s = exec (.busRead n) t := by
  cases m with
  | zero =>
    obtain ⟨_, rfl⟩ := operateNothing_next (show operateNothing s = .next t from h)
    rw [Nat.zero_add]
  | succ m =>
    cases n with
    | zero => rw [Nat.add_zero, h, exec_busRead_zero ht]
    | succ n =>
      obtain ⟨hsf, u, hu, rfl⟩ := execBusRead_settled h ht
      rw [busRead_served hserves] at hu
      have hstill : serves u = true := by simp [serves, readBytes_tstate hu]
      rw [settle_of_IrqInv (IrqInv_readBytes hs hu)] at ht ⊢
      have hwhole : busRead (m + 1 + (n + 1)) s = busRead (n + 1) u := by
        rw [busRead_served hserves, busRead_served hstill, readBytes_add, hu]
        rfl
      rw [exec_busRead ht, ← hwhole]
      exact exec_busRead hsf (m + 1 + n)

/-- Settles O24: the second piece goes on where the first one ended, with the interrupt level already settled
(43_bus_transactions.md R196, R199). -/
theorem busSplits : Obligations.BusSplits := fun _ _ hs =>
  ⟨fun _ ys h ht hst => exec_busWrite_append hs h ht hst ys,
    fun _ n hserves h ht => exec_busRead_add hs hserves h ht n⟩

/-- Settles O27: an empty operand is no operation (43_bus_transactions.md R210). -/
theorem emptyPrimitives : Obligations.EmptyPrimitives := fun _ hs => ⟨exec_busWrite_nil hs, exec_busRead_zero hs⟩

/-- Settles O48: no operation is defined, and the step asks for the latch first (43_bus_transactions.md R211,
60_exceptions.md R277). -/
theorem faultedStops : Obligations.FaultedStops := fun _ hs => ⟨exec_faulted hs, if_pos hs⟩

end Sys2Proof.Machine

/-! ### A data byte as a collection operation -/

namespace Sys2Proof.Machine

/-! The auto-increment changes the transaction state alone, and reads no output. -/

theorem advance_eq (u : State) : advance u = { u with tx := (advance u).tx } := by
  unfold advance
  split
  · rfl
  · split <;> rfl

theorem advanceOpen_congr {s t : State} (hcfg : t.cfg = s.cfg) (hfv : t.fv = s.fv) (htx : t.tx = s.tx) :
    advanceOpen t = advanceOpen s := by
  simp only [advanceOpen, multipleGate, flagGate, getField_congr hcfg hfv, hcfg, htx]

theorem advance_tx_congr {s t : State} (hcfg : t.cfg = s.cfg) (hfv : t.fv = s.fv) (htx : t.tx = s.tx) :
    (advance t).tx = (advance s).tx := by
  unfold advance
  rw [hcfg, htx, advanceOpen_congr hcfg hfv htx]
  split
  · rfl
  · split
    · rfl
    · exact htx

/-- The state after a data byte: the access, its interrupt level, and the place moved on (43_bus_transactions.md R198,
R203). -/
theorem moved_eq (u : State) (x : TState) :
    moved u x = { settleIrq u with tx := { (advance u).tx with tstate := x } } := by
  have hlevel := irqHolds_congr (s := u) (t := { u with tx := { (advance u).tx with tstate := x } }) rfl rfl rfl rfl
    u.cfg.irqCond
  unfold moved
  rw [advance_eq]
  exact congrArg (fun level => { u with tx := { (advance u).tx with tstate := x }, irq := level }) hlevel

/-- A read byte whose register access, run alone, answers `v` (43_bus_transactions.md R203). -/
theorem exec_busRead_byte {s t : State} {v : Byte} (hserves : serves s = true) (ht : t.faulted = false)
    (h : operate s (fun _ => (readTarget s).andThen fun b u => .done (.byte b) u) = .next t)
    (hv : t.results = s.results ++ [.byte v]) :
    exec (.busRead 1) s = .next { t with
      tx := { (advance t).tx with tstate := .reading }, busOut := s.busOut ++ [v], results := s.results } := by
  obtain ⟨b, u, hu, rfl, hresults⟩ :=
    operate_done_of_unfaulted (Ran.Meets_mono (readTarget_framed s) fun _ => Outline.ofFramed) h ht
  have hframed := readTarget_framed s
  rw [hu] at hframed
  obtain rfl : b = v := by simpa [respond, settleIrq, hresults] using hv
  have hdone : busRead 1 s = .done () (reply (moved u .reading) [b]) := by
    rw [busRead_served hserves, readBytes, dataReadByte, hu]
    rfl
  have hplace : (advance (settleIrq (respond u (.byte b)))).tx = (advance u).tx := advance_tx_congr rfl rfl rfl
  have hresponded : settleIrq (respond u (.byte b)) = { settleIrq u with results := u.results ++ [.byte b] } :=
    (settleIrq_results_comm u _).symm
  rw [execBusRead_of_done (operate_next h).1 hdone, settle_of_IrqInv (IrqInv_reply (IrqInv_moved u .reading) [b]),
    hplace, hresponded, ← hresults, ← hframed.busOut, moved_eq]
  rfl

/-- A written byte whose register access, run alone, leaves `t` (43_bus_transactions.md R198). -/
theorem exec_busWrite_byte {s t : State} {b : Byte} (hst : s.tx.tstate = .addressSet ∨ s.tx.tstate = .writing)
    (ht : t.faulted = false) (h : operate s (fun _ => (writeTarget s b).andThen fun _ u => .done .none u) = .next t) :
    exec (.busWrite [b]) s = .next { t with tx := { (advance t).tx with tstate := .writing } } := by
  obtain ⟨_, u, hu, rfl, _⟩ :=
    operate_done_of_unfaulted (Ran.Meets_mono (writeTarget_framed b s) fun _ => Outline.ofFramed) h ht
  have hdone : busWrite [b] s = .done () (moved u .writing) := by
    rw [busWrite_data hst, writeBytes, dataWriteByte, hu]
    rfl
  have hplace : (advance (settleIrq u)).tx = (advance u).tx := advance_tx_congr rfl rfl rfl
  rw [execBusWrite_of_done (by simp) (operate_next h).1 hdone, settle_of_IrqInv (IrqInv_moved u .writing), moved_eq,
    ← hplace]
  rfl

/-- Settles O25: the access of the data byte is the collection operation of the configured mode (43_bus_transactions.md
R198, R203, R204). -/
theorem dataByteAccess : Obligations.DataByteAccess := by
  intro s t ht
  refine ⟨fun v hserves h hv => exec_busRead_byte hserves ht (.trans ?_ h) hv,
    fun b hst h => exec_busWrite_byte hst ht (.trans ?_ h)⟩
  · obtain ⟨hw, e⟩ | ⟨hw, e⟩ := readTarget_cases s <;> rw [e, hw] <;> exact operate_congr rfl
  · obtain ⟨hw, e⟩ | ⟨hw, e⟩ := writeTarget_cases s b <;> rw [e, hw] <;> exact operate_congr rfl

end Sys2Proof.Machine

/-! ### The end of a transaction, and a preserved address -/

namespace Sys2Proof.Machine

theorem exec_busFinish {s : State} (hs : s.faulted = false) : exec .busFinish s = .next (settleIrq (busFinish s)) :=
  operatePlain_eq hs busFinish

/-- Everything BUS.FINISH leaves, the validity of the address as a choice by `ADDR_PRESERVE` (43_bus_transactions.md
R212). -/
theorem busFinish_eq (s : State) :
    busFinish s = { s with
      tx := { tstate := .idle, curAddr := s.tx.curAddr
              addrValid := if s.cfg.addrPreserve then s.tx.addrValid else false
              addrCnt := 0, addrAcc := 0, rwLatch := false, msLatch := false, bytePhase := 0 } } := by
  unfold busFinish
  cases s.cfg.addrPreserve <;> rfl

/-! The register access of a data byte does not look at `TSTATE`, and the auto-increment after it sets it. -/

theorem readTarget_swap {g : Surroundings} {s : State} (haddr : g.tx.curAddr = s.tx.curAddr)
    (hphase : g.tx.bytePhase = s.tx.bytePhase) : readTarget (swap g s) = (readTarget s).onState (swap g) := by
  unfold readTarget
  rw [swap_cfg, swap_tx, haddr, hphase]
  split
  · exact swap_collReadOff blind_hooks _ _ _ _ s
  · exact swap_collRead blind_hooks _ _ s

/-- The surroundings that differ from those of `s` in `TSTATE` alone. -/
def restated (x : TState) (s : State) : Surroundings :=
  { tx := { s.tx with tstate := x }, irq := s.irq, diag := [], busOut := s.busOut, results := s.results, env := s.env }

theorem swap_restated {x : TState} {s u : State} (h : Framed s u) : swap (restated x s) u = setTState u x := by
  simp [swap, restated, setTState, ← h.tx, ← h.irq, ← h.busOut, ← h.results, ← h.env]

theorem moved_setTState (u : State) (x y : TState) : moved (setTState u x) y = moved u y := by
  have hadvance : advance (setTState u x) = setTState (advance u) x := by
    unfold advance
    rw [show (setTState u x).cfg = u.cfg from rfl, show advanceOpen (setTState u x) = advanceOpen u from rfl]
    split
    · rfl
    · split <;> rfl
  unfold moved
  rw [hadvance]
  rfl

/-- A data byte read does the same from every transaction state that serves it (43_bus_transactions.md R203, R213). -/
theorem dataReadByte_setTState {s t : State} {x : TState} (h : dataReadByte (setTState s x) = .done () t) :
    dataReadByte s = .done () t := by
  obtain ⟨v, w, hw, rfl⟩ := dataReadByte_done h
  have hframed := readTarget_framed s
  rw [← swap_restated (Framed.refl s), readTarget_swap rfl rfl] at hw
  cases hu : readTarget s with
  | done v' u =>
    rw [hu] at hw hframed
    cases hw
    rw [swap_restated hframed, moved_setTState, dataReadByte, hu]
    rfl
  | abandoned u => rw [hu] at hw; cases hw
  | refused r => rw [hu] at hw; cases hw

theorem exec_busRead_setTState {s t : State} {x : TState} {n : Nat} (hserves : serves s = true)
    (hserves' : serves (setTState s x) = true) (h : exec (.busRead (n + 1)) (setTState s x) = .next t)
    (ht : t.faulted = false) : exec (.busRead (n + 1)) s = .next t := by
  obtain ⟨hs, u, hu, rfl⟩ := execBusRead_settled h ht
  rw [busRead_served hserves'] at hu
  obtain ⟨_, w, hw, hrest⟩ := andThen_done hu
  refine execBusRead_of_done hs ?_
  rw [busRead_served hserves, readBytes, dataReadByte_setTState hw]
  exact hrest

/-- Settles O29: BUS.FINISH keeps the address and its validity, and a read does not look at which of the serving states
it starts from (43_bus_transactions.md R213). -/
theorem addressPreserve : Obligations.AddressPreserve := by
  intro s t hpreserve hvalid
  refine ⟨fun h => ?_, fun n hidle h ht => ?_⟩
  · obtain ⟨_, rfl⟩ := operatePlain_next (show operatePlain s busFinish = .next t from h)
    exact ⟨by simp [serves, busFinish, settleIrq, hpreserve, hvalid], rfl⟩
  · exact exec_busRead_setTState (by simp [serves, hidle, hpreserve, hvalid]) rfl h ht

end Sys2Proof.Machine

namespace Sys2Proof.Laws

open Sys2Proof.Machine

/-- Settles O28: BUS.FINISH runs whole and leaves the state written out (43_bus_transactions.md R212). Its name
is that of the operation too, and so it stands beside the machine's namespace. -/
theorem busFinish : Obligations.BusFinish := fun s hs =>
  (exec_busFinish hs).trans (congrArg (Host.Outcome.next ∘ settleIrq) (busFinish_eq s))

end Sys2Proof.Laws

/-! ### Protocol misuse -/

namespace Sys2Proof.Machine

/-- The bytes after a last address byte are written to a block whose address phase is complete (43_bus_transactions.md
R194). -/
theorem busWrite_completes {s : State} (hc : CountInv s) (ha : awaitsAddress s = true)
    (hl : s.cfg.format.bytes.count ≤ s.tx.addrCnt + 1) (b : Byte) (ys : List Byte) :
    busWrite (b :: ys) s = busWrite ys (addrSet s (firstAddressByte s b) b) := by
  rw [busWrite_awaits ha, addressByte_last hc hl]

/-- The second of two address bytes, written with bytes after it. -/
theorem busWrite_secondByte_append {s : State} (htwo : s.cfg.format.bytes = .two)
    (hpart : s.tx.tstate = .addressPartial) (hcnt : s.tx.addrCnt = 1) (b : Byte) (ys : List Byte) :
    busWrite (b :: ys) s = busWrite ys (addrSet s s.tx.addrAcc b) := by
  have hc : CountInv s := ⟨by simp [htwo, hcnt, AddrBytes.count], by simp [hpart, hcnt]⟩
  rw [busWrite_completes hc (by simp [awaitsAddress, hpart]) (by simp [htwo, hcnt, AddrBytes.count]), firstAddressByte,
    if_neg (by simp [hcnt])]

/-- A set read flag opens a transaction that reads (43_bus_transactions.md R194, R195). -/
theorem addrSet_reading {s : State} {i : Nat} {b0 : Byte} (hrw : s.cfg.format.rwBit = some i)
    (hbit : b0.getLsbD i = true) (b1 : Byte) : (addrSet s b0 b1).tx.tstate = .reading := by
  simp [addrSet, stateAfterAddress_flagBit, hrw, hbit]

/-- A record does not touch the interrupt level. -/
theorem settleIrq_say (s : State) (d : Diag) : settleIrq (say s d) = say (settleIrq s) d := by
  have hlevel := irqHolds_congr (s := s) (t := say s d) rfl rfl rfl rfl s.cfg.irqCond
  exact congrArg (fun level => { say s d with irq := level }) hlevel

/-- The bytes that follow an address phase which opens a read are ignored, the record counting them alone
(43_bus_transactions.md R197). -/
theorem exec_busWrite_ignored {s t u : State} {xs : List Byte} (hs : s.faulted = false) (hxs : xs ≠ [])
    (hphase : ∀ ys, busWrite (xs ++ ys) s = busWrite ys u) (hdiag : u.diag = s.diag) (hu : u.tx.tstate = .reading)
    (h : exec (.busWrite xs) s = .next t) (b : Byte) (more : List Byte) :
    exec (.busWrite (xs ++ b :: more)) s =
      .next { t with diag := s.diag ++ [.eWriteWhileReading (more.length + 1)] } := by
  have hdone : busWrite xs s = .done () u := by
    rw [← List.append_nil xs, hphase]
    rfl
  obtain rfl : settleIrq u = t := Host.Outcome.next.inj ((execBusWrite_of_done hxs hs hdone).symm.trans h)
  rw [execBusWrite_of_done (by simp) hs ((hphase _).trans (busWrite_reading hu b more)), ← hdiag]
  exact congrArg Host.Outcome.next (settleIrq_say u _)

/-- A read that is not served answers zeros and leaves its record (43_bus_transactions.md R200 to R202). -/
theorem exec_busRead_unserved {s : State} {n : Nat} {d : Diag} (hs : s.faulted = false) (hserves : serves s = false)
    (hd : readMisuse s (n + 1) = d) :
    exec (.busRead (n + 1)) s = .next (settleIrq { s with
      diag := s.diag ++ [d], busOut := s.busOut ++ List.replicate (n + 1) 0 }) := by
  subst hd
  exact execBusRead_of_done hs (if_neg (by simp [hserves]))

/-- Settles O26: an ignored write as its record, behind each form of the address phase too, and each unserved read as
its answer (43_bus_transactions.md R197, R200 to R202). -/
theorem busMisuse : Obligations.BusMisuse := by
  intro s hs
  refine ⟨fun b more hst => ?_, fun i b0 b more t hidle hcnt hone hrw hbit h => ?_,
    fun i b0 b1 b more t hidle hcnt htwo hrw hbit h => ?_, fun i b1 b more t hpart hcnt htwo hrw hbit h => ?_,
    fun n hidle hno => ?_, fun n hpart => ?_, fun n hwriting => ?_⟩
  · exact execBusWrite_of_done (by simp) hs (busWrite_reading hst b more)
  · refine exec_busWrite_ignored (u := addrSet s b0 b0) (xs := [b0]) hs (by simp) (fun ys => ?_) rfl
      (addrSet_reading hrw hbit b0) h b more
    rw [List.singleton_append, busWrite_completes (countInv_of_idle hidle hcnt) (by simp [awaitsAddress, hidle])
      (by simp [hone, AddrBytes.count]), firstAddressByte, if_pos hcnt]
  · exact exec_busWrite_ignored (u := addrSet (halfAddressed s b0) b0 b1) (xs := [b0, b1]) hs (by simp)
      (fun ys => (busWrite_firstByte hidle hcnt htwo b0 (b1 :: ys)).trans
        (busWrite_secondByte_append (s := halfAddressed s b0) htwo rfl rfl b1 ys))
      rfl (addrSet_reading (s := halfAddressed s b0) hrw hbit b1) h b more
  · exact exec_busWrite_ignored (u := addrSet s s.tx.addrAcc b1) (xs := [b1]) hs (by simp)
      (busWrite_secondByte_append htwo hpart hcnt b1) rfl (addrSet_reading hrw hbit b1) h b more
  · exact exec_busRead_unserved hs (by obtain e | e := hno <;> simp [serves, hidle, e]) (by simp [readMisuse, hidle])
  · exact exec_busRead_unserved hs (by simp [serves, hpart]) (by simp [readMisuse, hpart])
  · exact exec_busRead_unserved hs (by simp [serves, hwriting]) (by simp [readMisuse, hwriting])

end Sys2Proof.Machine

/-! ### The sample FIFO run alone -/

namespace Sys2Proof.Machine

/-! The FIFO does not look at the interrupt level, so that a level settled between two operations does not matter. -/

theorem feed_withIrq (level : Bool) (s : State) (x : Sample) : feed (withIrq level s) x = withIrq level (feed s x) := by
  unfold feed
  rw [show (withIrq level s).fifo = s.fifo from rfl, show (withIrq level s).cfg = s.cfg from rfl]
  split
  · rfl
  · split <;> rfl
  · split <;> rfl

theorem feedAll_withIrq (level : Bool) (s : State) (xs : List Sample) :
    feedAll (withIrq level s) xs = withIrq level (feedAll s xs) := by
  induction xs generalizing s with
  | nil => rfl
  | cons x rest ih => rw [feedAll, feed_withIrq, ih, feedAll]

theorem popSample_withIrq (level : Bool) (s : State) :
    popSample (withIrq level s) = ((popSample s).1, withIrq level (popSample s).2) := by
  unfold popSample
  rw [show (withIrq level s).fifo = s.fifo from rfl, show (withIrq level s).cfg = s.cfg from rfl]
  split
  · rfl
  · split <;> rfl
  · rfl

theorem respond_withIrq (level : Bool) (s : State) (r : Result) :
    respond (withIrq level s) r = withIrq level (respond s r) := by
  cases r <;> rfl

/-! Feeding (44_sample_fifo.md R232 to R237). -/

theorem exec_fifoFeed {s : State} (hs : s.faulted = false) (stamp : Option Time) {x : Sample}
    (hx : x.length = s.cfg.lanes) : exec (.fifoFeed stamp x) s = .next (settleIrq (feed s x)) := by
  show execFifoFeed stamp x s = _
  unfold execFifoFeed
  exact operate_done (r := .none) hs (if_pos hx)

theorem exec_fifoFeed_wrongLanes {s : State} (hs : s.faulted = false) (stamp : Option Time) {x : Sample}
    (hx : x.length ≠ s.cfg.lanes) : exec (.fifoFeed stamp x) s = .refused .wrongLanes := by
  show execFifoFeed stamp x s = _
  unfold execFifoFeed
  exact operate_refused hs (if_neg hx)

/-- Settles O33: the four cases of a feed, each settled (44_sample_fifo.md R232 to R236). -/
theorem feedCases : Obligations.FeedCases := by
  intro s stamp x hs hx
  rw [exec_fifoFeed hs stamp hx]
  refine ⟨fun hm => ?_, fun hm hroom => ?_, fun hm hfull => ?_, fun hm hfull => ?_⟩
  · rw [feed_bypass x hm]
  · rw [feed_room x hm hroom]
  · rw [feed_dropped x hm hfull]
  · rw [feed_evicts x hm hfull, evict]

/-- Feeds one after another are the feeds of the list, the level settled at their end. -/
theorem execAll_feeds_cons {s : State} {x : Sample} {xs : List Sample} (hs : s.faulted = false)
    (hlanes : ∀ y ∈ x :: xs, y.length = s.cfg.lanes) :
    execAll (feeds (x :: xs)) s = .next (settleIrq (feedAll s (x :: xs))) := by
  induction xs generalizing s x with
  | nil => exact execAll_cons (exec_fifoFeed hs none (hlanes x List.mem_cons_self))
  | cons y ys ih =>
    have hfirst := exec_fifoFeed hs none (hlanes x List.mem_cons_self)
    have hrest := ih (s := settleIrq (feed s x)) (x := y) (by simpa using hs)
      fun z hz => by simpa using hlanes z (List.mem_cons_of_mem _ hz)
    rw [settleIrq_eq_withIrq (feed s x), feedAll_withIrq, settleIrq_withIrq, ← settleIrq_eq_withIrq] at hrest
    exact (execAll_cons hfirst).trans hrest

/-- Feeds leave the state of the list's feeds, up to the interrupt level, which no feed at all leaves as it was. -/
theorem execAll_feeds {s : State} {xs : List Sample} (hs : s.faulted = false)
    (hlanes : ∀ x ∈ xs, x.length = s.cfg.lanes) :
    ∃ level, execAll (feeds xs) s = .next (withIrq level (feedAll s xs)) := by
  cases xs with
  | nil => exact ⟨s.irq, rfl⟩
  | cons x rest => exact ⟨_, execAll_feeds_cons hs hlanes⟩

theorem exec_hostFeedRepeat_succ {s : State} (hs : s.faulted = false) {x : Sample} (hx : x.length = s.cfg.lanes)
    (n : Nat) :
    exec (.hostFeedRepeat x (n + 1)) s = .next (settleIrq (feedAll s (List.replicate (n + 1) x))) := by
  rw [← feedTimes_eq]
  show execHostFeedRepeat x (n + 1) s = _
  unfold execHostFeedRepeat
  exact operate_done (r := .none) hs (if_pos hx)

theorem exec_hostFeedRepeat_wrongLanes {s : State} (hs : s.faulted = false) {x : Sample} (hx : x.length ≠ s.cfg.lanes)
    (n : Nat) : exec (.hostFeedRepeat x (n + 1)) s = .refused .wrongLanes := by
  show execHostFeedRepeat x (n + 1) s = _
  unfold execHostFeedRepeat
  exact operate_refused hs (if_neg hx)

/-- Settles O39: no feed leaves the state, a vector of other lanes is refused by the first feed, and else both are the
feeds of the constant list (44_sample_fifo.md R237). -/
theorem feedRepeat : Obligations.FeedRepeat := by
  intro s x n hs
  cases n with
  | zero => exact operateNothing_eq hs
  | succ n =>
    by_cases hx : x.length = s.cfg.lanes
    · rw [exec_hostFeedRepeat_succ hs hx]
      exact (execAll_feeds_cons hs fun y hy => List.eq_of_mem_replicate (n := n + 1) hy ▸ hx).symm
    · rw [exec_hostFeedRepeat_wrongLanes hs hx, List.replicate_succ, feeds, List.map_cons, execAll,
        exec_fifoFeed_wrongLanes hs none hx]

/-! Dequeuing (44_sample_fifo.md R238 to R241). -/

theorem popSample_bypass {s : State} (hm : s.fifo.mode = .bypass) : popSample s = (false, s) := by
  simp [popSample, hm]

theorem popSample_nil {s : State} (hm : s.fifo.mode ≠ .bypass) (hq : s.fifo.q = []) :
    popSample s = (false, { s with
      fifo := { s.fifo with
        current := match s.cfg.emptyPolicy with
          | .keepCurrent => s.fifo.current
          | .clearToDefault => s.cfg.dflt }
      diag := s.diag ++ [.wFifoEmpty] }) := by
  obtain ⟨hb, _⟩ | ⟨_, _, he, hpop⟩ | ⟨_, _, he, hpop⟩ | ⟨_, x, rest, hcons, _⟩ := popSample_cases s
  · exact absurd hb hm
  · rw [hpop, he]
    rfl
  · rw [hpop, he]
    rfl
  · rw [hq] at hcons
    cases hcons

theorem popSample_cons {s : State} {x : Sample} {rest : List Sample} (hm : s.fifo.mode ≠ .bypass)
    (hq : s.fifo.q = x :: rest) :
    popSample s = (true, { s with fifo := { s.fifo with current := x, q := rest } }) := by
  obtain ⟨hb, _⟩ | ⟨_, hnil, _⟩ | ⟨_, hnil, _⟩ | ⟨_, y, more, hcons, hpop⟩ := popSample_cases s
  · exact absurd hb hm
  · rw [hq] at hnil
    cases hnil
  · rw [hq] at hnil
    cases hnil
  · obtain ⟨rfl, rfl⟩ := List.cons.inj (hq.symm.trans hcons)
    exact hpop

/-- FIFO.DEQ is the pop in the state that the stream query leaves, settled or not (44_sample_fifo.md R256). -/
theorem exec_fifoDeq_pulled {s : State} (hs : s.faulted = false) (level : Bool) :
    exec .fifoDeq s =
      .next (settleIrq (respond (popSample (withIrq level (pullStream s))).2
        (.dequeued (popSample (withIrq level (pullStream s))).1))) := by
  rw [exec_fifoDeq hs, popSample_withIrq, respond_withIrq, settleIrq_withIrq, dequeue]

theorem exec_fifoStreamTick {s : State} (hs : s.faulted = false) (t : Time) :
    exec (.fifoStreamTick t) s = .next (settleIrq (streamTick s t)) :=
  operatePlain_eq hs fun u => streamTick u t

theorem pullStream_onTick {s : State} (hpull : s.cfg.streamPull = .onTick) : pullStream s = s := by
  rw [pullStream, hpull]

theorem pullStream_onDequeue {s : State} (hpull : s.cfg.streamPull = .onDequeue) :
    pullStream s = streamTick s s.env.now := by
  rw [pullStream, hpull]

/-- Settles O36: the three cases of the pop, behind the stream query of either `STREAM_PULL` (44_sample_fifo.md R238 to
R241, R256). -/
theorem dequeueCases : Obligations.DequeueCases := by
  intro s p hs hp
  obtain ⟨level, rfl⟩ : ∃ level, p = withIrq level (pullStream s) := by
    obtain ⟨hpull, rfl⟩ | ⟨hpull, htick⟩ := hp
    · exact ⟨p.irq, by rw [pullStream_onTick hpull]; rfl⟩
    · rw [exec_fifoStreamTick hs, ← pullStream_onDequeue hpull] at htick
      exact ⟨_, (Host.Outcome.next.inj htick).symm⟩
  have hcfg : (withIrq level (pullStream s)).cfg = s.cfg := pullStream_cfg s
  have hdiag : (withIrq level (pullStream s)).diag = s.diag := pullStream_diag s
  have hresults : (withIrq level (pullStream s)).results = s.results := pullStream_results s
  rw [exec_fifoDeq_pulled hs level, ← hresults, ← hdiag, ← hcfg]
  refine ⟨fun hm => ?_, fun hm hq => ?_, fun x rest hm hq => ?_⟩
  · rw [popSample_bypass hm]
    rfl
  · rw [popSample_nil hm hq]
    rfl
  · rw [popSample_cons hm hq]
    rfl

/-! The order law (44_sample_fifo.md R246). -/

theorem execAll_append {is js : List Instr} {s t : State} (h : execAll is s = .next t) :
    execAll (is ++ js) s = execAll js t := by
  induction is generalizing s with
  | nil =>
    cases h
    rfl
  | cons i rest ih =>
    cases hi : exec i s with
    | next u =>
      rw [execAll_cons hi] at h
      rw [List.cons_append, execAll_cons hi, ih h]
    | fault r => simp [execAll, hi] at h
    | refused r => simp [execAll, hi] at h

/-- Samples fed with room for all of them stand behind those already queued (44_sample_fifo.md R233). -/
theorem feedAll_room {s : State} {xs : List Sample} (hm : s.fifo.mode ≠ .bypass)
    (hroom : s.fifo.q.length + xs.length ≤ s.cfg.cap) :
    feedAll s xs = { s with fifo := { s.fifo with q := s.fifo.q ++ xs } } := by
  induction xs generalizing s with
  | nil => simp [feedAll]
  | cons x rest ih =>
    rw [List.length_cons] at hroom
    rw [feedAll, feed_room x hm (by omega)]
    refine (ih (s := { s with fifo := { s.fifo with q := s.fifo.q ++ [x] } }) hm ?_).trans ?_
    · simp only [List.length_append, List.length_singleton]
      omega
    · simp only [List.append_assoc, List.singleton_append]

/-- A dequeue of the oldest sample, the stream not asked (44_sample_fifo.md R241). -/
theorem exec_fifoDeq_pops {s : State} {x : Sample} {rest : List Sample} (hs : s.faulted = false)
    (hpull : s.cfg.streamPull = .onTick) (hm : s.fifo.mode ≠ .bypass) (hq : s.fifo.q = x :: rest) :
    exec .fifoDeq s = .next (settleIrq { s with
      fifo := { s.fifo with current := x, q := rest }, results := s.results ++ [.dequeued true] }) := by
  rw [exec_fifoDeq hs, dequeue, pullStream_onTick hpull, popSample_cons hm hq]
  rfl

/-- Successive dequeues of a queue take its samples from the front, each the current one in its turn. -/
theorem execAll_dequeues {s : State} {k : Nat} (hs : s.faulted = false) (hpull : s.cfg.streamPull = .onTick)
    (hm : s.fifo.mode ≠ .bypass) (hk : k < s.fifo.q.length) :
    ∃ t, execAll (List.replicate (k + 1) .fifoDeq) s = .next t ∧ some t.fifo.current = s.fifo.q[k]? ∧
      t.fifo.q = s.fifo.q.drop (k + 1) ∧ t.results = s.results ++ List.replicate (k + 1) (.dequeued true) := by
  obtain ⟨x, rest, hq⟩ := List.exists_cons_of_length_pos (Nat.zero_lt_of_lt hk)
  have hpop := exec_fifoDeq_pops hs hpull hm hq
  rw [hq] at hk
  rw [List.replicate_succ, execAll_cons hpop, hq]
  cases k with
  | zero => exact ⟨_, rfl, rfl, rfl, rfl⟩
  | succ k =>
    obtain ⟨t, hrun, hcurrent, hleft, hresults⟩ := execAll_dequeues (k := k)
      (s := settleIrq { s with
        fifo := { s.fifo with current := x, q := rest }, results := s.results ++ [.dequeued true] })
      hs hpull hm (Nat.lt_of_succ_lt_succ hk)
    exact ⟨t, hrun, hcurrent, hleft, hresults.trans (List.append_assoc _ _ _)⟩

/-- Settles O35: the fed samples stand behind those queued, and the dequeues take the whole queue from its front
(44_sample_fifo.md R246). -/
theorem fifoOrderLaw : Obligations.FifoOrderLaw := by
  intro s xs k hs hpull hm hroom hlanes hk
  obtain ⟨level, hfed⟩ := execAll_feeds hs hlanes
  rw [feedAll_room hm hroom] at hfed
  rw [execAll_append hfed]
  exact execAll_dequeues hs hpull hm hk

/-! Control and the host's flags (44_sample_fifo.md R242 to R245, R253). -/

/-- Settles O37: each is one update of the FIFO, settled (44_sample_fifo.md R242 to R244). -/
theorem fifoControl : Obligations.FifoControl := fun _ hs =>
  ⟨fun m => operatePlain_eq hs fun t => setMode t m, operatePlain_eq hs clearOverrun, operatePlain_eq hs resetQueue⟩

/-- Settles O42: each is one update of the FIFO, settled (44_sample_fifo.md R245, R253). -/
theorem hostFlags : Obligations.HostFlags := fun _ hs =>
  ⟨operatePlain_eq hs attachStream, operatePlain_eq hs detachStream, fun b => operatePlain_eq hs fun t => setKeep t b⟩

/-! The stream (44_sample_fifo.md R254, R255). -/

theorem tableSample_none {t : Time} {samples : List (Time × Sample)} (h : ∀ y ∈ samples, t < y.1) :
    tableSample t samples = none := by
  induction samples with
  | nil => rfl
  | cons e rest ih =>
    rw [tableSample, ih fun y hy => h y (List.mem_cons_of_mem _ hy)]
    exact if_neg (Nat.not_le.2 (h e List.mem_cons_self))

/-- The sample at or before a timestamp in a table in time order: the last entry that is not after it. -/
theorem tableSample_append {t u : Time} {before after : List (Time × Sample)} {x : Sample} (hu : u ≤ t)
    (hafter : ∀ y ∈ after, t < y.1) : tableSample t (before ++ (u, x) :: after) = some x := by
  induction before with
  | nil => rw [List.nil_append, tableSample, tableSample_none hafter, if_pos hu]
  | cons e rest ih => rw [List.cons_append, tableSample, ih]

theorem onLanes_self {n : Nat} {x : Sample} (h : x.length = n) : onLanes n x = x := by
  subst h
  exact List.ext_getElem (by simp [onLanes]) fun i _ hi => by simp [onLanes, hi]

/-! What a stream given as a table answers (log 3). -/

section

variable {c : Cfg} {samples : List (Time × Sample)} {ends t : Time} (htable : c.stream = .table samples ends)

include htable

theorem streamAnswer_ended (hend : ends ≤ t) : streamAnswer c t = ([], .afterStream) := by
  simp [streamAnswer, htable, hend]

theorem streamAnswer_before (hend : t < ends) (hnone : tableSample t samples = none) :
    streamAnswer c t = ([], .beforeStream) := by
  simp [streamAnswer, htable, Nat.not_le.2 hend, hnone]

theorem streamAnswer_sample (hend : t < ends) {x : Sample} (hsome : tableSample t samples = some x)
    (hx : x.length = c.lanes) : streamAnswer c t = (x, .ok) := by
  simp [streamAnswer, htable, Nat.not_le.2 hend, hsome, onLanes_self hx]

end

/-- Settles O38: a tick by the stream's answer, and the answer of a table by where the timestamp stands in it
(44_sample_fifo.md R254, R255, R257). -/
theorem streamTickByAnswer : Obligations.StreamTick := by
  intro s t hs
  have htick := exec_fifoStreamTick hs t
  refine ⟨fun hoff => ?_, fun x hon hans => ?_, fun x hon hans => ?_, fun x hon hans => ?_,
    fun samples ends htable => ⟨fun hend => ?_, fun hend hbefore => ?_,
      fun before u x after hend hsplit hu hafter hx => ?_⟩⟩
  · simp [htick, streamTick, hoff]
  · have hx : x.length = s.cfg.lanes := by simpa [hans] using streamAnswer_length (c := s.cfg) (t := t) (by rw [hans])
    refine ⟨hx, ?_⟩
    rw [htick, streamTick, if_pos hon, hans]
    exact (exec_fifoFeed (s := setAfterStream s false) hs none hx).symm
  · rw [htick, streamTick, if_pos hon, hans]
    rfl
  · rw [htick, streamTick, if_pos hon, hans]
    rfl
  · rw [streamAnswer_ended htable hend]
  · rw [streamAnswer_before htable hend (tableSample_none hbefore)]
  · exact streamAnswer_sample htable hend (by rw [hsplit, tableSample_append hu hafter]) hx

end Sys2Proof.Machine

/-! ### The host's physical values and sample files -/

namespace Sys2Proof.Machine

/-! The order of physical values (44_sample_fifo.md R260). -/

theorem Ratio.le_iff {x y : Ratio} : Ratio.le x y = true ↔ x.num * (y.den1 + 1) ≤ y.num * (x.den1 + 1) :=
  decide_eq_true_iff

/-- Fractions compared by cross products, `a / p ≤ b / q` and `b / q ≤ c / r`, are in order. -/
theorem cross_mul_le {a b c p q r : Int} (hq : 0 < q) (hp : 0 ≤ p) (hr : 0 ≤ r) (hab : a * q ≤ b * p)
    (hbc : b * r ≤ c * q) : a * r ≤ c * p := by
  refine le_of_mul_le_mul_right ?_ hq
  calc a * r * q = a * q * r := by ring
    _ ≤ b * p * r := Int.mul_le_mul_of_nonneg_right hab hr
    _ = b * r * p := by ring
    _ ≤ c * q * p := Int.mul_le_mul_of_nonneg_right hbc hp
    _ = c * p * q := by ring

theorem Ratio.le_trans {x y z : Ratio} (hxy : Ratio.le x y = true) (hyz : Ratio.le y z = true) :
    Ratio.le x z = true :=
  Ratio.le_iff.2 <| cross_mul_le (by omega) (by omega) (by omega) (Ratio.le_iff.1 hxy) (Ratio.le_iff.1 hyz)

theorem Ratio.le_of_not_le {x y : Ratio} (h : Ratio.le x y = false) : Ratio.le y x = true :=
  Ratio.le_iff.2 (Int.le_of_lt (Int.not_le.1 (of_decide_eq_false h)))

/-! Conversion to a raw lane value (44_sample_fifo.md R260). -/

/-- What a well-formed configuration says of the physical range (00_scope.md R9 item n). -/
theorem Cfg_wf_phys {c : Cfg} (h : c.wf = true) : c.physOk = true := by
  simp only [Cfg.wf, Bool.and_eq_true] at h
  exact h.1.2

/-- The order of the declared range, and the products at its bounds. -/
theorem physOk_iff {c : Cfg} :
    c.physOk = true ↔ 0 < c.resolution.num ∧ Ratio.le c.minPhys c.maxPhys = true ∧
      c.maxPhys.num * c.resolution.num ≤ 32767 * ((c.maxPhys.den1 + 1) * (c.resolution.den1 + 1)) ∧
      -32768 * ((c.minPhys.den1 + 1) * (c.resolution.den1 + 1)) ≤ c.minPhys.num * c.resolution.num := by
  simp only [Cfg.physOk, Bool.and_eq_true, decide_eq_true_eq, and_assoc]

section

variable {c : Cfg} {v : Ratio} (hwf : c.wf = true) (hmin : Ratio.le c.minPhys v = true)
  (hmax : Ratio.le v c.maxPhys = true)

include hwf hmin hmax

/-- The product of a value in range, rounded, is a signed 16-bit number: it stands between the products at the bounds. -/
theorem mulTrunc_range : -32768 ≤ Ratio.mulTrunc v c.resolution ∧ Ratio.mulTrunc v c.resolution ≤ 32767 := by
  obtain ⟨hres, _, hupper, hlower⟩ := physOk_iff.1 (Cfg_wf_phys hwf)
  have hden : (0 : Int) < (v.den1 + 1) * (c.resolution.den1 + 1) := Int.mul_pos (by omega) (by omega)
  have htop : v.num * c.resolution.num ≤ 32767 * (c.resolution.den1 + 1) * (v.den1 + 1) :=
    cross_mul_le (by omega) (by omega) (Int.le_of_lt hres) (Ratio.le_iff.1 hmax) (by linarith)
  have hbottom : -32768 * (c.resolution.den1 + 1) * (v.den1 + 1) ≤ v.num * c.resolution.num :=
    cross_mul_le (q := c.minPhys.den1 + 1) (b := c.minPhys.num) (by omega) (Int.le_of_lt hres) (by omega) (by linarith)
      (Ratio.le_iff.1 hmin)
  constructor
  · exact Int.le_tdiv_of_mul_le hden (by linarith)
  · calc Ratio.mulTrunc v c.resolution
        ≤ Int.tdiv (32767 * ((v.den1 + 1) * (c.resolution.den1 + 1))) ((v.den1 + 1) * (c.resolution.den1 + 1)) :=
          Int.tdiv_le_tdiv hden (by linarith)
      _ = 32767 := Int.mul_tdiv_cancel _ hden.ne'

theorem rawLane_toInt : (rawLane c v).toInt = Ratio.mulTrunc v c.resolution := by
  obtain ⟨hlower, hupper⟩ := mulTrunc_range hwf hmin hmax
  exact BitVec.toInt_ofInt_eq_self (by omega) (by omega) (by omega)

end

/-! Clamping (44_sample_fifo.md R260; 60_exceptions.md R275). -/

theorem clampPhys_inRange {c : Cfg} {v : Ratio} (hmin : Ratio.le c.minPhys v = true)
    (hmax : Ratio.le v c.maxPhys = true) : clampPhys c v = (v, none) := by
  simp [clampPhys, hmin, hmax]

theorem clampPhys_above {c : Cfg} {v : Ratio} (hmax : Ratio.le v c.maxPhys = false) :
    clampPhys c v = (c.maxPhys, some c.maxPhys) := by
  simp [clampPhys, hmax]

/-- A value below the range is not above it too, since the range is not empty. -/
theorem clampPhys_below {c : Cfg} {v : Ratio} (hwf : c.wf = true) (hmin : Ratio.le c.minPhys v = false) :
    clampPhys c v = (c.minPhys, some c.minPhys) := by
  obtain ⟨_, horder, _⟩ := physOk_iff.1 (Cfg_wf_phys hwf)
  simp [clampPhys, Ratio.le_trans (Ratio.le_of_not_le hmin) horder, hmin]

/-- The conversion of a vector: each value clamped and converted, and the records of those that were clamped. -/
theorem physLanes_eq (s : State) (vs : List Ratio) :
    physLanes s vs = (vs.map fun v => rawLane s.cfg (clampPhys s.cfg v).1, { s with
      diag := s.diag ++ vs.filterMap fun v => (clampPhys s.cfg v).2.map fun bound => .wClamped v bound }) := by
  induction vs generalizing s with
  | nil => simp [physLanes]
  | cons v rest ih =>
    obtain ⟨w, none | bound, hclamp⟩ : ∃ w bound, clampPhys s.cfg v = (w, bound) := ⟨_, _, rfl⟩
    · simp [physLanes, hclamp, ih]
    · simp [physLanes, hclamp, ih, say]

theorem exec_hostSetPhys {s : State} (hs : s.faulted = false) {vs : List Ratio} (hvs : vs.length = s.cfg.lanes) :
    exec (.hostSetPhys vs) s = .next (settleIrq (feed (physLanes s vs).2 (physLanes s vs).1)) := by
  show execHostSetPhys vs s = _
  unfold execHostSetPhys
  exact operate_done (r := .none) hs (if_pos hvs)

/-- Settles O43: the conversion of the vector is fed, and each value converts by where it stands to the declared range
(44_sample_fifo.md R260; 60_exceptions.md R275). -/
theorem setPhysical : Obligations.SetPhysical := by
  intro s vs hwf hvs
  refine ⟨?_, fun v => ⟨fun hmin hmax => ⟨clampPhys_inRange hmin hmax, rawLane_toInt hwf hmin hmax⟩, clampPhys_above,
    clampPhys_below hwf⟩⟩
  obtain hs | hs := Bool.eq_false_or_eq_true s.faulted
  · exact (exec_faulted hs _).trans (exec_faulted (by exact hs) _).symm
  · rw [exec_hostSetPhys hs hvs, physLanes_eq]
    exact (exec_fifoFeed (by exact hs) none (by rw [List.length_map]; exact hvs)).symm

/-! Loading a file (44_sample_fifo.md R248, R250 to R252). -/

theorem loadPlan_bad {c : Cfg} {good : List Text} {bad : Text} {xs : List Sample}
    (h : good.mapM (lineSample c) = some xs) (hbad : lineSample c bad = none) (name : Text) (rest : List Text) :
    (c.loadPartial = .discard →
      loadPlan c name (good ++ bad :: rest) = ([], false, .cfgError name (good.length + 1) bad)) ∧
    (c.loadPartial = .preserve →
      loadPlan c name (good ++ bad :: rest) = (xs, !xs.isEmpty, .cfgError name (good.length + 1) bad)) := by
  rw [loadPlan, parseLines_append h, parseLines_bad hbad, List.append_nil, Nat.add_comm 1]
  constructor <;> intro hpart <;> simp only [hpart]

theorem feedAll_sober (xs : List Sample) (s : State) : Sober s (feedAll s xs) := by
  induction xs generalizing s with
  | nil => exact sober_kept.refl s
  | cons x rest ih => exact (Sober.feed s x).trans (ih _)

/-- A load feeds the samples of its plan; then it sets `KEEP` if the plan says so, and hands over the plan's result. -/
theorem exec_hostLoadFile {s : State} {name : Text} {lines : List Text} {xs : List Sample} {keeps : Bool}
    {result : Result} (hs : s.faulted = false) (hplan : loadPlan s.cfg name lines = (xs, keeps, result))
    (hresult : result ≠ .none) :
    ∃ u, execAll (feeds xs) s = .next u ∧
      exec (.hostLoadFile name lines) s = .next (settleIrq { u with
        fifo := { u.fifo with keep := s.fifo.keep || keeps }, results := s.results ++ [result] }) := by
  have hlanes : ∀ x ∈ xs, x.length = s.cfg.lanes := by simpa [hplan] using loadPlan_lanes s.cfg name lines
  obtain ⟨level, hfed⟩ := execAll_feeds hs hlanes
  have hkeep : (feedAll s xs).fifo.keep = s.fifo.keep := (feedAll_sober xs s).keep
  have hresults : (feedAll s xs).results = s.results := (feedAll_framed xs s).results
  have hdone : exec (.hostLoadFile name lines) s =
      .next (settleIrq (respond (endLoad (feedAll s xs) keeps) result)) := by
    show execHostLoadFile name lines s = _
    unfold execHostLoadFile
    exact operate_done hs (by rw [hplan])
  refine ⟨_, hfed, ?_⟩
  rw [hdone, endLoad_eq, respond_eq hresult, hkeep, hresults]
  exact congrArg Host.Outcome.next (settleIrq_withIrq level { feedAll s xs with
    fifo := { (feedAll s xs).fifo with keep := s.fifo.keep || keeps }, results := s.results ++ [result] }).symm

/-- Settles O40: the load of each plan, whole, discarded or preserved (44_sample_fifo.md R248, R250 to R252). -/
theorem loadFile : Obligations.LoadFile := by
  intro s name hs
  refine ⟨fun lines xs hlines => ?_, fun good bad rest xs hgood hbad => ⟨fun hpart => ?_, fun hpart => ?_⟩⟩
  · simpa using exec_hostLoadFile hs (loadPlan_good hlines name) nofun
  · obtain ⟨u, hfed, hload⟩ := exec_hostLoadFile hs ((loadPlan_bad hgood hbad name rest).1 hpart) nofun
    obtain rfl : s = u := Host.Outcome.next.inj hfed
    simpa using hload
  · exact exec_hostLoadFile hs ((loadPlan_bad hgood hbad name rest).2 hpart) nofun

end Sys2Proof.Machine

/-! ### The text of a sample file -/

namespace Sys2Proof.Machine

/-! Tokens (44_sample_fifo.md R249). -/

theorem dropReturn_append (line : Text) : dropReturn (line ++ [13]) = line := by
  induction line with
  | nil => rfl
  | cons ch rest ih => cases rest <;> simp_all [dropReturn]

theorem dropReturn_of_getLast? {line : Text} (h : line.getLast? ≠ some 13) : dropReturn line = line := by
  induction line with
  | nil => rfl
  | cons ch rest ih => cases rest <;> simp_all [dropReturn]

theorem splitBlanks_blanks {sep : Text} (hsep : ∀ ch ∈ sep, ch = 32 ∨ ch = 9) (rest : Text) :
    splitBlanks (sep ++ rest) [] = splitBlanks rest [] := by
  induction sep with
  | nil => rfl
  | cons ch more ih =>
    rw [List.cons_append, splitBlanks, if_pos (hsep ch List.mem_cons_self)]
    exact ih fun x hx => hsep x (List.mem_cons_of_mem _ hx)

/-- A run of blanks ends the piece being read. -/
theorem splitBlanks_ends {sep cur : Text} (hne : sep ≠ []) (hsep : ∀ ch ∈ sep, ch = 32 ∨ ch = 9) (hcur : cur ≠ [])
    (rest : Text) : splitBlanks (sep ++ rest) cur = cur.reverse :: splitBlanks rest [] := by
  cases sep with
  | nil => exact absurd rfl hne
  | cons ch more =>
    rw [List.cons_append, splitBlanks, if_pos (hsep ch List.mem_cons_self),
      splitBlanks_blanks fun x hx => hsep x (List.mem_cons_of_mem _ hx)]
    simp [hcur]

theorem splitBlanks_word {word : Text} (hword : ∀ ch ∈ word, ¬ (ch = 32 ∨ ch = 9)) (rest cur : Text) :
    splitBlanks (word ++ rest) cur = splitBlanks rest (word.reverse ++ cur) := by
  induction word generalizing cur with
  | nil => rfl
  | cons ch more ih =>
    rw [List.cons_append, splitBlanks, if_neg (hword ch List.mem_cons_self),
      ih fun x hx => hword x (List.mem_cons_of_mem _ hx)]
    simp

theorem splitBlanks_lastWord {word : Text} (hword : ∀ ch ∈ word, ¬ (ch = 32 ∨ ch = 9)) :
    splitBlanks word [] = if word = [] then [] else [word] := by
  have h := splitBlanks_word hword [] []
  rw [List.append_nil] at h
  rw [h]
  simp [splitBlanks]

/-- Words each followed by a run of blanks are pieces. -/
theorem splitBlanks_words {body : List (Text × Text)}
    (hbody : ∀ x ∈ body, x.1 ≠ [] ∧ (∀ ch ∈ x.1, ¬ (ch = 32 ∨ ch = 9)) ∧ x.2 ≠ [] ∧ ∀ ch ∈ x.2, ch = 32 ∨ ch = 9)
    (rest : Text) :
    splitBlanks ((body.flatMap fun x => x.1 ++ x.2) ++ rest) [] = body.map Prod.fst ++ splitBlanks rest [] := by
  induction body with
  | nil => rfl
  | cons x more ih =>
    obtain ⟨hne, hword, hsepne, hsep⟩ := hbody x List.mem_cons_self
    rw [List.flatMap_cons, List.append_assoc, List.append_assoc, splitBlanks_word hword,
      splitBlanks_ends hsepne hsep (by simpa using hne), ih fun y hy => hbody y (List.mem_cons_of_mem _ hy)]
    simp

/-! Numbers (44_sample_fifo.md R249). -/

/-- Digits as they are written. -/
def digitText (ds : List (Fin 10)) : Text := ds.map fun d => 48 + d.val

/-- The number that digits denote behind those of `acc`. -/
def digitsValue (acc : Nat) (ds : List (Fin 10)) : Nat := ds.foldl (fun n d => n * 10 + d.val) acc

theorem digitsValue_append (acc : Nat) (ds fs : List (Fin 10)) :
    digitsValue acc (ds ++ fs) = digitsValue (digitsValue acc ds) fs := List.foldl_append

/-- A point and digits, or nothing where there are none. -/
def fractionText (fs : List (Fin 10)) : Text := if fs = [] then [] else 46 :: digitText fs

/-- A sign as it is written, `true` the minus. -/
def signText : Option Bool → Text
  | none => []
  | some false => [43]
  | some true => [45]

/-- The text does not go on with a digit. -/
def NoDigitNext (rest : Text) : Prop := ∀ ch ∈ rest.head?, digitVal ch = none

theorem digitVal_digit (d : Fin 10) : digitVal (48 + d.val) = some d.val := by
  rw [digitVal, if_pos (by omega), Nat.add_sub_cancel_left]

theorem digitVal_some {ch n : Nat} (h : digitVal ch = some n) : ∃ d : Fin 10, ch = 48 + d.val := by
  unfold digitVal at h
  split at h
  · exact ⟨⟨ch - 48, by omega⟩, by simp only; omega⟩
  · cases h

theorem scanDigits_stops {rest : Text} (h : NoDigitNext rest) (acc n : Nat) : scanDigits rest acc n = (acc, n, rest) := by
  cases rest with
  | nil => rfl
  | cons ch more => rw [scanDigits, h ch rfl]

/-- The scan takes the digits at the head and no more. -/
theorem scanDigits_digits (ds : List (Fin 10)) {rest : Text} (h : NoDigitNext rest) (acc n : Nat) :
    scanDigits (digitText ds ++ rest) acc n = (digitsValue acc ds, n + ds.length, rest) := by
  induction ds generalizing acc n with
  | nil => exact scanDigits_stops h acc n
  | cons d more ih =>
    have hstep : scanDigits (digitText (d :: more) ++ rest) acc n =
        scanDigits (digitText more ++ rest) (acc * 10 + d.val) (n + 1) := by
      simp only [digitText, List.map_cons, List.cons_append, scanDigits, digitVal_digit]
    rw [hstep, ih, Nat.add_right_comm, Nat.add_assoc]
    rfl

/-- Every text is digits and what follows them. -/
theorem exists_digits (body : Text) : ∃ ds rest, body = digitText ds ++ rest ∧ NoDigitNext rest := by
  induction body with
  | nil => exact ⟨[], [], rfl, nofun⟩
  | cons ch more ih =>
    cases hch : digitVal ch with
    | none => exact ⟨[], ch :: more, rfl, fun x hx => by cases hx; exact hch⟩
    | some n =>
      obtain ⟨d, rfl⟩ := digitVal_some hch
      obtain ⟨ds, rest, rfl, hrest⟩ := ih
      exact ⟨d :: ds, rest, rfl, hrest⟩

theorem noDigitNext_fraction (fs : List (Fin 10)) : NoDigitNext (fractionText fs) := by
  cases fs with
  | nil => exact nofun
  | cons d more => exact fun x hx => by cases hx; rfl

/-- What digits and a fraction denote. -/
theorem unsignedNumber_digits (sign : Int) {ds : List (Fin 10)} (hds : ds ≠ []) (fs : List (Fin 10)) :
    unsignedNumber sign (digitText ds ++ fractionText fs) =
      some { num := sign * digitsValue 0 (ds ++ fs), den1 := 10 ^ fs.length - 1 } := by
  obtain ⟨d, more, rfl⟩ := List.exists_cons_of_ne_nil hds
  have hwhole := scanDigits_digits (d :: more) (noDigitNext_fraction fs) 0 0
  cases fs with
  | nil =>
    simp only [unsignedNumber, hwhole]
    simp [fractionText]
  | cons f rest =>
    have hfrac := scanDigits_digits (f :: rest) (rest := []) nofun (digitsValue 0 (d :: more)) 0
    rw [List.append_nil] at hfrac
    rw [digitsValue_append]
    simp only [unsignedNumber, hwhole]
    simp [fractionText, hfrac]

/-- An unsigned number is digits and a fraction: any other text stops the scan early. -/
theorem exists_of_unsignedNumber {sign : Int} {body : Text} {v : Ratio} (h : unsignedNumber sign body = some v) :
    ∃ ds fs, ds ≠ [] ∧ body = digitText ds ++ fractionText fs := by
  obtain ⟨ds, rest, rfl, hrest⟩ := exists_digits body
  rw [unsignedNumber, scanDigits_digits ds hrest] at h
  cases ds with
  | nil => simp at h
  | cons d more =>
    refine ⟨d :: more, ?_⟩
    cases rest with
    | nil => exact ⟨[], by simp, rfl⟩
    | cons ch frac =>
      by_cases hpoint : ch = 46
      · subst hpoint
        obtain ⟨fs, tail, rfl, htail⟩ := exists_digits frac
        cases fs with
        | nil => simp [scanDigits_digits [] htail] at h
        | cons f fs =>
          cases tail with
          | nil => exact ⟨f :: fs, by simp, by simp [fractionText]⟩
          | cons x xs => simp [scanDigits_digits (f :: fs) htail] at h
      · simp [hpoint] at h

theorem numeric_unsigned {body : Text} (h : ∀ ch ∈ body.head?, ch ≠ 43 ∧ ch ≠ 45) :
    numeric body = unsignedNumber 1 body := by
  unfold numeric
  split
  · exact absurd rfl (h 43 rfl).1
  · exact absurd rfl (h 45 rfl).2
  · rfl

theorem numeric_signed (sign : Option Bool) {ds : List (Fin 10)} (hds : ds ≠ []) (fs : List (Fin 10)) :
    numeric (signText sign ++ digitText ds ++ fractionText fs) =
      unsignedNumber (if sign = some true then -1 else 1) (digitText ds ++ fractionText fs) := by
  obtain ⟨d, more, rfl⟩ := List.exists_cons_of_ne_nil hds
  cases sign with
  | none =>
    refine numeric_unsigned fun ch hch => ?_
    obtain rfl : 48 + d.val = ch := Option.some.inj hch
    omega
  | some minus => cases minus <;> rfl

theorem exists_of_numeric {tok : Text} {v : Ratio} (h : numeric tok = some v) :
    ∃ sign ds fs, ds ≠ [] ∧ tok = signText sign ++ digitText ds ++ fractionText fs := by
  unfold numeric at h
  split at h
  · obtain ⟨ds, fs, hds, rfl⟩ := exists_of_unsignedNumber h
    exact ⟨some false, ds, fs, hds, rfl⟩
  · obtain ⟨ds, fs, hds, rfl⟩ := exists_of_unsignedNumber h
    exact ⟨some true, ds, fs, hds, rfl⟩
  · obtain ⟨ds, fs, hds, rfl⟩ := exists_of_unsignedNumber h
    exact ⟨none, ds, fs, hds, rfl⟩

/-- A token is numeric exactly when it is a sign, digits and a fraction, and has their value. -/
theorem numeric_iff {tok : Text} {v : Ratio} :
    numeric tok = some v ↔ ∃ sign ds fs, ds ≠ [] ∧ tok = signText sign ++ digitText ds ++ fractionText fs ∧
      v = { num := (if sign = some true then -1 else 1) * digitsValue 0 (ds ++ fs), den1 := 10 ^ fs.length - 1 } := by
  have hvalue : ∀ sign {ds : List (Fin 10)} fs, ds ≠ [] →
      numeric (signText sign ++ digitText ds ++ fractionText fs) = some
        { num := (if sign = some true then -1 else 1) * digitsValue 0 (ds ++ fs), den1 := 10 ^ fs.length - 1 } :=
    fun sign _ fs hds => (numeric_signed sign hds fs).trans (unsignedNumber_digits _ hds fs)
  constructor
  · intro h
    obtain ⟨sign, ds, fs, hds, rfl⟩ := exists_of_numeric h
    exact ⟨sign, ds, fs, hds, rfl, Option.some.inj (h.symm.trans (hvalue sign fs hds))⟩
  · rintro ⟨sign, ds, fs, hds, rfl, rfl⟩
    exact hvalue sign fs hds

/-! The sample of a line (44_sample_fifo.md R248, R260). -/

theorem mapM_eq_some_iff {α β : Type} {f : α → Option β} {xs : List α} {ys : List β} :
    xs.mapM f = some ys ↔ List.Forall₂ (fun x y => f x = some y) xs ys := by
  induction xs generalizing ys with
  | nil => simp [eq_comm]
  | cons x rest ih =>
    simp only [List.mapM_cons, Option.pure_def, Option.bind_eq_bind, Option.bind_eq_some_iff, Option.some.injEq, ih,
      List.forall₂_cons_left_iff]
    constructor
    · rintro ⟨y, hy, zs, hzs, rfl⟩
      exact ⟨y, zs, hy, hzs, rfl⟩
    · rintro ⟨y, zs, hy, hzs, rfl⟩
      exact ⟨y, hy, zs, hzs, rfl⟩

theorem tokenLane_iff {c : Cfg} (hwf : c.wf = true) {tok : Text} {x : Half} :
    tokenLane c tok = some x ↔ ∃ v, numeric tok = some v ∧ Ratio.le c.minPhys v = true ∧
      Ratio.le v c.maxPhys = true ∧ x.toInt = Ratio.mulTrunc v c.resolution := by
  cases hnum : numeric tok with
  | none => simp [tokenLane, hnum]
  | some v =>
    have hlane : tokenLane c tok = some x ↔
        (Ratio.le c.minPhys v = true ∧ Ratio.le v c.maxPhys = true) ∧ rawLane c v = x := by
      simp [tokenLane, hnum]
    rw [hlane]
    constructor
    · rintro ⟨⟨hmin, hmax⟩, rfl⟩
      exact ⟨v, rfl, hmin, hmax, rawLane_toInt hwf hmin hmax⟩
    · rintro ⟨w, hw, hmin, hmax, hx⟩
      obtain rfl : v = w := Option.some.inj hw
      exact ⟨⟨hmin, hmax⟩, BitVec.eq_of_toInt_eq ((rawLane_toInt hwf hmin hmax).trans hx.symm)⟩

theorem lineSample_iff {c : Cfg} {line : Text} {xs : Sample} :
    lineSample c line = some xs ↔
      (tokens line).length = c.lanes ∧ List.Forall₂ (fun tok x => tokenLane c tok = some x) (tokens line) xs := by
  simp [lineSample, mapM_eq_some_iff]

/-- Settles O41: the pieces of a line, the numbers among tokens, and the lines that are samples (44_sample_fifo.md R248,
R249, R260). -/
theorem textFormat : Obligations.TextFormat := by
  refine ⟨fun lead body last => ?_, fun tok v => numeric_iff, fun c line xs hwf => ?_⟩
  · intro blank hlead hbody hlast line pieces
    have hsplit : splitBlanks line [] = pieces := by
      simp only [line, pieces, List.append_assoc]
      rw [splitBlanks_blanks hlead, splitBlanks_words hbody, splitBlanks_lastWord hlast]
    refine ⟨?_, fun hreturn => ?_⟩
    · rw [tokens, dropReturn_append, hsplit]
    · rw [tokens, dropReturn_of_getLast? hreturn, hsplit]
  · simp only [lineSample_iff, tokenLane_iff hwf, Ratio.le_iff, Ratio.mulTrunc]

end Sys2Proof.Machine

/-! ### The interrupt level after a step, and the overrun signal -/

namespace Sys2Proof.Machine

/-- Settles O57: an operation that is not abandoned ends with the interrupt level settled, and what an agent does around it
touches nothing the condition depends on (60_exceptions.md R281). -/
theorem stepKeepsIrq : Obligations.StepKeepsIrq := fun _ _ hirq hstep hunfaulted => step_irq hstep hirq hunfaulted

/-- Settles O50: every update that an operation, a hook or an agent makes signals a rise of the flag (`signalled_kept`), and
the count of signals never falls (60_exceptions.md R283). -/
theorem overrunSignalled : Obligations.OverrunSignalled := fun _ _ hclear hset =>
  ⟨fun i h => (exec_kept signalled_kept i h).rise hclear hset, fun h => (step_kept signalled_kept h).rise hclear hset⟩

end Sys2Proof.Machine

/-! ### What one step runs, said once -/

namespace Sys2Proof.Machine

/-- What a step can do: its agent waits, or drops the rest of a write that was cut; or it runs one operation between two
changes of the inputs; or it is the end of a HOST.LOADFILE (20_memory.md R70 to R73; log 13). -/
inductive StepRuns (s : State) : State → Prop where
  | waits (e : Env) : StepRuns s { s with env := e }
  | operates {i : Instr} {u : State} (e e' : Env) (h : exec i { s with env := e } = .next u) :
      StepRuns s { u with env := e' }
  | endsLoad (e : Env) (keeps : Bool) (r : Result) :
      StepRuns s (settleIrq (respond (endLoad { s with env := e } keeps) r))

/-- The inputs that a step finds do not matter to what it can do. -/
theorem StepRuns.of_env {s t : State} {e : Env} (h : StepRuns { s with env := e } t) : StepRuns s t := by
  cases h with
  | waits e' => exact .waits e'
  | operates e' e'' h => exact .operates e' e'' h
  | endsLoad e' keeps r => exact .endsLoad e' keeps r

theorem runBus_runs {s t : State} {ev : Timed BusOp} (h : runBus s ev = .next t) : StepRuns s t := by
  unfold runBus at h
  split at h
  · cases h
    exact .operates _ _ ‹_›
  · cases h
  · cases h

theorem stepBus_runs {s t : State} (h : stepBus s = .next t) : StepRuns s t := by
  unfold stepBus at h
  split at h
  · split at h
    · cases h
      exact .waits _
    · exact runBus_runs h
  · split at h
    · cases h
      exact .waits s.env
    · split at h
      · cases h
      · exact (runBus_runs h).of_env

theorem stepFeeder_runs {s t : State} (h : stepFeeder s = .next t) : StepRuns s t := by
  unfold stepFeeder at h
  split at h
  · cases h
    exact .waits s.env
  · split at h
    · cases h
    · exact .operates _ t.env h

theorem runHost_runs {s t : State} {now : Time} {i : Instr} {rest : Option HostRest}
    (h : runHost s now i rest = .next t) : StepRuns s t := by
  unfold runHost at h
  split at h
  · cases h
    exact .operates _ _ ‹_›
  · cases h
  · cases h

theorem continueHost_runs {s t : State} {ev : Timed HostRest} (h : continueHost s ev = .next t) : StepRuns s t := by
  unfold continueHost at h
  split at h
  · exact runHost_runs h
  · exact runHost_runs h
  · obtain ⟨_, ⟨r, u, hdone, rfl⟩ | habandoned⟩ := operate_next h
    · cases hdone
      exact .endsLoad _ _ _
    · cases habandoned

theorem stepHost_runs {s t : State} (h : stepHost s = .next t) : StepRuns s t := by
  unfold stepHost at h
  split at h
  · exact continueHost_runs h
  · split at h
    · cases h
      exact .waits s.env
    · split at h
      · cases h
      · exact (runHost_runs h).of_env

theorem step_runs {s t : State} (h : step s = .next t) : StepRuns s t := by
  obtain ⟨_, _, hscheduled⟩ := step_next h
  unfold stepScheduled at hscheduled
  split at hscheduled
  · cases hscheduled
    exact .waits s.env
  · rename_i agent rest _
    refine StepRuns.of_env (e := { s.env with schedule := rest }) ?_
    cases agent with
    | bus => exact stepBus_runs hscheduled
    | feeder => exact stepFeeder_runs hscheduled
    | host => exact stepHost_runs hscheduled

end Sys2Proof.Machine

/-! ### Only hooks outside the standard library set the latch -/

namespace Sys2Proof.Machine

/-- An operation that answers a next state was not refused. -/
theorem operate_body_ne_refused {s t : State} {body : State → Ran Result} (h : operate s body = .next t) (r : Refusal) :
    body s ≠ .refused r := by
  obtain ⟨_, ⟨_, _, hdone, _⟩ | habandoned⟩ := operate_next h
  · rw [hdone]; nofun
  · rw [habandoned]; nofun

/-- A byte that the configuration does not have is no target of a register operation (41_register_ops.md R150). -/
theorem byteTarget_of_not_hasByte {c : Cfg} {a k : Nat} (h : ¬ c.hasByte a k = true) : byteTarget c a k = none := by
  cases hr : c.find a with
  | none => simp only [byteTarget, hr]
  | some r =>
    have hk : ¬ k < r.width.bytes := by simpa [Cfg.hasByte, hr] using h
    simp only [byteTarget, hr, if_neg hk]

/-- With hooks of the standard library every operation that answers a next state runs through: operands that are not of the
configuration are refused, but for an address phase in another format and a repeat of no feed, which run no hook. -/
theorem exec_runsThrough_of_next {R : State → State → Prop} (hR : BodyKept R) {i : Instr} {s t : State}
    (hstd : standardHooks s.cfg = true) (h : exec i s = .next t) : RunsThrough R s (exec i s) := by
  by_cases hi : Instr.wf s.cfg i = true
  · exact exec_runsThrough hR hstd hi
  have htx : ∀ tx, R s { s with tx := tx } := fun tx => hR.around _ _ rfl rfl rfl rfl rfl rfl rfl rfl rfl
  unfold exec at h ⊢
  cases i with
  | addrSetPlain8 a => exact .plain (htx _)
  | addrSetRw7 r a => exact .plain (htx _)
  | addrSetRw7Ms6 r m a => exact .plain (htx _)
  | addrSetPlain16 a => exact .plain (htx _)
  | fldRead a f =>
    have hnone : s.cfg.field a f = none := by simpa [Instr.wf] using hi
    exact absurd (by simp only [hnone]) (operate_body_ne_refused h .noSuchField)
  | fldWrite a f v =>
    have hnone : s.cfg.field a f = none := by simpa [Instr.wf] using hi
    exact absurd (by simp only [hnone]) (operate_body_ne_refused h .noSuchField)
  | regReadB a k =>
    have hnone : byteTarget s.cfg a k = none := byteTarget_of_not_hasByte hi
    exact absurd (by simp only [hnone]) (operate_body_ne_refused h .noSuchRegister)
  | regWriteB a k b =>
    have hnone : byteTarget s.cfg a k = none := byteTarget_of_not_hasByte hi
    exact absurd (by simp only [hnone]) (operate_body_ne_refused h .noSuchRegister)
  | regReset a =>
    have hnone : s.cfg.find a = none := by simpa [Instr.wf] using hi
    exact absurd (by simp only [hnone]) (operate_body_ne_refused h .noSuchRegister)
  | fifoFeed stamp x =>
    have hx : ¬ x.length = s.cfg.lanes := by simpa [Instr.wf] using hi
    exact absurd (if_neg hx) (operate_body_ne_refused h .wrongLanes)
  | hostFeedRepeat x n =>
    have hx : ¬ x.length = s.cfg.lanes := by simpa [Instr.wf] using hi
    cases n with
    | zero => exact .nothing
    | succ n =>
      unfold execHostFeedRepeat at h
      exact absurd (if_neg hx) (operate_body_ne_refused h .wrongLanes)
  | hostSetPhys vs =>
    have hvs : ¬ vs.length = s.cfg.lanes := by simpa [Instr.wf] using hi
    exact absurd (if_neg hvs) (operate_body_ne_refused h .wrongLanes)
  | _ => exact absurd rfl hi

/-- Everything an operation that runs through has done: no violation is among it. -/
theorem RunsThrough.next {R : State → State → Prop} {s t : State} {o : Host.Outcome State Fault Refusal}
    (h : RunsThrough R s o) (ho : o = .next t) : t = s ∨ ∃ r u, R s u ∧ t = settleIrq (respond u r) := by
  obtain rfl | ⟨body, rfl, hbody⟩ := h
  · exact .inl (operateNothing_next ho).2
  · obtain ⟨r, u, hu, -, rfl⟩ | ⟨hstop, -⟩ := operate_meets hbody ho
    · exact .inr ⟨r, u, hu, rfl⟩
    · exact hstop.elim

/-- No invariant violation happens between two states: the latch stays, and no record logged is a violation
(60_exceptions.md R276, R277). -/
structure Sound (s t : State) : Prop where
  faulted : t.faulted = s.faulted
  logged : Logged s t

theorem Sound.same {s t : State} (hf : t.faulted = s.faulted) (hc : t.cfg = s.cfg) (hd : t.diag = s.diag) : Sound s t :=
  ⟨hf, Logged.same hc hd⟩

theorem Sound.trans {s t u : State} (h : Sound s t) (g : Sound t u) : Sound s u :=
  ⟨g.faulted.trans h.faulted, h.logged.trans g.logged⟩

theorem Sound.settled_respond (s : State) (r : Result) : Sound s (settleIrq (respond s r)) :=
  .same (respond_faulted s r) (respond_cfg s r) (respond_diag s r)

theorem exec_sound {i : Instr} {s t : State} (hstd : standardHooks s.cfg = true) (h : exec i s = .next t) :
    Sound s t where
  faulted := by
    obtain rfl | ⟨r, u, hu, rfl⟩ := (exec_runsThrough_of_next outline_kept hstd h).next h
    · rfl
    · exact (Sound.settled_respond u r).faulted.trans hu.faulted
  logged := by
    obtain rfl | ⟨r, u, hu, rfl⟩ := (exec_runsThrough_of_next logged_kept hstd h).next h
    · exact Logged.same rfl rfl
    · exact hu.trans (Sound.settled_respond u r).logged

theorem step_sound {s t : State} (hstd : standardHooks s.cfg = true) (h : step s = .next t) : Sound s t := by
  cases step_runs h with
  | waits e => exact .same rfl rfl rfl
  | @operates i u e e' hexec =>
    have hbefore : Sound s { s with env := e } := .same rfl rfl rfl
    have hinside : Sound { s with env := e } u := exec_sound (s := { s with env := e }) hstd hexec
    have hafter : Sound u { u with env := e' } := .same rfl rfl rfl
    exact hbefore.trans (hinside.trans hafter)
  | endsLoad e keeps r =>
    have hload : Sound s (endLoad { s with env := e } keeps) :=
      .same (endLoad_faulted _ keeps) (endLoad_cfg _ keeps) (endLoad_diag _ keeps)
    exact hload.trans (.settled_respond _ r)

/-- Settles O49: under the standard library every operation that answers runs through (`exec_sound`), and a step waits, runs
one operation or ends a load (`step_runs`), none of which logs a violation (60_exceptions.md R276, R277). -/
theorem onlyHooksFault : Obligations.OnlyHooksFault := by
  intro s t hstd hs sound
  have hsound : Sound s t → sound := fun h => ⟨h.faulted.trans hs, h.logged.grow⟩
  exact ⟨fun i h => hsound (exec_sound hstd h), fun h => hsound (step_sound hstd h)⟩

end Sys2Proof.Machine

/-! ### What no bus primitive can change -/

namespace Sys2Proof.Machine

section

variable {stop : Prop} {good : HookCall → Prop} {R : State → State → Prop} {s : State} (hR : BusKept R)
  (hrun : RunnerMeets stop good R hooks) (hg : ∀ r ∈ s.cfg.map, GoodRegister good r)

include hR hrun hg

/-- A bus primitive does nothing, or it runs a body that respects what a data byte respects and that returns nothing. -/
theorem exec_busOp_runs (op : BusOp) :
    exec op.toInstr s = operateNothing s ∨
      ∃ x : Ran Unit, exec op.toInstr s = operate s (fun _ => x.andThen fun _ u => .done .none u) ∧
        x.Meets stop (R s) := by
  cases op with
  | write bytes =>
    cases bytes with
    | nil => exact .inl rfl
    | cons b rest => exact .inr ⟨busWrite (b :: rest) s, rfl, busWrite_meets hR hrun hg (b :: rest) rfl⟩
  | read count =>
    cases count with
    | zero => exact .inl rfl
    | succ n => exact .inr ⟨busRead (n + 1) s, rfl, busRead_meets hR hrun hg (n + 1) rfl⟩
  | finish =>
    exact .inr ⟨.done () (busFinish s), rfl, hR.around s (busFinish s) rfl rfl rfl rfl rfl rfl rfl rfl rfl⟩

/-- Everything a bus primitive that answers a next state has done; it hands over no result. -/
theorem exec_busOp_next {op : BusOp} {t : State} (h : exec op.toInstr s = .next t) :
    t = s ∨ (∃ u, R s u ∧ t = settleIrq u) ∨ stop ∧ ∃ u what, R s u ∧ t = violated u what := by
  obtain e | ⟨x, e, hx⟩ := exec_busOp_runs hR hrun hg op <;> rw [e] at h
  · exact .inl (operateNothing_next h).2
  · cases x with
    | done _ u =>
      obtain ⟨_, ⟨_, _, hdone, rfl⟩ | habandoned⟩ := operate_next h
      · cases hdone
        exact .inr (.inl ⟨u, hx, rfl⟩)
      · cases habandoned
    | abandoned u =>
      obtain ⟨_, ⟨_, _, hdone, _⟩ | habandoned⟩ := operate_next h
      · cases hdone
      · cases habandoned
        exact .inr (.inr hx)
    | refused r => exact absurd rfl (operate_body_ne_refused h r)

end

/-- With any hooks a bus primitive leaves the configuration and the host's results alone (60_exceptions.md R286). -/
theorem exec_busOp_frame {op : BusOp} {s t : State} (h : exec op.toInstr s = .next t) :
    t.cfg = s.cfg ∧ t.results = s.results := by
  have hrun := hooks_meets outline_kept.toHookKept
  obtain rfl | ⟨u, hu, rfl⟩ | ⟨_, u, what, hu, rfl⟩ :=
    exec_busOp_next outline_kept.toBusKept hrun (goodMap_any s.cfg) h
  · exact ⟨rfl, rfl⟩
  · exact ⟨hu.cfg, hu.results⟩
  · exact ⟨hu.cfg, hu.results⟩

/-- With hooks of the standard library it leaves `KEEP`, `STREAM_ATTACHED`, `USER` and the latch alone too (60_exceptions.md
R276, R286). -/
theorem exec_busOp_sober {op : BusOp} {s t : State} (hstd : standardHooks s.cfg = true)
    (h : exec op.toInstr s = .next t) : Sober s t := by
  obtain rfl | ⟨u, hu, rfl⟩ | ⟨hstop, _⟩ :=
    exec_busOp_next sober_bus (hooks_standard sober_kept) (goodMap_standard hstd) h
  · exact sober_bus.refl t
  · exact hu.trans (sober_bus.around u (settleIrq u) rfl rfl rfl rfl rfl rfl rfl rfl rfl)
  · exact hstop.elim

/-- Settles O52: what every bus primitive leaves alone, and what it leaves alone under the standard library
(60_exceptions.md R276, R286). -/
theorem firmwareCannot : Obligations.FirmwareCannot := by
  intro s t op h
  obtain ⟨hcfg, hresults⟩ := exec_busOp_frame h
  refine ⟨hcfg, hresults, fun hstd => ?_⟩
  have hsober : Sober s t := exec_busOp_sober hstd h
  exact ⟨hsober.keep, hsober.streamAttached, hsober.user, hsober.faulted⟩

end Sys2Proof.Machine

/-! ### A field write abandoned by its callback -/

namespace Sys2Proof.Machine

/-- A write callback that does nothing but report an invariant violation (60_exceptions.md R277). -/
theorem callField_violation (what : Text) (old new : Half) (s : State) :
    callField hooks (some (.program [{ guard := .lit 1, act := .violation what }])) old new s =
      .abandoned (violated s what) := by
  have hguard : (s.frame old new).eval s (.lit 1) ≠ 0 := Int.one_ne_zero
  simp only [callField, hooks_onField, runFieldHook, runCallback, runSteps, if_neg hguard]
  rfl

/-- Abandoned by its write callback, an accepted FLD.WRITE leaves the state the callback was called in, with the record and
the latch (60_exceptions.md R277, R280). -/
theorem exec_fldWrite_violation {s : State} {a f v : Nat} {d : FieldDef} {new : Half} {what : Text}
    (hs : s.faulted = false) (hd : s.cfg.field a f = some d) (haccept : Accepted s a f d (BitVec.ofNat 16 v) new)
    (hw : d.wcb = some (.program [{ guard := .lit 1, act := .violation what }])) :
    exec (.fldWrite a f v) s = .next (violated (setField s a f new) what) := by
  have habandoned : fldWrite hooks a f d (BitVec.ofNat 16 v) s = .abandoned (violated (setField s a f new) what) := by
    rw [fldWrite_accepted hooks haccept, storeField, hw, callField_violation]
    rfl
  show execFldWrite a f v s = _
  exact operate_abandoned hs (by simp only [hd, habandoned, Ran.andThen])

/-- Settles O14: the state left is the stored one with the latch and the record, and the latch stops everything after it
(60_exceptions.md R277, R280; 43_bus_transactions.md R211). -/
theorem violationAbandons : Obligations.ViolationAbandons := by
  intro s a f v d what hs hd hacc henum hw
  have hexec := exec_fldWrite_violation hs hd (.stored (.inr (.inl hacc)) henum) hw
  obtain ⟨m, hm, hself, hother⟩ := setField_frame hd (cut d (BitVec.ofNat 16 v))
  rw [hm] at hexec
  rw [cut_cut] at hself
  have hstops := faultedStops (violated { s with fv := m } what) rfl
  exact ⟨_, hexec, hself, hother, rfl, hstops⟩

end Sys2Proof.Machine

/-! ### The resets of the whole block -/

namespace Sys2Proof.Machine

/-- A block whose field store is empty reads at every field the bits of `RST` that the field stands on (10_state.md R26). -/
theorem getField_of_fv_nil {s t : State} (hcfg : t.cfg = s.cfg) (hfv : t.fv = []) {a f : Nat} {r : RegisterDef}
    {d : FieldDef} (hr : s.cfg.find a = some r) (hd : r.fields[f]? = some d) :
    getField t a f = (r.rst >>> d.off) &&& lowMask d.wid :=
  calc getField t a f = getField (resetCollection s) a f := getField_congr (s := resetCollection s) hcfg hfv a f
    _ = s.cfg.slotReset a f := getField_resetCollection s a f
    _ = (r.rst >>> d.off) &&& lowMask d.wid := slotReset_eq hr hd

theorem exec_devReset {s : State} (hs : s.faulted = false) : exec .devReset s = .next (settleIrq (deviceReset s)) :=
  operatePlain_eq hs deviceReset

theorem exec_devSoftReset {s : State} (hs : s.faulted = false) :
    exec .devSoftReset s = .next (settleIrq (softReset s)) :=
  operatePlain_eq hs softReset

end Sys2Proof.Machine

namespace Sys2Proof.Laws

open Sys2Proof.Machine

/-- Settles O44: the update empties the field store and replaces the FIFO, the transaction state and `USER`; the interrupt
level is settled after it (70_reset_and_hazards.md R303). Its name is that of the operation too, and so it stands beside
the machine's namespace. -/
theorem deviceReset : Obligations.DeviceReset := fun s hs =>
  ⟨_, exec_devReset hs, fun _ _ _ _ hr hd => getField_of_fv_nil (deviceReset_cfg s) (deviceReset_fv s) hr hd, rfl⟩

/-- Settles O45: the update empties the field store and changes the FIFO besides, so that the transaction state, the flags of
the host and `USER` stay (70_reset_and_hazards.md R304). It stands here for its name too. -/
theorem softReset : Obligations.SoftReset := fun s hs =>
  ⟨_, exec_devSoftReset hs, fun _ _ _ _ hr hd => getField_of_fv_nil (softReset_cfg s) (softReset_fv s) hr hd, rfl⟩

end Sys2Proof.Laws

/-! ### The transaction state belongs to the bus -/

namespace Sys2Proof.Machine

/-- Settles O53: each such operation runs a body that leaves the frame alone, hooks included (`exec_txSame`; 10_state.md
R36). -/
theorem positionFrame : Obligations.PositionFrame := fun _ _ _ hkeeps h => (exec_txSame hkeeps h).tx

end Sys2Proof.Machine

/-! ### The overflow law -/

namespace Sys2Proof.Machine

/-- In mode Fifo a full queue drops whatever is fed (44_sample_fifo.md R235). -/
theorem feedAll_dropped {s : State} (hm : s.fifo.mode = .fifo) (hfull : s.cfg.cap ≤ s.fifo.q.length)
    (xs : List Sample) : feedAll s xs = s := by
  induction xs with
  | nil => rfl
  | cons x rest ih => rw [feedAll, feed_dropped x hm hfull, ih]

/-- In mode Continuous a full queue gives up its oldest sample for each one fed, and only the first of them can signal
(44_sample_fifo.md R234). -/
theorem feedAll_evicts {s : State} (hm : s.fifo.mode = .continuous) (hfull : s.fifo.q.length = s.cfg.cap)
    (hcap : 1 ≤ s.cfg.cap) (x : Sample) (xs : List Sample) :
    feedAll s (x :: xs) = { s with
      fifo := { s.fifo with q := (s.fifo.q ++ x :: xs).drop (xs.length + 1), ovr := true }
      ovrSignals := if s.fifo.ovr then s.ovrSignals else s.ovrSignals + 1 } := by
  have hfirst : feed s x = evict s x := feed_evicts x hm (Nat.le_of_eq hfull.symm)
  obtain ⟨oldest, kept, hq⟩ : ∃ oldest kept, s.fifo.q = oldest :: kept :=
    List.exists_cons_of_length_pos (by omega)
  have hqueue : (evict s x).fifo.q = kept ++ [x] := by rw [evict_fifo, hq]; rfl
  cases xs with
  | nil =>
    rw [feedAll, feedAll, hfirst, evict, hq]
    rfl
  | cons y ys =>
    have hstill : (evict s x).fifo.q.length = (evict s x).cfg.cap := by
      rw [hqueue, evict_cfg, ← hfull, hq, List.length_append]
      rfl
    rw [feedAll, hfirst, feedAll_evicts (s := evict s x) hm hstill hcap y ys, hqueue, hq]
    simp [evict]
termination_by structural xs

/-- A list of samples that does not fit behind a queue splits into those that fill it and those past its bound. -/
theorem exists_split_at_cap {q xs : List Sample} {cap : Nat} (hq : q.length ≤ cap) (hpast : cap < (q ++ xs).length) :
    ∃ fit x past, xs = fit ++ x :: past ∧ (q ++ fit).length = cap := by
  rw [List.length_append] at hpast
  obtain ⟨x, past, hdrop⟩ : ∃ x past, xs.drop (cap - q.length) = x :: past :=
    List.exists_cons_of_length_pos (by rw [List.length_drop]; omega)
  refine ⟨xs.take (cap - q.length), x, past, by rw [← hdrop, List.take_append_drop], ?_⟩
  rw [List.length_append, List.length_take]
  omega

section

variable {s : State} {fit past : List Sample} {x : Sample} (hfull : (s.fifo.q ++ fit).length = s.cfg.cap)

include hfull

/-- In mode Fifo the samples that fill the queue stay, and those past its bound are lost. -/
theorem feedAll_overflow_fifo (hm : s.fifo.mode = .fifo) :
    feedAll s (fit ++ x :: past) = { s with fifo := { s.fifo with q := s.fifo.q ++ fit } } := by
  rw [feedAll_append, feedAll_room (by rw [hm]; nofun) (Nat.le_of_eq (List.length_append.symm.trans hfull))]
  exact feedAll_dropped (s := { s with fifo := { s.fifo with q := s.fifo.q ++ fit } }) hm (Nat.le_of_eq hfull.symm) _

/-- In mode Continuous each sample past the bound takes the place of the oldest one, with the overrun of the first. -/
theorem feedAll_overflow_continuous (hm : s.fifo.mode = .continuous) (hcap : 1 ≤ s.cfg.cap) :
    feedAll s (fit ++ x :: past) = { s with
      fifo := { s.fifo with q := (s.fifo.q ++ (fit ++ x :: past)).drop (past.length + 1), ovr := true }
      ovrSignals := if s.fifo.ovr then s.ovrSignals else s.ovrSignals + 1 } := by
  rw [feedAll_append, feedAll_room (by rw [hm]; nofun) (Nat.le_of_eq (List.length_append.symm.trans hfull)),
    feedAll_evicts (s := { s with fifo := { s.fifo with q := s.fifo.q ++ fit } }) hm hfull hcap x past,
    ← List.append_assoc]

end

/-- Settles O34: as long as all samples fit nothing is lost (`feedAll_room`); else the feeds fill the queue, and each one
after that is dropped or evicts, by the mode (44_sample_fifo.md R247). -/
theorem fifoOverflowLaw : Obligations.FifoOverflowLaw := by
  intro s xs hs hcap hq hlanes all
  obtain ⟨level, hfed⟩ := execAll_feeds hs hlanes
  by_cases hfits : all.length ≤ s.cfg.cap
  · have hall : s.fifo.mode ≠ .bypass → feedAll s xs = { s with fifo := { s.fifo with q := all } } := fun hm =>
      feedAll_room hm (by rwa [← List.length_append])
    refine ⟨fun hm => ?_, fun hm => ?_⟩
    · rw [hall (by rw [hm]; nofun)] at hfed
      refine ⟨_, hfed, ?_, ?_, ?_⟩
      · rw [Nat.sub_eq_zero_of_le hfits]
        rfl
      · rw [decide_eq_false (Nat.not_lt.2 hfits), Bool.or_false]
        rfl
      · rw [if_neg fun ⟨_, hpast⟩ => Nat.not_lt.2 hfits hpast]
        rfl
    · rw [hall (by rw [hm]; nofun)] at hfed
      exact ⟨_, hfed, (List.take_of_length_le hfits).symm, rfl, rfl⟩
  · have hpast : s.cfg.cap < all.length := Nat.lt_of_not_le hfits
    obtain ⟨fit, x, past, rfl, hfull⟩ := exists_split_at_cap hq hpast
    refine ⟨fun hm => ?_, fun hm => ?_⟩
    · rw [feedAll_overflow_continuous hfull hm hcap] at hfed
      refine ⟨_, hfed, ?_, ?_, ?_⟩
      · have hlost : all.length - s.cfg.cap = past.length + 1 := by
          simp only [all, List.length_append, List.length_cons] at hfull ⊢
          omega
        rw [hlost]
        rfl
      · rw [decide_eq_true hpast, Bool.or_true]
        rfl
      · show (if s.fifo.ovr then s.ovrSignals else s.ovrSignals + 1) = _
        cases s.fifo.ovr <;> simp [hpast]
    · rw [feedAll_overflow_fifo hfull hm] at hfed
      refine ⟨_, hfed, ?_, rfl, rfl⟩
      show s.fifo.q ++ fit = (s.fifo.q ++ (fit ++ x :: past)).take s.cfg.cap
      rw [← List.append_assoc, List.take_left' hfull]

end Sys2Proof.Machine

/-! ### The reset laws -/

namespace Sys2Proof.Machine

/-- The operation `i` is a reset that makes the update `f`: the update made twice is the update, whatever the interrupt
level is, and it leaves the latch alone. -/
structure ResetsBy (i : Instr) (f : State → State) : Prop where
  runs : ∀ {s : State}, s.faulted = false → exec i s = .next (settleIrq (f s))
  faulted : ∀ s, (f s).faulted = s.faulted
  withIrq : ∀ level s, f (withIrq level s) = withIrq level (f s)
  idempotent : ∀ s, f (f s) = f s

theorem resetQueue_idempotent (s : State) : resetQueue (resetQueue s) = resetQueue s := by
  cases hkeep : s.fifo.keep <;> simp [resetQueue, hkeep]

theorem softReset_idempotent (s : State) : softReset (softReset s) = softReset s := by
  cases hkeep : s.fifo.keep <;> simp [softReset, resetQueue, setMode, resetCollection, hkeep]

theorem collReset_resetsBy : ResetsBy .collReset resetCollection :=
  ⟨exec_collReset, fun _ => rfl, fun _ _ => rfl, fun _ => rfl⟩

theorem fifoReset_resetsBy : ResetsBy .fifoReset resetQueue :=
  ⟨fun hs => operatePlain_eq hs resetQueue, fun _ => rfl, fun _ _ => rfl, resetQueue_idempotent⟩

theorem devSoftReset_resetsBy : ResetsBy .devSoftReset softReset :=
  ⟨exec_devSoftReset, fun _ => rfl, fun _ _ => rfl, softReset_idempotent⟩

theorem devReset_resetsBy : ResetsBy .devReset deviceReset :=
  ⟨exec_devReset, fun _ => rfl, fun _ _ => rfl, fun _ => rfl⟩

/-- A reset run twice is the reset run once; the level settled in between is settled again. -/
theorem ResetsBy.execAll_twice {i : Instr} {f : State → State} (h : ResetsBy i f) {s : State} (hs : s.faulted = false) :
    execAll [i, i] s = exec i s := by
  have hfaulted : (settleIrq (f s)).faulted = false := (h.faulted s).trans hs
  have hsettled : settleIrq (f (settleIrq (f s))) = settleIrq (f s) := by
    rw [settleIrq_eq_withIrq (f s), h.withIrq, settleIrq_withIrq, h.idempotent]
    rfl
  rw [execAll_cons (h.runs hs), execAll_cons (h.runs hfaulted), hsettled, h.runs hs]
  rfl

/-- A read of a stored readable field in a block whose field store is empty returns the field's bits of `RST`. -/
theorem exec_fldRead_of_fv_nil {s t : State} (hs : t.faulted = false) (hcfg : t.cfg = s.cfg) (hfv : t.fv = [])
    {a f : Nat} {r : RegisterDef} {d : FieldDef} (hr : s.cfg.find a = some r) (hd : r.fields[f]? = some d)
    (hprov : d.prov = none) (hacc : d.acc ≠ .write) :
    ∃ u, exec (.fldRead a f) t = .next u ∧
      u.results = t.results ++ [.value ((r.rst >>> d.off) &&& lowMask d.wid)] := by
  have hfield : t.cfg.field a f = some d := by rw [hcfg, field_of_find hr, hd]
  obtain ⟨u, hread, hstep, -, -⟩ := fldRead_plain hooks hfield (.inr hprov)
  rw [if_neg hacc, getField_of_fv_nil hcfg hfv hr hd] at hread
  refine ⟨_, exec_fldRead_done hs hfield hread, ?_⟩
  rw [settleIrq_results, hstep.eq]

/-- Settles O46: each reset makes one idempotent update, and the resets of the registers empty the field store
(70_reset_and_hazards.md R308). -/
theorem resetLaws : Obligations.ResetLaws := by
  intro s hs
  refine ⟨fun i hi => ?_, fun i hi a r f d hr hd hprov hacc => ?_⟩
  · obtain ⟨g, hreset⟩ : ∃ g, ResetsBy i g := by
      simp only [List.mem_cons, List.not_mem_nil, or_false] at hi
      obtain rfl | rfl | rfl | rfl := hi
      · exact ⟨_, collReset_resetsBy⟩
      · exact ⟨_, fifoReset_resetsBy⟩
      · exact ⟨_, devSoftReset_resetsBy⟩
      · exact ⟨_, devReset_resetsBy⟩
    exact hreset.execAll_twice hs
  · obtain ⟨t, hexec, hfaulted, hcfg, hfv, hresults⟩ : ∃ t, exec i s = .next t ∧ t.faulted = s.faulted ∧
        t.cfg = s.cfg ∧ t.fv = [] ∧ t.results = s.results := by
      simp only [List.mem_cons, List.not_mem_nil, or_false] at hi
      obtain rfl | rfl | rfl := hi
      · exact ⟨_, exec_collReset hs, rfl, rfl, rfl, rfl⟩
      · exact ⟨_, exec_devSoftReset hs, rfl, rfl, rfl, rfl⟩
      · exact ⟨_, exec_devReset hs, rfl, rfl, rfl, rfl⟩
    obtain ⟨u, hread, hvalue⟩ := exec_fldRead_of_fv_nil (hfaulted.trans hs) hcfg hfv hr hd hprov hacc
    exact ⟨u, (execAll_cons hexec).trans (execAll_cons hread), by rw [hvalue, hresults]⟩

end Sys2Proof.Machine

/-! ### The byte round trip of a register -/

namespace Sys2Proof.Machine

/-- A stored field that accepts every value shows, after a byte of its register is written, the bits of that byte that are
its own (41_register_ops.md R151). -/
theorem afterByte_bit {d : FieldDef} {k j : Nat} {b : Byte} {old : Half} (hacc : d.acc = .readWrite)
    (haccept : ∀ v, enumRefuses d v = false) (h16 : 8 * k + j < 16) (hj : j < 8) (hlow : d.off ≤ 8 * k + j)
    (hhigh : 8 * k + j < d.off + d.wid) :
    (afterByte d k b old).getLsbD (8 * k + j - d.off) = b.getLsbD j := by
  obtain ⟨p, hp⟩ := overlap_eq_some (d := d) (k := k) (by omega) (by omega) (by omega)
  have hplace := overlap_some hp
  have hin := (overlap_mine hp (j := 8 * k + j - d.off) (by omega)).1 (by omega)
  have hstored : afterByte d k b old = cut d (mergeByte d p b old) := by
    simp only [afterByte, hp, afterWrite, hacc, haccept]
    rfl
  rw [hstored, cut_bit, mergeByte_bit (by rw [hacc]; nofun) b old (by omega), if_pos hin,
    decide_eq_true (by omega), Bool.true_and]
  congr 1
  omega

/-- REG.WRITEB of a register without callbacks: each field takes the byte, and nothing is handed over (41_register_ops.md
R151). -/
theorem exec_regWriteB_plain {s : State} {a k : Nat} {r : RegisterDef} (hs : s.faulted = false)
    (hr : s.cfg.find a = some r) (hk : k < r.width.bytes) (hrwcb : r.rwcb = none)
    (hplain : ∀ d ∈ r.fields, d.wcb = none ∧ d.ccb = none) (b : Byte) :
    ∃ t, exec (.regWriteB a k b) s = .next t ∧ t.faulted = s.faulted ∧ t.cfg = s.cfg ∧ t.results = s.results ∧
      ∀ f d, r.fields[f]? = some d → getField t a f = afterByte d k b (getField s a f) := by
  obtain ⟨-, rfl⟩ := find_mem hr
  have htag := sayTagged_step r k b s
  obtain ⟨t, ds, hfields, hstep, -, htakes, -⟩ := writeFields_plain hooks (s := sayTagged r k b s) k b (i := 0)
    (fun j d hd => by rw [Nat.zero_add, htag.cfg, field_of_find hr, hd]) hplain
  simp only [Nat.zero_add, getField_sayTagged] at htakes
  obtain ⟨heq, -⟩ := htag.trans hstep
  have hcall : callRegister hooks r k b t = .done () t := by simp only [callRegister, hrwcb]
  exact ⟨_, exec_regWriteB_done hs hr hk (regWriteB_done hfields hcall), by rw [heq]; rfl, by rw [heq]; rfl,
    by rw [heq]; rfl, htakes⟩

/-- A byte that has the bits of `b` on the register's fields and the reserved pattern elsewhere is the two put together. -/
theorem eq_fields_or_reserved {r : RegisterDef} {k : Nat} {v b : Byte} (hk : k < r.width.bytes)
    (hreserved : ReservedRead r k v)
    (hfields : ∀ d ∈ r.fields, ∀ j, j < 8 → d.off ≤ 8 * k + j → 8 * k + j < d.off + d.wid → v.getLsbD j = b.getLsbD j) :
    v = (b &&& (fieldBits r >>> (8 * k)).setWidth 8) ||| reservedByte r k := by
  refine BitVec.eq_of_getLsbD_eq fun j hj => ?_
  have hbits := fieldBits_bit r (bit_lt_of_byte hk hj)
  rw [BitVec.getLsbD_or, reservedByte_bit r k hj, BitVec.getLsbD_and, BitVec.getLsbD_setWidth,
    BitVec.getLsbD_ushiftRight, decide_eq_true hj, Bool.true_and]
  by_cases htaken : ∃ d ∈ r.fields, d.off ≤ 8 * k + j ∧ 8 * k + j < d.off + d.wid
  · obtain ⟨d, hd, hlow, hhigh⟩ := htaken
    have hset : (fieldBits r).getLsbD (8 * k + j) = true := by
      rw [hbits, List.any_eq_true]
      exact ⟨d, hd, by simp [hlow, hhigh]⟩
    rw [hfields d hd j hj hlow hhigh, hset]
    simp
  · have hout : ∀ d ∈ r.fields, 8 * k + j < d.off ∨ d.off + d.wid ≤ 8 * k + j := fun d hd => by
      by_contra hin
      exact htaken ⟨d, hd, by omega⟩
    have hclear : (fieldBits r).getLsbD (8 * k + j) = false := by
      rw [hbits, List.any_eq_false]
      intro d hd
      have := hout d hd
      simp only [Bool.and_eq_true, decide_eq_true_eq]
      omega
    rw [hreserved j hj hout, hclear]
    simp

/-- The reserved pattern of a byte, with the mask of the fields cut to the byte (41_register_ops.md R153). -/
theorem reservedByte_of_resetDefault {r : RegisterDef} {k : Nat} (h : r.rsvdRead = .resetDefault) :
    reservedByte r k = (r.rst >>> (8 * k)).setWidth 8 &&& ~~~((fieldBits r >>> (8 * k)).setWidth 8) := by
  refine BitVec.eq_of_getLsbD_eq fun j hj => ?_
  rw [reservedByte_bit r k hj, h]
  simp [hj]

/-- Settles O17: the write gives each field its bits of the byte (`exec_regWriteB_plain`), the read shows them and the
reserved pattern (`exec_regReadB_plain`; 41_register_ops.md R157). -/
theorem registerRoundTrip : Obligations.RegisterRoundTrip := by
  intro s a k b r hs hwf hr hk hrwcb hplain bits
  obtain ⟨t, hwrite, hfaulted, hcfg, hresults, htakes⟩ := exec_regWriteB_plain hs hr hk hrwcb
    (fun d hd => by obtain ⟨-, -, hw, hc, -⟩ := hplain d hd; exact ⟨hw, hc⟩) b
  obtain ⟨u, v, hread, hreserved, ⟨hshows, -⟩, hu⟩ := exec_regReadB_plain (s := t) (hfaulted.trans hs)
    (hcfg ▸ hwf) (hcfg ▸ hr) hk fun d hd _ => by
      obtain ⟨-, hprov, -⟩ := hplain d hd
      exact .inr hprov
  have hv : v = (b &&& bits) ||| reservedByte r k := by
    refine eq_fields_or_reserved hk hreserved fun d hd j hj hlow hhigh => ?_
    obtain ⟨hacc, -, -, -, haccept⟩ := hplain d hd
    obtain ⟨f, hf⟩ := List.mem_iff_getElem?.1 hd
    rw [hshows f d hf nofun j hj hlow hhigh, if_neg (by rw [hacc]; nofun), htakes f d hf]
    exact afterByte_bit hacc haccept (bit_lt_of_byte hk hj) hj hlow hhigh
  refine ⟨u, (execAll_cons hwrite).trans (execAll_cons hread), ?_⟩
  rw [hu, settleIrq_results, hresults, hv]
  cases hrsvd : r.rsvdRead with
  | zero => simp only [reservedByte, hrsvd]
  | resetDefault => rw [reservedByte_of_resetDefault hrsvd]

end Sys2Proof.Machine
